-- ==== Sys2Proof/Word.lean ====
section
/-! DEFINITION. The words the part's fields are made of. -/

namespace Sys2Proof

/-- A byte of a frame, of frame memory or of a table set image; a grey pixel (0 black, 255 white). -/
abbrev Byte := BitVec 8

/-- A two-byte field (a tag, a batch number, an announced length). -/
abbrev Half := BitVec 16

/-- A four-byte field: a check word, a table set word, a counter, an announce sequence. -/
abbrev Word := BitVec 32

/-- A track position: an unsigned 32-bit count of track lines that wraps (R25). -/
abbrev Position := BitVec 32

/-- A slot number of the item table, 0 to 31 (section 1.1 of chapter Items in Flight). -/
abbrev Slot := Nat

/-- One of the four table set slots, 0 to 3 (section 4.1). -/
abbrev SetNo := Fin 4

end Sys2Proof
end

