-- ==== Sys2Proof/Config.lean ====
section
/-! DEFINITION. What the part fixes (sizes and limits the spec gives) and the one free value of the model. -/

namespace Sys2Proof.Config

/-- FREE VALUE: the byte that frame memory holds at an address nothing has written since the given
power-on reset (R161, R176: 'Frame memory contents are undefined'; R86: 'The contents of the slots are
undefined'). The first argument counts the power-on resets. No body: nothing can be proved of its value
(assumption 1). -/
opaque undefinedByte : Nat → Nat → Byte

/-- Slots of the item table (section 1.1). -/
def itemSlots : Nat := 32
/-- Capacity of a camera's pending list (R30). -/
def pendingCapacity : Nat := 8
/-- Capacity of a camera's line FIFO (R29). -/
def fifoCapacity : Nat := 16
/-- Lines in a full strip (section 4.4 of the scope file). -/
def stripLines : Nat := 32
/-- The most missing lines that are filled (R35). -/
def fillLimit : Nat := 8
/-- Capacity of the advice queue (section 7.7). -/
def adviceCapacity : Nat := 64
/-- Capacity of the request queue (R186). -/
def requestCapacity : Nat := 4
/-- Response places of the report queue (R187). -/
def responsePlaces : Nat := 16
/-- Event places of the report queue (R187). -/
def eventPlaces : Nat := 32
/-- The greatest value of the credit counter (R144). -/
def creditLimit : Nat := 255
/-- Bytes of an output block (section 4.4 of the scope file). -/
def blockBytes : Nat := 4096
/-- Bytes of a strip slot (section 4.4 of the scope file). -/
def stripSlotBytes : Nat := 32768
/-- Bytes of a table set slot (section 4.1). -/
def setSlotBytes : Nat := 65536
/-- Bytes of the payload of every SEGMENT but the last (R149). -/
def segmentBytes : Nat := 512
/-- The most output bytes an engine writes in one burst (R172). -/
def outputBurstBytes : Nat := 512
/-- Words of a version-1 table set image (R203). -/
def imageWords : Nat := 1228
/-- Bytes of one mebibyte. -/
def mebibyte : Nat := 1048576
/-- Bytes of one kibibyte. -/
def kibibyte : Nat := 1024
/-- The most bytes a frame holds between START and END (R197). -/
def frameBytes : Nat := 1040

end Sys2Proof.Config
end

