-- ==== Sys2Proof/Syntax.lean ====
section
/-! DEFINITION. The commands of the part: one constructor of Instr for each row of the table of operations and
events, with the operands its frame, request or event carries (raw field values, so that every value a frame can
carry has its command). -/

namespace Sys2Proof

/-- The two cameras, and the two sides of an item they scan (R26). -/
inductive Camera where
  | front
  | rear
  deriving DecidableEq, Repr

/-- The two links (section 3 of the scope file). -/
inductive Link where
  | track
  | exchange
  deriving DecidableEq, Repr

/-- The three render engines (section 5.4). -/
inductive EngineId where
  | re0
  | re1
  | re2
  deriving DecidableEq, Repr

/-- The clients of frame memory (R172). -/
inductive MemoryClient where
  | lineWriter (camera : Camera)
  | emitter
  | engine (e : EngineId)
  | loader
  | management
  deriving DecidableEq, Repr

/-- What a lane receiver makes of one 10-bit code word (R195): a data byte, one of the six control characters, or
a code error. -/
inductive LaneChar where
  | data (b : Byte)
  | idle
  | start
  | endOfFrame
  | abort
  | sync
  | ready
  | codeError
  deriving DecidableEq, Repr

/-- The code line block of a CODE frame as the frame carries it: read status and the symbol bytes of the five
fields (R202). -/
structure CodeBlock where
  status : Byte
  routing : List Byte
  account : List Byte
  serial : List Byte
  tcode : List Byte
  amount : List Byte
  deriving DecidableEq, Repr

/-- The ten run settings in the order of R183. -/
structure RunSettings where
  lineWidth : Half
  frontOffset : Half
  rearOffset : Half
  windowTolerance : Half
  maxSideLength : Half
  classifyMargin : Half
  adviceMargin : Half
  rerenderReserve : Half
  darkLevel : Byte
  streakSpread : Byte
  deriving DecidableEq, Repr

/-- One region of a REGIONS request: base, size in bytes, flags byte (R202). -/
structure RegionField where
  base : Word
  size : Word
  flags : Byte
  deriving DecidableEq, Repr

/-- The fields of a REGIONS request (R202): TABLES carries no size. -/
structure RegionFields where
  tablesBase : Word
  tablesFlags : Byte
  strips : RegionField
  output : RegionField
  spare : RegionField
  deriving DecidableEq, Repr

/-- The requests that go through the request queue (R185, R186), with their fields (R202). -/
inductive Request where
  | run
  | park
  | settings (v : RunSettings)
  | regions (v : RegionFields)
  | loadOpen (set : Byte) (declared : Half)
  | loadData (offset : Half) (words : List Word)
  | loadClose (check : Word)
  | loadAbandon
  | activate (set : Byte)
  | erase (set : Byte)
  | release (tag : Half) (form : Byte)
  | withdraw (tag : Half)
  | rerender (tag : Half) (profile : Byte)
  | peek (address : Word) (length : Half)
  | poke (address : Word) (length : Half) (bytes : List Byte)
  | resetEngine
  deriving DecidableEq, Repr

/-- The commands of the part, one constructor for each row of the table of operations and events. Frames and
requests carry their fields; a request carries its correlation number first. -/
inductive Instr where
  /-- RESET_N goes low and is released with the memory-size pins at the given levels, MSZ0 in bit 0 (R201). -/
  | powerOnReset (msz : BitVec 4)
  /-- The lane receiver of a link has received these characters while UNLOCKED, latest last (R195). -/
  | receiverLock (link : Link) (received : List LaneChar)
  /-- The lane receiver of a link has received these characters while LOCKED, or has lost its signal (R195). -/
  | receiverUnlock (link : Link) (received : List LaneChar) (signalLost : Bool)
  /-- The receiver has received these characters, and the transmitter has sent so many READY characters, since the
  receiver last became LOCKED (R196). -/
  | linkUp (link : Link) (received : List LaneChar) (readysSent : Nat)
  /-- A SYNC character is received on the track link while it is UP (R196, R180). -/
  | trackLinkDown
  /-- A SYNC character is received on the exchange link while it is UP (R196, R156). -/
  | exchangeLinkDown
  /-- The characters that followed a START character, up to and including the one that ended the frame (R197). -/
  | badFrame (link : Link) (received : List LaneChar)
  /-- A good frame of the given kind and payload (R200). -/
  | frameKindRefused (link : Link) (kind : Byte) (payload : List Byte)
  | line (camera : Byte) (docFlag : Byte) (position : Position) (pixels : List Byte)
  | windowPassed
  | classifyDeadline
  | adviceDeadline
  | lineWrite (camera : Camera)
  | announce (tag : Half) (lead : Position) (length : Half)
  | code (tag : Half) (block : CodeBlock)
  | batch (number : Half)
  | halt
  | resume
  | adviceSent
  | stripRead (engine : EngineId)
  | credit (grant : Byte)
  | frameEnd
  | trailerEnd
  | cancelNoticeEnd
  | summaryEnd
  /-- The memory falls free with these clients waiting; the arbiter grants a burst, and it ends (R173). -/
  | burstEnd (waiting : List MemoryClient)
  | status (corr : Byte)
  | item (corr : Byte) (tag : Half)
  /-- A REQUEST of the given kind code and field bytes, the kind being none of the requests or the bytes not fitting
  it (R185). -/
  | requestUnknownKind (corr : Byte) (kind : Byte) (fields : List Byte)
  | run (corr : Byte)
  | park (corr : Byte)
  | settings (corr : Byte) (v : RunSettings)
  | regions (corr : Byte) (v : RegionFields)
  | loadOpen (corr : Byte) (set : Byte) (declared : Half)
  | loadData (corr : Byte) (offset : Half) (words : List Word)
  | loadClose (corr : Byte) (check : Word)
  | validationEnd
  | loadAbandon (corr : Byte)
  | activate (corr : Byte) (set : Byte)
  | erase (corr : Byte) (set : Byte)
  /-- RELEASE with a form byte other than 1: 0 names one item, any other value is no code of the form (R202). -/
  | release (corr : Byte) (tag : Half) (form : Byte)
  | releaseThrough (corr : Byte) (tag : Half)
  | withdraw (corr : Byte) (tag : Half)
  | rerender (corr : Byte) (tag : Half) (profile : Byte)
  | peek (corr : Byte) (address : Word) (length : Half)
  | poke (corr : Byte) (address : Word) (length : Half) (bytes : List Byte)
  | resetEngine (corr : Byte)
  deriving DecidableEq, Repr

end Sys2Proof
end

