-- ==== Sys2Proof/Machine/State.lean ====
section
/-! DEFINITION. The state of the part, block by block, as plain data; the fault and refusal reasons; the state after
power-on reset. -/

namespace Sys2Proof.Machine

/-! ### Items in flight (chapter 1) -/

/-- Item states (section 1.3). A FREE slot holds no entry. -/
inductive ItemState where
  | announced
  | capturing
  | processing
  | retained
  | cancelling
  deriving DecidableEq, Repr

/-- Capture states of a side (section 1.2). -/
inductive CaptureState where
  | pending
  | active
  | complete
  | aborted
  deriving DecidableEq, Repr

inductive Classification where
  | unclassified
  | byCode
  | byDefault
  deriving DecidableEq, Repr

/-- Read status of a code line (section 3.1): READ, PARTIAL, NONE. -/
inductive ReadStatus where
  | read
  | partlyRead
  | notFound
  deriving DecidableEq, Repr

/-- A symbol of a code line (section 3.1). -/
inductive Symbol where
  | digit (d : Fin 10)
  | unreadable
  deriving DecidableEq, Repr

/-- The code line record (section 3.1). ROUTING is absent or nine symbols. -/
structure CodeLine where
  status : ReadStatus
  routing : Option (List Symbol)
  account : List Symbol
  serial : List Symbol
  tcode : List Symbol
  amount : List Symbol
  deriving DecidableEq, Repr

/-- Cancel causes (section 1.5). -/
inductive CancelCause where
  | refeed
  | late
  | notSeen
  | jam
  | lineLoss
  | noStrip
  | tagReuse
  | withdrawn
  deriving DecidableEq, Repr

inductive Verdict where
  | accept
  | flagged
  | refeed
  deriving DecidableEq, Repr

/-- Causes an ADVICE carries (section 7.4). -/
inductive AdviceCause where
  | none
  | quality
  | late
  | notSeen
  | jam
  | lineLoss
  | noStrip
  | tagReuse
  | withdrawn
  | notRunning
  | noSlot
  | crowded
  deriving DecidableEq, Repr

/-- The quality flags (R127, R128), in the order of R202. -/
inductive QualityFlag where
  | short
  | long
  | truncated
  | mismatch
  | dark
  | light
  | dense
  | streak
  | gap
  | noCode
  | badCode
  | oversize
  | memcheck
  deriving DecidableEq, Repr

/-- The set of quality flags an item holds, one Bool for each flag. -/
structure QualityFlags where
  short : Bool
  long : Bool
  truncated : Bool
  mismatch : Bool
  dark : Bool
  light : Bool
  dense : Bool
  streak : Bool
  gap : Bool
  noCode : Bool
  badCode : Bool
  oversize : Bool
  memcheck : Bool
  deriving DecidableEq, Repr

/-- The key of an item's renditions: a position or NONE (section 4.3 of the scope file). -/
inductive Key where
  | pos (p : Position)
  | none
  deriving DecidableEq, Repr

/-- One strip of a side's chain: its strip number and its line count 1 to 32 (0 as it is taken, R39). -/
structure ChainStrip where
  strip : Nat
  lines : Nat
  deriving DecidableEq, Repr

/-- Measures of a side (R125). -/
structure Measures where
  mean : Nat
  dense : Nat
  streak : Nat
  deriving DecidableEq, Repr

/-- Accumulators of a side while it is captured (section 7.1). -/
structure Accumulators where
  pixelCount : Nat
  pixelSum : Nat
  darkCount : Nat
  columnMin : List Byte
  columnMax : List Byte
  deriving DecidableEq, Repr

/-- The side record (section 1.2). -/
structure Side where
  capture : CaptureState
  expectedLead : Position
  leading : Option Position
  trailing : Option Position
  lines : Nat
  chain : List ChainStrip
  sealedCount : Nat
  gap : Bool
  truncated : Bool
  measures : Measures
  accumulators : Option Accumulators
  deriving DecidableEq, Repr

/-! ### Renditions (chapter 5) -/

inductive Depth where
  | bitonal
  | gray4
  | gray8
  deriving DecidableEq, Repr

inductive Coding where
  | packed
  | runA
  | runB
  deriving DecidableEq, Repr

inductive Threshold where
  | fixed (level : Nat)
  | running (offset : Nat)
  deriving DecidableEq, Repr

/-- A rendition descriptor (section 4.2). -/
structure Descriptor where
  side : Camera
  scale : Nat
  tone : Nat
  depth : Depth
  threshold : Threshold
  coding : Coding
  lead : Nat
  tail : Nat
  top : Nat
  bottom : Nat
  sizeLimit : Nat
  deriving DecidableEq, Repr

inductive RenditionState where
  | queued
  | paused
  | running
  | blocked
  | rendered
  | emitting
  | emitted
  | dropped
  deriving DecidableEq, Repr

inductive DropCause where
  | cancelled
  | oversize
  | memcheck
  deriving DecidableEq, Repr

/-- The context of a PAUSED rendition, and the progress an engine holds (R98). -/
structure Context where
  nextStrip : Nat
  sums : List Nat
  linesDone : Nat
  bytesWritten : Nat
  coder : List Bool
  runningCheck : Word
  deriving DecidableEq, Repr

/-- The rendition record (section 5.1, R61); `check` is the rendition check, present from RENDERED (R97, R122). -/
structure Rendition where
  index : Nat
  state : RenditionState
  descriptor : Descriptor
  dropCause : Option DropCause
  chain : List Nat
  length : Option Nat
  check : Option Word
  width : Nat
  height : Option Nat
  context : Option Context
  stopping : Bool
  eligible : Bool
  restart : Bool
  deriving DecidableEq, Repr

/-- The item entry (section 1.2), with the evaluated mark of section 7.2 and the cancel that waits for the end of
the item's SUMMARY (R155). -/
structure Item where
  slot : Slot
  state : ItemState
  announcedTag : Half
  tag : Option Half
  sequence : Word
  batch : Half
  lead : Position
  announcedLength : Half
  set : SetNo
  generation : Nat
  rerenderOrder : Option Word
  profile : Option Nat
  classification : Classification
  codeLine : Option CodeLine
  lateCode : Bool
  front : Side
  rear : Side
  classifyDeadline : Option Position
  adviceDeadline : Option Position
  key : Key
  flags : QualityFlags
  advice : Option (Verdict × AdviceCause)
  renditions : Option (List Rendition)
  emittedAny : Bool
  cancelCause : Option CancelCause
  evaluated : Bool
  deferredCancel : Option CancelCause
  deriving DecidableEq, Repr

/-- The Item Table: the non-FREE entries in announce order, and its two sequence counters (R1, R21). -/
structure ItemTable where
  items : List Item
  announceSeq : Word
  rerenderSeq : Word
  deriving DecidableEq, Repr

/-! ### Capture (chapter 2) and the line writer (section 9.7) -/

inductive ChannelState where
  | idle
  | capture
  | skip
  deriving DecidableEq, Repr

/-- A line FIFO entry (R29). -/
structure FifoEntry where
  slot : Slot
  camera : Camera
  firstIndex : Nat
  fills : Nat
  pixels : Option (List Byte)
  deriving DecidableEq, Repr

/-- One camera: its channel (section 2.2), its port position (R26), and the line writer's copy and check (section
9.7). `lastTaken` holds the pixels of the last line taken into the side, which filled lines copy (R37). -/
structure Channel where
  state : ChannelState
  bound : Option Slot
  previousFlag : Bool
  lastPosition : Option Position
  pendingList : List Slot
  fifo : List FifoEntry
  portPosition : Option Position
  lastTaken : List Byte
  lastLine : Option (List Byte)
  runningCheck : Option Word
  deriving DecidableEq, Repr

/-- The Capture Unit's two camera channels. -/
structure Capture where
  front : Channel
  rear : Channel
  deriving DecidableEq, Repr

/-! ### Table sets (chapter 4) -/

inductive SetState where
  | empty
  | loading
  | invalid
  | ready
  | active
  | retiring
  deriving DecidableEq, Repr

/-- A directory entry (section 4.1). -/
structure DirEntry where
  state : SetState
  imageLength : Nat
  imageCheck : Option Word
  loadCount : Half
  boundCount : Nat
  deriving DecidableEq, Repr

/-- The open load record (section 4.1). -/
structure OpenLoad where
  set : SetNo
  declared : Nat
  nextOffset : Nat
  runningCheck : Word
  deriving DecidableEq, Repr

/-- The Table Set Store (section 4.1). -/
structure TableStore where
  set0 : DirEntry
  set1 : DirEntry
  set2 : DirEntry
  set3 : DirEntry
  load : Option OpenLoad
  active : Option SetNo
  pendingActivation : Option SetNo
  batch : Half
  deriving DecidableEq, Repr

/-! ### Render queue and engines (chapter 5) -/

/-- A rendition named by its item's slot and its index. -/
structure RendRef where
  slot : Slot
  index : Nat
  deriving DecidableEq, Repr

inductive EngineState where
  | idle
  | running
  | blocked
  deriving DecidableEq, Repr

/-- How far an output line has been coded (R118, R120, R123): the values coded, the running level of a RUNNING threshold,
and for run coding the run in hand, its colour and length. -/
structure LineCoding where
  pixels : Nat
  level : Option Nat
  run : Bool × Nat
  deriving DecidableEq, Repr

/-- A place in the middle of a strip (R94, R123): the index of the side line after the one in hand, the scaled line in
hand, the coding of the output line that it completed (the values of that line are in the partial sums), and the lines of
the strip read and not yet taken (assumption 9). -/
structure StripPlace where
  next : Nat
  scaled : List Nat
  coding : Option LineCoding
  lines : List (List Byte)
  deriving DecidableEq, Repr

/-- Output an engine has in hand: the bytes completed and not yet written (R101), and the place in the strip at which it
goes on; no place when the bytes are the last of the rendition (R97). -/
structure HeldOutput where
  bytes : List Byte
  place : Option StripPlace
  deriving DecidableEq, Repr

/-- The working state of an engine (R98, R123): the context fields, as they stand at its place, and in the middle of a
strip or a finish the output in hand. -/
structure EngineWork where
  context : Context
  output : Option HeldOutput
  deriving DecidableEq, Repr

structure Engine where
  state : EngineState
  rendition : Option RendRef
  yieldRequest : Bool
  work : Option EngineWork
  deriving DecidableEq, Repr

/-- The render queue, most urgent first (R88), and the three engines. -/
structure Render where
  queue : List RendRef
  re0 : Engine
  re1 : Engine
  re2 : Engine
  deriving DecidableEq, Repr

/-! ### Advice (chapter 7) -/

structure Advice where
  tag : Half
  verdict : Verdict
  cause : AdviceCause
  deriving DecidableEq, Repr

/-- The Track Port's advice queue (R138); `leftover` is an ADVICE begun before an engine reset and still being sent
(R141). -/
structure AdviceOut where
  queue : List Advice
  leftover : Option Advice
  deriving DecidableEq, Repr

/-! ### Frames on the exchange link (chapters 8, 10, 11) -/

structure Header where
  tag : Half
  batch : Half
  generation : Nat
  index : Nat
  restart : Bool
  side : Camera
  depth : Depth
  coding : Coding
  width : Nat
  height : Nat
  length : Nat
  profile : Nat
  set : SetNo
  loadCount : Half
  deriving DecidableEq, Repr

structure Segment where
  tag : Half
  generation : Nat
  index : Nat
  number : Nat
  payload : List Byte
  deriving DecidableEq, Repr

structure Trailer where
  tag : Half
  generation : Nat
  index : Nat
  segments : Nat
  check : Word
  deriving DecidableEq, Repr

structure CancelNotice where
  tag : Half
  batch : Half
  generation : Nat
  deriving DecidableEq, Repr

/-- The measures a SUMMARY carries for one side (R154). -/
structure SideReport where
  lines : Nat
  measures : Measures
  gap : Bool
  truncated : Bool
  deriving DecidableEq, Repr

/-- One outcome of a SUMMARY (R154): the length of an EMITTED rendition, or the drop cause. -/
structure OutcomeEntry where
  index : Nat
  dropped : Option DropCause
  length : Option Nat
  deriving DecidableEq, Repr

structure Summary where
  tag : Half
  batch : Half
  generation : Nat
  set : SetNo
  loadCount : Half
  profile : Option Nat
  classification : Classification
  codeLine : Option CodeLine
  lateCode : Bool
  front : SideReport
  rear : SideReport
  flags : QualityFlags
  advice : Option (Verdict × AdviceCause)
  outcomes : List OutcomeEntry
  deriving DecidableEq, Repr

/-- Response codes (R188), in the order of their codes. -/
inductive ResponseCode where
  | done
  | busy
  | wrongMode
  | wrongState
  | badValue
  | noItem
  | fenced
  | full
  | loadFault
  deriving DecidableEq, Repr

/-- A RESPONSE (section 11.7): kind is the request's kind code; the detail and location are 0 where it has none. -/
structure Response where
  corr : Byte
  kind : Byte
  code : ResponseCode
  detail : Byte
  location : Byte × Byte × Byte
  result : List Byte
  deriving DecidableEq, Repr

inductive Mode where
  | parked
  | running
  | halted
  deriving DecidableEq, Repr

/-- Causes of a mode change (R177). -/
inductive ModeCause where
  | run
  | park
  | halt
  | resume
  | trackLink
  | reset
  deriving DecidableEq, Repr

/-- The kinds of EVENT with their fields (R190). -/
inductive EventBody where
  | orphan (camera : Camera) (edge : Position)
  | notSeen (camera : Camera) (tag : Half) (lead : Position)
  | evicted (tag : Half) (generation : Nat) (sequence : Word)
  | unknownTag (tag : Half) (status : ReadStatus)
  | dupCode (tag : Half)
  | creditOverflow (grant : Nat) (before : Nat)
  | setActivated (set : SetNo) (loadCount : Half) (previous : Option SetNo) (batch : Half)
  | setRetired (set : SetNo) (loadCount : Half)
  | modeChange (previous : Mode) (new : Mode) (cause : ModeCause)
  deriving DecidableEq, Repr

structure EventFrame where
  sequence : Half
  body : EventBody
  deriving DecidableEq, Repr

/-- A frame of the report queue (R187). -/
inductive Report where
  | response (r : Response)
  | event (e : EventFrame)
  deriving DecidableEq, Repr

/-- A frame the Emitter sends, with its fields (R146). -/
inductive ExchangeFrame where
  | header (h : Header)
  | segment (g : Segment)
  | trailer (t : Trailer)
  | cancel (c : CancelNotice)
  | summary (y : Summary)
  | report (r : Report)
  deriving DecidableEq, Repr

/-! ### Emitter (chapter 8) -/

/-- An emission queue entry (R142). -/
inductive EmissionEntry where
  | rendition (r : RendRef)
  | notice (slot : Slot)
  deriving DecidableEq, Repr

/-- The emitter state with what it has in hand (section 8.1). -/
inductive EmitterWork where
  | idle
  | rendition (r : RendRef) (nextSegment : Nat) (trailerDue : Bool)
  | notice (slot : Slot)
  | summary (slot : Slot)
  deriving DecidableEq, Repr

/-- The Emitter (section 8.1). `discarded` marks a frame in progress begun before an engine reset, with which the
work in hand ends (R160). -/
structure Emitter where
  work : EmitterWork
  frame : Option ExchangeFrame
  credits : Nat
  queue : List EmissionEntry
  summaryList : List Slot
  discarded : Bool
  deriving DecidableEq, Repr

/-! ### Frame memory (chapter 9) -/

/-- The four regions (section 9.2). -/
inductive RegionId where
  | tables
  | strips
  | output
  | spare
  deriving DecidableEq, Repr

structure Region where
  base : Nat
  size : Nat
  peekAllowed : Bool
  pokeAllowed : Bool
  deriving DecidableEq, Repr

structure RegionMap where
  tables : Region
  strips : Region
  output : Region
  spare : Region
  deriving DecidableEq, Repr

/-- The Frame Memory Controller's own state (section 9.12); `checks` is the strip check table, sorted by strip slot,
a cleared word not listed. -/
structure FrameMemory where
  installedMiB : Nat
  map : RegionMap
  freeStrips : List Nat
  freeBlocks : List Nat
  checks : List (Nat × Word)
  deriving DecidableEq, Repr

/-- Frame memory contents: address and byte, addresses strictly rising; an address not listed holds no written byte
(assumption 26). -/
abbrev Memory := List Host.Cell

/-! ### Management (chapter 10) -/

/-- A queued request with its correlation number (R185). -/
structure QueuedRequest where
  corr : Byte
  request : Request
  deriving DecidableEq, Repr

/-- What the request at the head of the queue waits for (R186): nothing, the Loader's write of LOAD DATA, validation,
its PEEK or POKE burst, or the end of the engine reset. -/
inductive HeadWait where
  | nothing
  | loaderWrite
  | validation
  | managementBurst
  | engineReset
  deriving DecidableEq, Repr

/-- The counters of R191, in the order of its table. -/
structure Counters where
  badTrack : Word
  badExchange : Word
  badSequence : Word
  droppedFront : Word
  droppedRear : Word
  orphans : Word
  notSeen : Word
  evictions : Word
  announced : Word
  adviceAccept : Word
  adviceFlagged : Word
  adviceRefeed : Word
  adviceLost : Word
  eventsLost : Word
  deriving DecidableEq, Repr

/-- The Management Unit (R194). -/
structure Management where
  mode : Mode
  settings : RunSettings
  requests : List QueuedRequest
  headWait : HeadWait
  reports : List Report
  reserved : Nat
  eventSeq : Half
  counters : Counters
  deriving DecidableEq, Repr

/-! ### Links (chapter 11) -/

/-- Lock state of a link's receiver and the link state (R195, R196). -/
structure LinkState where
  locked : Bool
  up : Bool
  deriving DecidableEq, Repr

structure Links where
  track : LinkState
  exchange : LinkState
  deriving DecidableEq, Repr

/-! ### The whole part -/

/-- The state of the part. `powerOns` counts power-on resets and feeds the free value of unwritten memory
(assumption 1); `pending` is the queue of commands waiting, first in, first out. -/
structure State where
  pins : BitVec 4
  links : Links
  table : ItemTable
  capture : Capture
  sets : TableStore
  render : Render
  adviceOut : AdviceOut
  emitter : Emitter
  frameMemory : FrameMemory
  mem : Memory
  mgmt : Management
  powerOns : Nat
  pending : List Instr
  deriving DecidableEq, Repr

/-- The manual gives the part no fault that stops it (INVENTORY, Faults), so there is no reason to stop with one. -/
inductive Fault : Type
  deriving DecidableEq, Repr

/-- Reasons for a refusal. -/
inductive Refusal where
  /-- Raised by the dispatcher alone, for a command that has no meaning yet; safe. No arm raises it. -/
  | notModelled (mnemonic : String)
  deriving DecidableEq, Repr

/-! ### Power-on values -/

namespace State

/-- The run settings after power-on reset (R183). -/
def resetSettings : RunSettings :=
  { lineWidth := 864, frontOffset := 480, rearOffset := 720, windowTolerance := 24, maxSideLength := 2304,
    classifyMargin := 600, adviceMargin := 1200, rerenderReserve := 256, darkLevel := 64, streakSpread := 6 }

/-- The default region map (R163). -/
def defaultMap : RegionMap :=
  { tables := { base := 0, size := 262144, peekAllowed := true, pokeAllowed := false }
    strips := { base := 33554432, size := 33554432, peekAllowed := true, pokeAllowed := false }
    output := { base := 16777216, size := 16777216, peekAllowed := true, pokeAllowed := false }
    spare := { base := 1048576, size := 1048576, peekAllowed := true, pokeAllowed := true } }

/-- The installed size the memory-size pins name, MSZ0 in bit 0: exactly one pin high names it, any other pattern is
taken as 64 MiB (R161, R201). -/
def installedMiBOf (msz : BitVec 4) : Nat :=
  if msz = 2#4 then 128 else if msz = 4#4 then 256 else if msz = 8#4 then 512 else 64

/-- A camera channel after power-on reset (R47, R176). -/
def resetChannel : Channel :=
  { state := .idle, bound := none, previousFlag := true, lastPosition := none, pendingList := [], fifo := [],
    portPosition := none, lastTaken := [], lastLine := none, runningCheck := none }

/-- A directory entry after power-on reset (R86). -/
def resetDirEntry : DirEntry :=
  { state := .empty, imageLength := 0, imageCheck := none, loadCount := 0, boundCount := 0 }

/-- An idle engine (R109). -/
def idleEngine : Engine := { state := .idle, rendition := none, yieldRequest := false, work := none }

def zeroCounters : Counters :=
  { badTrack := 0, badExchange := 0, badSequence := 0, droppedFront := 0, droppedRear := 0, orphans := 0,
    notSeen := 0, evictions := 0, announced := 0, adviceAccept := 0, adviceFlagged := 0, adviceRefeed := 0,
    adviceLost := 0, eventsLost := 0 }

/-- The state after a power-on reset with the pins at `msz`, the `epoch`-th since the count began: R24, R47, R86,
R109, R141, R160, R176, R194, R196. -/
def powerOn (msz : BitVec 4) (epoch : Nat) : State :=
  { pins := msz
    links := { track := { locked := false, up := false }, exchange := { locked := false, up := false } }
    table := { items := [], announceSeq := 0, rerenderSeq := 0 }
    capture := { front := resetChannel, rear := resetChannel }
    sets := { set0 := resetDirEntry, set1 := resetDirEntry, set2 := resetDirEntry, set3 := resetDirEntry,
              load := none, active := none, pendingActivation := none, batch := 0 }
    render := { queue := [], re0 := idleEngine, re1 := idleEngine, re2 := idleEngine }
    adviceOut := { queue := [], leftover := none }
    emitter := { work := .idle, frame := none, credits := 0, queue := [], summaryList := [], discarded := false }
    frameMemory := { installedMiB := installedMiBOf msz, map := defaultMap, freeStrips := List.range 1024,
                     freeBlocks := List.range 4096, checks := [] }
    mem := []
    mgmt := { mode := .parked, settings := resetSettings, requests := [], headWait := .nothing, reports := [],
              reserved := 0, eventSeq := 0, counters := zeroCounters }
    powerOns := epoch
    pending := [] }

/-- The part right after power-on reset; MSZ0 alone is high (assumption 19). -/
def reset : State := powerOn 1#4 0

end State

end Sys2Proof.Machine
end

