-- ==== Sys2Proof/Machine/Ops.lean ====
section
/-! DEFINITION. The shared operations: positions, bytes and the check, frame memory, access to the parts of the
state, events, responses and advice frames. -/

namespace Sys2Proof.Machine

/-! ### Positions and sequences -/

/-- Position `a` is at or past position `b` (R25). -/
def atOrPast (a b : Position) : Bool := decide ((a - b).toNat < 2147483648)

/-- Position `a` is past position `b` (R25). -/
def past (a b : Position) : Bool := atOrPast a b && a != b

/-- Sequence `a` is at or before sequence `b` (R1; re-render orders likewise, R21). -/
def seqAtOrBefore (a b : Word) : Bool := decide ((b - a).toNat < 2147483648)

/-- Sequence `a` is before sequence `b`. -/
def seqBefore (a b : Word) : Bool := seqAtOrBefore a b && a != b

/-- A distance in lines as a position. -/
def lines (n : Nat) : Position := BitVec.ofNat 32 n

/-! ### Bytes, and the check of R199 -/

/-- Byte `n` of a word, byte 0 the most significant (R203). -/
def wordByte (w : Word) (n : Nat) : Byte := (w >>> (8 * (3 - n))).setWidth 8

/-- The four bytes of a word, most significant first (R202). -/
def wordBytes (w : Word) : List Byte := [wordByte w 0, wordByte w 1, wordByte w 2, wordByte w 3]

/-- The two bytes of a half, most significant first (R202). -/
def halfBytes (h : Half) : List Byte := [(h >>> 8).setWidth 8, h.setWidth 8]

/-- The word of four bytes, the first the most significant. -/
def wordOf (a b c d : Byte) : Word := a ++ b ++ c ++ d

/-- The half of two bytes, the first the most significant. -/
def halfOf (a b : Byte) : Half := a ++ b

/-- The generator polynomial without its highest term (R199). -/
def checkPolynomial : Word := 0x04C11DB7#32

/-- The register advanced by one data bit (R199). -/
def checkBit (register : Word) (bit : Bool) : Word :=
  if register.msb != bit then (register <<< 1) ^^^ checkPolynomial else register <<< 1

/-- The bits of a byte, most significant first. -/
def byteBits (b : Byte) : List Bool :=
  [b.getLsbD 7, b.getLsbD 6, b.getLsbD 5, b.getLsbD 4, b.getLsbD 3, b.getLsbD 2, b.getLsbD 1, b.getLsbD 0]

/-- The register advanced over one byte, its bits most significant first (R199). -/
def checkByte (register : Word) (b : Byte) : Word := (byteBits b).foldl checkBit register

/-- The register's initial value: all bits 1 (R199). -/
def checkInit : Word := 0xFFFFFFFF#32

/-- A running check advanced over bytes (R199). -/
def checkRun (register : Word) (bytes : List Byte) : Word := bytes.foldl checkByte register

/-- The completion of a running check: every bit inverted (R199). -/
def checkComplete (register : Word) : Word := ~~~register

/-- The check of a sequence of bytes (R199). -/
def checkOf (bytes : List Byte) : Word := checkComplete (checkRun checkInit bytes)

/-! ### Frame memory -/

namespace Memory

/-- The canonical form: addresses strictly rising. An unlisted address holds no written byte, so no entry can equal
what an unlisted address holds (assumption 26). -/
abbrev wf (m : Memory) : Prop := (m.map Prod.fst).Pairwise (· < ·)

/-- The byte written at an address, if any. -/
def read? : Memory → Nat → Option Byte
  | [], _ => none
  | (a, b) :: rest, x => if a = x then some b else if x < a then none else read? rest x

/-- One byte written. -/
def write : Memory → Nat → Byte → Memory
  | [], x, v => [(x, v)]
  | (a, b) :: rest, x, v =>
    if x < a then (x, v) :: (a, b) :: rest
    else if x = a then (x, v) :: rest
    else (a, b) :: write rest x v

/-- Bytes written at consecutive addresses. -/
def writeBytes : Memory → Nat → List Byte → Memory
  | m, _, [] => m
  | m, x, v :: vs => writeBytes (write m x v) (x + 1) vs

end Memory

/-- The byte frame memory holds at an address: the one last written, or the free value of an address nothing has
written since power-on (R161; assumption 1). -/
def State.byteAt (s : State) (address : Nat) : Byte :=
  (Memory.read? s.mem address).getD (Config.undefinedByte s.powerOns address)

/-- Consecutive bytes of frame memory. -/
def State.bytesAt (s : State) (address count : Nat) : List Byte :=
  (List.range count).map fun i => s.byteAt (address + i)

/-- Bytes written to frame memory. -/
def State.writeBytes (s : State) (address : Nat) (bytes : List Byte) : State :=
  { s with mem := Memory.writeBytes s.mem address bytes }

/-! ### Parts of the state -/

def Capture.channel (c : Capture) : Camera → Channel
  | .front => c.front
  | .rear => c.rear

def Capture.setChannel (c : Capture) (cam : Camera) (x : Channel) : Capture :=
  match cam with
  | .front => { c with front := x }
  | .rear => { c with rear := x }

def State.channel (s : State) (cam : Camera) : Channel := s.capture.channel cam

def State.modifyChannel (s : State) (cam : Camera) (f : Channel → Channel) : State :=
  { s with capture := s.capture.setChannel cam (f (s.capture.channel cam)) }

def Item.side (it : Item) : Camera → Side
  | .front => it.front
  | .rear => it.rear

def Item.setSide (it : Item) (cam : Camera) (x : Side) : Item :=
  match cam with
  | .front => { it with front := x }
  | .rear => { it with rear := x }

/-- The other camera. -/
def otherCamera : Camera → Camera
  | .front => .rear
  | .rear => .front

/-- The entry in a slot, if the slot is not FREE. -/
def State.item? (s : State) (slot : Slot) : Option Item := s.table.items.find? fun it => it.slot == slot

/-- The entry a tag reaches (R2). -/
def State.itemByTag? (s : State) (tag : Half) : Option Item := s.table.items.find? fun it => it.tag == some tag

/-- The entry in a slot changed. -/
def State.modifyItem (s : State) (slot : Slot) (f : Item → Item) : State :=
  { s with table := { s.table with items := s.table.items.map fun it => if it.slot = slot then f it else it } }

def Item.modifySide (it : Item) (cam : Camera) (f : Side → Side) : Item := it.setSide cam (f (it.side cam))

def State.modifySide (s : State) (slot : Slot) (cam : Camera) (f : Side → Side) : State :=
  s.modifyItem slot fun it => it.modifySide cam f

def Item.rendition? (it : Item) (index : Nat) : Option Rendition :=
  (it.renditions.getD []).find? fun r => r.index == index

def Item.modifyRendition (it : Item) (index : Nat) (f : Rendition → Rendition) : Item :=
  { it with renditions := it.renditions.map fun rs => rs.map fun r => if r.index = index then f r else r }

def State.rendition? (s : State) (r : RendRef) : Option Rendition :=
  (s.item? r.slot).bind fun it => it.rendition? r.index

def State.modifyRendition (s : State) (r : RendRef) (f : Rendition → Rendition) : State :=
  s.modifyItem r.slot fun it => it.modifyRendition r.index f

def TableStore.entry (t : TableStore) : SetNo → DirEntry
  | 0 => t.set0
  | 1 => t.set1
  | 2 => t.set2
  | 3 => t.set3

def TableStore.setEntry (t : TableStore) (n : SetNo) (e : DirEntry) : TableStore :=
  match n with
  | 0 => { t with set0 := e }
  | 1 => { t with set1 := e }
  | 2 => { t with set2 := e }
  | 3 => { t with set3 := e }

def State.dir (s : State) (n : SetNo) : DirEntry := s.sets.entry n

def State.modifyDir (s : State) (n : SetNo) (f : DirEntry → DirEntry) : State :=
  { s with sets := s.sets.setEntry n (f (s.sets.entry n)) }

def Render.engine (r : Render) : EngineId → Engine
  | .re0 => r.re0
  | .re1 => r.re1
  | .re2 => r.re2

def Render.setEngine (r : Render) (e : EngineId) (x : Engine) : Render :=
  match e with
  | .re0 => { r with re0 := x }
  | .re1 => { r with re1 := x }
  | .re2 => { r with re2 := x }

def State.engine (s : State) (e : EngineId) : Engine := s.render.engine e

def State.setEngine (s : State) (e : EngineId) (x : Engine) : State :=
  { s with render := s.render.setEngine e x }

/-- The engines, lowest-numbered first. -/
def engineIds : List EngineId := [.re0, .re1, .re2]

def RegionMap.region (m : RegionMap) : RegionId → Region
  | .tables => m.tables
  | .strips => m.strips
  | .output => m.output
  | .spare => m.spare

/-- The regions in the order of their numbers (R202). -/
def regionIds : List RegionId := [.tables, .strips, .output, .spare]

/-- Strips in the STRIPS region (R162). -/
def RegionMap.stripCount (m : RegionMap) : Nat := m.strips.size / Config.stripSlotBytes

/-- Output blocks in the OUTPUT region (R162). -/
def RegionMap.blockCount (m : RegionMap) : Nat := m.output.size / Config.blockBytes

/-- A byte address lies in a region: with every bit below the size cleared it equals the base (R162). The sizes are
powers of two, so clearing those bits is rounding down to a multiple of the size. -/
def Region.contains (r : Region) (address : Nat) : Bool :=
  decide (0 < r.size) && decide (address / r.size * r.size = r.base)

/-- The address of byte `offset` of strip slot `strip` (R166). -/
def State.stripAddress (s : State) (strip offset : Nat) : Nat :=
  s.frameMemory.map.strips.base + strip * Config.stripSlotBytes + offset

/-- The address of byte `offset` of output block `block` (R166). -/
def State.blockAddress (s : State) (block offset : Nat) : Nat :=
  s.frameMemory.map.output.base + block * Config.blockBytes + offset

/-- The address of byte `offset` of table set slot `n` (R65). -/
def State.setAddress (s : State) (n : SetNo) (offset : Nat) : Nat :=
  s.frameMemory.map.tables.base + n.val * Config.setSlotBytes + offset

/-- The reference position: the FRONT port position (R25). -/
def State.reference (s : State) : Option Position := s.capture.front.portPosition

/-- The line width setting W. -/
def State.lineWidth (s : State) : Nat := s.mgmt.settings.lineWidth.toNat

/-- A link state. -/
def Links.link (l : Links) : Link → LinkState
  | .track => l.track
  | .exchange => l.exchange

def Links.setLink (l : Links) (k : Link) (x : LinkState) : Links :=
  match k with
  | .track => { l with track := x }
  | .exchange => { l with exchange := x }

def State.linkUp (s : State) (k : Link) : Bool := (s.links.link k).up

def State.setLink (s : State) (k : Link) (x : LinkState) : State := { s with links := s.links.setLink k x }

/-! ### The strip check table (R171) -/

/-- The check word recorded for a strip slot, kept sorted by slot. -/
def checksSet : List (Nat × Word) → Nat → Word → List (Nat × Word)
  | [], n, w => [(n, w)]
  | (k, v) :: rest, n, w =>
    if n < k then (n, w) :: (k, v) :: rest
    else if n = k then (n, w) :: rest
    else (k, v) :: checksSet rest n w

/-- The check word of a strip slot, absent when the table holds none for it. -/
def checkWord? (checks : List (Nat × Word)) (n : Nat) : Option Word :=
  (checks.find? fun c => c.1 == n).map Prod.snd

/-! ### Counters -/

/-- A counter incremented: it saturates at its largest value (section 4.6 of the scope file, R191). -/
def saturatingInc (c : Word) : Word := if c = 0xFFFFFFFF#32 then c else c + 1

def State.modifyCounters (s : State) (f : Counters → Counters) : State :=
  { s with mgmt := { s.mgmt with counters := f s.mgmt.counters } }

/-- A bad frame of a link counted (R197, R200). -/
def State.countBadFrame (s : State) : Link → State
  | .track => s.modifyCounters fun c => { c with badTrack := saturatingInc c.badTrack }
  | .exchange => s.modifyCounters fun c => { c with badExchange := saturatingInc c.badExchange }

/-! ### The report queue (R187, R190) -/

def Report.isEvent : Report → Bool
  | .event _ => true
  | .response _ => false

def Report.isResponse : Report → Bool
  | .event _ => false
  | .response _ => true

/-- The RESPONSE and EVENT frames that hold places: those waiting and the one being sent (R187; assumption 11). -/
def State.reportsHeld (s : State) : List Report :=
  match s.emitter.frame with
  | some (.report r) => r :: s.mgmt.reports
  | _ => s.mgmt.reports

/-- Event places taken (R187). -/
def State.eventsHeld (s : State) : Nat := (s.reportsHeld.filter Report.isEvent).length

/-- Response places taken: reserved for requests not yet answered, and filled and not yet freed (R187). -/
def State.responsesHeld (s : State) : Nat := s.mgmt.reserved + (s.reportsHeld.filter Report.isResponse).length

/-- A frame put at the tail of the report queue. -/
def State.pushReport (s : State) (r : Report) : State :=
  { s with mgmt := { s.mgmt with reports := s.mgmt.reports ++ [r] } }

/-- An EVENT composed: it takes the current sequence number; it is discarded while the exchange link is DOWN, and
discarded and counted when 32 event places are taken (R187, R190). -/
def State.composeEvent (s : State) (body : EventBody) : State :=
  let s' := { s with mgmt := { s.mgmt with eventSeq := s.mgmt.eventSeq + 1 } }
  if s.linkUp .exchange then
    if s.eventsHeld < Config.eventPlaces then
      s'.pushReport (.event { sequence := s.mgmt.eventSeq, body := body })
    else s'.modifyCounters fun c => { c with eventsLost := saturatingInc c.eventsLost }
  else s'

/-- A RESPONSE composed: it fills a reserved place, and it is discarded while the exchange link is DOWN (R187). -/
def State.respond (s : State) (r : Response) : State :=
  let s' := { s with mgmt := { s.mgmt with reserved := s.mgmt.reserved - 1 } }
  if s.linkUp .exchange then s'.pushReport (.response r) else s'

/-! ### Advice frames (R138, R139) -/

/-- The counter of an ADVICE's verdict (R139). -/
def countVerdict (v : Verdict) (c : Counters) : Counters :=
  match v with
  | .accept => { c with adviceAccept := saturatingInc c.adviceAccept }
  | .flagged => { c with adviceFlagged := saturatingInc c.adviceFlagged }
  | .refeed => { c with adviceRefeed := saturatingInc c.adviceRefeed }

/-- An ADVICE lost and counted (R138). -/
def State.loseAdvice (s : State) : State :=
  s.modifyCounters fun c => { c with adviceLost := saturatingInc c.adviceLost }

/-- An ADVICE composed, counted and handed to the Track Port: queued, or lost (R138, R139). -/
def State.composeAdvice (s : State) (a : Advice) : State :=
  let s' := s.modifyCounters (countVerdict a.verdict)
  if s.linkUp .track ∧ s.adviceOut.queue.length < Config.adviceCapacity then
    { s' with adviceOut := { s'.adviceOut with queue := s'.adviceOut.queue ++ [a] } }
  else s'.loseAdvice

end Sys2Proof.Machine
end

