-- ==== Sys2Proof/Machine/Tables.lean ====
section
/-! DEFINITION. The table set image: where each field lies (R203), and the validation of an image (R70 to R73). -/

namespace Sys2Proof.Machine

/-- A set image as its readers see it: byte offset within the slot to byte (R65, R66). -/
abbrev Image := Nat → Byte

/-- The image in slot `n` as it stands in frame memory. -/
def State.image (s : State) (n : SetNo) : Image := fun offset => s.byteAt (s.setAddress n offset)

namespace Image

/-- Byte `b` of word `k`, as a number. -/
def byte (img : Image) (k b : Nat) : Nat := (img (4 * k + b)).toNat

/-- The two-byte field at byte `b` of word `k`, most significant byte first. -/
def half (img : Image) (k b : Nat) : Nat := img.byte k b * 256 + img.byte k (b + 1)

/-- Word `k`. -/
def word (img : Image) (k : Nat) : Word := wordOf (img (4 * k)) (img (4 * k + 1)) (img (4 * k + 2)) (img (4 * k + 3))

/-! ### Places of the parts (R203) -/

def ruleWord (e : Nat) : Nat := 6 + 8 * e
def profileWord (p : Nat) : Nat := 518 + 24 * p
def descriptorWord (p i : Nat) : Nat := profileWord p + 8 + 4 * i
def scaleWord (e : Nat) : Nat := 902 + 2 * e
def toneWord (e : Nat) : Nat := 918 + 65 * e
/-- RUN_A is table 0, RUN_B table 1. -/
def runWord (t : Nat) : Nat := 1178 + 25 * t
/-- The word of a code: white codes at 1 to 12, black codes at 13 to 24. -/
def codeWord (t : Nat) (black : Bool) (cls : Nat) : Nat := runWord t + (if black then 13 else 1) + cls

def defaultProfile (img : Image) : Nat := img.byte 1 1
def maskA (img : Image) : Word := img.word 4
def maskB (img : Image) : Word := img.word 5

/-! ### Routing rules -/

def ruleEnabled (img : Image) (e : Nat) : Bool := img.byte (ruleWord e) 0 != 0
def ruleSelector (img : Image) (e : Nat) : Nat := img.byte (ruleWord e) 1
def ruleMode (img : Image) (e : Nat) : Nat := img.byte (ruleWord e) 2
def ruleLength (img : Image) (e : Nat) : Nat := img.byte (ruleWord e) 3
def ruleProfile (img : Image) (e : Nat) : Nat := img.byte (ruleWord e + 1) 0
def ruleDigitCount (img : Image) (e : Nat) : Nat := img.byte (ruleWord e + 1) 1
def ruleOwnMask (img : Image) (e : Nat) : Word := img.word (ruleWord e + 2)
/-- Compare digit at position `k`, counted from 1. -/
def ruleDigit (img : Image) (e k : Nat) : Nat := (img (4 * (ruleWord e + 3) + (k - 1))).toNat

/-! ### Profiles -/

def profileDefined (img : Image) (p : Nat) : Bool := img.byte (profileWord p) 0 != 0
def renditionCount (img : Image) (p : Nat) : Nat := img.byte (profileWord p) 1
def meanMin (img : Image) (p : Nat) : Nat := img.byte (profileWord p) 2
def meanMax (img : Image) (p : Nat) : Nat := img.byte (profileWord p) 3
def minLength (img : Image) (p : Nat) : Nat := img.half (profileWord p + 1) 0
def maxLength (img : Image) (p : Nat) : Nat := img.half (profileWord p + 1) 2
def denseMax (img : Image) (p : Nat) : Nat := img.half (profileWord p + 2) 0
def streakMax (img : Image) (p : Nat) : Nat := img.half (profileWord p + 2) 2
def mismatchMax (img : Image) (p : Nat) : Nat := img.half (profileWord p + 3) 0
/-- The policy action code of the `f`-th of the twelve policy flags: two bits from bit 2`f`. -/
def policyCode (img : Image) (p f : Nat) : Nat := ((img.word (profileWord p + 4)) >>> (2 * f)).toNat % 4

/-! ### Descriptors -/

/-- Byte `b` of word `w` of descriptor `i`. -/
def descriptorByte (img : Image) (p i w b : Nat) : Nat := img.byte (descriptorWord p i + w) b
def descriptorHalf (img : Image) (p i w b : Nat) : Nat := img.half (descriptorWord p i + w) b

def depthOf (code : Nat) : Depth := if code = 0 then .bitonal else if code = 1 then .gray4 else .gray8
def codingOf (code : Nat) : Coding := if code = 0 then .packed else if code = 1 then .runA else .runB

/-- Descriptor `i` of profile `p` (section 4.2, R203), as rendition creation copies it (R61, R66). -/
def descriptor (img : Image) (p i : Nat) : Descriptor :=
  { side := if img.descriptorByte p i 0 0 = 0 then .front else .rear
    scale := img.descriptorByte p i 0 1
    tone := img.descriptorByte p i 0 2
    depth := depthOf (img.descriptorByte p i 0 3)
    threshold := if img.descriptorByte p i 1 0 = 0 then .fixed (img.descriptorByte p i 1 1)
                 else .running (img.descriptorByte p i 1 1)
    coding := codingOf (img.descriptorByte p i 1 2)
    lead := img.descriptorHalf p i 2 0
    tail := img.descriptorHalf p i 2 2
    top := img.descriptorHalf p i 3 0
    bottom := img.descriptorHalf p i 3 2
    sizeLimit := img.descriptorByte p i 1 3 }

/-! ### Scale entries, tone maps, run code tables -/

def scaleDefined (img : Image) (e : Nat) : Bool := img.byte (scaleWord e) 0 != 0
def scaleNh (img : Image) (e : Nat) : Nat := img.byte (scaleWord e + 1) 0
def scaleDh (img : Image) (e : Nat) : Nat := img.byte (scaleWord e + 1) 1
def scaleNv (img : Image) (e : Nat) : Nat := img.byte (scaleWord e + 1) 2
def scaleDv (img : Image) (e : Nat) : Nat := img.byte (scaleWord e + 1) 3
def toneDefined (img : Image) (e : Nat) : Bool := img.byte (toneWord e) 0 != 0
/-- Entry `v` of tone map `e`. -/
def toneEntry (img : Image) (e v : Nat) : Nat := (img (4 * (toneWord e + 1) + v)).toNat
def runDefined (img : Image) (t : Nat) : Bool := img.byte (runWord t) 0 != 0
def codeLength (img : Image) (t : Nat) (black : Bool) (cls : Nat) : Nat := img.byte (codeWord t black cls) 0
def codeValue (img : Image) (t : Nat) (black : Bool) (cls : Nat) : Nat := img.half (codeWord t black cls) 2

end Image

/-! ### Validation (R70 to R73) -/

/-- A validation failure: detail code 5 FORMAT, 6 RANGE, 7 REFERENCE, 8 CODE_TABLE, and for the last three the part,
entry and sub-entry of the first failure (R75, section 11.7; assumptions 16, 31 and 37). -/
structure LoadFailure where
  detail : Byte
  part : Nat
  entry : Nat
  sub : Nat
  deriving DecidableEq, Repr

/-- Positions 1 to 17 only: no bit above bit 16 (R203). -/
def maskInRange (w : Word) : Bool := decide (w.toNat < 131072)

/-- The FORMAT check (R70). -/
def formatOk (img : Image) (declared : Nat) : Bool :=
  img.word 0 == wordOf 158 7 64 49 && img.byte 1 0 == 1 && decide (Config.imageWords ≤ declared)

/-- The fields of an enabled rule in range (R71). -/
def ruleInRange (img : Image) (e : Nat) : Bool :=
  decide (img.ruleSelector e ≤ 5) && decide (img.ruleMode e ≤ 3) && decide (img.ruleLength e ≤ 17)
    && decide (1 ≤ img.ruleDigitCount e) && decide (img.ruleDigitCount e ≤ 17)
    && (List.range (img.ruleDigitCount e)).all (fun k => decide (img.ruleDigit e (k + 1) ≤ 9))
    && maskInRange (img.ruleOwnMask e) && decide (img.ruleProfile e ≤ 15)

/-- The fields of a defined profile in range, its descriptors apart (R71). -/
def profileInRange (img : Image) (p : Nat) : Bool :=
  decide (1 ≤ img.renditionCount p) && decide (img.renditionCount p ≤ 4)
    && decide (img.minLength p ≤ img.maxLength p) && decide (img.meanMin p ≤ img.meanMax p)
    && decide (img.denseMax p ≤ 1000) && decide (img.streakMax p ≤ 1024)
    && (List.range 12).all (fun f => decide (img.policyCode p f ≤ 2))

/-- The fields of a descriptor in range (R71): the threshold is checked for BITONAL only, and RUN_A and RUN_B need
BITONAL. -/
def descriptorInRange (img : Image) (p i : Nat) : Bool :=
  let b := img.descriptorByte p i
  let h := img.descriptorHalf p i
  decide (b 0 0 ≤ 1) && decide (b 0 1 ≤ 7) && decide (b 0 2 ≤ 3) && decide (b 0 3 ≤ 2) && decide (b 1 2 ≤ 2)
    && (if b 0 3 = 0 then decide (b 1 0 ≤ 1) && (b 1 0 == 0 || decide (b 1 1 ≤ 63)) else b 1 2 == 0)
    && decide (h 2 0 ≤ 1023) && decide (h 2 2 ≤ 1023) && decide (h 3 0 ≤ 1023) && decide (h 3 2 ≤ 1023)
    && decide (1 ≤ b 1 3)

/-- A ratio n/d with 1 ≤ n ≤ d ≤ 16. -/
def ratioInRange (n d : Nat) : Bool := decide (1 ≤ n) && decide (n ≤ d) && decide (d ≤ 16)

def scaleInRange (img : Image) (e : Nat) : Bool :=
  ratioInRange (img.scaleNh e) (img.scaleDh e) && ratioInRange (img.scaleNv e) (img.scaleDv e)

/-- Every code of one list has a length of 1 to 15 and a value below 2 raised to it (R71). -/
def codesInRange (img : Image) (t : Nat) (black : Bool) : Bool :=
  (List.range 12).all fun c =>
    decide (1 ≤ img.codeLength t black c) && decide (img.codeLength t black c ≤ 15)
      && decide (img.codeValue t black c < 2 ^ img.codeLength t black c)

/-- The first entry of a range that fails a test, as a failure there. -/
def firstFailure (count : Nat) (test : Nat → Option LoadFailure) : Option LoadFailure :=
  (List.range count).findSome? test

def failUnless (ok : Bool) (detail : Byte) (part entry sub : Nat) : Option LoadFailure :=
  if ok then none else some { detail := detail, part := part, entry := entry, sub := sub }

/-- The RANGE check, part by part in the order of R71 (assumption 16). The masks are entries 0 and 1 of their part, MASK_A
first, and so are the run code tables, RUN_A first (assumption 31). -/
def rangeFailure (img : Image) : Option LoadFailure :=
  (failUnless (decide (img.defaultProfile ≤ 15)) 6 0 0 0).or <|
  (failUnless (maskInRange img.maskA) 6 1 0 0).or <|
  (failUnless (maskInRange img.maskB) 6 1 1 0).or <|
  (firstFailure 64 fun e => failUnless (!img.ruleEnabled e || ruleInRange img e) 6 2 e 0).or <|
  (firstFailure 16 fun p =>
    if img.profileDefined p then
      (failUnless (profileInRange img p) 6 3 p 0).or
        (firstFailure (img.renditionCount p) fun i => failUnless (descriptorInRange img p i) 6 3 p i)
    else none).or <|
  (firstFailure 8 fun e => failUnless (!img.scaleDefined e || scaleInRange img e) 6 4 e 0).or <|
  firstFailure 2 fun t =>
    if img.runDefined t then
      (failUnless (codesInRange img t false) 6 6 t 0).or (failUnless (codesInRange img t true) 6 6 t 1)
    else none

/-- The parts a descriptor names are defined (R72). -/
def descriptorRefers (img : Image) (p i : Nat) : Bool :=
  let d := img.descriptor p i
  img.scaleDefined d.scale && img.toneDefined d.tone
    && (match d.coding with
        | .packed => true
        | .runA => img.runDefined 0
        | .runB => img.runDefined 1)

/-- The REFERENCE check (R72); a failure names the place that refers, the header, the rule or the descriptor, and not the
undefined entry it refers to (R75; assumption 37). -/
def referenceFailure (img : Image) : Option LoadFailure :=
  (failUnless (img.profileDefined img.defaultProfile) 7 0 0 0).or <|
  (firstFailure 64 fun e =>
    failUnless (!img.ruleEnabled e || img.profileDefined (img.ruleProfile e)) 7 2 e 0).or <|
  firstFailure 16 fun p =>
    if img.profileDefined p then
      firstFailure (img.renditionCount p) fun i => failUnless (descriptorRefers img p i) 7 3 p i
    else none

/-- Code `a` is a prefix of code `b`: not longer, and equal to its first bits (R73). -/
def codeIsPrefix (lenA valA lenB valB : Nat) : Bool :=
  decide (lenA ≤ lenB) && decide (valB / 2 ^ (lenB - lenA) = valA)

/-- No code of a list is a prefix of another code of it (R73). -/
def prefixFree (img : Image) (t : Nat) (black : Bool) : Bool :=
  (List.range 12).all fun a => (List.range 12).all fun b =>
    a == b || !codeIsPrefix (img.codeLength t black a) (img.codeValue t black a)
      (img.codeLength t black b) (img.codeValue t black b)

/-- The CODE_TABLE check (R73); the run code tables are entries 0 and 1 of their part, RUN_A first (assumption 31). -/
def codeTableFailure (img : Image) : Option LoadFailure :=
  firstFailure 2 fun t =>
    if img.runDefined t then
      (failUnless (prefixFree img t false) 8 6 t 0).or (failUnless (prefixFree img t true) 8 6 t 1)
    else none

/-- Validation: FORMAT, RANGE, REFERENCE, CODE_TABLE in that order, the first failure ending it (R69). -/
def validationFailure (img : Image) (declared : Nat) : Option LoadFailure :=
  (failUnless (formatOk img declared) 5 0 0 0).or <|
  (rangeFailure img).or <| (referenceFailure img).or <| codeTableFailure img

end Sys2Proof.Machine
end

