-- ==== Sys2Proof/Machine/Flags.lean ====
section
/-! DEFINITION. The quality flags and the verdict: every flag computation of the part (R127 to R129, R60). -/

namespace Sys2Proof.Machine

namespace QualityFlags

def empty : QualityFlags :=
  { short := false, long := false, truncated := false, mismatch := false, dark := false, light := false,
    dense := false, streak := false, gap := false, noCode := false, badCode := false, oversize := false,
    memcheck := false }

/-- Whether a flag is held. -/
def has (f : QualityFlags) : QualityFlag → Bool
  | .short => f.short
  | .long => f.long
  | .truncated => f.truncated
  | .mismatch => f.mismatch
  | .dark => f.dark
  | .light => f.light
  | .dense => f.dense
  | .streak => f.streak
  | .gap => f.gap
  | .noCode => f.noCode
  | .badCode => f.badCode
  | .oversize => f.oversize
  | .memcheck => f.memcheck

/-- The flags of both sets: flags are added and not removed (R128). -/
def union (a b : QualityFlags) : QualityFlags :=
  { short := a.short || b.short, long := a.long || b.long, truncated := a.truncated || b.truncated,
    mismatch := a.mismatch || b.mismatch, dark := a.dark || b.dark, light := a.light || b.light,
    dense := a.dense || b.dense, streak := a.streak || b.streak, gap := a.gap || b.gap,
    noCode := a.noCode || b.noCode, badCode := a.badCode || b.badCode, oversize := a.oversize || b.oversize,
    memcheck := a.memcheck || b.memcheck }

end QualityFlags

/-- The twelve flags of the advice policy, in the order of its bits (R203). -/
def policyFlags : List QualityFlag :=
  [.short, .long, .truncated, .mismatch, .dark, .light, .dense, .streak, .gap, .noCode, .badCode, .oversize]

/-- All flags in the order of their bits (R202). -/
def allFlags : List QualityFlag := policyFlags ++ [.memcheck]

/-- The flags that evaluation adds: one for each limit of the profile exceeded (R127). -/
def evaluationFlags (img : Image) (profile : Nat) (front rear : Side) : QualityFlags :=
  { QualityFlags.empty with
    short := decide (front.lines < img.minLength profile) || decide (rear.lines < img.minLength profile)
    long := decide (img.maxLength profile < front.lines) || decide (img.maxLength profile < rear.lines)
    truncated := front.truncated || rear.truncated
    mismatch := decide (img.mismatchMax profile < (front.lines - rear.lines) + (rear.lines - front.lines))
    dark := decide (front.measures.mean < img.meanMin profile) || decide (rear.measures.mean < img.meanMin profile)
    light := decide (img.meanMax profile < front.measures.mean) || decide (img.meanMax profile < rear.measures.mean)
    dense := decide (img.denseMax profile < front.measures.dense) || decide (img.denseMax profile < rear.measures.dense)
    streak := decide (img.streakMax profile < front.measures.streak)
      || decide (img.streakMax profile < rear.measures.streak)
    gap := front.gap || rear.gap }

/-- The policy action of a flag, by its code: 0 IGNORE, 1 FLAG, 2 REFEED; MEMCHECK always acts as REFEED (R129). -/
def actionCode (img : Image) (profile : Nat) (flag : QualityFlag) : Nat :=
  match policyFlags.idxOf? flag with
  | some f => img.policyCode profile f
  | none => 2

/-- The verdict over the flags held: the strongest action decides (R129). -/
def verdictOf (img : Image) (profile : Nat) (held : QualityFlags) : Verdict :=
  let codes := (allFlags.filter held.has).map (actionCode img profile)
  if codes.any (· == 2) then .refeed else if codes.any (· == 1) then .flagged else .accept

/-- The flags kept by a re-render: NO_CODE and BAD_CODE (R21). -/
def keptByRerender (f : QualityFlags) : QualityFlags :=
  { QualityFlags.empty with noCode := f.noCode, badCode := f.badCode }

/-- A code line holds an UNREADABLE symbol in any field (R59, R60). -/
def hasUnreadable (c : CodeLine) : Bool :=
  (c.routing.getD [] ++ c.account ++ c.serial ++ c.tcode ++ c.amount).any (· == .unreadable)

/-! ### Measures (R124, R125) -/

/-- The accumulators of a side of W columns, cleared (R124). -/
def clearedAccumulators (width : Nat) : Accumulators :=
  { pixelCount := 0, pixelSum := 0, darkCount := 0, columnMin := List.replicate width 255,
    columnMax := List.replicate width 0 }

/-- The lower of two grey values. -/
def lowerByte (a b : Byte) : Byte := if b.toNat < a.toNat then b else a

/-- The higher of two grey values. -/
def higherByte (a b : Byte) : Byte := if a.toNat < b.toNat then b else a

/-- The accumulators after a line is taken into the side (R124). -/
def accumulate (darkLevel : Nat) (a : Accumulators) (pixels : List Byte) : Accumulators :=
  { pixelCount := a.pixelCount + pixels.length
    pixelSum := a.pixelSum + (pixels.map BitVec.toNat).sum
    darkCount := a.darkCount + (pixels.filter fun p => decide (p.toNat < darkLevel)).length
    columnMin := List.zipWith lowerByte a.columnMin pixels
    columnMax := List.zipWith higherByte a.columnMax pixels }

/-- The measures of a completed side from its accumulators (R125). -/
def measuresOf (streakSpread : Nat) (a : Accumulators) : Measures :=
  { mean := a.pixelSum / a.pixelCount
    dense := 1000 * a.darkCount / a.pixelCount
    streak := ((List.zipWith (fun lo hi => hi.toNat - lo.toNat) a.columnMin a.columnMax).filter
      fun d => decide (d ≤ streakSpread)).length }

end Sys2Proof.Machine
end

