-- ==== Sys2Proof/Machine/Reduction.lean ====
section
/-! DEFINITION. The reduction datapath (chapter 6): crop, area-average scaling, tone map, depth, coding, and the
writing of output bytes into output blocks (R94, R101, R166). -/

namespace Sys2Proof.Machine

/-! ### Crop and output size (R111, R112) -/

/-- The input lines of a side of `captured` lines (R111). -/
def inputLines (d : Descriptor) (captured : Nat) : Nat := captured - d.lead - d.tail

/-- The input pixels of a line of `width` pixels (R111). -/
def inputPixels (d : Descriptor) (width : Nat) : Nat := width - d.top - d.bottom

/-- The kept pixels of a line, in order (R111). -/
def cropLine (d : Descriptor) (pixels : List Byte) : List Nat :=
  ((pixels.drop d.top).take (inputPixels d pixels.length)).map BitVec.toNat

/-- The output width Wo (R112). -/
def outputWidth (img : Image) (d : Descriptor) (width : Nat) : Nat :=
  inputPixels d width * img.scaleNh d.scale / img.scaleDh d.scale

/-- The output height Ho (R112). -/
def outputHeight (img : Image) (d : Descriptor) (captured : Nat) : Nat :=
  inputLines d captured * img.scaleNv d.scale / img.scaleDv d.scale

/-! ### Area-average scaling (R113, R114) -/

/-- The units that input pixel `i` and output pixel `j` share on an axis of ratio n/d (R113). -/
def overlap (n d i j : Nat) : Nat := min ((i + 1) * n) ((j + 1) * d) - max (i * n) (j * d)

/-- Value `j` of a scaled line (R113). -/
def scaledValue (n d : Nat) (pixels : List Nat) (j : Nat) : Nat :=
  ((pixels.zipIdx.map fun p => overlap n d p.2 j * p.1).sum + d / 2) / d

/-- The scaled line of Wo values (R113). -/
def scaleLine (n d width : Nat) (pixels : List Nat) : List Nat :=
  (List.range width).map (scaledValue n d pixels)

/-- The vertical step's state: the partial line sums and the output lines done (R114). -/
structure VerticalState where
  sums : List Nat
  linesDone : Nat
  deriving DecidableEq, Repr

/-- An input line's share added to the sums. -/
def addShare (units : Nat) (sums scaled : List Nat) : List Nat := List.zipWith (fun s v => s + units * v) sums scaled

/-- Input line `k`, scaled, added to the output line in progress (R114, step 1). -/
def VerticalState.add (nv dv k : Nat) (v : VerticalState) (scaled : List Nat) : VerticalState :=
  { v with sums := addShare (overlap nv dv k v.linesDone) v.sums scaled }

/-- Input line `k` completes the output line in progress (R114, step 2). -/
def VerticalState.completes (nv dv k : Nat) (v : VerticalState) : Bool := decide ((v.linesDone + 1) * dv ≤ (k + 1) * nv)

/-- The values of a completed output line (R114, step 2). -/
def VerticalState.values (dv : Nat) (v : VerticalState) : List Nat := v.sums.map fun x => (x + dv / 2) / dv

/-- The output line after a completed one, with the rest of input line `k` (R114, step 2). `height` is Ho once it is
known. -/
def VerticalState.nextLine (nv dv : Nat) (height : Option Nat) (k : Nat) (v : VerticalState) (scaled : List Nat) :
    VerticalState :=
  let done := v.linesDone + 1
  let zeros := v.sums.map fun _ => 0
  { sums := if height = some done then zeros else addShare (overlap nv dv k done) zeros scaled, linesDone := done }

/-! ### Tone and depth (R115 to R118) -/

/-- The mapped line (R115). -/
def toneLine (img : Image) (tone : Nat) (values : List Nat) : List Nat := values.map (img.toneEntry tone)

/-- A FIXED threshold: black (true) below the level (R117). -/
def fixedLine (level : Nat) (values : List Nat) : List Bool := values.map fun v => decide (v < level)

/-- The running level after a value (R118). -/
def nextLevel (m v : Nat) : Nat := (7 * m + v) / 8

/-- A RUNNING threshold from running level `m` (R118). -/
def runningLine (offset : Nat) : Nat → List Nat → List Bool
  | _, [] => []
  | m, v :: vs => decide (v + offset < m) :: runningLine offset (nextLevel m v) vs

/-- The running level at the start of an output line, for a RUNNING threshold (R118). -/
def startLevel (t : Threshold) (values : List Nat) : Option Nat :=
  match t with
  | .fixed _ => none
  | .running _ => some (values.headD 0)

/-- The running level after one more value (R118). -/
def levelAfter (t : Threshold) (level : Option Nat) (v : Nat) : Option Nat :=
  match t with
  | .fixed _ => none
  | .running _ => some (nextLevel (level.getD 0) v)

/-- The bitonal values from a place in a line, the running level there being given: true is black, the bit 1 (R117,
R118). -/
def bitonalFrom (t : Threshold) (level : Option Nat) (values : List Nat) : List Bool :=
  match t with
  | .fixed fixedLevel => fixedLine fixedLevel values
  | .running offset => runningLine offset (level.getD 0) values

/-- The bitonal line. -/
def bitonalLine (t : Threshold) (values : List Nat) : List Bool := bitonalFrom t (startLevel t values) values

/-! ### Coding (R116, R119, R120) -/

/-- The number whose bits are given, most significant first. -/
def bitsValue (bits : List Bool) : Nat := bits.foldl (fun n b => 2 * n + b.toNat) 0

/-- The byte of up to eight bits, the first the most significant, the missing low bits 0. -/
def bitsByte (bits : List Bool) : Byte := BitVec.ofNat 8 (bitsValue bits * 2 ^ (8 - bits.length))

/-- A bit sequence cut into whole bytes, with the bits left over; the fuel bounds the number of bytes. -/
def cutBytes : Nat → List Bool → List Byte × List Bool
  | 0, bits => ([], bits)
  | n + 1, bits =>
    if bits.length < 8 then ([], bits)
    else
      let rest := cutBytes n (bits.drop 8)
      (bitsByte (bits.take 8) :: rest.1, rest.2)

/-- The whole bytes of a bit sequence and the bits left over. -/
def wholeBytes (bits : List Bool) : List Byte × List Bool := cutBytes bits.length bits

/-- The bits of a value in a given count, most significant first. -/
def valueBits (count value : Nat) : List Bool := (List.range count).map fun i => value.testBit (count - 1 - i)

/-- The last byte of a sequence of bits left over, padded with 0 in the low places (R119, R121). -/
def paddedByte (bits : List Bool) : List Byte := if bits.isEmpty then [] else [bitsByte bits]

/-- A bitonal line PACKED: each line begins a new byte, the last byte padded (R119). -/
def packBits (bits : List Bool) : List Byte :=
  let w := wholeBytes bits
  w.1 ++ paddedByte w.2

/-- The lengths of the runs of a line in order, given the colour and length of the run in hand (R120). -/
def runsFrom (colour : Bool) (length : Nat) : List Bool → List (Bool × Nat)
  | [] => [(colour, length)]
  | p :: ps => if p = colour then runsFrom colour (length + 1) ps else (colour, length) :: runsFrom p 1 ps

/-- The class of a run: 0 for a run of 0, else the number of bits in its length (R120). -/
def runClass (r : Nat) : Nat := if r = 0 then 0 else Nat.log2 r + 1

/-- The bits of one run: the class codeword, then the low bits of its length (R120). -/
def runBits (img : Image) (table : Nat) (run : Bool × Nat) : List Bool :=
  let k := runClass run.2
  valueBits (img.codeLength table run.1 k) (img.codeValue table run.1 k) ++ valueBits (k - 1) run.2

/-- The run code table of a descriptor: number 0 for RUN_A, 1 for RUN_B, none without run coding (R110, R116). -/
def runTable? (d : Descriptor) : Option Nat :=
  match d.depth, d.coding with
  | .bitonal, .runA => some 0
  | .bitonal, .runB => some 1
  | _, _ => none

/-- The coding at the start of an output line: at depth BITONAL with its running level, the run in hand a white one of
length 0 (R118, R120). -/
def startCoding (d : Descriptor) (values : List Nat) : LineCoding :=
  { pixels := 0, level := if d.depth = .bitonal then startLevel d.threshold values else none, run := (false, 0) }

/-- The bits of the values from a place in an output line to the line's end (R116 to R120). -/
def bitsFrom (img : Image) (d : Descriptor) (c : LineCoding) (values : List Nat) : List Bool :=
  match d.depth with
  | .gray8 => values.flatMap (valueBits 8)
  | .gray4 => values.flatMap fun v => valueBits 4 (v / 16)
  | .bitonal =>
    let line := bitonalFrom d.threshold c.level values
    match runTable? d with
    | none => line
    | some table => (runsFrom c.run.1 c.run.2 line).flatMap (runBits img table)

/-- One value coded: the bits known by then, which for run coding are those of the runs it ends, and the coding after
it. -/
def LineCoding.take (img : Image) (d : Descriptor) (c : LineCoding) (v : Nat) : List Bool × LineCoding :=
  let after := { c with
    pixels := c.pixels + 1, level := if d.depth = .bitonal then levelAfter d.threshold c.level v else none }
  match runTable? d with
  | none => (bitsFrom img d c [v], after)
  | some table =>
    let runs := runsFrom c.run.1 c.run.2 (bitonalFrom d.threshold c.level [v])
    (runs.dropLast.flatMap (runBits img table), { after with run := runs.getLastD c.run })

/-- The bits of a line to its end cut into bytes: with run coding the bits left over are the coder state, otherwise the
last byte is padded (R116, R119, R120). -/
def endLine (d : Descriptor) (bits : List Bool) : List Byte × List Bool :=
  match runTable? d with
  | none => (packBits bits, [])
  | some _ => wholeBytes bits

/-- The output line coded from a place in it to its end: the bytes completed and the coder state; a line of no value
codes to no bit. -/
def codeLine (img : Image) (d : Descriptor) (coder : List Bool) (c : LineCoding) (values : List Nat) :
    List Byte × List Bool :=
  if values = [] then ([], coder) else endLine d (coder ++ bitsFrom img d c (values.drop c.pixels))

/-- The place in an output line just before its byte `n`, counted from the place given: the bytes completed and not yet
written, the coder state and the coding there; none when that byte is known at the line's end only. -/
def codeUntil (img : Image) (d : Descriptor) :
    Nat → List Bool → LineCoding → List Nat → Option (List Byte × List Bool × LineCoding)
  | _, _, _, [] => none
  | n, coder, c, v :: vs =>
    let coded := c.take img d v
    let cut := wholeBytes (coder ++ coded.1)
    if n < cut.1.length then some (cut.1.drop n, cut.2, coded.2)
    else codeUntil img d (n - cut.1.length) cut.2 coded.2 vs

/-! ### One input line, and the lines of a strip (R94, R110) -/

/-- What a reduction is done by: the bound set's image, the rendition's descriptor, its width and its height once it is
known, and the lines of the side once it is complete. -/
structure ReduceRules where
  image : Image
  descriptor : Descriptor
  width : Nat
  height : Option Nat
  captured : Option Nat

/-- The reduction's progress: the vertical step, the coder state, and the bytes completed. -/
structure Reduced where
  vertical : VerticalState
  coder : List Bool
  bytes : List Byte
  deriving DecidableEq, Repr

/-- An input line cropped and scaled across the track (R111, R113). -/
def ReduceRules.scaled (p : ReduceRules) (pixels : List Byte) : List Nat :=
  scaleLine (p.image.scaleNh p.descriptor.scale) (p.image.scaleDh p.descriptor.scale) p.width (cropLine p.descriptor pixels)

/-- The mapped values of the output line that the sums hold complete (R114, R115). -/
def ReduceRules.outputLine (p : ReduceRules) (v : VerticalState) : List Nat :=
  toneLine p.image p.descriptor.tone (v.values (p.image.scaleDv p.descriptor.scale))

/-- The output line that the sums hold complete, coded from a place in it to its end, and the rest of side line `n`, which
completed it (R114, R115). -/
def ReduceRules.finishLine (p : ReduceRules) (n : Nat) (scaled : List Nat) (c : LineCoding) (r : Reduced) : Reduced :=
  let d := p.descriptor
  let coded := codeLine p.image d r.coder c (p.outputLine r.vertical)
  { vertical := r.vertical.nextLine (p.image.scaleNv d.scale) (p.image.scaleDv d.scale) p.height (n - d.lead) scaled
    coder := coded.2
    bytes := r.bytes ++ coded.1 }

/-- Side line `n` added to the sums (R114, step 1). -/
def ReduceRules.addLine (p : ReduceRules) (n : Nat) (pixels : List Byte) (r : Reduced) : Reduced :=
  let d := p.descriptor
  { r with vertical := r.vertical.add (p.image.scaleNv d.scale) (p.image.scaleDv d.scale) (n - d.lead) (p.scaled pixels) }

/-- Side line `n`, counted from 0, is an input line: not cropped at the lead, nor at the tail of a side known to be complete
(R89, R94). -/
def ReduceRules.isInput (p : ReduceRules) (n : Nat) : Bool :=
  decide (p.descriptor.lead ≤ n) && p.captured.all fun l => decide (n < l - p.descriptor.tail)

/-- Side line `n` passed through the reduction (R94, R110); a cropped line, and one after the last output line, changes
nothing. -/
def ReduceRules.takeLine (p : ReduceRules) (n : Nat) (pixels : List Byte) (r : Reduced) : Reduced :=
  let d := p.descriptor
  if p.isInput n && !p.height.any fun h => decide (h ≤ r.vertical.linesDone) then
    let added := p.addLine n pixels r
    if added.vertical.completes (p.image.scaleNv d.scale) (p.image.scaleDv d.scale) (n - d.lead) then
      p.finishLine n (p.scaled pixels) (startCoding d (p.outputLine added.vertical)) added
    else added
  else r

/-- The lines of a strip, the first of them side line `n`, passed through the reduction in order (R94). -/
def ReduceRules.takeLines (p : ReduceRules) : Nat → List (List Byte) → Reduced → Reduced
  | _, [], r => r
  | n, pixels :: rest, r => p.takeLines (n + 1) rest (p.takeLine n pixels r)

/-! ### Places in a strip (R101, R123) -/

/-- What an engine with output in hand still does by the end of the strip: its progress there, with all the bytes that are
left to write, those in hand first. -/
def ReduceRules.resume (p : ReduceRules) (c : Context) (out : HeldOutput) : Reduced :=
  let r : Reduced := { vertical := { sums := c.sums, linesDone := c.linesDone }, coder := c.coder, bytes := out.bytes }
  match out.place with
  | none => r
  | some place =>
    let r := match place.coding with
      | none => r
      | some coding => p.finishLine (place.next - 1) place.scaled coding r
    p.takeLines place.next place.lines r

/-- The place before byte `n` in the middle of side line `next - 1`, whose output line stands complete in the sums and is
coded from a place in it: the progress there, with the bytes in hand. -/
def ReduceRules.stopInLine (p : ReduceRules) (n next : Nat) (scaled : List Nat) (c : LineCoding) (lines : List (List Byte)) (r : Reduced) :
    Reduced × StripPlace :=
  match codeUntil p.image p.descriptor (n - r.bytes.length) r.coder c ((p.outputLine r.vertical).drop c.pixels) with
  | some (bytes, coder, coding) =>
    ({ r with coder := coder, bytes := bytes }, { next := next, scaled := scaled, coding := some coding, lines := lines })
  | none =>
    let done := p.finishLine (next - 1) scaled c r
    ({ done with bytes := done.bytes.drop n }, { next := next, scaled := [], coding := none, lines := lines })

/-- The place before byte `n` in the lines of a strip, the first of them side line `line`. -/
def ReduceRules.stopInLines (p : ReduceRules) (n : Nat) : Nat → List (List Byte) → Reduced → Reduced × StripPlace
  | line, [], r => ({ r with bytes := r.bytes.drop n }, { next := line, scaled := [], coding := none, lines := [] })
  | line, pixels :: rest, r =>
    let done := p.takeLine line pixels r
    if n < done.bytes.length then
      let added := p.addLine line pixels r
      p.stopInLine n (line + 1) (p.scaled pixels) (startCoding p.descriptor (p.outputLine added.vertical)) rest added
    else p.stopInLines n (line + 1) rest done

/-- The place of an engine just before it writes byte `n` of what it has left to write. -/
def ReduceRules.stopAt (p : ReduceRules) (n : Nat) (c : Context) (out : HeldOutput) : Reduced × Option StripPlace :=
  let r : Reduced := { vertical := { sums := c.sums, linesDone := c.linesDone }, coder := c.coder, bytes := out.bytes }
  match out.place with
  | none => ({ r with bytes := r.bytes.drop n }, none)
  | some place =>
    if n < out.bytes.length then ({ r with bytes := r.bytes.drop n }, some place)
    else
      let stopped := match place.coding with
        | none => p.stopInLines n place.next place.lines r
        | some coding =>
          let done := p.finishLine (place.next - 1) place.scaled coding r
          if n < done.bytes.length then p.stopInLine n place.next place.scaled coding place.lines r
          else p.stopInLines n place.next place.lines done
      (stopped.1, some stopped.2)

/-- The working state of an engine that has come as far as a reduction has. -/
def Context.reached (c : Context) (r : Reduced) : Context :=
  { c with sums := r.vertical.sums, linesDone := r.vertical.linesDone, coder := r.coder }

/-- The engine's progress after a stretch of its writing: with no byte left, that of the end of the strip or of the
rendition; with bytes left, that of the place just before the first of them, with the output in hand there (R101, R123). -/
def ReduceRules.workAfter (p : ReduceRules) (c : Context) (out : HeldOutput) (left : Nat) : Context × Option HeldOutput :=
  let done := p.resume c out
  if left = 0 then (c.reached done, none)
  else
    let stopped := p.stopAt (done.bytes.length - left) c out
    (c.reached stopped.1, some { bytes := stopped.1.bytes, place := stopped.2 })

/-- A sequence of bytes cut into lines of `width` pixels. -/
def cutLines (width : Nat) (bytes : List Byte) (count : Nat) : List (List Byte) :=
  (List.range count).map fun j => (bytes.drop (j * width)).take width

/-! ### Writing output bytes (R94, R101) -/

/-- What a block demand is decided by (R101). -/
structure WriteRules where
  outputBase : Nat
  sizeLimit : Nat
  stopping : Bool
  laterGeneration : Bool
  reserve : Nat
  deriving DecidableEq, Repr

/-- What writing changes: frame memory, the free output block list, the rendition's chain, its bytes written and its
running check. -/
structure Writer where
  mem : Memory
  freeBlocks : List Nat
  chain : List Nat
  bytesWritten : Nat
  runningCheck : Word
  deriving DecidableEq, Repr

/-- How a stretch of writing ends: with no byte left, with bytes left for the next burst (R172), or at a block demand
that was refused (R101). -/
inductive WriteEnd where
  | written
  | unfinished
  | stopped
  | oversize
  | blocked
  deriving DecidableEq, Repr

/-- The outcome of a block demand, in the order of R101: none when a block is granted. -/
def demandRefused (p : WriteRules) (w : Writer) : Option WriteEnd :=
  if p.stopping then some .stopped
  else if p.sizeLimit ≤ w.chain.length then some .oversize
  else if w.freeBlocks.isEmpty then some .blocked
  else if p.laterGeneration ∧ w.freeBlocks.length ≤ p.reserve then some .blocked
  else none

/-- The bytes that still fit in the last block of the chain. -/
def Writer.room (w : Writer) : Nat := Config.blockBytes * w.chain.length - w.bytesWritten

/-- A granted demand: the block at the head of the free list is appended to the chain (R101). -/
def Writer.takeBlock (w : Writer) : Writer :=
  match w.freeBlocks with
  | [] => w
  | b :: rest => { w with freeBlocks := rest, chain := w.chain ++ [b] }

/-- Bytes written at the next place of the last block of the chain (R94, R166). -/
def Writer.put (p : WriteRules) (w : Writer) (bytes : List Byte) : Writer :=
  let offset := w.bytesWritten % Config.blockBytes
  let address := p.outputBase + w.chain.getLastD 0 * Config.blockBytes + offset
  { w with mem := Memory.writeBytes w.mem address bytes, bytesWritten := w.bytesWritten + bytes.length,
           runningCheck := checkRun w.runningCheck bytes }

/-- Bytes written in order, each block demanded as a byte needs it; the bytes not written are returned. The fuel
bounds the demands and the stretches between them. -/
def writeOutput (p : WriteRules) : Nat → Writer → List Byte → Writer × WriteEnd × List Byte
  | _, w, [] => (w, .written, [])
  | 0, w, bytes => (w, .written, bytes)
  | n + 1, w, b :: bs =>
    if w.room = 0 then
      match demandRefused p w with
      | some e => (w, e, b :: bs)
      | none => writeOutput p n w.takeBlock (b :: bs)
    else writeOutput p n (w.put p ((b :: bs).take w.room)) ((b :: bs).drop w.room)

/-- Enough fuel for `count` bytes: a demand and a stretch for each. -/
def writeFuel (count : Nat) : Nat := 2 * count + 2

/-- One burst of output (R172): the bytes that fit in the last block of the chain, at most 512. When they fill the block
and bytes are left, the next block is demanded (R101). The bytes not written are returned. -/
def writeBurst (p : WriteRules) (w : Writer) (bytes : List Byte) : Writer × WriteEnd × List Byte :=
  let count := min Config.outputBurstBytes w.room
  let w' := w.put p (bytes.take count)
  let rest := bytes.drop count
  if rest.isEmpty then (w', .written, [])
  else if w'.room = 0 then
    match demandRefused p w' with
    | some e => (w', e, rest)
    | none => (w'.takeBlock, .unfinished, rest)
  else (w', .unfinished, rest)

end Sys2Proof.Machine
end

