-- ==== Sys2Proof/Machine/Items.lean ====
section
/-! DEFINITION. The Item Table: drops and returned output blocks, block service, the end of an entry, eviction,
cancellation and its completion (R11 to R16, R82, R103, R104, R136, R143, R155). -/

namespace Sys2Proof.Machine

/-! ### Urgency order (R88, section 4.3 of the scope file) -/

/-- Key `a` ranks before key `b`, each with its item's re-render order, measured from the reference position, or from
0 while it is unset. -/
def keyBefore (reference : Position) (a b : Item) : Bool :=
  match a.key, b.key with
  | .pos p, .pos q => decide ((p - reference).toNat < (q - reference).toNat)
  | .pos _, .none => true
  | .none, .pos _ => false
  | .none, .none => seqBefore (a.rerenderOrder.getD 0) (b.rerenderOrder.getD 0)

/-- Two items' keys are equal. -/
def keyEqual (a b : Item) : Bool :=
  match a.key, b.key with
  | .pos p, .pos q => p == q
  | .none, .none => a.rerenderOrder == b.rerenderOrder
  | _, _ => false

/-- Rendition `x` is more urgent than rendition `y`: the order of the triple (key, announce sequence, rendition index)
(R88). -/
def State.moreUrgent (s : State) (x y : RendRef) : Bool :=
  match s.item? x.slot, s.item? y.slot with
  | some a, some b =>
    let reference := s.reference.getD 0
    keyBefore reference a b
      || (keyEqual a b && (seqBefore a.sequence b.sequence
            || (a.sequence == b.sequence && decide (x.index < y.index))))
  | _, _ => false

/-- A rendition put at its place among renditions already in urgency order. -/
def insertUrgent (before : RendRef → RendRef → Bool) (x : RendRef) : List RendRef → List RendRef
  | [] => [x]
  | y :: ys => if before x y then x :: y :: ys else y :: insertUrgent before x ys

/-- Renditions in urgency order. -/
def sortUrgent (before : RendRef → RendRef → Bool) (l : List RendRef) : List RendRef :=
  l.foldr (insertUrgent before) []

/-- The render queue put in the urgency order that holds now (R88). -/
def State.rankQueue (s : State) : State :=
  { s with render := { s.render with queue := sortUrgent s.moreUrgent s.render.queue } }

/-- A rendition put into the render queue at its place (R88). -/
def State.enqueue (s : State) (r : RendRef) : State :=
  State.rankQueue { s with render := { s.render with queue := s.render.queue ++ [r] } }

/-- A rendition taken out of the render queue. -/
def State.dequeue (s : State) (r : RendRef) : State :=
  { s with render := { s.render with queue := s.render.queue.filter (· != r) } }

/-- The engine that holds a rendition. -/
def State.engineOf? (s : State) (r : RendRef) : Option EngineId :=
  engineIds.find? fun e => (s.engine e).rendition == some r

/-- An engine put in IDLE with its yield request clear. -/
def State.vacateEngine (s : State) (e : EngineId) : State := s.setEngine e State.idleEngine

/-! ### Output blocks (R103, R168) -/

/-- A rendition dropped with a cause, its output blocks joining the tail of the free list in chain order (R87, R168); its restart mark ends
(R157). A rendition already DROPPED keeps its first cause. -/
def State.dropRendition (s : State) (r : RendRef) (cause : DropCause) : State :=
  match s.rendition? r with
  | none => s
  | some q =>
    if q.state = .dropped then s
    else
      let s := s.modifyRendition r fun q =>
        { q with state := .dropped, dropCause := some cause, chain := [], context := none, restart := false }
      { s with frameMemory := { s.frameMemory with freeBlocks := s.frameMemory.freeBlocks ++ q.chain } }

/-- The BLOCKED engines, in the urgency order of the renditions they hold (R103). -/
def State.blockedEngines (s : State) : List EngineId :=
  let held := engineIds.filterMap fun e =>
    if (s.engine e).state = .blocked then (s.engine e).rendition else none
  (sortUrgent s.moreUrgent held).filterMap s.engineOf?

/-- A free block may go to a rendition of a generation: the list is not empty, and for a later generation the free
count is above the re-render reserve (R101, R103). -/
def State.blockAvailable (s : State) (generation : Nat) : Bool :=
  !s.frameMemory.freeBlocks.isEmpty
    && (generation == 0
        || decide (s.mgmt.settings.rerenderReserve.toNat < s.frameMemory.freeBlocks.length))

/-- One BLOCKED engine considered by block service: served one block if it may have one (R103). -/
def State.serveEngine (s : State) (e : EngineId) : State :=
  match (s.engine e).rendition, s.frameMemory.freeBlocks with
  | some r, b :: rest =>
    match s.item? r.slot with
    | none => s
    | some it =>
      if s.blockAvailable it.generation then
        let s := { s with frameMemory := { s.frameMemory with freeBlocks := rest } }
        let s := s.modifyRendition r fun q => { q with state := .running, chain := q.chain ++ [b] }
        s.setEngine e { s.engine e with state := .running }
      else s
  | _, _ => s

/-- Block service: every BLOCKED engine considered once, most urgent first (R103). -/
def State.serveBlocked (s : State) : State := s.blockedEngines.foldl State.serveEngine s

/-- Block service after a step that may have returned blocks: taken when the free list has grown (R103). -/
def State.serveReturned (s : State) (before : State) : State :=
  if before.frameMemory.freeBlocks.length < s.frameMemory.freeBlocks.length then s.serveBlocked else s

/-! ### The summary condition (R143) -/

/-- The summary condition of an item (R143). -/
def Item.summaryDue (it : Item) : Bool :=
  decide (it.state = .processing)
    && (match it.renditions with
        | none => false
        | some rs => rs.all fun r => decide (r.state = .emitted) || decide (r.state = .dropped))
    && (decide (1 ≤ it.generation) || it.advice.isSome)

/-- The item joins the tail of the summary list when its summary condition holds and it is neither in the list nor
having its SUMMARY sent (R143). -/
def State.testSummary (s : State) (slot : Slot) : State :=
  match s.item? slot with
  | none => s
  | some it =>
    if it.summaryDue ∧ slot ∉ s.emitter.summaryList ∧ s.emitter.work ≠ .summary slot then
      { s with emitter := { s.emitter with summaryList := s.emitter.summaryList ++ [slot] } }
    else s

/-! ### The end of an entry (R14, R16, R81, R82) -/

/-- A binding of a set released: its bound count decrements, and a RETIRING set whose count reaches 0 becomes READY
with EVENT SET_RETIRED (R81, R82). -/
def State.releaseBinding (s : State) (n : SetNo) : State :=
  let count := (s.dir n).boundCount - 1
  let s' := s.modifyDir n fun e => { e with boundCount := count }
  if (s.dir n).state = .retiring ∧ count = 0 then
    State.composeEvent (s'.modifyDir n fun e => { e with state := .ready }) (.setRetired n (s.dir n).loadCount)
  else s'

/-- The strips of an item in the order in which they are returned: front chain, then rear chain (R14). -/
def Item.strips (it : Item) : List Nat := (it.front.chain ++ it.rear.chain).map ChainStrip.strip

/-- The entries of an item's sides discarded from both line FIFOs (R44, R169). -/
def State.discardFifo (s : State) (slot : Slot) : State :=
  let clean : Channel → Channel := fun c => { c with fifo := c.fifo.filter fun f => f.slot != slot }
  (s.modifyChannel .front clean).modifyChannel .rear clean

/-- An entry becomes FREE (R14, R169). -/
def State.freeItem (s : State) (slot : Slot) : State :=
  match s.item? slot with
  | none => s
  | some it =>
    let s := { s with frameMemory := { s.frameMemory with freeStrips := s.frameMemory.freeStrips ++ it.strips } }
    let s := s.discardFifo slot
    let s := { s with table := { s.table with items := s.table.items.filter fun x => x.slot != slot } }
    s.releaseBinding it.set

/-- The oldest RETAINED item (R16). -/
def State.oldestRetained (s : State) : Option Item := s.table.items.find? fun it => decide (it.state = .retained)

/-- Eviction of the oldest RETAINED item, if there is one: EVENT EVICTED, the counter, and the entry FREE (R16;
assumption 12). -/
def State.evict (s : State) : Option State :=
  s.oldestRetained.map fun it =>
    let s := s.modifyCounters fun c => { c with evictions := saturatingInc c.evictions }
    (s.composeEvent (.evicted it.announcedTag it.generation it.sequence)).freeItem it.slot

/-! ### Cancellation (R11 to R13, R44, R136, R152, R155) -/

/-- The advice cause of a cancel cause (R136). -/
def adviceCauseOf : CancelCause → AdviceCause
  | .refeed => .quality
  | .late => .late
  | .notSeen => .notSeen
  | .jam => .jam
  | .lineLoss => .lineLoss
  | .noStrip => .noStrip
  | .tagReuse => .tagReuse
  | .withdrawn => .withdrawn

/-- Some rendition of the item is RUNNING or EMITTING (R13). -/
def Item.inHand (it : Item) : Bool :=
  (it.renditions.getD []).any fun r => decide (r.state = .running) || decide (r.state = .emitting)

/-- The completion test of a cancellation (R13): with emitted any a CANCEL notice joins the emission queue, once;
without, the item becomes FREE. -/
def State.completeCancel (s : State) (slot : Slot) : State :=
  match s.item? slot with
  | none => s
  | some it =>
    if it.state = .cancelling ∧ !it.inHand then
      if it.emittedAny then
        if EmissionEntry.notice slot ∈ s.emitter.queue ∨ s.emitter.work = .notice slot then s
        else { s with emitter := { s.emitter with queue := s.emitter.queue ++ [.notice slot] } }
      else s.freeItem slot
    else s

/-- The EMITTING rendition in hand dropped: it becomes DROPPED CANCELLED, its blocks return, the emitter state becomes
IDLE (R152). -/
def State.dropEmitting (s : State) (r : RendRef) : State :=
  let s := s.dropRendition r .cancelled
  { s with emitter := { s.emitter with work := .idle } }

/-- One rendition of a cancelled item handled according to its state (R12); an EMITTING one is marked for stopping, and with
no frame in progress it is dropped at once (R152). -/
def State.cancelRendition (s : State) (slot : Slot) (q : Rendition) : State :=
  let r : RendRef := { slot := slot, index := q.index }
  match q.state with
  | .queued | .paused => (s.dequeue r).dropRendition r .cancelled
  | .blocked =>
    let s := s.dropRendition r .cancelled
    match s.engineOf? r with
    | some e => s.vacateEngine e
    | none => s
  | .rendered =>
    let s := { s with emitter := { s.emitter with queue := s.emitter.queue.filter (· != EmissionEntry.rendition r) } }
    s.dropRendition r .cancelled
  | .running => s.modifyRendition r fun q => { q with stopping := true }
  | .emitting =>
    let s := s.modifyRendition r fun q => { q with stopping := true }
    if s.emitter.frame.isSome then s else s.dropEmitting r
  | .emitted | .dropped => s

/-- The Capture Unit's part of a cancel: the slot leaves both pending lists, a channel bound to it enters SKIP, and its
lines are discarded from the FIFOs (R11, R44). -/
def State.stopCapture (s : State) (slot : Slot) : State :=
  let stop : Channel → Channel := fun c =>
    let c := { c with pendingList := c.pendingList.filter (· != slot) }
    if c.bound = some slot then { c with state := .skip, bound := none } else c
  ((s.modifyChannel .front stop).modifyChannel .rear stop).discardFifo slot

/-- The ADVICE a cancel owes: composed when the advice is NONE and the generation 0 (R11, R136). -/
def State.adviseCancelled (s : State) (it : Item) (cause : CancelCause) : State :=
  if it.advice = none ∧ it.generation = 0 then
    let s := s.modifyItem it.slot fun x => { x with advice := some (.refeed, adviceCauseOf cause) }
    s.composeAdvice { tag := it.announcedTag, verdict := .refeed, cause := adviceCauseOf cause }
  else s

/-- The entry's own change at a cancel: the cause is recorded, the state becomes CANCELLING, and the accumulators are
released (R11, R125). -/
def Item.markCancelled (cause : CancelCause) (it : Item) : Item :=
  { it with state := .cancelling, cancelCause := some cause,
            front := { it.front with accumulators := none }, rear := { it.rear with accumulators := none } }

/-- A cancel taken on an item that is not CANCELLING (R11): record, stop the capture, advise, handle each rendition in index
order, in which their chains join the free list (R12; assumption 36), serve BLOCKED engines from the blocks returned
(assumption 15), and test for completion. -/
def State.cancelNow (s : State) (it : Item) (cause : CancelCause) : State :=
  let s := s.modifyItem it.slot (Item.markCancelled cause)
  let s := s.stopCapture it.slot
  let s := { s with emitter := { s.emitter with summaryList := s.emitter.summaryList.filter (· != it.slot) } }
  let s := s.adviseCancelled it cause
  let stopped := (it.renditions.getD []).foldl (fun s q => s.cancelRendition it.slot q) s
  (stopped.serveReturned s).completeCancel it.slot

/-- An item cancelled with a cause (R11). One already CANCELLING keeps its first cause; a cancel taken while the item's
SUMMARY is in progress waits for the end of the frame (R155). -/
def State.cancelItem (s : State) (slot : Slot) (cause : CancelCause) : State :=
  match s.item? slot with
  | none => s
  | some it =>
    if it.state = .cancelling then s
    else if s.emitter.work = .summary slot ∧ !s.emitter.discarded then
      s.modifyItem slot fun x => { x with deferredCancel := x.deferredCancel.or (some cause) }
    else s.cancelNow it cause

end Sys2Proof.Machine
end

