-- ==== Sys2Proof/Machine/Quality.lean ====
section
/-! DEFINITION. The Quality Unit: evaluation, early REFEED, advice on settling, the advice deadline (R126 to R134,
R140). -/

namespace Sys2Proof.Machine

/-- The entry with the flags of R127 added and the evaluated mark set (R126, R140). -/
def Item.evaluate (img : Image) (it : Item) : Item :=
  match it.profile with
  | none => it
  | some p => { it with flags := it.flags.union (evaluationFlags img p it.front it.rear), evaluated := true }

/-- The verdict of an item over the flags it holds, read from its bound set (R129); an unclassified item has none. -/
def State.verdict? (s : State) (it : Item) : Option Verdict :=
  it.profile.map fun p => verdictOf (s.image it.set) p it.flags

/-- The test for early REFEED (R131). -/
def State.earlyRefeed (s : State) (slot : Slot) : State :=
  match s.item? slot with
  | none => s
  | some it =>
    if it.generation = 0 ∧ it.state ≠ .cancelling ∧ it.advice = none ∧ s.verdict? it = some .refeed then
      s.cancelItem slot .refeed
    else s

/-- A rendition is settled: RENDERED or DROPPED (section 5.1). -/
def Rendition.settled (r : Rendition) : Bool := decide (r.state = .rendered) || decide (r.state = .dropped)

/-- The indices of the item's RENDERED renditions, lowest first (R133). -/
def Item.renderedIndices (it : Item) : List Nat :=
  ((it.renditions.getD []).filter fun r => decide (r.state = .rendered)).map Rendition.index

/-- The entry with the eligible mark of each RENDERED rendition set (R133). -/
def Item.markEligible (it : Item) : Item :=
  { it with renditions := it.renditions.map fun rs =>
      rs.map fun r => if r.state = .rendered then { r with eligible := true } else r }

/-- An ACCEPT or FLAGGED advice composed: the advice field, the ADVICE frame, the eligible marks, the emission queue
in index order, and the summary condition (R132, R133, R143). -/
def State.adviseSettled (s : State) (it : Item) (v : Verdict) (c : AdviceCause) : State :=
  let s := s.modifyItem it.slot fun x => { x.markEligible with advice := some (v, c) }
  let s := s.composeAdvice { tag := it.announcedTag, verdict := v, cause := c }
  let joined := it.renderedIndices.map fun i => EmissionEntry.rendition { slot := it.slot, index := i }
  State.testSummary { s with emitter := { s.emitter with queue := s.emitter.queue ++ joined } } it.slot

/-- An item ready for advice on settling: generation 0, evaluated, not CANCELLING, advice NONE, every rendition settled
(R132). -/
def Item.adviceDue (it : Item) : Bool :=
  decide (it.generation = 0) && it.evaluated && decide (it.state ≠ .cancelling) && decide (it.advice = none)
    && (it.renditions.getD []).all Rendition.settled

/-- The test for advice on settling (R132): ACCEPT with cause NONE, FLAGGED with cause QUALITY. A REFEED verdict has
been acted on by R131 already. -/
def State.adviseOnSettling (s : State) (slot : Slot) : State :=
  match s.item? slot with
  | none => s
  | some it =>
    if it.adviceDue then
      match s.verdict? it with
      | some .accept => s.adviseSettled it .accept .none
      | some .flagged => s.adviseSettled it .flagged .quality
      | _ => s
    else s

/-- The tests of the Quality Unit that follow a change of an item's flags or renditions: early REFEED, then advice on
settling (R126, R128, R132). -/
def State.gradeItem (s : State) (slot : Slot) : State := (s.earlyRefeed slot).adviseOnSettling slot

/-- Evaluation of an item of generation 0, taken when it is both in PROCESSING and classified, once (R126). -/
def State.evaluateItem (s : State) (slot : Slot) : State :=
  match s.item? slot with
  | none => s
  | some it =>
    if it.generation = 0 ∧ it.state = .processing ∧ it.profile.isSome ∧ !it.evaluated then
      (s.modifyItem slot (Item.evaluate (s.image it.set))).gradeItem slot
    else s

/-- The item's advice deadline is reached: generation 0, PROCESSING, advice NONE, and the reference position at or past
the deadline (R134). -/
def State.adviceDeadlineReached (s : State) (it : Item) : Bool :=
  match it.adviceDeadline, s.reference with
  | some d, some r =>
    decide (it.generation = 0) && decide (it.state = .processing) && decide (it.advice = none) && atOrPast r d
  | _, _ => false

/-- The item's classify deadline is reached: UNCLASSIFIED, not CANCELLING, and the reference position at or past the
deadline (R54). -/
def State.classifyDeadlineReached (s : State) (it : Item) : Bool :=
  match it.classifyDeadline, s.reference with
  | some d, some r =>
    decide (it.classification = .unclassified) && decide (it.state ≠ .cancelling) && atOrPast r d
  | _, _ => false

end Sys2Proof.Machine
end

