-- ==== Sys2Proof/Machine/Render.lean ====
section
/-! DEFINITION. The render queue and the engines: readiness, dispatch, strip boundaries, yield requests, output and
settling (R88 to R107). -/

namespace Sys2Proof.Machine

/-! ### Readiness (R89 to R91) -/

/-- The first strip of a rendition (R89). -/
def firstStrip (d : Descriptor) : Nat := d.lead / Config.stripLines

/-- The next strip of a rendition in the render queue: from its context, or its first strip (R89, R98). -/
def nextStripOf (q : Rendition) : Nat :=
  match q.context with
  | some c => c.nextStrip
  | none => firstStrip q.descriptor

/-- Strip `j` of a side is consumable for a descriptor (R90). -/
def consumable (d : Descriptor) (side : Side) (j : Nat) : Bool :=
  decide (j < side.sealedCount)
    && (decide (side.capture = .complete) || decide (Config.stripLines * (j + 1) + d.tail ≤ side.lines))

/-- A rendition whose next strip is `next` has consumed its input (R89). -/
def consumedInput (q : Rendition) (side : Side) (next : Nat) : Bool :=
  decide (side.capture = .complete)
    && (q.height == some 0 || decide ((side.lines - q.descriptor.tail - 1) / Config.stripLines < next))

/-- A rendition in the render queue is ready (R91). One that has consumed its input is, even on a side that has no sealed
strip yet (assumption 32). -/
def State.ready (s : State) (r : RendRef) : Bool :=
  match s.item? r.slot, s.rendition? r with
  | some it, some q =>
    let side := it.side q.descriptor.side
    consumable q.descriptor side (nextStripOf q) || consumedInput q side (nextStripOf q)
  | _, _ => false

/-- The ready renditions of the render queue, most urgent first. -/
def State.readyQueue (s : State) : List RendRef := s.render.queue.filter s.ready

/-! ### Settling (R107) -/

/-- A rendition that has become RENDERED settles (R107): generation 0 is told to the Quality Unit, a later generation
becomes eligible and joins the emission queue. -/
def State.settleRendered (s : State) (r : RendRef) : State :=
  match s.item? r.slot with
  | none => s
  | some it =>
    if it.generation = 0 then s.adviseOnSettling r.slot
    else
      let s := s.modifyRendition r fun q => { q with eligible := true }
      { s with emitter := { s.emitter with queue := s.emitter.queue ++ [.rendition r] } }

/-- A rendition dropped OVERSIZE or MEMCHECK settles (R107, R128): generation 0 is graded, a later generation counts
toward the summary condition. -/
def State.settleDropped (s : State) (r : RendRef) : State :=
  match s.item? r.slot with
  | none => s
  | some it => if it.generation = 0 then s.gradeItem r.slot else s.testSummary r.slot

/-- The quality flag a drop cause sets (R95, R102, R106). -/
def dropFlag : DropCause → QualityFlags
  | .oversize => { QualityFlags.empty with oversize := true }
  | .memcheck => { QualityFlags.empty with memcheck := true }
  | .cancelled => QualityFlags.empty

/-- A rendition dropped from its engine with a cause (R95, R102, R106): its blocks return, the flag is set, the engine
enters IDLE, BLOCKED engines are served, and then the drop settles (assumption 34). The engine left IDLE is offered work
after that (assumption 30). -/
def State.dropFromEngine (s : State) (e : EngineId) (r : RendRef) (cause : DropCause) : State :=
  let dropped := (s.dropRendition r cause).vacateEngine e
  let dropped := dropped.modifyItem r.slot fun it => { it with flags := it.flags.union (dropFlag cause) }
  let dropped := dropped.serveReturned s
  match cause with
  | .cancelled => dropped.completeCancel r.slot
  | _ => dropped.settleDropped r

/-! ### Output (R94, R97, R101) -/

/-- What block demands of a rendition of an item are decided by (R101). -/
def State.writeRules (s : State) (it : Item) (q : Rendition) : WriteRules :=
  { outputBase := s.frameMemory.map.output.base, sizeLimit := q.descriptor.sizeLimit, stopping := q.stopping,
    laterGeneration := decide (1 ≤ it.generation), reserve := s.mgmt.settings.rerenderReserve.toNat }

/-- The writer of an engine about to write a rendition's bytes. -/
def State.writer (s : State) (q : Rendition) (c : Context) : Writer :=
  { mem := s.mem, freeBlocks := s.frameMemory.freeBlocks, chain := q.chain, bytesWritten := c.bytesWritten,
    runningCheck := c.runningCheck }

/-- What the reduction of a rendition of an item is done by (R110). -/
def State.reduceRules (s : State) (it : Item) (q : Rendition) : ReduceRules :=
  let side := it.side q.descriptor.side
  { image := s.image it.set, descriptor := q.descriptor, width := q.width, height := q.height,
    captured := if side.capture = .complete then some side.lines else none }

/-- What a writer has changed, put into the state: memory, the free list, the rendition's chain, the engine's
progress and the output still in hand. -/
def State.commitWriter (s : State) (e : EngineId) (r : RendRef) (c : Context) (w : Writer) (output : Option HeldOutput) :
    State :=
  let s := { s with mem := w.mem, frameMemory := { s.frameMemory with freeBlocks := w.freeBlocks } }
  let s := s.modifyRendition r fun q => { q with chain := w.chain }
  let context := { c with bytesWritten := w.bytesWritten, runningCheck := w.runningCheck }
  s.setEngine e { s.engine e with work := some { context := context, output := output } }

/-- The engine enters BLOCKED with its rendition, its yield request cleared (R101). -/
def State.blockEngine (s : State) (e : EngineId) (r : RendRef) : State :=
  let s := s.modifyRendition r fun q => { q with state := .blocked }
  s.setEngine e { s.engine e with state := .blocked, yieldRequest := false }

/-- The rendition is finished: its length and check are set, it becomes RENDERED, the engine enters IDLE, and it
settles (R97, R122); the engine left IDLE is offered work after that (assumption 30). One whose stopping mark is set is
dropped instead (assumption 10). -/
def State.finishRendition (s : State) (e : EngineId) (r : RendRef) : State :=
  match s.rendition? r, (s.engine e).work with
  | some q, some w =>
    if q.stopping then s.dropFromEngine e r .cancelled
    else
      let s := s.modifyRendition r fun q =>
        { q with state := .rendered, length := some w.context.bytesWritten,
                 check := some (checkComplete w.context.runningCheck) }
      (s.vacateEngine e).settleRendered r
  | _, _ => s

/-- How an engine's stretch of writing left the engine: at a strip boundary, done with its rendition, or with bytes still
to write, RUNNING or BLOCKED. -/
inductive WriteOutcome where
  | atBoundary
  | vacated
  | holding
  deriving DecidableEq, Repr

/-- A stretch of an engine's writing put into the state, and what its end brings (R94, R101): bytes that end the rendition
finish it (R97), a refused block demand drops it or blocks the engine. -/
def State.endWriting (s : State) (e : EngineId) (r : RendRef) (work : Context × Option HeldOutput) (finishing : Bool)
    (result : Writer × WriteEnd) : State × WriteOutcome :=
  let s := s.commitWriter e r work.1 result.1 work.2
  match result.2 with
  | .written => if finishing then (s.finishRendition e r, .vacated) else (s, .atBoundary)
  | .unfinished => (s, .holding)
  | .stopped => (s.dropFromEngine e r .cancelled, .vacated)
  | .oversize => (s.dropFromEngine e r .oversize, .vacated)
  | .blocked => (s.blockEngine e r, .holding)

/-- An engine goes on with its reduction from its place and writes the bytes this completes, by a way of writing: in all the
bursts they take, or in one. -/
def State.writeBy (write : WriteRules → Writer → List Byte → Writer × WriteEnd × List Byte) (s : State) (e : EngineId)
    (r : RendRef) (c : Context) (out : HeldOutput) : State × WriteOutcome :=
  match s.item? r.slot, s.rendition? r with
  | some it, some q =>
    let p := s.reduceRules it q
    let result := write (s.writeRules it q) (s.writer q c) (p.resume c out).bytes
    s.endWriting e r (p.workAfter c out result.2.2.length) out.place.isNone (result.1, result.2.1)
  | _, _ => (s, .vacated)

/-- An engine writes output bytes in all the bursts they take (R94, R101): to the end, or to a refused block demand. -/
def State.writeEngine (s : State) (e : EngineId) (r : RendRef) (c : Context) (out : HeldOutput) : State × WriteOutcome :=
  State.writeBy (fun p w bytes => writeOutput p (writeFuel bytes.length) w bytes) s e r c out

/-! ### Strip boundaries (R96 to R98) -/

/-- A fresh context: nothing read, nothing written, one partial sum for each output pixel (R92, R98, R114). -/
def freshContext (q : Rendition) : Context :=
  { nextStrip := firstStrip q.descriptor, sums := List.replicate q.width 0, linesDone := 0, bytesWritten := 0,
    coder := [], runningCheck := checkInit }

/-- The rendition an engine holds is set aside: PAUSED with its context, in the render queue; the engine enters IDLE
(R98). -/
def State.pauseRendition (s : State) (e : EngineId) (r : RendRef) (c : Context) : State :=
  let s := s.modifyRendition r fun q => { q with state := .paused, context := some c }
  (s.vacateEngine e).enqueue r

/-- The rendition is finished from a strip boundary: the coder state is padded to a byte and written (R97, R121). -/
def State.startFinish (s : State) (e : EngineId) (r : RendRef) (c : Context) : State :=
  (s.writeEngine e r { c with coder := [] } { bytes := paddedByte c.coder, place := none }).1

/-- Decisions 1, 2, 4 and 5 of a strip boundary (R96), for an engine whose yield request is clear. -/
def State.boundary (s : State) (e : EngineId) : State :=
  match (s.engine e).rendition, (s.engine e).work with
  | some r, some w =>
    match s.item? r.slot, s.rendition? r with
    | some it, some q =>
      let side := it.side q.descriptor.side
      let next := w.context.nextStrip
      if q.stopping then s.dropFromEngine e r .cancelled
      else if consumedInput q side next then s.startFinish e r w.context
      else if consumable q.descriptor side next then s
      else s.pauseRendition e r w.context
    | _, _ => s
  | _, _ => s

/-- An engine takes a rendition from the render queue and handles it as at a strip boundary (R92, R93). -/
def State.takeRendition (s : State) (e : EngineId) (r : RendRef) : State :=
  match s.rendition? r with
  | none => s.dequeue r
  | some q =>
    let context := q.context.getD (freshContext q)
    let s := (s.dequeue r).modifyRendition r fun q => { q with state := .running, context := none }
    let s := s.setEngine e { state := .running, rendition := some r, yieldRequest := false,
                             work := some { context := context, output := none } }
    s.boundary e

/-! ### Dispatch and yield requests (R92, R99, R100) -/

/-- The lowest-numbered IDLE engine. -/
def State.idleEngine? (s : State) : Option EngineId := engineIds.find? fun e => decide ((s.engine e).state = .idle)

/-- Dispatch, repeated while an engine is IDLE and a ready rendition waits; each dispatch takes one rendition from the
queue, so the queue's length bounds it (R92). -/
def dispatchFuel : Nat → State → State
  | 0, s => s
  | n + 1, s =>
    match s.idleEngine?, s.readyQueue with
    | some e, r :: _ => dispatchFuel n (s.takeRendition e r)
    | _, _ => s

def State.dispatch (s : State) : State := dispatchFuel s.render.queue.length s

/-- The RUNNING engines with a clear yield request that hold a rendition less urgent than `r`, with what they hold
(R99). -/
def State.yieldCandidates (s : State) (r : RendRef) : List RendRef :=
  (engineIds.filter fun e => decide ((s.engine e).state = .running) && !(s.engine e).yieldRequest).filterMap fun e =>
    (s.engine e).rendition.filter fun held => s.moreUrgent r held

/-- A yield request for a ready newcomer with a position key: when no engine is IDLE, the candidate holding the least
urgent rendition is asked (R99). -/
def State.requestYield (s : State) (r : RendRef) : State :=
  match s.item? r.slot with
  | none => s
  | some it =>
    if it.key ≠ .none ∧ s.idleEngine? = none ∧ r ∈ s.render.queue ∧ s.ready r then
      match (sortUrgent s.moreUrgent (s.yieldCandidates r)).getLast? with
      | none => s
      | some least =>
        match s.engineOf? least with
        | none => s
        | some e => s.setEngine e { s.engine e with yieldRequest := true }
    else s

/-- A rendition that has become ready in the queue, or entered it ready, is offered an engine; if none is IDLE it may
have one asked to yield (R92, R99; assumption 14). -/
def State.offerReady (s : State) (r : RendRef) : State := s.dispatch.requestYield r

/-- The renditions of the queue that are ready now and were not in an earlier state of the same queue, most urgent
first, each offered an engine (R91). -/
def State.wake (s : State) (before : State) : State :=
  (s.readyQueue.filter fun r => !before.ready r).foldl State.offerReady s

/-- Decision 3 of a strip boundary: an engine asked to yield gives way to a more urgent ready rendition, or the request
is withdrawn (R100); then the other decisions. -/
def State.boundaryYield (s : State) (e : EngineId) : State :=
  match (s.engine e).rendition, (s.engine e).work, (s.engine e).yieldRequest with
  | some r, some w, true =>
    match s.item? r.slot, s.rendition? r with
    | some it, some q =>
      if q.stopping || consumedInput q (it.side q.descriptor.side) w.context.nextStrip then s.boundary e
      else
        match s.readyQueue with
        | u :: _ =>
          if s.moreUrgent u r then ((s.pauseRendition e r w.context).takeRendition e u).offerReady r
          else (s.setEngine e { s.engine e with yieldRequest := false }).boundary e
        | [] => (s.setEngine e { s.engine e with yieldRequest := false }).boundary e
    | _, _ => s
  | _, _, _ => s.boundary e

/-- A strip used to its last line: the next strip advances and the engine stands at a boundary; engines left IDLE are
offered work (R94, R96, R92). -/
def State.endStrip (s : State) (e : EngineId) : State :=
  match (s.engine e).work with
  | none => s
  | some w =>
    let context := { w.context with nextStrip := w.context.nextStrip + 1 }
    (State.boundaryYield (s.setEngine e { s.engine e with work := some { context := context, output := none } }) e).dispatch

/-! ### Reading a strip (R94, R95) -/

/-- The bytes of a strip of the chain, line count times W (R166, R171). -/
def State.stripBytes (s : State) (c : ChainStrip) : List Byte :=
  s.bytesAt (s.stripAddress c.strip 0) (c.lines * s.lineWidth)

/-- The check over a strip's lines equals its check word (R171). -/
def State.stripMatches (s : State) (c : ChainStrip) : Bool :=
  checkWord? s.frameMemory.checks c.strip == some (checkOf (s.stripBytes c))

/-- The start of the next strip, its lines read and none taken, nothing to write (R94). -/
def State.stripStart (s : State) (c : Context) (strip : ChainStrip) : HeldOutput :=
  { bytes := []
    place := some { next := Config.stripLines * c.nextStrip, scaled := [], coding := none,
                    lines := cutLines s.lineWidth (s.stripBytes strip) strip.lines } }

/-- The lines of the next strip passed through the reduction from a context (R94). -/
def State.reduceStrip (s : State) (it : Item) (q : Rendition) (c : Context) (strip : ChainStrip) : Reduced :=
  (s.reduceRules it q).resume c (s.stripStart c strip)

/-- A strip boundary reached, or the engine left: engines left IDLE are offered work. -/
def State.afterWriting (e : EngineId) (x : State × WriteOutcome) : State :=
  match x.2 with
  | .atBoundary => x.1.endStrip e
  | .vacated => x.1.dispatch
  | .holding => x.1

/-- An engine reads its next strip (R94): on a mismatch the rendition is dropped MEMCHECK, or CANCELLED if it is stopping
(R95, R105); otherwise it passes the lines through the reduction, writes the bytes they complete, and stands at a strip
boundary. -/
def State.readStrip (s : State) (e : EngineId) (r : RendRef) (q : Rendition) (c : Context) (strip : ChainStrip) : State :=
  if s.stripMatches strip then State.afterWriting e (s.writeEngine e r c (s.stripStart c strip))
  else (s.dropFromEngine e r (if q.stopping then .cancelled else .memcheck)).dispatch

/-- A RUNNING engine completes its strip; nothing while it holds output bytes not yet written, or has no strip to
read (assumption 3). -/
def State.stripRead (s : State) (e : EngineId) : State :=
  match (s.engine e).state, (s.engine e).rendition, (s.engine e).work with
  | .running, some r, some { context := c, output := none } =>
    match s.item? r.slot, s.rendition? r with
    | some it, some q =>
      match (it.side q.descriptor.side).chain[c.nextStrip]? with
      | some strip => s.readStrip e r q c strip
      | none => s
    | _, _ => s
  | _, _, _ => s

/-- One burst of a served engine, which goes on writing where it stopped (R101, R103, R172; assumption 9): up to 512 bytes
within its block, and with the last of them the end of the strip or of the rendition. -/
def State.resumeOutput (s : State) (e : EngineId) : State :=
  match (s.engine e).state, (s.engine e).rendition, (s.engine e).work with
  | .running, some r, some { context := c, output := some out } =>
    State.afterWriting e (State.writeBy writeBurst s e r c out)
  | _, _, _ => s

end Sys2Proof.Machine
end

