-- ==== Sys2Proof/Machine/Layouts.lean ====
section
/-! DEFINITION. The byte layouts of what the part sends: ADVICE, the exchange frames, RESPONSE and EVENT, the STATUS
and ITEM results, and the characters on the lane (R196, R198, R200, R202). -/

namespace Sys2Proof.Machine

/-- A one-byte field. -/
def u8 (n : Nat) : List Byte := [BitVec.ofNat 8 n]
/-- A two-byte field, most significant byte first. -/
def u16 (n : Nat) : List Byte := halfBytes (BitVec.ofNat 16 n)
/-- A four-byte field, most significant byte first. -/
def u32 (n : Nat) : List Byte := wordBytes (BitVec.ofNat 32 n)
/-- A yes/no field. -/
def flagByte (b : Bool) : List Byte := [if b then 1 else 0]

/-- An optional field: a presence byte and the value bytes, 0 when absent (R202). -/
def optionalField (width : Nat) (v : Option (List Byte)) : List Byte :=
  match v with
  | some bytes => 1 :: bytes
  | none => 0 :: List.replicate width 0

/-! ### Value codes (R202) -/

def readStatusCode : ReadStatus → Nat
  | .read => 0
  | .partlyRead => 1
  | .notFound => 2

def verdictCode : Verdict → Nat
  | .accept => 0
  | .flagged => 1
  | .refeed => 2

def adviceCauseCode : AdviceCause → Nat
  | .none => 0
  | .quality => 1
  | .late => 2
  | .notSeen => 3
  | .jam => 4
  | .lineLoss => 5
  | .noStrip => 6
  | .tagReuse => 7
  | .withdrawn => 8
  | .notRunning => 9
  | .noSlot => 10
  | .crowded => 11

def cancelCauseCode : CancelCause → Nat
  | .refeed => 1
  | .late => 2
  | .notSeen => 3
  | .jam => 4
  | .lineLoss => 5
  | .noStrip => 6
  | .tagReuse => 7
  | .withdrawn => 8

def responseCodeCode : ResponseCode → Nat
  | .done => 0
  | .busy => 1
  | .wrongMode => 2
  | .wrongState => 3
  | .badValue => 4
  | .noItem => 5
  | .fenced => 6
  | .full => 7
  | .loadFault => 8

def modeCode : Mode → Nat
  | .parked => 0
  | .running => 1
  | .halted => 2

def modeCauseCode : ModeCause → Nat
  | .run => 0
  | .park => 1
  | .halt => 2
  | .resume => 3
  | .trackLink => 4
  | .reset => 5

def itemStateCode : ItemState → Nat
  | .announced => 1
  | .capturing => 2
  | .processing => 3
  | .retained => 4
  | .cancelling => 5

def captureStateCode : CaptureState → Nat
  | .pending => 0
  | .active => 1
  | .complete => 2
  | .aborted => 3

def classificationCode : Classification → Nat
  | .unclassified => 0
  | .byCode => 1
  | .byDefault => 2

def renditionStateCode : RenditionState → Nat
  | .queued => 0
  | .paused => 1
  | .running => 2
  | .blocked => 3
  | .rendered => 4
  | .emitting => 5
  | .emitted => 6
  | .dropped => 7

def dropCauseCode : Option DropCause → Nat
  | none => 0
  | some .cancelled => 1
  | some .oversize => 2
  | some .memcheck => 3

def engineStateCode : EngineState → Nat
  | .idle => 0
  | .running => 1
  | .blocked => 2

def emitterStateCode : EmitterWork → Nat
  | .idle => 0
  | .rendition _ _ _ => 1
  | .notice _ => 2
  | .summary _ => 3

def setStateCode : SetState → Nat
  | .empty => 0
  | .loading => 1
  | .invalid => 2
  | .ready => 3
  | .active => 4
  | .retiring => 5

def sideCode : Camera → Nat
  | .front => 0
  | .rear => 1

def depthCode : Depth → Nat
  | .bitonal => 0
  | .gray4 => 1
  | .gray8 => 2

def codingCode : Coding → Nat
  | .packed => 0
  | .runA => 1
  | .runB => 2

/-- A set number, 255 for none. -/
def setCode : Option SetNo → Nat
  | some n => n.val
  | none => 255

def symbolCode : Symbol → Byte
  | .digit d => BitVec.ofNat 8 d.val
  | .unreadable => 15

/-! ### Composite fields (R202) -/

/-- The code line block. -/
def codeLineBlock (c : CodeLine) : List Byte :=
  let routing := c.routing.getD []
  u8 (readStatusCode c.status) ++ u8 routing.length ++ u8 c.account.length ++ u8 c.serial.length ++ u8 c.tcode.length
    ++ u8 c.amount.length ++ (routing ++ c.account ++ c.serial ++ c.tcode ++ c.amount).map symbolCode

/-- The optional code line: its presence byte stands alone when it is absent. -/
def optionalCodeLine : Option CodeLine → List Byte
  | none => [0]
  | some c => 1 :: codeLineBlock c

/-- The marks byte: gap flag in bit 0, truncated mark in bit 1. -/
def marks (gap truncated : Bool) : List Byte := u8 (gap.toNat + 2 * truncated.toNat)

/-- The quality flags field, one bit for each flag. -/
def flagsValue (f : QualityFlags) : Nat := (allFlags.zipIdx.map fun p => (f.has p.1).toNat * 2 ^ p.2).sum

def sideReportBytes (r : SideReport) : List Byte :=
  u16 r.lines ++ u8 r.measures.mean ++ u16 r.measures.dense ++ u16 r.measures.streak ++ marks r.gap r.truncated

/-- Advice verdict (255 when absent) and cause (0 then). -/
def adviceBytes : Option (Verdict × AdviceCause) → List Byte
  | none => u8 255 ++ u8 0
  | some (v, c) => u8 (verdictCode v) ++ u8 (adviceCauseCode c)

/-- An outcome's result code: 0 RENDERED, 2 DROPPED OVERSIZE, 3 DROPPED MEMCHECK; the length 0 for a DROPPED one. -/
def outcomeBytes (o : OutcomeEntry) : List Byte :=
  u8 o.index ++ u8 (dropCauseCode o.dropped) ++ u32 (o.length.getD 0)

/-! ### Frames -/

/-- The payload of an ADVICE frame. -/
def advicePayload (a : Advice) : List Byte := halfBytes a.tag ++ u8 (verdictCode a.verdict) ++ u8 (adviceCauseCode a.cause)

/-- The kind code and payload of an ADVICE frame (R200, R202). -/
def adviceFields (a : Advice) : Nat × List Byte := (9, advicePayload a)

def headerPayload (h : Header) : List Byte :=
  halfBytes h.tag ++ halfBytes h.batch ++ u8 h.generation ++ u8 h.index ++ flagByte h.restart ++ u8 (sideCode h.side)
    ++ u8 (depthCode h.depth) ++ u8 (codingCode h.coding) ++ u16 h.width ++ u16 h.height ++ u32 h.length ++ u8 h.profile
    ++ u8 h.set.val ++ halfBytes h.loadCount

def segmentPayload (g : Segment) : List Byte :=
  halfBytes g.tag ++ u8 g.generation ++ u8 g.index ++ u16 g.number ++ g.payload

def trailerPayload (t : Trailer) : List Byte :=
  halfBytes t.tag ++ u8 t.generation ++ u8 t.index ++ u16 t.segments ++ wordBytes t.check

def cancelPayload (c : CancelNotice) : List Byte := halfBytes c.tag ++ halfBytes c.batch ++ u8 c.generation

def summaryPayload (y : Summary) : List Byte :=
  halfBytes y.tag ++ halfBytes y.batch ++ u8 y.generation ++ u8 y.set.val ++ halfBytes y.loadCount
    ++ u8 (y.profile.getD 0) ++ u8 (classificationCode y.classification) ++ flagByte y.lateCode
    ++ sideReportBytes y.front ++ sideReportBytes y.rear ++ u16 (flagsValue y.flags) ++ adviceBytes y.advice
    ++ u8 y.outcomes.length ++ y.outcomes.flatMap outcomeBytes ++ optionalCodeLine y.codeLine

def responsePayload (r : Response) : List Byte :=
  [r.corr, r.kind] ++ u8 (responseCodeCode r.code) ++ [r.detail, r.location.1, r.location.2.1, r.location.2.2] ++ r.result

/-- The kind code of an EVENT and the fields of its kind. -/
def eventFields : EventBody → Nat × List Byte
  | .orphan cam p => (1, u8 (sideCode cam) ++ wordBytes p)
  | .notSeen cam tag lead => (2, u8 (sideCode cam) ++ halfBytes tag ++ wordBytes lead)
  | .evicted tag g q => (3, halfBytes tag ++ u8 g ++ wordBytes q)
  | .unknownTag tag st => (4, halfBytes tag ++ u8 (readStatusCode st))
  | .dupCode tag => (5, halfBytes tag)
  | .creditOverflow grant before => (6, u8 grant ++ u8 before)
  | .setActivated n lc prev b => (7, u8 n.val ++ halfBytes lc ++ u8 (setCode prev) ++ halfBytes b)
  | .setRetired n lc => (8, u8 n.val ++ halfBytes lc)
  | .modeChange a b c => (9, u8 (modeCode a) ++ u8 (modeCode b) ++ u8 (modeCauseCode c))

def eventPayload (e : EventFrame) : List Byte :=
  u8 (eventFields e.body).1 ++ halfBytes e.sequence ++ (eventFields e.body).2

/-- The kind code and payload of an exchange frame (R200, R202). -/
def exchangeFields : ExchangeFrame → Nat × List Byte
  | .header h => (32, headerPayload h)
  | .segment g => (33, segmentPayload g)
  | .trailer t => (34, trailerPayload t)
  | .cancel c => (35, cancelPayload c)
  | .summary y => (36, summaryPayload y)
  | .report (.response r) => (40, responsePayload r)
  | .report (.event e) => (41, eventPayload e)

/-- The bytes of a frame between START and END: kind, payload, and the check over both (R198). -/
def frameBytesOf (kind : Byte) (payload : List Byte) : List Byte :=
  kind :: payload ++ wordBytes (checkOf (kind :: payload))

/-- The characters of a frame on the lane (R198). -/
def frameChars (kind : Byte) (payload : List Byte) : List LaneChar :=
  .start :: (frameBytesOf kind payload).map .data ++ [.endOfFrame]

/-- The character a transmitter sends between frames (R196). -/
def betweenFrames (l : LinkState) : LaneChar := if !l.locked then .sync else if l.up then .idle else .ready

/-- The ADVICE frame being sent: one left over from before an engine reset, else the head of the queue; none while the
track link is DOWN (R138, R141). -/
def State.adviceInProgress (s : State) : Option Advice :=
  if s.linkUp .track then s.adviceOut.leftover.or s.adviceOut.queue.head? else none

/-- The frame being sent on a link, as kind code and payload: ADVICE on the track link, the Emitter's frame on the exchange
link (R138, R146, R200). -/
def State.frameSent (s : State) : Link → Option (Nat × List Byte)
  | .track => s.adviceInProgress.map adviceFields
  | .exchange => s.emitter.frame.map exchangeFields

/-- What a transmitter sends next on the lane: the characters of the frame being sent, or the one between frames (R196,
R198). -/
def State.laneOut (s : State) (k : Link) : List LaneChar :=
  match s.frameSent k with
  | some f => frameChars (BitVec.ofNat 8 f.1) f.2
  | none => [betweenFrames (s.links.link k)]

/-! ### The STATUS result (R189, R202) -/

/-- The 18 bytes of the settings. -/
def settingsBytes (v : RunSettings) : List Byte :=
  halfBytes v.lineWidth ++ halfBytes v.frontOffset ++ halfBytes v.rearOffset ++ halfBytes v.windowTolerance
    ++ halfBytes v.maxSideLength ++ halfBytes v.classifyMargin ++ halfBytes v.adviceMargin
    ++ halfBytes v.rerenderReserve ++ [v.darkLevel, v.streakSpread]

/-- A region flags byte: peek-allowed in bit 0, poke-allowed in bit 1, and 0 in bits 2 to 7, which are no fields (R202;
assumption 35). -/
def regionFlags (r : Region) : List Byte := u8 (r.peekAllowed.toNat + 2 * r.pokeAllowed.toNat)

def sizedRegionBytes (r : Region) : List Byte := u32 r.base ++ u32 r.size ++ regionFlags r

/-- The 32 bytes of the region map. -/
def mapBytes (m : RegionMap) : List Byte :=
  u32 m.tables.base ++ regionFlags m.tables ++ sizedRegionBytes m.strips ++ sizedRegionBytes m.output
    ++ sizedRegionBytes m.spare

/-- Entries in a state (R23). -/
def State.countState (s : State) (x : ItemState) : Nat :=
  (s.table.items.filter fun it => decide (it.state = x)).length

def State.freeSlots (s : State) : Nat := Config.itemSlots - s.table.items.length

def dirBytes (e : DirEntry) : List Byte :=
  u8 (setStateCode e.state) ++ u16 e.imageLength ++ optionalField 4 (e.imageCheck.map wordBytes) ++ halfBytes e.loadCount
    ++ u8 e.boundCount

/-- The open load's set, declared length and next offset; 255 and zeros for none (assumption 18). -/
def openLoadBytes : Option OpenLoad → List Byte
  | none => u8 255 ++ u16 0 ++ u16 0
  | some l => u8 l.set.val ++ u16 l.declared ++ u16 l.nextOffset

def countersBytes (c : Counters) : List Byte :=
  [c.badTrack, c.badExchange, c.badSequence, c.droppedFront, c.droppedRear, c.orphans, c.notSeen, c.evictions,
   c.announced, c.adviceAccept, c.adviceFlagged, c.adviceRefeed, c.adviceLost, c.eventsLost].flatMap wordBytes

def State.statusModes (s : State) : List Byte :=
  u8 (modeCode s.mgmt.mode) ++ u8 s.mgmt.requests.length ++ flagByte s.links.track.up ++ flagByte s.links.exchange.up

def State.statusItems (s : State) : List Byte :=
  u8 (s.countState .announced) ++ u8 (s.countState .capturing) ++ u8 (s.countState .processing)
    ++ u8 (s.countState .retained) ++ u8 (s.countState .cancelling) ++ u8 s.freeSlots

def State.statusSets (s : State) : List Byte :=
  dirBytes s.sets.set0 ++ dirBytes s.sets.set1 ++ dirBytes s.sets.set2 ++ dirBytes s.sets.set3
    ++ u8 (setCode s.sets.active) ++ u8 (setCode s.sets.pendingActivation) ++ openLoadBytes s.sets.load
    ++ halfBytes s.sets.batch

def State.statusMemory (s : State) : List Byte :=
  u16 s.frameMemory.installedMiB ++ mapBytes s.frameMemory.map ++ u16 s.frameMemory.map.stripCount
    ++ u16 s.frameMemory.freeStrips.length ++ u16 s.frameMemory.map.blockCount ++ u16 s.frameMemory.freeBlocks.length

def State.statusRendering (s : State) : List Byte :=
  u8 (engineStateCode s.render.re0.state) ++ u8 (engineStateCode s.render.re1.state)
    ++ u8 (engineStateCode s.render.re2.state) ++ u8 s.render.queue.length ++ u8 s.readyQueue.length

def EmissionEntry.isNotice : EmissionEntry → Bool
  | .notice _ => true
  | .rendition _ => false

def State.statusEmission (s : State) : List Byte :=
  u8 s.emitter.credits ++ u8 (emitterStateCode s.emitter.work)
    ++ u8 (s.emitter.queue.filter fun e => !e.isNotice).length ++ u8 (s.emitter.queue.filter EmissionEntry.isNotice).length
    ++ u8 s.emitter.summaryList.length

/-- The STATUS result (R189, R202). -/
def State.statusResult (s : State) : List Byte :=
  s.statusModes ++ settingsBytes s.mgmt.settings ++ s.statusItems ++ s.statusSets ++ s.statusMemory ++ s.statusRendering
    ++ s.statusEmission ++ (halfBytes s.mgmt.eventSeq ++ countersBytes s.mgmt.counters)

/-! ### The ITEM result (R23, R202) -/

def sideBytes (x : Side) : List Byte :=
  u8 (captureStateCode x.capture) ++ wordBytes x.expectedLead ++ optionalField 4 (x.leading.map wordBytes)
    ++ optionalField 4 (x.trailing.map wordBytes) ++ u16 x.lines ++ u8 x.sealedCount ++ marks x.gap x.truncated
    ++ u8 x.measures.mean ++ u16 x.measures.dense ++ u16 x.measures.streak

def renditionBytes (q : Rendition) : List Byte :=
  u8 q.index ++ u8 (renditionStateCode q.state) ++ u8 (dropCauseCode q.dropCause)

def chainBytes (c : List ChainStrip) : List Byte :=
  u8 c.length ++ c.flatMap fun x => u16 x.strip ++ u8 x.lines

def keyBytes : Key → List Byte
  | .pos p => optionalField 4 (some (wordBytes p))
  | .none => optionalField 4 none

def itemFixedBytes (it : Item) : List Byte :=
  u8 it.slot ++ u8 (itemStateCode it.state) ++ halfBytes it.announcedTag ++ optionalField 2 (it.tag.map halfBytes)
    ++ wordBytes it.sequence ++ halfBytes it.batch ++ wordBytes it.lead ++ halfBytes it.announcedLength ++ u8 it.set.val
    ++ u8 it.generation ++ optionalField 4 (it.rerenderOrder.map wordBytes) ++ optionalField 1 (it.profile.map u8)
    ++ u8 (classificationCode it.classification) ++ flagByte it.lateCode ++ flagByte it.emittedAny
    ++ optionalField 4 (it.classifyDeadline.map wordBytes) ++ optionalField 4 (it.adviceDeadline.map wordBytes)
    ++ keyBytes it.key ++ u16 (flagsValue it.flags) ++ adviceBytes it.advice
    ++ u8 ((it.cancelCause.map cancelCauseCode).getD 0)

/-- The ITEM result (R23, R202). -/
def itemResult (it : Item) : List Byte :=
  let rs := it.renditions.getD []
  itemFixedBytes it ++ sideBytes it.front ++ sideBytes it.rear ++ u8 rs.length ++ rs.flatMap renditionBytes
    ++ optionalCodeLine it.codeLine ++ chainBytes it.front.chain ++ chainBytes it.rear.chain

end Sys2Proof.Machine
end

