-- ==== Sys2Proof/Machine/Operands.lean ====
section
/-! DEFINITION. Every operand form: what the raw field values of frames and requests stand for, and the tests that
refuse them (R26, R48, R164, R174, R184, R202). -/

namespace Sys2Proof.Machine

/-- The camera a LINE frame's camera byte names (R202). -/
def cameraOf (b : Byte) : Option Camera := if b = 0 then some .front else if b = 1 then some .rear else none

def cameraCode : Camera → Byte
  | .front => 0
  | .rear => 1

/-- The table set a set byte names. -/
def setOf (b : Byte) : Option SetNo := if h : b.toNat < 4 then some ⟨b.toNat, h⟩ else none

/-- The read status of a status byte (R200, R202). -/
def readStatusOf (b : Byte) : Option ReadStatus :=
  if b = 0 then some .read else if b = 1 then some .partlyRead else if b = 2 then some .notFound else none

/-- The symbol of a symbol byte: 0 to 9 a digit, 15 UNREADABLE (R202). -/
def symbolOf (b : Byte) : Option Symbol :=
  if h : b.toNat < 10 then some (.digit ⟨b.toNat, h⟩) else if b = 15 then some .unreadable else none

def symbolsOf (bs : List Byte) : Option (List Symbol) := bs.mapM symbolOf

/-- The field counts of a code line block in their ranges (R48): with READ or PARTIAL, ROUTING holds nine symbols;
with NONE no field holds any. -/
def codeCountsFit (b : CodeBlock) (status : ReadStatus) : Bool :=
  match status with
  | .notFound =>
    b.routing.isEmpty && b.account.isEmpty && b.serial.isEmpty && b.tcode.isEmpty && b.amount.isEmpty
  | _ =>
    decide (b.routing.length = 9) && decide (b.account.length ≤ 17) && decide (b.serial.length ≤ 10)
      && decide (b.tcode.length ≤ 6) && (b.amount.isEmpty || decide (b.amount.length = 10))

/-- The code line record of a CODE frame's block, or none for a malformed one (R48, R200). -/
def codeLineOf (b : CodeBlock) : Option CodeLine :=
  match readStatusOf b.status with
  | none => none
  | some status =>
    if codeCountsFit b status then
      match symbolsOf b.routing, symbolsOf b.account, symbolsOf b.serial, symbolsOf b.tcode, symbolsOf b.amount with
      | some r, some a, some e, some t, some m =>
        some { status := status, routing := if r.isEmpty then none else some r, account := a, serial := e, tcode := t,
               amount := m }
      | _, _, _, _, _ => none
    else none

/-! ### SETTINGS (R183, R184) -/

/-- A value in a range and on its step from the range's start. -/
def onStep (v lo hi step : Nat) : Bool := decide (lo ≤ v) && decide (v ≤ hi) && decide ((v - lo) % step = 0)

/-- Whether each of the ten settings is in its range and on its step, in the order of R183. -/
def settingsTests (v : RunSettings) : List Bool :=
  [onStep v.lineWidth.toNat 64 1024 16, true, decide (1 ≤ v.rearOffset.toNat), onStep v.windowTolerance.toNat 4 255 1,
   onStep v.maxSideLength.toNat 256 2560 32, true, decide (1 ≤ v.adviceMargin.toNat),
   decide (v.rerenderReserve.toNat ≤ 4095), decide (1 ≤ v.darkLevel.toNat), decide (v.streakSpread.toNat ≤ 31)]

/-- The place of the first setting out of its range or off its step (R184). -/
def settingsRangeFailure (v : RunSettings) : Option Nat := (settingsTests v).findIdx? (· == false)

/-! ### REGIONS (R162, R164) -/

/-- The powers of two from `lo` to `hi`, given `count` doublings of `lo`. -/
def isDoubling (v lo count : Nat) : Bool := (List.range (count + 1)).any fun k => v == lo * 2 ^ k

/-- The flags of a region flags byte: bit 0 peek-allowed, bit 1 poke-allowed, the rest no fields (R202). -/
def regionOf (base size : Nat) (flags : Byte) : Region :=
  { base := base, size := size, peekAllowed := flags.getLsbD 0, pokeAllowed := flags.getLsbD 1 }

/-- The map a REGIONS request carries; TABLES is always 256 KiB. -/
def regionMapOf (v : RegionFields) : RegionMap :=
  { tables := regionOf v.tablesBase.toNat 262144 v.tablesFlags
    strips := regionOf v.strips.base.toNat v.strips.size.toNat v.strips.flags
    output := regionOf v.output.base.toNat v.output.size.toNat v.output.flags
    spare := regionOf v.spare.base.toNat v.spare.size.toNat v.spare.flags }

/-- A region's size is one that it allows: STRIPS 8 to 256 MiB, OUTPUT 1 to 128 MiB, SPARE 0 or 256 KiB to 64 MiB,
powers of two; TABLES must not be poke-allowed (section 9.2, R164). -/
def sizeAllowed (m : RegionMap) : RegionId → Bool
  | .tables => !m.tables.pokeAllowed
  | .strips => isDoubling m.strips.size 8388608 5
  | .output => isDoubling m.output.size 1048576 7
  | .spare => m.spare.size == 0 || isDoubling m.spare.size 262144 8

/-- A base is a multiple of the region's size; SPARE of size 0 passes (R164). -/
def regionAligned (r : Region) : Bool := r.size == 0 || decide (r.base % r.size = 0)

/-- A region's last byte lies within the installed size; SPARE of size 0 passes (R164). -/
def regionFits (installed : Nat) (r : Region) : Bool := r.size == 0 || decide (r.base + r.size ≤ installed)

/-- Two regions contain a common address. -/
def regionsOverlap (a b : Region) : Bool :=
  decide (0 < a.size) && decide (0 < b.size) && decide (a.base < b.base + b.size) && decide (b.base < a.base + a.size)

/-- The number of a region (R202). -/
def regionCode : RegionId → Byte
  | .tables => 0
  | .strips => 1
  | .output => 2
  | .spare => 3

/-- The pairs of regions in the order of their numbers. -/
def regionPairs : List (RegionId × RegionId) :=
  [(.tables, .strips), (.tables, .output), (.tables, .spare), (.strips, .output), (.strips, .spare), (.output, .spare)]

/-- Why a new map is refused: the detail of section 11.7 and the one or two regions it names. -/
structure MapFailure where
  detail : Byte
  first : Byte
  second : Byte
  deriving DecidableEq, Repr

/-- The checks SIZE, ALIGN, FIT, OVERLAP and RESERVE in that order, the regions in the order of their numbers
(R164; assumption 17). -/
def mapFailure (m : RegionMap) (installed reserve : Nat) : Option MapFailure :=
  ((regionIds.find? fun r => !sizeAllowed m r).map fun r => (⟨16, regionCode r, 0⟩ : MapFailure)).or <|
  ((regionIds.find? fun r => !regionAligned (m.region r)).map fun r => (⟨17, regionCode r, 0⟩ : MapFailure)).or <|
  ((regionIds.find? fun r => !regionFits installed (m.region r)).map fun r => (⟨18, regionCode r, 0⟩ : MapFailure)).or <|
  ((regionPairs.find? fun p => regionsOverlap (m.region p.1) (m.region p.2)).map
    fun p => (⟨19, regionCode p.1, regionCode p.2⟩ : MapFailure)).or <|
  if reserve < m.blockCount then none else some ⟨20, 0, 0⟩

/-! ### PEEK and POKE (R174) -/

/-- The form check of a management access. -/
def accessForm (address length : Nat) : Bool :=
  decide (4 ≤ length) && decide (length ≤ 256) && decide (length % 4 = 0) && decide (address % 4 = 0)

/-- The region a byte address lies in, if any; an address at or beyond the installed size lies in none (R161). -/
def State.regionAt (s : State) (address : Nat) : Option RegionId :=
  if address < s.frameMemory.installedMiB * Config.mebibyte then
    regionIds.find? fun r => (s.frameMemory.map.region r).contains address
  else none

/-- Every byte of a range passes a test in its own region; a byte in no region fails (R174). -/
def State.rangePasses (s : State) (address length : Nat) (test : RegionId → Bool) : Bool :=
  (List.range length).all fun i =>
    match s.regionAt (address + i) with
    | none => false
    | some r => test r

/-- PEEK's region and flag checks (R174). -/
def State.peekAllowed (s : State) (address length : Nat) : Bool :=
  s.rangePasses address length fun r => (s.frameMemory.map.region r).peekAllowed

/-- POKE's region, flag and mode checks (R174). -/
def State.pokeAllowed (s : State) (address length : Nat) : Bool :=
  s.rangePasses address length fun r =>
    match r with
    | .tables => false
    | .spare => s.frameMemory.map.spare.pokeAllowed
    | .strips => s.frameMemory.map.strips.pokeAllowed && decide (s.mgmt.mode = .parked)
    | .output => s.frameMemory.map.output.pokeAllowed && decide (s.mgmt.mode = .parked)

/-! ### Request kinds (R202) -/

/-- The request kind code of a queued request. -/
def requestKindCode : Request → Byte
  | .run => 3
  | .park => 4
  | .settings _ => 5
  | .regions _ => 6
  | .loadOpen _ _ => 7
  | .loadData _ _ => 8
  | .loadClose _ => 9
  | .loadAbandon => 10
  | .activate _ => 11
  | .erase _ => 12
  | .release _ _ => 13
  | .withdraw _ => 14
  | .rerender _ _ => 15
  | .peek _ _ => 16
  | .poke _ _ _ => 17
  | .resetEngine => 18

/-- The fields fit the kind (R185, R202): for POKE as many bytes as the length field says. Every other request value
fits by its form. -/
def requestFits : Request → Bool
  | .poke _ length bytes => decide (bytes.length = length.toNat)
  | _ => true

/-- The field bytes fit the kind code of some request (R185, R202). -/
def fieldsFit (kind : Byte) (fields : List Byte) : Bool :=
  let n := fields.length
  match kind.toNat with
  | 1 | 3 | 4 | 10 | 18 => n == 0
  | 2 | 14 => n == 2
  | 5 => n == 18
  | 6 => n == 32
  | 7 | 13 | 15 => n == 3
  | 8 => decide (2 ≤ n) && decide ((n - 2) % 4 = 0)
  | 9 => n == 4
  | 11 | 12 => n == 1
  | 16 => n == 6
  | 17 => decide (6 ≤ n) && decide (n = 6 + (halfOf (fields.getD 4 0) (fields.getD 5 0)).toNat)
  | _ => false

end Sys2Proof.Machine
end

