-- ==== Sys2Proof/Machine/Routing.lean ====
section
/-! DEFINITION. The Routing Classifier: routing rules, classification and what it creates (R49 to R62), and the
creation of rendition records shared with re-rendering (R61, R21). -/

namespace Sys2Proof.Machine

/-! ### Routing rules (R56 to R59) -/

/-- The field a rule's selector names, as its symbols; an absent field has none. -/
def CodeLine.field (c : CodeLine) (selector : Nat) : List Symbol :=
  match selector with
  | 0 => c.routing.getD []
  | 1 => c.account
  | 2 => c.serial
  | 3 => c.tcode
  | _ => c.amount

/-- The mask in use under a rule's mode: EXACT none, OWN_MASK the rule's own, MASK_A and MASK_B the set's (R58). -/
def maskInUse (img : Image) (e : Nat) : Word :=
  match img.ruleMode e with
  | 0 => 0
  | 1 => img.ruleOwnMask e
  | 2 => img.maskA
  | _ => img.maskB

/-- Position `k`, counted from 1, is ignored or its symbol equals the compare digit (R58). -/
def positionPasses (img : Image) (e : Nat) (field : List Symbol) (k : Nat) : Bool :=
  (maskInUse img e).getLsbD (k - 1)
    || (match field[k - 1]? with
        | some (.digit d) => d.val == img.ruleDigit e k
        | _ => false)

/-- A rule matches a code line (R57, R58, R59). -/
def ruleMatches (img : Image) (e : Nat) (c : CodeLine) : Bool :=
  if img.ruleSelector e = 5 then hasUnreadable c
  else
    let field := c.field (img.ruleSelector e)
    !field.isEmpty && (img.ruleLength e == 0 || img.ruleLength e == field.length)
      && (List.range (img.ruleDigitCount e)).all fun k => positionPasses img e field (k + 1)

/-- The profile the rules give: that of the first enabled rule that matches, or the set's default (R56). -/
def routedProfile (img : Image) (c : CodeLine) : Nat :=
  match (List.range 64).find? fun e => img.ruleEnabled e && ruleMatches img e c with
  | some e => img.ruleProfile e
  | none => img.defaultProfile

/-! ### Rendition records (R61) -/

/-- A rendition record as it is created (R61); its height is set if its side is COMPLETE already (R89). -/
def newRendition (img : Image) (width : Nat) (it : Item) (profile index : Nat) : Rendition :=
  let d := img.descriptor profile index
  let side := it.side d.side
  { index := index, state := .queued, descriptor := d, dropCause := none, chain := [], length := none, check := none
    width := outputWidth img d width
    height := if side.capture = .complete then some (outputHeight img d side.lines) else none
    context := none, stopping := false, eligible := false, restart := false }

/-- The rendition records of a profile, in index order (R61). -/
def newRenditions (img : Image) (width : Nat) (it : Item) (profile : Nat) : List Rendition :=
  (List.range (img.renditionCount profile)).map (newRendition img width it profile)

/-- The new records placed in the render queue, one after another, each offered an engine if it is ready (R61, R62,
R92; assumption 14). -/
def State.placeRenditions (s : State) (slot : Slot) (count : Nat) : State :=
  (List.range count).foldl
    (fun s i => (s.enqueue { slot := slot, index := i }).offerReady { slot := slot, index := i }) s

/-! ### Classification (R50, R54, R60 to R62) -/

/-- The flags set at classification (R60). -/
def classificationFlags (cls : Classification) (code : Option CodeLine) : QualityFlags :=
  { QualityFlags.empty with noCode := decide (cls = .byDefault), badCode := code.any hasUnreadable }

/-- An item classified to a profile: the entry's fields and flags, its rendition records, their places in the queue, and
the tests of the Quality Unit (R60, R61, R62, R126, R131). The ready ones of the new renditions are dispatched, and yields
asked, before those tests, so that an early REFEED finds them RUNNING (assumption 29). -/
def State.classify (s : State) (it : Item) (profile : Nat) (cls : Classification) : State :=
  let img := s.image it.set
  let records := newRenditions img s.lineWidth it profile
  let s := s.modifyItem it.slot fun x =>
    { x with profile := some profile, classification := cls, renditions := some records,
             flags := x.flags.union (classificationFlags cls x.codeLine) }
  let s := s.placeRenditions it.slot records.length
  ((s.evaluateItem it.slot).earlyRefeed it.slot).dispatch

/-- An item classified BY_DEFAULT to its set's default profile (R50, R54). -/
def State.classifyByDefault (s : State) (it : Item) : State :=
  s.classify it (s.image it.set).defaultProfile .byDefault

/-- A code line stored on an UNCLASSIFIED item, which is classified at once (R50). -/
def State.classifyByCode (s : State) (it : Item) (c : CodeLine) : State :=
  let s := s.modifyItem it.slot fun x => { x with codeLine := some c }
  if c.status = .notFound then s.classifyByDefault it
  else s.classify it (routedProfile (s.image it.set) c) .byCode

/-- A delivered code line handled according to the item its tag reaches (R49, R51, R52, R53). -/
def State.deliverCode (s : State) (tag : Half) (c : CodeLine) : State :=
  match s.itemByTag? tag with
  | none => s.composeEvent (.unknownTag tag c.status)
  | some it =>
    if it.state = .cancelling then s.composeEvent (.unknownTag tag c.status)
    else if it.classification = .unclassified then s.classifyByCode it c
    else if it.codeLine.isNone then s.modifyItem it.slot fun x => { x with codeLine := some c, lateCode := true }
    else s.composeEvent (.dupCode tag)

/-- A CODE frame: a malformed one is discarded and counted as bad (R48), any other is delivered (R49). -/
def State.codeFrame (s : State) (tag : Half) (block : CodeBlock) : State :=
  match codeLineOf block with
  | none => s.countBadFrame .track
  | some c => s.deliverCode tag c

/-- The classify deadline of one item tested (R54). -/
def State.testClassify (s : State) (slot : Slot) : State :=
  match s.item? slot with
  | none => s
  | some it => if s.classifyDeadlineReached it then s.classifyByDefault it else s

/-- The advice deadline of one item tested: reached, the item is cancelled LATE (R134). -/
def State.testAdvice (s : State) (slot : Slot) : State :=
  match s.item? slot with
  | none => s
  | some it => if s.adviceDeadlineReached it then (s.cancelItem slot .late).dispatch else s

end Sys2Proof.Machine
end

