-- ==== Sys2Proof/Machine/Capture.lean ====
section
/-! DEFINITION. The Capture Unit and the line writer: LINE frames, positions and deadlines, windows and binding, gaps,
strips, the end of a side, and the writing and sealing of strips (R25 to R46, R169, R170). -/

namespace Sys2Proof.Machine

/-! ### Windows (R31) -/

/-- The window tolerance setting. -/
def State.tolerance (s : State) : Position := s.mgmt.settings.windowTolerance.setWidth 32

/-- The window of an item's side at a camera has passed at a position (R31). -/
def State.windowPassed (s : State) (it : Item) (cam : Camera) (q : Position) : Bool :=
  past q ((it.side cam).expectedLead + s.tolerance)

/-- The window of an item's side at a camera is open at a position (R31). -/
def State.windowOpen (s : State) (it : Item) (cam : Camera) (q : Position) : Bool :=
  atOrPast q ((it.side cam).expectedLead - s.tolerance)

/-- The item at the head of a camera's pending list. -/
def State.headItem? (s : State) (cam : Camera) : Option Item := (s.channel cam).pendingList.head?.bind s.item?

/-- The head of a camera's pending list, if its window has passed at a position. -/
def State.passedHead? (s : State) (cam : Camera) (q : Position) : Option Item :=
  (s.headItem? cam).filter fun it => s.windowPassed it cam q

/-- A passed head removed: its item is cancelled NOT_SEEN, with EVENT NOT_SEEN and the counter (R31). -/
def State.removeNotSeen (s : State) (cam : Camera) (it : Item) : State :=
  let s := s.modifyChannel cam fun c => { c with pendingList := c.pendingList.tail }
  let s := (s.cancelItem it.slot .notSeen).dispatch
  let s := s.composeEvent (.notSeen cam it.announcedTag (it.side cam).expectedLead)
  s.modifyCounters fun c => { c with notSeen := saturatingInc c.notSeen }

/-- The passed head to remove first at a position: of both lists, the older item's; of one item at the head of both,
the FRONT one (R31). -/
def State.firstPassed? (s : State) (q : Position) : Option (Camera × Item) :=
  match s.passedHead? .front q, s.passedHead? .rear q with
  | some f, some r => if seqBefore r.sequence f.sequence then some (.rear, r) else some (.front, f)
  | some f, none => some (.front, f)
  | none, some r => some (.rear, r)
  | none, none => none

/-- One passed head of either list removed, if there is one (R31). -/
def State.removeOnePassed (s : State) (q : Position) : State :=
  match s.firstPassed? q with
  | some (cam, it) => s.removeNotSeen cam it
  | none => s

/-- The window tests of an advance: passed heads of both lists removed, oldest first, until none has passed; the two
lists' capacities bound the removals (R31). -/
def removePassed : Nat → State → Position → State
  | 0, s, _ => s
  | n + 1, s, q =>
    match s.firstPassed? q with
    | some (cam, it) => removePassed n (s.removeNotSeen cam it) q
    | none => s

/-- The passed heads of one camera's list removed, at a leading edge (R32 step 1). -/
def removePassedAt : Nat → State → Camera → Position → State
  | 0, s, _, _ => s
  | n + 1, s, cam, p =>
    match s.passedHead? cam p with
    | some it => removePassedAt n (s.removeNotSeen cam it) cam p
    | none => s

/-! ### The reference position (R27) -/

/-- The slots of the non-FREE entries, oldest first. -/
def State.slots (s : State) : List Slot := s.table.items.map Item.slot

/-- The tests of an advance of the reference position, in the order of R27: windows, classify deadlines, advice
deadlines, each oldest first. -/
def State.advanceTests (s : State) (reference : Position) : State :=
  let s := removePassed (2 * Config.pendingCapacity) s reference
  let s := s.slots.foldl State.testClassify s
  s.slots.foldl State.testAdvice s

/-! ### Strips (R39, R41, R170, R171) -/

/-- A strip taken from the head of the free strip list, after an eviction if the list is empty; none if no item is
RETAINED (R39, R40). -/
def State.grantStrip (s : State) : Option (Nat × State) :=
  let take : State → Option (Nat × State) := fun s =>
    match s.frameMemory.freeStrips with
    | [] => none
    | n :: rest => some (n, { s with frameMemory := { s.frameMemory with freeStrips := rest } })
  if s.frameMemory.freeStrips.isEmpty then s.evict.bind take else take s

/-- A strip added to a side's chain if its next line begins one (R36, R39). -/
def State.ensureStrip (s : State) (slot : Slot) (cam : Camera) : Option State :=
  match s.item? slot with
  | none => none
  | some it =>
    if (it.side cam).lines % Config.stripLines = 0 then
      s.grantStrip.map fun g =>
        g.2.modifySide slot cam fun x => { x with chain := x.chain ++ [{ strip := g.1, lines := 0 }] }
    else some s

/-- The line count of the last strip of a chain increased by one (R36). -/
def countLine : List ChainStrip → List ChainStrip
  | [] => []
  | [c] => [{ c with lines := c.lines + 1 }]
  | c :: rest => c :: countLine rest

/-- The next unsealed strip of a side sealed: its check word is recorded from the line writer's running check (R41,
R170). -/
def State.sealNext (s : State) (slot : Slot) (cam : Camera) : State :=
  match s.item? slot with
  | none => s
  | some it =>
    match (it.side cam).chain[(it.side cam).sealedCount]? with
    | none => s
    | some c =>
      let word := checkComplete ((s.channel cam).runningCheck.getD checkInit)
      let s := { s with frameMemory := { s.frameMemory with checks := checksSet s.frameMemory.checks c.strip word } }
      s.modifySide slot cam fun x => { x with sealedCount := x.sealedCount + 1 }

/-! ### Taking lines (R36, R37, R124) -/

/-- What became of a line that was to be taken into a side. -/
inductive TakeEnd where
  | taken
  | truncated
  | noStrip
  deriving DecidableEq, Repr

/-- A line's pixels counted into a side: lines captured, the last strip's line count, the accumulators; the renditions
that become ready by it are offered engines (R36, R91, R124). -/
def State.recordLine (s : State) (slot : Slot) (cam : Camera) (pixels : List Byte) : State :=
  let recorded := s.modifySide slot cam fun x =>
    { x with lines := x.lines + 1, chain := countLine x.chain,
             accumulators := x.accumulators.map fun a => accumulate s.mgmt.settings.darkLevel.toNat a pixels }
  (recorded.modifyChannel cam fun c => { c with lastTaken := pixels }).wake s

/-- Lines captured of a side of the entry in a slot; 0 for a FREE slot. -/
def State.sideLines (s : State) (slot : Slot) (cam : Camera) : Nat :=
  match s.item? slot with
  | some it => (it.side cam).lines
  | none => 0

/-- One line or filled line taken into a side (R36, R37), or the item cancelled NO_STRIP (R40). -/
def State.takeContent (s : State) (slot : Slot) (cam : Camera) (pixels : List Byte) : State × TakeEnd :=
  match s.ensureStrip slot cam with
  | none => ((s.cancelItem slot .noStrip).dispatch, .noStrip)
  | some s =>
    let s := s.recordLine slot cam pixels
    (s, if s.sideLines slot cam = s.mgmt.settings.maxSideLength.toNat then .truncated else .taken)

/-- Missing lines filled in turn, each a copy of the last line taken; the number filled is returned (R37). -/
def fillLines : Nat → State → Slot → Camera → Nat → State × TakeEnd × Nat
  | 0, s, _, _, done => (s, .taken, done)
  | n + 1, s, slot, cam, done =>
    let step := s.takeContent slot cam (s.channel cam).lastTaken
    match step.2 with
    | .taken => fillLines n step.1 slot cam (done + 1)
    | .truncated => (step.1, .truncated, done + 1)
    | .noStrip => (step.1, .noStrip, done)

/-- An entry appended to a camera's line FIFO (R29). -/
def State.pushFifo (s : State) (cam : Camera) (f : FifoEntry) : State :=
  s.modifyChannel cam fun c => { c with fifo := c.fifo ++ [f] }

/-! ### The end of a side (R42, R43) -/

/-- The heights of an item's renditions on a side that is COMPLETE (R89). -/
def Item.setHeights (img : Image) (cam : Camera) (it : Item) : Item :=
  { it with renditions := it.renditions.map fun rs => rs.map fun q =>
      if q.descriptor.side = cam ∧ q.height = none then
        { q with height := some (outputHeight img q.descriptor (it.side cam).lines) } else q }

/-- The side record at completion: COMPLETE, its trailing position, its truncated mark, its measures (R43, R125). -/
def Side.completed (x : Side) (trailing : Position) (truncated : Bool) (streakSpread : Nat) : Side :=
  { x with capture := .complete, trailing := some trailing, truncated := x.truncated || truncated,
           measures := match x.accumulators with
             | some a => measuresOf streakSpread a
             | none => x.measures }

/-- The deadline and key a completion sets: the classify deadline for a FRONT side, the advice deadline and the key for
a REAR side (R43). -/
def Item.setDeadline (settings : RunSettings) (cam : Camera) (trailing : Position) (it : Item) : Item :=
  match cam with
  | .front => { it with classifyDeadline := some (trailing + settings.classifyMargin.setWidth 32) }
  | .rear =>
    { it with adviceDeadline := some (trailing + settings.adviceMargin.setWidth 32),
              key := .pos (trailing + settings.adviceMargin.setWidth 32) }

/-- The last strip sealed at the completion when every line taken has been written already (R41, R170). -/
def State.sealAtCompletion (s : State) (slot : Slot) (cam : Camera) : State :=
  if (s.channel cam).fifo.any (fun f => f.slot == slot) then s else s.sealNext slot cam

/-- An item whose two sides are COMPLETE enters PROCESSING: the accumulators are released, the advice deadline is
tested, and the item is evaluated if it is classified (R4, R125, R126, R134). -/
def State.enterProcessing (s : State) (slot : Slot) : State :=
  match s.item? slot with
  | none => s
  | some it =>
    if it.state = .capturing ∧ it.front.capture = .complete ∧ it.rear.capture = .complete then
      let s := s.modifyItem slot fun x =>
        { x with state := .processing, front := { x.front with accumulators := none },
                 rear := { x.rear with accumulators := none } }
      ((s.testAdvice slot).evaluateItem slot).dispatch
    else s

/-- The key of the entry in a slot. -/
def State.keyOf (s : State) (slot : Slot) : Option Key := (s.item? slot).map Item.key

/-- Where an item's key has changed, its queued renditions that were ready before have moved to a new place under the new
key, and each may ask an engine to yield (R88, R99; assumption 14). -/
def State.offerMoved (s : State) (before : State) (slot : Slot) : State :=
  if s.keyOf slot = before.keyOf slot then s
  else (s.readyQueue.filter fun r => r.slot == slot && before.ready r).foldl State.requestYield s

/-- A side completes (R43): the channel's bound side becomes absent and it enters the given state; then the record,
the seal, the deadline and key, the heights, the render queue, where the renditions newly ready come before those that have
moved under a new key (assumption 33), the classify test, and the entry to PROCESSING (assumption 13). -/
def State.completeSide (s : State) (slot : Slot) (cam : Camera) (trailing : Position) (truncated : Bool)
    (next : ChannelState) : State :=
  match s.item? slot with
  | none => s
  | some it =>
    let done := s.modifyChannel cam fun c => { c with state := next, bound := none }
    let done := done.modifySide slot cam fun x =>
      x.completed trailing truncated s.mgmt.settings.streakSpread.toNat
    let done := done.sealAtCompletion slot cam
    let done := done.modifyItem slot fun x =>
      (x.setDeadline s.mgmt.settings cam trailing).setHeights (s.image it.set) cam
    let done := done.rankQueue.wake s
    let done := if cam = .rear then done.offerMoved s slot else done
    let done := if cam = .front then done.testClassify slot else done
    done.enterProcessing slot

/-! ### A line seen by its channel (R28, R32 to R38) -/

/-- A line handled as seen in SKIP: without the flag the channel enters IDLE (R28). -/
def State.skipLine (s : State) (cam : Camera) (flag : Bool) : State :=
  if flag then s else s.modifyChannel cam fun c => if c.state = .skip then { c with state := .idle } else c

/-- A line with the flag taken into the side in hand, carrying the fill count before it (R36), from `first`, the index
of its first line in the side. -/
def State.takeLine (s : State) (slot : Slot) (cam : Camera) (position : Position) (pixels : List Byte)
    (first fills : Nat) : State :=
  let step := s.takeContent slot cam pixels
  let entry : FifoEntry :=
    { slot := slot, camera := cam, firstIndex := first, fills := fills, pixels := some pixels }
  match step.2 with
  | .taken => step.1.pushFifo cam entry
  | .truncated => (step.1.pushFifo cam entry).completeSide slot cam (position + 1) true .skip
  | .noStrip => step.1

/-- A leading edge that is not bound: the channel enters SKIP, with EVENT ORPHAN and the counter (R34). -/
def State.orphan (s : State) (cam : Camera) (position : Position) : State :=
  let s := s.modifyChannel cam fun c => { c with state := .skip }
  let s := s.composeEvent (.orphan cam position)
  s.modifyCounters fun c => { c with orphans := saturatingInc c.orphans }

/-- The head bound to a leading edge (R33): the list, the side, the channel, for a FRONT binding the item's state and
the refined rear expected lead (R3), and the edge line as the first of the side. -/
def State.bindEdge (s : State) (cam : Camera) (it : Item) (position : Position) (pixels : List Byte) : State :=
  let s := s.modifyChannel cam fun c =>
    { c with pendingList := c.pendingList.tail, state := .capture, bound := some it.slot }
  let s := s.modifySide it.slot cam fun x => { x with capture := .active, leading := some position }
  let s := match cam with
    | .rear => s
    | .front => s.modifyItem it.slot fun x =>
        { x with state := if x.state = ItemState.announced then ItemState.capturing else x.state,
                 rear := { x.rear with expectedLead := position + s.mgmt.settings.rearOffset.setWidth 32 } }
  s.takeLine it.slot cam position pixels 0 0

/-- The binding procedure (R32). -/
def State.leadingEdge (s : State) (cam : Camera) (position : Position) (pixels : List Byte) : State :=
  let s := removePassedAt Config.pendingCapacity s cam position
  match s.headItem? cam with
  | none => s.orphan cam position
  | some it =>
    if !s.windowOpen it cam position then s.orphan cam position
    else if cam = .rear ∧ it.front.capture = .pending then s.orphan cam position
    else s.bindEdge cam it position pixels

/-- The item of a side lost to a gap of 9 or more lines: the side becomes ABORTED and the item is cancelled LINE_LOSS
(R38). -/
def State.loseSide (s : State) (slot : Slot) (cam : Camera) : State :=
  ((s.modifySide slot cam fun x => { x with capture := .aborted }).cancelItem slot .lineLoss).dispatch

/-- A line seen in CAPTURE after its missing lines, if any, were filled: with the flag it is taken; without it the side
completes (R28, R36, R37, R43). -/
def State.endOfGap (s : State) (slot : Slot) (cam : Camera) (flag : Bool) (position : Position) (pixels : List Byte)
    (first fills : Nat) : State :=
  if flag then s.takeLine slot cam position pixels first fills
  else
    let entry : FifoEntry := { slot := slot, camera := cam, firstIndex := first, fills := fills, pixels := none }
    let s := if fills = 0 then s else s.pushFifo cam entry
    s.completeSide slot cam position false .idle

/-- A line seen in CAPTURE: the gap test, the filled lines, then the line (R35 to R38, R42). -/
def State.captureLine (s : State) (slot : Slot) (cam : Camera) (last : Position) (flag : Bool) (position : Position)
    (pixels : List Byte) : State :=
  let missing := (position - last).toNat - 1
  if Config.fillLimit < missing then (s.loseSide slot cam).skipLine cam flag
  else
    let first := s.sideLines slot cam
    let s := if missing = 0 then s else s.modifySide slot cam fun x => { x with gap := true }
    let filled := fillLines missing s slot cam 0
    match filled.2.1 with
    | .taken => filled.1.endOfGap slot cam flag position pixels first missing
    | .noStrip => filled.1.skipLine cam flag
    | .truncated =>
      let entry : FifoEntry :=
        { slot := slot, camera := cam, firstIndex := first, fills := filled.2.2, pixels := none }
      ((filled.1.pushFifo cam entry).completeSide slot cam (last + lines filled.2.2 + 1) true .skip).skipLine cam flag

/-- A line seen by its channel (R28): the action of the channel's state, then the previous flag and last position. -/
def State.seeLine (s : State) (cam : Camera) (flag : Bool) (position : Position) (pixels : List Byte) : State :=
  let c := s.channel cam
  let acted :=
    match c.state, c.bound with
    | .capture, some slot =>
      s.captureLine slot cam (c.lastPosition.getD (position - 1)) flag position pixels
    | .idle, _ =>
      if flag && !c.previousFlag && decide (s.mgmt.mode = Mode.running) then s.leadingEdge cam position pixels else s
    | _, _ => s.skipLine cam flag
  acted.modifyChannel cam fun c => { c with previousFlag := flag, lastPosition := some position }

/-- A good line dropped at a full line FIFO and counted (R29). -/
def State.dropLine (s : State) : Camera → State
  | .front => s.modifyCounters fun c => { c with droppedFront := saturatingInc c.droppedFront }
  | .rear => s.modifyCounters fun c => { c with droppedRear := saturatingInc c.droppedRear }

/-- A good line offered to its channel (R29). -/
def State.offerLine (s : State) (cam : Camera) (flag : Bool) (position : Position) (pixels : List Byte) : State :=
  if Config.fifoCapacity ≤ (s.channel cam).fifo.length then s.dropLine cam else s.seeLine cam flag position pixels

/-- A good line: the port position moves, a FRONT line advances the reference position and its tests are taken, and
the line is offered to its channel (R26, R27). -/
def State.goodLine (s : State) (cam : Camera) (flag : Bool) (position : Position) (pixels : List Byte) : State :=
  let s := s.modifyChannel cam fun c => { c with portPosition := some position }
  let s := if cam = .front then s.rankQueue.advanceTests position else s
  s.offerLine cam flag position pixels

/-- A LINE frame that has passed the frame check (R26). The document flag byte is 0 for absent (R202). -/
def State.lineFrame (s : State) (camera docFlag : Byte) (position : Position) (pixels : List Byte) : State :=
  match cameraOf camera with
  | none => s.countBadFrame .track
  | some cam =>
    if pixels.length ≠ s.lineWidth then s.countBadFrame .track
    else if (s.channel cam).portPosition.any (fun p => !past position p) then
      s.modifyCounters fun c => { c with badSequence := saturatingInc c.badSequence }
    else s.goodLine cam (docFlag != 0) position pixels

/-! ### The line writer (R169, R170) -/

/-- Line `n` of a side written into its strip: memory, the running check, the last line, and the seal if it completes
the strip (R169, R170, R41). -/
def State.writeLine (s : State) (slot : Slot) (cam : Camera) (n : Nat) (pixels : List Byte) : State :=
  match s.item? slot with
  | none => s
  | some it =>
    let side := it.side cam
    match side.chain[n / Config.stripLines]? with
    | none => s
    | some c =>
      let row := n % Config.stripLines
      let s := s.writeBytes (s.stripAddress c.strip (row * s.lineWidth)) pixels
      let register := if row = 0 then checkInit else (s.channel cam).runningCheck.getD checkInit
      let s := s.modifyChannel cam fun ch =>
        { ch with lastLine := some pixels, runningCheck := some (checkRun register pixels) }
      if row = Config.stripLines - 1 ∨ (side.capture = .complete ∧ n + 1 = side.lines) then s.sealNext slot cam else s

/-- A fill line written: a copy of the camera's last line (R169). -/
def State.writeFill (s : State) (slot : Slot) (cam : Camera) (n : Nat) : State :=
  s.writeLine slot cam n ((s.channel cam).lastLine.getD [])

/-- Fill lines written in turn (R169). -/
def writeFills : Nat → State → Slot → Camera → Nat → State
  | 0, s, _, _, _ => s
  | k + 1, s, slot, cam, n => writeFills k (s.writeFill slot cam n) slot cam (n + 1)

/-- The lines of a FIFO entry written in order: its fill lines, then its own line (R169). -/
def State.writeEntry (s : State) (f : FifoEntry) : State :=
  let s := writeFills f.fills s f.slot f.camera f.firstIndex
  match f.pixels with
  | none => s
  | some pixels => s.writeLine f.slot f.camera (f.firstIndex + f.fills) pixels

/-- The head of a camera's FIFO written in all its bursts: every line still to write of it goes to memory, and the entry
leaves the FIFO; renditions that become ready by a seal are offered engines (R169, R41, R91; assumption 7). -/
def State.lineWrite (s : State) (cam : Camera) : State :=
  match (s.channel cam).fifo with
  | [] => s
  | f :: rest => ((s.writeEntry f).modifyChannel cam fun c => { c with fifo := rest }).wake s

/-- The next line of a FIFO entry written: a fill line while it has one, else its own line (R169). -/
def State.writeNext (s : State) (f : FifoEntry) : State :=
  match f.fills, f.pixels with
  | 0, none => s
  | 0, some pixels => s.writeLine f.slot f.camera f.firstIndex pixels
  | _ + 1, _ => s.writeFill f.slot f.camera f.firstIndex

/-- What a FIFO entry still has to be written for once its next line is written; none after its last (R169). -/
def FifoEntry.afterNext (f : FifoEntry) : Option FifoEntry :=
  match f.fills, f.pixels with
  | 0, _ => none
  | 1, none => none
  | k + 1, _ => some { f with firstIndex := f.firstIndex + 1, fills := k }

/-- One burst of the line writer: one line of the entry at the head of a camera's FIFO (R172); renditions that become ready
by a seal are offered engines (R41, R91). -/
def State.lineBurst (s : State) (cam : Camera) : State :=
  match (s.channel cam).fifo with
  | [] => s
  | f :: rest =>
    ((s.writeNext f).modifyChannel cam fun c => { c with fifo := f.afterNext.toList ++ rest }).wake s

end Sys2Proof.Machine
end

