-- ==== Sys2Proof/Machine/Emission.lean ====
section
/-! DEFINITION. The Emitter: the choice of the next frame, the frames of a rendition, notices and summaries, the end of
a frame (R144 to R157). -/

namespace Sys2Proof.Machine

/-! ### What each frame carries -/

/-- The HEADER of a rendition (R148). -/
def State.headerOf (s : State) (it : Item) (q : Rendition) : Header :=
  { tag := it.announcedTag, batch := it.batch, generation := it.generation, index := q.index, restart := q.restart,
    side := q.descriptor.side, depth := q.descriptor.depth, coding := q.descriptor.coding, width := q.width,
    height := q.height.getD 0, length := q.length.getD 0, profile := it.profile.getD 0, set := it.set,
    loadCount := (s.dir it.set).loadCount }

/-- The number of SEGMENTs of a rendition of `length` bytes (R149). -/
def segmentCount (length : Nat) : Nat := (length + Config.segmentBytes - 1) / Config.segmentBytes

/-- The bytes of SEGMENT `n`: the rendition's bytes 512n onward, at most 512, read from its output chain (R149, R166). -/
def State.segmentBytesOf (s : State) (q : Rendition) (n : Nat) : List Byte :=
  let first := n * Config.segmentBytes
  let count := min Config.segmentBytes (q.length.getD 0 - first)
  s.bytesAt (s.blockAddress (q.chain.getD (first / Config.blockBytes) 0) (first % Config.blockBytes)) count

def State.segmentOf (s : State) (it : Item) (q : Rendition) (n : Nat) : Segment :=
  { tag := it.announcedTag, generation := it.generation, index := q.index, number := n, payload := s.segmentBytesOf q n }

/-- The TRAILER of a rendition (R150). -/
def trailerOf (it : Item) (q : Rendition) : Trailer :=
  { tag := it.announcedTag, generation := it.generation, index := q.index,
    segments := segmentCount (q.length.getD 0), check := q.check.getD 0 }

/-- The CANCEL notice of an item (R153). -/
def noticeOf (it : Item) : CancelNotice := { tag := it.announcedTag, batch := it.batch, generation := it.generation }

def sideReportOf (x : Side) : SideReport :=
  { lines := x.lines, measures := x.measures, gap := x.gap, truncated := x.truncated }

/-- The outcome of one rendition (R154). -/
def outcomeOf (q : Rendition) : OutcomeEntry :=
  { index := q.index, dropped := q.dropCause, length := if q.dropCause.isSome then none else q.length }

/-- The SUMMARY of an item as its fields stand (R154). -/
def State.summaryOf (s : State) (it : Item) : Summary :=
  { tag := it.announcedTag, batch := it.batch, generation := it.generation, set := it.set,
    loadCount := (s.dir it.set).loadCount, profile := it.profile, classification := it.classification,
    codeLine := it.codeLine, lateCode := it.lateCode, front := sideReportOf it.front, rear := sideReportOf it.rear,
    flags := it.flags, advice := if it.generation = 0 then it.advice else none,
    outcomes := (it.renditions.getD []).map outcomeOf }

/-! ### Beginning a frame (R145, R146) -/

/-- A frame begun on the exchange link. -/
def State.beginFrame (s : State) (f : ExchangeFrame) : State :=
  { s with emitter := { s.emitter with frame := some f } }

/-- A credit-bearing frame begun: the credit counter decrements (R145). -/
def State.beginCredit (s : State) (f : ExchangeFrame) : State :=
  { s with emitter := { s.emitter with frame := some f, credits := s.emitter.credits - 1 } }

/-- The next frame of the rendition in hand: the TRAILER once it is due, else the next SEGMENT (R149, R150). -/
def State.continueRendition (s : State) (r : RendRef) (next : Nat) (trailerDue : Bool) : State :=
  match s.item? r.slot, s.rendition? r with
  | some it, some q =>
    if trailerDue then s.beginCredit (.trailer (trailerOf it q))
    else s.beginCredit (.segment (s.segmentOf it q next))
  | _, _ => s

/-- A rendition taken from the queue: it becomes EMITTING and its HEADER begins, which sets emitted any (R146, R148).
One of length 0 has its TRAILER due at once (R149). -/
def State.beginRendition (s : State) (r : RendRef) : State :=
  match s.item? r.slot, s.rendition? r with
  | some it, some q =>
    let s' := s.modifyItem r.slot fun x =>
      { x.modifyRendition r.index (fun q => { q with state := .emitting }) with emittedAny := true }
    let s' := { s' with emitter := { s'.emitter with
      work := .rendition r 0 (decide (segmentCount (q.length.getD 0) = 0)) } }
    s'.beginCredit (.header (s.headerOf it q))
  | _, _ => s

/-- A SUMMARY begun (R146, R154). -/
def State.beginSummary (s : State) (slot : Slot) : State :=
  match s.item? slot with
  | none => s
  | some it =>
    State.beginCredit { s with emitter := { s.emitter with work := .summary slot } } (.summary (s.summaryOf it))

/-- A CANCEL notice begun (R146, R153). -/
def State.beginNotice (s : State) (slot : Slot) : State :=
  match s.item? slot with
  | none => s
  | some it =>
    State.beginCredit { s with emitter := { s.emitter with work := .notice slot } } (.cancel (noticeOf it))

/-- The third case of R146: in IDLE with credit, the head of the summary list, else the head of the emission queue. -/
def State.beginFromLists (s : State) : State :=
  match s.emitter.summaryList, s.emitter.queue with
  | slot :: rest, _ => State.beginSummary { s with emitter := { s.emitter with summaryList := rest } } slot
  | [], .rendition r :: rest => State.beginRendition { s with emitter := { s.emitter with queue := rest } } r
  | [], .notice slot :: rest => State.beginNotice { s with emitter := { s.emitter with queue := rest } } slot
  | [], [] => s

/-- The choice at a frame boundary (R146), taken while the exchange link is UP and no frame is in progress: a waiting
RESPONSE or EVENT, else the rendition in hand, else the lists, the last two only with credit. -/
def State.chooseFrame (s : State) : State :=
  if s.linkUp .exchange ∧ s.emitter.frame = none then
    match s.mgmt.reports with
    | r :: rest => State.beginFrame { s with mgmt := { s.mgmt with reports := rest } } (.report r)
    | [] =>
      if s.emitter.credits = 0 then s
      else
        match s.emitter.work with
        | .rendition r next due => s.continueRendition r next due
        | .idle => s.beginFromLists
        | _ => s
  else s

/-! ### The end of a frame -/

/-- The EMITTING rendition dropped at the end of a frame, because it is stopping (R152): blocks return, BLOCKED engines
are served, and the cancellation is tested for completion. -/
def State.stopEmission (s : State) (r : RendRef) : State :=
  ((s.dropEmitting r).serveReturned s).completeCancel r.slot

/-- The stopping mark of a rendition. -/
def State.isStopping (s : State) (r : RendRef) : Bool := (s.rendition? r).any Rendition.stopping

/-- A HEADER or SEGMENT of the rendition in hand has ended: after SEGMENT `next` the next is due, or the TRAILER (R149);
a stopping rendition is dropped (R152). -/
def State.endPart (s : State) (r : RendRef) (next : Nat) : State :=
  if s.isStopping r then s.stopEmission r
  else
    let count := segmentCount (((s.rendition? r).bind Rendition.length).getD 0)
    { s with emitter := { s.emitter with work := .rendition r next (decide (count ≤ next)) } }

/-- The TRAILER of the rendition in hand has ended: EMITTED, its blocks returned and offered, the summary condition
tested (R150); a stopping rendition is DROPPED all the same (R152). -/
def State.endTrailer (s : State) (r : RendRef) : State :=
  if s.isStopping r then s.stopEmission r
  else
    match s.rendition? r with
    | none => { s with emitter := { s.emitter with work := .idle } }
    | some q =>
      let done := s.modifyRendition r fun q => { q with state := .emitted, chain := [], restart := false }
      let done := { done with
        frameMemory := { done.frameMemory with freeBlocks := done.frameMemory.freeBlocks ++ q.chain },
        emitter := { done.emitter with work := .idle } }
      (done.serveReturned s).testSummary r.slot

/-- A CANCEL notice has ended: the item becomes FREE (R153). -/
def State.endNotice (s : State) (slot : Slot) : State :=
  State.freeItem { s with emitter := { s.emitter with work := .idle } } slot

/-- A SUMMARY has ended: the item enters RETAINED, and a cancel that waited is applied to it (R5, R155). -/
def State.endSummary (s : State) (slot : Slot) : State :=
  let s := { s with emitter := { s.emitter with work := .idle } }
  match s.item? slot with
  | none => s
  | some it =>
    let s := s.modifyItem slot fun x => { x with state := .retained, deferredCancel := none }
    match it.deferredCancel with
    | none => s
    | some cause => (s.cancelItem slot cause).dispatch

/-- The end of the frame in progress by its kind and the work in hand, the frame itself having been taken off. -/
def State.endOf (s : State) (f : ExchangeFrame) : State :=
  if s.emitter.discarded then { s with emitter := { s.emitter with work := .idle, discarded := false } }
  else
    match f, s.emitter.work with
    | .report _, .rendition r _ _ => if s.isStopping r then s.stopEmission r else s
    | .header _, .rendition r _ _ => s.endPart r 0
    | .segment g, .rendition r _ _ => s.endPart r (g.number + 1)
    | .trailer _, .rendition r _ _ => s.endTrailer r
    | .cancel _, .notice slot => s.endNotice slot
    | .summary _, .summary slot => s.endSummary slot
    | _, _ => s

/-- The frame in progress ends (R146, R147, R149 to R155, R160). -/
def State.endFrame (s : State) : State :=
  match s.emitter.frame with
  | none => s
  | some f => State.endOf { s with emitter := { s.emitter with frame := none } } f

/-! ### Credits and the loss of the link (R144, R156) -/

/-- A CREDIT frame (R144). -/
def State.creditFrame (s : State) (grant : Byte) : State :=
  if grant = 0 then s.countBadFrame .exchange
  else
    let sum := s.emitter.credits + grant.toNat
    let s' := { s with emitter := { s.emitter with credits := min sum Config.creditLimit } }
    if Config.creditLimit < sum then s'.composeEvent (.creditOverflow grant.toNat s.emitter.credits) else s'

/-- The rendition in hand at the loss of the link (R156): back to RENDERED with its restart mark, at the head of the
queue; or dropped, if it is stopping. -/
def State.loseRendition (s : State) (r : RendRef) : State :=
  if s.isStopping r then s.stopEmission r
  else
    let s := s.modifyRendition r fun q => { q with state := .rendered, restart := true }
    { s with emitter := { s.emitter with work := .idle, queue := .rendition r :: s.emitter.queue } }

/-- What the Emitter has in hand resolved at the loss of the link (R156, R160). -/
def State.loseWork (s : State) : State :=
  if s.emitter.discarded then { s with emitter := { s.emitter with work := .idle, discarded := false } }
  else
    match s.emitter.work with
    | .idle => s
    | .rendition r _ _ => s.loseRendition r
    | .notice slot => s.endNotice slot
    | .summary slot => s.endSummary slot

/-- The exchange link goes DOWN (R156, R147, R187): the link state, the credits, the frame in progress, the waiting
reports, and the work in hand. -/
def State.loseExchange (s : State) : State :=
  State.loseWork
    { s with
      links := { s.links with exchange := { s.links.exchange with up := false } }
      emitter := { s.emitter with credits := 0, frame := none }
      mgmt := { s.mgmt with reports := [] } }

end Sys2Proof.Machine
end

