-- ==== Sys2Proof/Machine/Modes.lean ====
section
/-! DEFINITION. Mode changes, activation of a set, ANNOUNCE, BATCH, HALT, RESUME, the loss of the track link and the
engine reset (R6 to R10, R15, R46, R77 to R80, R137, R141, R160, R176 to R181, R192). -/

namespace Sys2Proof.Machine

/-! ### Mode changes (R177) -/

/-- The mode changed, with EVENT MODE (R177). -/
def State.changeMode (s : State) (new : Mode) (cause : ModeCause) : State :=
  State.composeEvent { s with mgmt := { s.mgmt with mode := new } } (.modeChange s.mgmt.mode new cause)

/-! ### Activation (R78, R79) -/

/-- The active set left behind by an activation: RETIRING while items are bound to it, else READY (R78). -/
def DirEntry.deactivated (e : DirEntry) : DirEntry :=
  { e with state := if 0 < e.boundCount then .retiring else .ready }

/-- An activation of set `n` applied (R78). -/
def State.applyActivation (s : State) (n : SetNo) : State :=
  let previous := s.sets.active
  let s := match previous with
    | some p => s.modifyDir p DirEntry.deactivated
    | none => s
  let s := s.modifyDir n fun e => { e with state := .active }
  let s := { s with sets := { s.sets with active := some n, pendingActivation := none } }
  s.composeEvent (.setActivated n (s.dir n).loadCount previous s.sets.batch)

/-- A pending activation applied, if there is one (R79, R80). -/
def State.applyPending (s : State) : State :=
  match s.sets.pendingActivation with
  | some n => s.applyActivation n
  | none => s

/-- A BATCH frame (R79). -/
def State.batchFrame (s : State) (number : Half) : State :=
  State.applyPending { s with sets := { s.sets with batch := number } }

/-! ### ANNOUNCE (R6 to R10, R137) -/

/-- A refused ANNOUNCE: ADVICE REFEED under the frame's tag, without an entry (R137). -/
def State.refuseAnnounce (s : State) (tag : Half) (cause : AdviceCause) : State :=
  s.composeAdvice { tag := tag, verdict := .refeed, cause := cause }

/-- The entry that carries the tag superseded: its tag becomes absent at once and it is cancelled TAG_REUSE (R7). -/
def State.supersede (s : State) (tag : Half) : State :=
  match s.itemByTag? tag with
  | none => s
  | some it => ((s.modifyItem it.slot fun x => { x with tag := none }).cancelItem it.slot .tagReuse).dispatch

/-- The lowest-numbered FREE slot. -/
def State.freeSlot? (s : State) : Option Slot := (List.range Config.itemSlots).find? fun n => (s.item? n).isNone

/-- A side record at acceptance (R10, R124). -/
def newSide (expectedLead : Position) (width : Nat) : Side :=
  { capture := .pending, expectedLead := expectedLead, leading := none, trailing := none, lines := 0, chain := [],
    sealedCount := 0, gap := false, truncated := false, measures := { mean := 0, dense := 0, streak := 0 },
    accumulators := some (clearedAccumulators width) }

/-- The entry of an accepted ANNOUNCE (R10). -/
def State.newItem (s : State) (slot : Slot) (set : SetNo) (tag : Half) (lead : Position) (length : Half) : Item :=
  let v := s.mgmt.settings
  let frontLead := lead + v.frontOffset.setWidth 32
  let rearLead := frontLead + v.rearOffset.setWidth 32
  { slot := slot, state := .announced, announcedTag := tag, tag := some tag, sequence := s.table.announceSeq,
    batch := s.sets.batch, lead := lead, announcedLength := length, set := set, generation := 0, rerenderOrder := none,
    profile := none, classification := .unclassified, codeLine := none, lateCode := false,
    front := newSide frontLead s.lineWidth, rear := newSide rearLead s.lineWidth, classifyDeadline := none,
    adviceDeadline := none, key := .pos (rearLead + length.setWidth 32 + v.adviceMargin.setWidth 32),
    flags := QualityFlags.empty, advice := none, renditions := none, emittedAny := false, cancelCause := none,
    evaluated := false, deferredCancel := none }

/-- The entry made: the table, the sequence counter, the items-announced counter, the binding, both pending lists
(R10, R30, R81). -/
def State.addItem (s : State) (it : Item) : State :=
  let join : Channel → Channel := fun c => { c with pendingList := c.pendingList ++ [it.slot] }
  let s := { s with table := { s.table with items := s.table.items ++ [it], announceSeq := s.table.announceSeq + 1 } }
  let s := s.modifyCounters fun c => { c with announced := saturatingInc c.announced }
  let s := s.modifyDir it.set fun e => { e with boundCount := e.boundCount + 1 }
  (s.modifyChannel .front join).modifyChannel .rear join

/-- An ANNOUNCE accepted (R10). The mode RUNNING implies an ACTIVE set and, after R8, a FREE slot. -/
def State.acceptAnnounce (s : State) (tag : Half) (lead : Position) (length : Half) : State :=
  match s.freeSlot?, s.sets.active with
  | some slot, some set => s.addItem (s.newItem slot set tag lead length)
  | _, _ => s

/-- Either pending list holds 8 entries (R9). -/
def State.crowded (s : State) : Bool :=
  decide (Config.pendingCapacity ≤ s.capture.front.pendingList.length)
    || decide (Config.pendingCapacity ≤ s.capture.rear.pendingList.length)

/-- The steps R9 and R10 of an ANNOUNCE, a slot being FREE. -/
def State.admitAnnounce (s : State) (tag : Half) (lead : Position) (length : Half) : State :=
  if s.crowded then s.refuseAnnounce tag .crowded else s.acceptAnnounce tag lead length

/-- The steps R8 to R10 of an ANNOUNCE. -/
def State.placeAnnounce (s : State) (tag : Half) (lead : Position) (length : Half) : State :=
  if s.table.items.length < Config.itemSlots then s.admitAnnounce tag lead length
  else
    match s.evict with
    | some s' => s'.admitAnnounce tag lead length
    | none => s.refuseAnnounce tag .noSlot

/-- An ANNOUNCE frame (R6 to R10). -/
def State.announceFrame (s : State) (tag : Half) (lead : Position) (length : Half) : State :=
  if length = 0 then s.countBadFrame .track
  else if s.mgmt.mode ≠ .running then s.refuseAnnounce tag .notRunning
  else (s.supersede tag).placeAnnounce tag lead length

/-! ### Halt and resume (R15, R46, R179 to R181) -/

/-- An item in ANNOUNCED or CAPTURING cancelled JAM (R15). -/
def State.jam (s : State) (slot : Slot) : State :=
  match s.item? slot with
  | none => s
  | some it =>
    if it.state = .announced ∨ it.state = .capturing then (s.cancelItem slot .jam).dispatch else s

/-- A channel at a halt: no pending list, and CAPTURE or SKIP becomes SKIP with no bound side (R46). -/
def Channel.halted (c : Channel) : Channel :=
  { c with pendingList := [], bound := none, state := if c.state = .idle then .idle else .skip }

/-- The mode enters HALTED (R15, R46, R179; assumption 12): EVENT MODE, the JAM cancels oldest first, the channels. -/
def State.enterHalted (s : State) (cause : ModeCause) : State :=
  let s := s.changeMode .halted cause
  let s := s.slots.foldl State.jam s
  (s.modifyChannel .front Channel.halted).modifyChannel .rear Channel.halted

/-- A HALT frame (R179). -/
def State.haltFrame (s : State) : State := if s.mgmt.mode = .running then s.enterHalted .halt else s

/-- A RESUME frame (R181). -/
def State.resumeFrame (s : State) : State := if s.mgmt.mode = .halted then s.changeMode .running .resume else s

/-- A counter increased by `n`, saturating (R191). -/
def saturatingAdd (c : Word) (n : Nat) : Word := if 4294967295 - c.toNat < n then 0xFFFFFFFF#32 else c + BitVec.ofNat 32 n

/-- ADVICE frames the Track Port holds: those queued and one left over from before an engine reset. -/
def AdviceOut.held (a : AdviceOut) : Nat := a.queue.length + (if a.leftover.isSome then 1 else 0)

/-- The track link goes DOWN (R138, R180): the advice queue is lost and counted, and a RUNNING mode enters HALTED. -/
def State.loseTrack (s : State) : State :=
  let s := { s with links := { s.links with track := { s.links.track with up := false } } }
  let lost := s.modifyCounters fun c => { c with adviceLost := saturatingAdd c.adviceLost s.adviceOut.held }
  let lost := { lost with adviceOut := { queue := [], leftover := none } }
  if s.mgmt.mode = .running then lost.enterHalted .trackLink else lost

/-! ### Engine reset (R192) -/

/-- A camera channel after engine reset: the FRONT port position is kept (R47, R176). -/
def Channel.engineReset (c : Channel) (cam : Camera) : Channel :=
  { State.resetChannel with portPosition := if cam = .front then c.portPosition else none }

/-- A directory entry after engine reset (R86). -/
def DirEntry.engineReset (e : DirEntry) : DirEntry :=
  match e.state with
  | .loading => { e with state := .empty, imageLength := 0, imageCheck := none, boundCount := 0 }
  | .retiring => { e with state := .ready, boundCount := 0 }
  | _ => { e with boundCount := 0 }

/-- The Table Set Store after engine reset (R86). -/
def TableStore.engineReset (t : TableStore) : TableStore :=
  { t with set0 := t.set0.engineReset, set1 := t.set1.engineReset, set2 := t.set2.engineReset,
           set3 := t.set3.engineReset, load := none, pendingActivation := none }

/-- The Track Port after engine reset: an ADVICE begun goes on being sent, the rest is discarded (R141). -/
def AdviceOut.engineReset (a : AdviceOut) (trackUp : Bool) : AdviceOut :=
  { queue := [], leftover := a.leftover.or (if trackUp then a.queue.head? else none) }

/-- The Emitter after engine reset: lists empty, credits kept, and the work in hand ends with a frame in progress
(R160). -/
def Emitter.engineReset (m : Emitter) : Emitter :=
  { m with queue := [], summaryList := [], work := if m.frame.isSome then m.work else .idle, discarded := m.frame.isSome }

/-- The Frame Memory Controller after engine reset: both pools rebuilt full, the check table clear (R176). -/
def FrameMemory.engineReset (f : FrameMemory) : FrameMemory :=
  { f with freeStrips := List.range f.map.stripCount, freeBlocks := List.range f.map.blockCount, checks := [] }

/-- The step of RESET ENGINE (R192): every block's own reset, the mode with its EVENT MODE, and every counter at 0 at the
end of the step, so that an EVENT lost in it leaves no count (R191). -/
def State.engineReset (s : State) : State :=
  let r := { s with
    table := { items := [], announceSeq := 0, rerenderSeq := 0 }
    capture := { front := s.capture.front.engineReset .front, rear := s.capture.rear.engineReset .rear }
    sets := s.sets.engineReset
    render := { queue := [], re0 := State.idleEngine, re1 := State.idleEngine, re2 := State.idleEngine }
    adviceOut := s.adviceOut.engineReset s.links.track.up
    emitter := s.emitter.engineReset
    frameMemory := s.frameMemory.engineReset }
  (if s.mgmt.mode = .parked then r else r.changeMode .parked .reset).modifyCounters fun _ => State.zeroCounters

end Sys2Proof.Machine
end

