-- ==== Sys2Proof/Machine/Management.lean ====
section
/-! DEFINITION. The Management Unit: admission of requests, the request queue, each queued request's checks and effect,
and the completions that answer the request at the head (R17 to R21, R67 to R77, R83, R84, R164, R165, R172 to R175,
R178, R182, R184 to R188, R193). -/

namespace Sys2Proof.Machine

/-- A RESPONSE without detail, location or result. -/
def plainResponse (corr kind : Byte) (code : ResponseCode) : Response :=
  { corr := corr, kind := kind, code := code, detail := 0, location := (0, 0, 0), result := [] }

/-- A request answered with a code alone. -/
def State.answer (s : State) (q : QueuedRequest) (code : ResponseCode) : State :=
  s.respond (plainResponse q.corr (requestKindCode q.request) code)

/-- A request answered DONE with result fields (R188). -/
def State.answerDone (s : State) (q : QueuedRequest) (result : List Byte) : State :=
  s.respond { plainResponse q.corr (requestKindCode q.request) .done with result := result }

/-- A request answered with a detail and a location (section 11.7). -/
def State.answerDetail (s : State) (q : QueuedRequest) (code : ResponseCode) (detail : Byte)
    (location : Byte × Byte × Byte) : State :=
  s.respond { plainResponse q.corr (requestKindCode q.request) code with detail := detail, location := location }

/-! ### Modes and settings -/

/-- RUN (R178). -/
def State.takeRun (s : State) (q : QueuedRequest) : State :=
  if s.mgmt.mode ≠ .parked then s.answer q .wrongMode
  else if s.sets.active = none then s.answer q .wrongState
  else if !s.linkUp .track then s.answer q .wrongState
  else (s.changeMode .running .run).answer q .done

/-- No item is in flight: every entry is FREE or RETAINED (R182). -/
def State.atRest (s : State) : Bool := s.table.items.all fun it => decide (it.state = .retained)

/-- PARK (R182, R80). -/
def State.takePark (s : State) (q : QueuedRequest) : State :=
  if s.mgmt.mode = .parked then s.answer q .done
  else if !s.atRest then s.answer q .busy
  else (s.applyPending.changeMode .parked .park).answer q .done

/-- SETTINGS (R184): the checks in order; the detail of a BAD_VALUE is 32 plus the setting's place. -/
def State.takeSettings (s : State) (q : QueuedRequest) (v : RunSettings) : State :=
  if s.mgmt.mode ≠ .parked then s.answer q .wrongMode
  else
    match settingsRangeFailure v with
    | some place => s.answerDetail q .badValue (BitVec.ofNat 8 (32 + place)) (0, 0, 0)
    | none =>
      if s.frameMemory.map.blockCount ≤ v.rerenderReserve.toNat then s.answerDetail q .badValue 39 (0, 0, 0)
      else if (v.lineWidth ≠ s.mgmt.settings.lineWidth ∨ v.maxSideLength ≠ s.mgmt.settings.maxSideLength)
          ∧ s.table.items ≠ [] then s.answer q .wrongState
      else State.answer { s with mgmt := { s.mgmt with settings := v } } q .done

/-! ### REGIONS (R84, R164, R165) -/

/-- A directory entry after a change of the TABLES base: EMPTY, the load count kept (R84). -/
def DirEntry.emptied (e : DirEntry) : DirEntry := { e with state := .empty, imageLength := 0, imageCheck := none }

/-- The Table Set Store after a change of the TABLES base (R84). -/
def TableStore.moved (t : TableStore) : TableStore :=
  { t with set0 := t.set0.emptied, set1 := t.set1.emptied, set2 := t.set2.emptied, set3 := t.set3.emptied,
           load := none, active := none, pendingActivation := none }

/-- The region map replaced: the pools rebuilt full, the check table cleared, the sets emptied if the TABLES base
moved (R165, R84). -/
def State.replaceMap (s : State) (m : RegionMap) : State :=
  { s with
    frameMemory := { s.frameMemory with map := m, freeStrips := List.range m.stripCount,
                                        freeBlocks := List.range m.blockCount, checks := [] }
    sets := if m.tables.base = s.frameMemory.map.tables.base then s.sets else s.sets.moved }

/-- REGIONS (R164, R165). -/
def State.takeRegions (s : State) (q : QueuedRequest) (v : RegionFields) : State :=
  if s.mgmt.mode ≠ .parked then s.answer q .wrongMode
  else if s.table.items ≠ [] then s.answer q .wrongState
  else
    let m := regionMapOf v
    match mapFailure m (s.frameMemory.installedMiB * Config.mebibyte) s.mgmt.settings.rerenderReserve.toNat with
    | some f => s.answerDetail q .badValue f.detail (f.first, f.second, 0)
    | none => (s.replaceMap m).answerDone q (u16 m.stripCount ++ u16 m.blockCount)

/-! ### Loads (R67 to R76) -/

/-- LOAD OPEN (R67). -/
def State.takeLoadOpen (s : State) (q : QueuedRequest) (set : Byte) (declared : Half) : State :=
  match setOf set with
  | none => s.answer q .badValue
  | some n =>
    if declared.toNat < 16 ∨ 16384 < declared.toNat then s.answer q .badValue
    else if s.sets.load.isSome then s.answer q .busy
    else if (s.dir n).state = .active ∨ (s.dir n).state = .retiring ∨ s.sets.pendingActivation = some n then
      s.answer q .wrongState
    else
      let s := s.modifyDir n fun e =>
        { e with state := .loading, imageLength := declared.toNat, imageCheck := none }
      let load : OpenLoad :=
        { set := n, declared := declared.toNat, nextOffset := 0, runningCheck := checkInit }
      State.answer { s with sets := { s.sets with load := some load } } q .done

/-- The open load fails (R75): the set becomes INVALID, the record is cleared, the request is answered LOAD_FAULT. -/
def State.failLoad (s : State) (q : QueuedRequest) (l : OpenLoad) (f : LoadFailure) : State :=
  let s := s.modifyDir l.set fun e => { e with state := .invalid }
  State.answerDetail { s with sets := { s.sets with load := none } } q .loadFault f.detail
    (BitVec.ofNat 8 f.part, BitVec.ofNat 8 f.entry, BitVec.ofNat 8 f.sub)

/-- A load fault with a detail alone. -/
def faultDetail (detail : Byte) : LoadFailure := { detail := detail, part := 0, entry := 0, sub := 0 }

/-- LOAD DATA (R68): refused, failing the load, or waiting for the Loader's write. -/
def State.takeLoadData (s : State) (q : QueuedRequest) (offset : Half) (words : List Word) : State × HeadWait :=
  match s.sets.load with
  | none => (s.answer q .wrongState, .nothing)
  | some l =>
    if words.isEmpty ∨ 64 < words.length then (s.answer q .badValue, .nothing)
    else if offset.toNat ≠ l.nextOffset then (s.failLoad q l (faultDetail 1), .nothing)
    else if l.declared < offset.toNat + words.length then (s.failLoad q l (faultDetail 2), .nothing)
    else (s, .loaderWrite)

/-- The Loader's write of a LOAD DATA: the words into the slot, the running check, the next offset, and the DONE (R68,
R203). -/
def State.writeLoad (s : State) (q : QueuedRequest) (offset : Half) (words : List Word) : State :=
  match s.sets.load with
  | none => s.answer q .wrongState
  | some l =>
    let bytes := words.flatMap wordBytes
    let next := l.nextOffset + words.length
    let s := s.writeBytes (s.setAddress l.set (4 * offset.toNat)) bytes
    let l := { l with nextOffset := next, runningCheck := checkRun l.runningCheck bytes }
    State.answerDone { s with sets := { s.sets with load := some l } } q (u16 next)

/-- LOAD CLOSE (R69): refused, failing the load, or waiting for validation. -/
def State.takeLoadClose (s : State) (q : QueuedRequest) (check : Word) : State × HeadWait :=
  match s.sets.load with
  | none => (s.answer q .wrongState, .nothing)
  | some l =>
    if l.nextOffset < l.declared then (s.failLoad q l (faultDetail 3), .nothing)
    else if checkComplete l.runningCheck ≠ check then (s.failLoad q l (faultDetail 4), .nothing)
    else (s, .validation)

/-- Validation ends (R70 to R75): the set becomes READY with a new load count, or INVALID. -/
def State.endValidation (s : State) (q : QueuedRequest) (check : Word) : State :=
  match s.sets.load with
  | none => s.answer q .wrongState
  | some l =>
    match validationFailure (s.image l.set) l.declared with
    | some f => s.failLoad q l f
    | none =>
      let count := (s.dir l.set).loadCount + 1
      let s := s.modifyDir l.set fun e =>
        { e with state := .ready, imageCheck := some check, loadCount := count }
      State.answerDone { s with sets := { s.sets with load := none } } q (halfBytes count)

/-- LOAD ABANDON (R76). -/
def State.takeLoadAbandon (s : State) (q : QueuedRequest) : State :=
  match s.sets.load with
  | none => s.answer q .wrongState
  | some l =>
    let s := s.modifyDir l.set DirEntry.emptied
    State.answer { s with sets := { s.sets with load := none } } q .done

/-! ### ACTIVATE and ERASE (R77, R83) -/

/-- ACTIVATE (R77). -/
def State.takeActivate (s : State) (q : QueuedRequest) (set : Byte) : State :=
  match setOf set with
  | none => s.answer q .badValue
  | some n =>
    match (s.dir n).state with
    | .active => State.answer { s with sets := { s.sets with pendingActivation := none } } q .done
    | .ready =>
      if s.mgmt.mode = .parked then (s.applyActivation n).answer q .done
      else State.answer { s with sets := { s.sets with pendingActivation := some n } } q .done
    | _ => s.answer q .wrongState

/-- ERASE (R83). -/
def State.takeErase (s : State) (q : QueuedRequest) (set : Byte) : State :=
  match setOf set with
  | none => s.answer q .badValue
  | some n =>
    if (s.dir n).state = .active ∨ (s.dir n).state = .retiring ∨ (s.dir n).state = .loading
        ∨ s.sets.pendingActivation = some n then s.answer q .wrongState
    else (s.modifyDir n DirEntry.emptied).answer q .done

/-! ### Requests on items (R17 to R21) -/

/-- The RETAINED items at or before a named one, oldest first (R18). -/
def State.retainedThrough (s : State) (it : Item) : List Slot :=
  (s.table.items.filter fun x => decide (x.state = .retained) && seqAtOrBefore x.sequence it.sequence).map Item.slot

/-- RELEASE, of one item or in the through form (R17, R18); a form byte that is no code is BAD_VALUE (R202). -/
def State.takeRelease (s : State) (q : QueuedRequest) (tag : Half) (form : Byte) : State :=
  if form ≠ 0 ∧ form ≠ 1 then s.answer q .badValue
  else
    match s.itemByTag? tag with
    | none => s.answer q .noItem
    | some it =>
      if it.state ≠ .retained then s.answer q .wrongState
      else
        let slots := if form = 0 then [it.slot] else s.retainedThrough it
        (slots.foldl State.freeItem s).answerDone q (u8 slots.length)

/-- WITHDRAW (R19). -/
def State.takeWithdraw (s : State) (q : QueuedRequest) (tag : Half) : State :=
  match s.itemByTag? tag with
  | none => s.answer q .noItem
  | some it => ((s.cancelItem it.slot .withdrawn).dispatch).answer q .done

/-- The entry of an accepted RERENDER (R21), evaluated against the new profile (R140). -/
def State.rerenderedItem (s : State) (it : Item) (set : SetNo) (profile : Nat) : Item :=
  let img := s.image set
  let it := { it with
    state := .processing, generation := it.generation + 1, set := set, profile := some profile,
    renditions := some (newRenditions img s.lineWidth it profile), key := .none,
    rerenderOrder := some s.table.rerenderSeq, classifyDeadline := none, adviceDeadline := none,
    flags := keptByRerender it.flags, evaluated := false }
  it.evaluate img

/-- An accepted RERENDER (R21): the binding made before the old one is released, the entry, the counter, and the new
renditions in the queue. -/
def State.rerender (s : State) (it : Item) (set : SetNo) (profile : Nat) : State :=
  let new := s.rerenderedItem it set profile
  let s := s.modifyItem it.slot fun _ => new
  let s := { s with table := { s.table with rerenderSeq := s.table.rerenderSeq + 1 } }
  let s := s.modifyDir set fun e => { e with boundCount := e.boundCount + 1 }
  let s := s.releaseBinding it.set
  s.placeRenditions it.slot (new.renditions.getD []).length

/-- RERENDER (R20). -/
def State.takeRerender (s : State) (q : QueuedRequest) (tag : Half) (profile : Byte) : State :=
  if 15 < profile.toNat then s.answer q .badValue
  else
    match s.itemByTag? tag with
    | none => s.answer q .noItem
    | some it =>
      if it.state ≠ .retained then s.answer q .wrongState
      else if it.generation = 15 then s.answer q .wrongState
      else
        match s.sets.active with
        | none => s.answer q .badValue
        | some set =>
          if (s.image set).profileDefined profile.toNat then
            (s.rerender it set profile.toNat).answerDone q (u8 (it.generation + 1))
          else s.answer q .badValue

/-! ### PEEK, POKE, RESET ENGINE (R174, R192, R193) -/

/-- PEEK (R174): refused, or waiting for its burst. -/
def State.takePeek (s : State) (q : QueuedRequest) (address length : Nat) : State × HeadWait :=
  if !accessForm address length then (s.answer q .badValue, .nothing)
  else if !s.peekAllowed address length then (s.answer q .fenced, .nothing)
  else (s, .managementBurst)

/-- POKE (R174): refused, or waiting for its burst. -/
def State.takePoke (s : State) (q : QueuedRequest) (address length : Nat) : State × HeadWait :=
  if !accessForm address length then (s.answer q .badValue, .nothing)
  else if !s.pokeAllowed address length then (s.answer q .fenced, .nothing)
  else (s, .managementBurst)

/-- RESET ENGINE (R192, R193): the step; complete at once unless a frame is in progress. -/
def State.takeResetEngine (s : State) (q : QueuedRequest) : State × HeadWait :=
  let r := s.engineReset
  if r.emitter.frame.isSome then (r, .engineReset) else (r.answer q .done, .nothing)

/-! ### The request queue (R185, R186) -/

/-- The request at the head taken: its checks and effect, and what it waits for if it is not answered yet (R186). -/
def State.takeRequest (s : State) (q : QueuedRequest) : State × HeadWait :=
  match q.request with
  | .run => (s.takeRun q, .nothing)
  | .park => (s.takePark q, .nothing)
  | .settings v => (s.takeSettings q v, .nothing)
  | .regions v => (s.takeRegions q v, .nothing)
  | .loadOpen set declared => (s.takeLoadOpen q set declared, .nothing)
  | .loadData offset words => s.takeLoadData q offset words
  | .loadClose check => s.takeLoadClose q check
  | .loadAbandon => (s.takeLoadAbandon q, .nothing)
  | .activate set => (s.takeActivate q set, .nothing)
  | .erase set => (s.takeErase q set, .nothing)
  | .release tag form => (s.takeRelease q tag form, .nothing)
  | .withdraw tag => (s.takeWithdraw q tag, .nothing)
  | .rerender tag profile => (s.takeRerender q tag profile, .nothing)
  | .peek address length => s.takePeek q address.toNat length.toNat
  | .poke address length _ => s.takePoke q address.toNat length.toNat
  | .resetEngine => s.takeResetEngine q

/-- The head of the request queue leaves it. -/
def State.popRequest (s : State) : State :=
  { s with mgmt := { s.mgmt with requests := s.mgmt.requests.tail, headWait := .nothing } }

/-- Requests taken in order until the queue is empty or the head waits; each taken one leaves, so the queue's length
bounds it (R186). -/
def takeRequests : Nat → State → State
  | 0, s => s
  | n + 1, s =>
    match s.mgmt.headWait, s.mgmt.requests with
    | .nothing, q :: _ =>
      let taken := s.takeRequest q
      if taken.2 = .nothing then takeRequests n taken.1.popRequest
      else { taken.1 with mgmt := { taken.1.mgmt with headWait := taken.2 } }
    | _, _ => s

/-- The request queue worked until its head waits. -/
def State.workQueue (s : State) : State := takeRequests Config.requestCapacity s

/-- The head of the queue has been answered: it leaves, and the next requests are taken. -/
def State.headAnswered (s : State) : State := s.popRequest.workQueue

/-- A response place reserved for a REQUEST frame, or the frame discarded and counted as bad (R185 steps 1 and 2). -/
def State.reservePlace (s : State) : Option State :=
  if s.responsesHeld < Config.responsePlaces then
    some { s with mgmt := { s.mgmt with reserved := s.mgmt.reserved + 1 } }
  else none

/-- A REQUEST frame of a kind answered at once: with a place, the answer, else discarded and counted (R185). -/
def State.admitAtOnce (s : State) (reply : State → Response) : State :=
  match s.reservePlace with
  | none => s.countBadFrame .exchange
  | some s' => s'.respond (reply s)

/-- A REQUEST frame of a queued kind admitted (R185). -/
def State.admitRequest (s : State) (q : QueuedRequest) : State :=
  match s.reservePlace with
  | none => s.countBadFrame .exchange
  | some s' =>
    if !requestFits q.request then s'.answer q .badValue
    else if Config.requestCapacity ≤ s'.mgmt.requests.length then s'.answer q .full
    else State.workQueue { s' with mgmt := { s'.mgmt with requests := s'.mgmt.requests ++ [q] } }

/-! ### Completions of the head (R69, R173, R193) -/

/-- The Loader's burst ends: a LOAD DATA's words are written and it is answered; a burst of validation changes nothing
(R68, R172). -/
def State.endLoaderBurst (s : State) : State :=
  match s.mgmt.headWait, s.mgmt.requests with
  | .loaderWrite, q :: _ =>
    match q.request with
    | .loadData offset words => (s.writeLoad q offset words).headAnswered
    | _ => s
  | _, _ => s

/-- The management burst ends: a PEEK is answered with the bytes as they stand, a POKE writes its bytes (R174). -/
def State.endManagementBurst (s : State) : State :=
  match s.mgmt.headWait, s.mgmt.requests with
  | .managementBurst, q :: _ =>
    match q.request with
    | .peek address length => (s.answerDone q (s.bytesAt address.toNat length.toNat)).headAnswered
    | .poke address _ bytes => ((s.writeBytes address.toNat bytes).answer q .done).headAnswered
    | _ => s
  | _, _ => s

/-- Validation ends (R74, R75). -/
def State.finishValidation (s : State) : State :=
  match s.mgmt.headWait, s.mgmt.requests with
  | .validation, q :: _ =>
    match q.request with
    | .loadClose check => (s.endValidation q check).headAnswered
    | _ => s
  | _, _ => s

/-- The engine reset is complete once the Emitter has no frame in progress: the DONE, and the next requests (R193). -/
def State.finishReset (s : State) : State :=
  match s.mgmt.headWait, s.mgmt.requests with
  | .engineReset, q :: _ => if s.emitter.frame.isSome then s else (s.answer q .done).headAnswered
  | _, _ => s

/-! ### Arbitration (R172, R173) -/

/-- A client can have a burst waiting in this state. -/
def State.canWait (s : State) : MemoryClient → Bool
  | .lineWriter cam => !(s.channel cam).fifo.isEmpty
  | .emitter =>
    match s.emitter.work with
    | .rendition _ _ due => !due
    | _ => false
  | .engine e => decide ((s.engine e).state = .running)
  | .loader => decide (s.mgmt.headWait = .loaderWrite) || decide (s.mgmt.headWait = .validation)
  | .management => decide (s.mgmt.headWait = .managementBurst)

/-- The engines among the waiting clients, in the urgency order of their renditions (R173). -/
def State.waitingEngines (s : State) (waiting : List MemoryClient) : List EngineId :=
  let held := engineIds.filterMap fun e =>
    if MemoryClient.engine e ∈ waiting then (s.engine e).rendition else none
  (sortUrgent s.moreUrgent held).filterMap s.engineOf?

/-- All clients in the order in which the arbiter grants them (R172, R173). -/
def State.grantOrder (s : State) (waiting : List MemoryClient) : List MemoryClient :=
  [.lineWriter .front, .lineWriter .rear, .emitter] ++ (s.waitingEngines waiting).map .engine ++ [.loader, .management]

/-- The client the arbiter grants the next burst (R173). -/
def State.grant (s : State) (waiting : List MemoryClient) : Option MemoryClient :=
  (s.grantOrder waiting).find? fun c => decide (c ∈ waiting) && s.canWait c

/-- A granted client's burst runs to its end (R172; assumption 7): one line of the line writer's entry, up to 512 bytes
of a served engine's output, the Loader's write, a PEEK or POKE. A burst of a strip still being read, of a SEGMENT's
payload or of validation changes nothing. -/
def State.endBurst (s : State) : MemoryClient → State
  | .lineWriter cam => s.lineBurst cam
  | .emitter => s
  | .engine e => s.resumeOutput e
  | .loader => s.endLoaderBurst
  | .management => s.endManagementBurst

/-- The memory falls free with these clients waiting: the arbiter grants one, and its burst ends (R173). -/
def State.burst (s : State) (waiting : List MemoryClient) : State :=
  match s.grant waiting with
  | some c => s.endBurst c
  | none => s

end Sys2Proof.Machine
end

