-- ==== Sys2Proof/Machine/Links.lean ====
section
/-! DEFINITION. Reset pin, lane receivers, link state and frame reception: the commands POWER_ON_RESET, RECEIVER_LOCK,
RECEIVER_UNLOCK, LINK_UP, TRACK_LINK_DOWN, EXCHANGE_LINK_DOWN, BAD_FRAME and FRAME_KIND_REFUSED (R195 to R201). -/

namespace Sys2Proof.Machine

/-! ### Receivers and links (R195, R196) -/

/-- The last 32 characters received are all valid (R195). -/
def lockReached (received : List LaneChar) : Bool :=
  decide (32 ≤ received.length) && (received.drop (received.length - 32)).all (· != .codeError)

/-- The last 4 characters received are all code errors (R195). -/
def unlockReached (received : List LaneChar) : Bool :=
  decide (4 ≤ received.length) && (received.drop (received.length - 4)).all (· == .codeError)

/-- A receiver's lock state replaced; the link state stays. -/
def State.setLocked (s : State) (k : Link) (locked : Bool) : State :=
  s.setLink k { s.links.link k with locked := locked }

/-- The loss of the exchange link as the whole part sees it: the Emitter, the report queue, an engine reset that waited
for the frame in progress, and the requests behind it (R156, R187, R193). -/
def State.dropExchange (s : State) : State := s.loseExchange.finishReset

/-- The loss of a link that is UP; of a link that is DOWN nothing is lost (R180, R196). -/
def State.dropLink (s : State) : Link → State
  | .track => if s.links.track.up then s.loseTrack else s
  | .exchange => if s.links.exchange.up then s.dropExchange else s

/-! ### Frame reception (R197) -/

/-- How a frame ends: a good frame of kind and payload, one discarded and counted as bad, one discarded and not counted,
or not ended yet. -/
inductive FrameEnd where
  | good (kind : Byte) (payload : List Byte)
  | bad
  | dropped
  | unfinished
  deriving DecidableEq, Repr

/-- The judgement at END of the bytes stored (R197): 5 to 1,040 of them, no code error, the last four equal to the check
over those before them. -/
def judgeFrame (bytes : List Byte) (spoiled : Bool) : FrameEnd :=
  if spoiled || decide (bytes.length < 5) || decide (Config.frameBytes < bytes.length) then .bad
  else
    let body := bytes.take (bytes.length - 4)
    if bytes.drop (bytes.length - 4) = wordBytes (checkOf body) then
      match body with
      | kind :: payload => .good kind payload
      | [] => .bad
    else .bad

/-- The rest of the characters of a frame, with the bytes stored so far, whether a code error has spoiled them, and the code
errors received without another character between (R195, R197): data bytes are stored, IDLE and READY are fill, a code
error spoils the frame; END, START and ABORT end it, and so do a SYNC and the fourth code error in a row, which take the
link DOWN. -/
def receiveChars : List LaneChar → List Byte → Bool → Nat → FrameEnd
  | [], _, _, _ => .unfinished
  | .data b :: rest, bytes, spoiled, _ => receiveChars rest (bytes ++ [b]) spoiled 0
  | .idle :: rest, bytes, spoiled, _ => receiveChars rest bytes spoiled 0
  | .ready :: rest, bytes, spoiled, _ => receiveChars rest bytes spoiled 0
  | .codeError :: rest, bytes, _, errors => if errors = 3 then .dropped else receiveChars rest bytes true (errors + 1)
  | .endOfFrame :: _, bytes, spoiled, _ => judgeFrame bytes spoiled
  | .start :: _, _, _, _ => .bad
  | .abort :: _, _, _, _ => .dropped
  | .sync :: _, _, _, _ => .dropped

/-- The characters after a START, up to the one that ends the frame (R197). -/
def receiveFrame (received : List LaneChar) : FrameEnd := receiveChars received [] false 0

/-- The sum of the five counts of a code line block at the start of a CODE payload. -/
def codeCountSum (payload : List Byte) : Nat := (((payload.drop 3).take 5).map BitVec.toNat).sum

/-- A kind and payload length fit a frame into the part on a link (R200). -/
def frameFits (link : Link) (kind : Byte) (payload : List Byte) : Bool :=
  let n := payload.length
  match link, kind.toNat with
  | .track, 1 => decide (6 ≤ n)
  | .track, 2 => n == 8
  | .track, 3 => decide (8 ≤ n) && n == 8 + codeCountSum payload && decide ((payload.getD 2 0).toNat ≤ 2)
  | .track, 4 => n == 2
  | .track, 5 => n == 0
  | .track, 6 => n == 0
  | .exchange, 16 => n == 1
  | .exchange, 17 => decide (2 ≤ n)
  | _, _ => false

/-! ### What follows every command -/

/-- The Emitter stands at a frame boundary whenever no frame is in progress, and chooses as soon as it can (R146;
assumption 23). -/
def State.settle (s : State) : State := s.chooseFrame

/-- A frame received on a link: taken while the link is UP; while it is DOWN no frame is received on it (R197;
assumption 4). -/
def State.receive (s : State) (k : Link) (f : State → State) : State := if s.linkUp k then (f s).settle else s

/-! ### The commands -/

/-- POWER_ON_RESET (R201, R161): every piece of state at its power-on value, the pins read; the queue of commands is no
part of the part. -/
def execPowerOnReset (msz : BitVec 4) (s : State) : Host.Outcome State Fault Refusal :=
  .next { State.powerOn msz (s.powerOns + 1) with pending := s.pending }

/-- RECEIVER_LOCK (R195). -/
def execReceiverLock (k : Link) (received : List LaneChar) (s : State) : Host.Outcome State Fault Refusal :=
  .next (if !(s.links.link k).locked && lockReached received then s.setLocked k true else s)

/-- RECEIVER_UNLOCK (R195, R196): the receiver becomes UNLOCKED, which brings its link DOWN. -/
def execReceiverUnlock (k : Link) (received : List LaneChar) (signalLost : Bool) (s : State) :
    Host.Outcome State Fault Refusal :=
  .next (if (s.links.link k).locked && (signalLost || unlockReached received) then
    (State.dropLink (s.setLocked k false) k).settle else s)

/-- LINK_UP (R196): the link comes UP when its receiver is LOCKED, a READY has been received and at least 16 have been
sent since. The mode does not change (R180) and the credit counter stays (R157). -/
def execLinkUp (k : Link) (received : List LaneChar) (readysSent : Nat) (s : State) :
    Host.Outcome State Fault Refusal :=
  .next (if (s.links.link k).locked && !(s.links.link k).up && received.contains .ready && decide (16 ≤ readysSent) then
    (s.setLink k { s.links.link k with up := true }).settle else s)

/-- TRACK_LINK_DOWN (R180, R138): a SYNC is received while the link is UP. -/
def execTrackLinkDown (s : State) : Host.Outcome State Fault Refusal := .next (s.dropLink .track).settle

/-- EXCHANGE_LINK_DOWN (R156): a SYNC is received while the link is UP. -/
def execExchangeLinkDown (s : State) : Host.Outcome State Fault Refusal := .next (s.dropLink .exchange).settle

/-- BAD_FRAME (R197): discarded and counted. -/
def execBadFrame (k : Link) (received : List LaneChar) (s : State) : Host.Outcome State Fault Refusal :=
  .next (s.receive k fun s => if receiveFrame received = .bad then s.countBadFrame k else s)

/-- FRAME_KIND_REFUSED (R200): discarded and counted. -/
def execFrameKindRefused (k : Link) (kind : Byte) (payload : List Byte) (s : State) : Host.Outcome State Fault Refusal :=
  .next (s.receive k fun s => if frameFits k kind payload then s else s.countBadFrame k)

end Sys2Proof.Machine
end

