-- ==== Sys2Proof/Decode.lean ====
section
/-! DEFINITION. Decoding: the table of operations gives no row bits; what does stand for commands on the lanes are the
frames of R197, R200 and R202, read here into the commands they are, with the encoder of each frame beside it. -/

namespace Sys2Proof

/-- The command a word spells by the bits of the table of operations: its rows give none (assumption 22). -/
def decodeTableWord (_nbits _w : Nat) : Option Instr := none

namespace Machine

/-! ### Fields of a payload (R202) -/

/-- The one-byte field at a place of a payload. -/
def byteAt (p : List Byte) (i : Nat) : Byte := p.getD i 0

/-- The two-byte field at a place, most significant byte first. -/
def halfAt (p : List Byte) (i : Nat) : Half := halfOf (byteAt p i) (byteAt p (i + 1))

/-- The four-byte field at a place, most significant byte first. -/
def wordAt (p : List Byte) (i : Nat) : Word :=
  wordOf (byteAt p i) (byteAt p (i + 1)) (byteAt p (i + 2)) (byteAt p (i + 3))

/-- Words of four bytes each; bytes left over are none. -/
def wordsOf : List Byte → List Word
  | a :: b :: c :: d :: rest => wordOf a b c d :: wordsOf rest
  | _ => []

/-! ### Frames into the part (R200, R202) -/

/-- The code line block that follows the tag of a CODE payload. -/
def codeBlockOf (p : List Byte) : CodeBlock :=
  let count := fun k => (byteAt p (3 + k)).toNat
  let s0 := p.drop 8
  let s1 := s0.drop (count 0)
  let s2 := s1.drop (count 1)
  let s3 := s2.drop (count 2)
  let s4 := s3.drop (count 3)
  { status := byteAt p 2, routing := s0.take (count 0), account := s1.take (count 1), serial := s2.take (count 2),
    tcode := s3.take (count 3), amount := s4.take (count 4) }

/-- The settings of a SETTINGS request. -/
def settingsOf (f : List Byte) : RunSettings :=
  { lineWidth := halfAt f 0, frontOffset := halfAt f 2, rearOffset := halfAt f 4, windowTolerance := halfAt f 6,
    maxSideLength := halfAt f 8, classifyMargin := halfAt f 10, adviceMargin := halfAt f 12,
    rerenderReserve := halfAt f 14, darkLevel := byteAt f 16, streakSpread := byteAt f 17 }

/-- The map of a REGIONS request. -/
def regionFieldsOf (f : List Byte) : RegionFields :=
  { tablesBase := wordAt f 0, tablesFlags := byteAt f 4
    strips := { base := wordAt f 5, size := wordAt f 9, flags := byteAt f 13 }
    output := { base := wordAt f 14, size := wordAt f 18, flags := byteAt f 22 }
    spare := { base := wordAt f 23, size := wordAt f 27, flags := byteAt f 31 } }

/-- The command a REQUEST payload is: one of the requests when its fields fit its kind, else REQUEST_UNKNOWN_KIND
(R185). -/
def commandOfRequest (corr kind : Byte) (f : List Byte) : Instr :=
  if !fieldsFit kind f then .requestUnknownKind corr kind f
  else
    match kind.toNat with
    | 1 => .status corr
    | 2 => .item corr (halfAt f 0)
    | 3 => .run corr
    | 4 => .park corr
    | 5 => .settings corr (settingsOf f)
    | 6 => .regions corr (regionFieldsOf f)
    | 7 => .loadOpen corr (byteAt f 0) (halfAt f 1)
    | 8 => .loadData corr (halfAt f 0) (wordsOf (f.drop 2))
    | 9 => .loadClose corr (wordAt f 0)
    | 10 => .loadAbandon corr
    | 11 => .activate corr (byteAt f 0)
    | 12 => .erase corr (byteAt f 0)
    | 13 => if byteAt f 2 = 1 then .releaseThrough corr (halfAt f 0) else .release corr (halfAt f 0) (byteAt f 2)
    | 14 => .withdraw corr (halfAt f 0)
    | 15 => .rerender corr (halfAt f 0) (byteAt f 2)
    | 16 => .peek corr (wordAt f 0) (halfAt f 4)
    | 17 => .poke corr (wordAt f 0) (halfAt f 4) (f.drop 6)
    | 18 => .resetEngine corr
    | _ => .requestUnknownKind corr kind f

/-- The command a good frame is: the owner's, when kind and payload length fit, else FRAME_KIND_REFUSED (R200). -/
def commandOfFrame (link : Link) (kind : Byte) (p : List Byte) : Instr :=
  if !frameFits link kind p then .frameKindRefused link kind p
  else
    match link, kind.toNat with
    | .track, 1 => .line (byteAt p 0) (byteAt p 1) (wordAt p 2) (p.drop 6)
    | .track, 2 => .announce (halfAt p 0) (wordAt p 2) (halfAt p 6)
    | .track, 3 => .code (halfAt p 0) (codeBlockOf p)
    | .track, 4 => .batch (halfAt p 0)
    | .track, 5 => .halt
    | .track, 6 => .resume
    | .exchange, 16 => .credit (byteAt p 0)
    | .exchange, 17 => commandOfRequest (byteAt p 0) (byteAt p 1) (p.drop 2)
    | _, _ => .frameKindRefused link kind p

/-- The command that the characters after a START are, once they end the frame: a good frame by its kind, a bad one
BAD_FRAME; a frame cut by ABORT or by the link going DOWN is none (R197). -/
def commandOfChars (link : Link) (received : List LaneChar) : Option Instr :=
  match receiveFrame received with
  | .good kind payload => some (commandOfFrame link kind payload)
  | .bad => some (.badFrame link received)
  | .dropped => none
  | .unfinished => none

/-! ### The encoder (R202) -/

/-- The bytes of a code line block. -/
def codeBlockBytes (b : CodeBlock) : List Byte :=
  [b.status, BitVec.ofNat 8 b.routing.length, BitVec.ofNat 8 b.account.length, BitVec.ofNat 8 b.serial.length,
    BitVec.ofNat 8 b.tcode.length, BitVec.ofNat 8 b.amount.length]
    ++ (b.routing ++ (b.account ++ (b.serial ++ (b.tcode ++ b.amount))))

def regionFieldBytes (r : RegionField) : List Byte := wordBytes r.base ++ wordBytes r.size ++ [r.flags]

def regionFieldsBytes (v : RegionFields) : List Byte :=
  wordBytes v.tablesBase ++ [v.tablesFlags] ++ regionFieldBytes v.strips ++ regionFieldBytes v.output
    ++ regionFieldBytes v.spare

/-- The correlation number, kind code and fields of a command that is a REQUEST. -/
def requestBytes : Instr → Option (Byte × Byte × List Byte)
  | .status corr => some (corr, 1, [])
  | .item corr tag => some (corr, 2, halfBytes tag)
  | .run corr => some (corr, 3, [])
  | .park corr => some (corr, 4, [])
  | .settings corr v => some (corr, 5, settingsBytes v)
  | .regions corr v => some (corr, 6, regionFieldsBytes v)
  | .loadOpen corr set declared => some (corr, 7, set :: halfBytes declared)
  | .loadData corr offset words => some (corr, 8, halfBytes offset ++ words.flatMap wordBytes)
  | .loadClose corr check => some (corr, 9, wordBytes check)
  | .loadAbandon corr => some (corr, 10, [])
  | .activate corr set => some (corr, 11, [set])
  | .erase corr set => some (corr, 12, [set])
  | .release corr tag form => some (corr, 13, halfBytes tag ++ [form])
  | .releaseThrough corr tag => some (corr, 13, halfBytes tag ++ [1])
  | .withdraw corr tag => some (corr, 14, halfBytes tag)
  | .rerender corr tag profile => some (corr, 15, halfBytes tag ++ [profile])
  | .peek corr address length => some (corr, 16, wordBytes address ++ halfBytes length)
  | .poke corr address length bytes => some (corr, 17, wordBytes address ++ halfBytes length ++ bytes)
  | .resetEngine corr => some (corr, 18, [])
  | .requestUnknownKind corr kind fields => some (corr, kind, fields)
  | _ => none

/-- The link, kind code and payload of a command that is a good frame; the other commands are no frames. -/
def frameOf (i : Instr) : Option (Link × Byte × List Byte) :=
  match i with
  | .frameKindRefused link kind payload => some (link, kind, payload)
  | .line camera docFlag position pixels => some (.track, 1, [camera, docFlag] ++ wordBytes position ++ pixels)
  | .announce tag lead length => some (.track, 2, halfBytes tag ++ wordBytes lead ++ halfBytes length)
  | .code tag block => some (.track, 3, halfBytes tag ++ codeBlockBytes block)
  | .batch number => some (.track, 4, halfBytes number)
  | .halt => some (.track, 5, [])
  | .resume => some (.track, 6, [])
  | .credit grant => some (.exchange, 16, [grant])
  | i => (requestBytes i).map fun r => (.exchange, 17, r.1 :: r.2.1 :: r.2.2)

end Machine

end Sys2Proof
end

