-- ==== Sys2Proof/Machine/Track.lean ====
section
/-! DEFINITION. The commands of the track: LINE, the three deadlines, LINE_WRITE, ANNOUNCE, CODE, BATCH, HALT, RESUME
and ADVICE_SENT. -/

namespace Sys2Proof.Machine

/-- LINE (R26). -/
def execLine (camera docFlag : Byte) (position : Position) (pixels : List Byte) (s : State) :
    Host.Outcome State Fault Refusal :=
  .next (s.receive .track fun s => s.lineFrame camera docFlag position pixels)

/-- WINDOW_PASSED (R31): the passed head that comes first at the reference position is removed (assumption 6). -/
def execWindowPassed (s : State) : Host.Outcome State Fault Refusal :=
  .next (match s.reference with
    | some q => (s.removeOnePassed q).settle
    | none => s)

/-- CLASSIFY_DEADLINE (R54): the oldest item whose classify deadline is reached is classified BY_DEFAULT (assumption
6). -/
def execClassifyDeadline (s : State) : Host.Outcome State Fault Refusal :=
  .next (match s.table.items.find? s.classifyDeadlineReached with
    | some it => (s.classifyByDefault it).settle
    | none => s)

/-- ADVICE_DEADLINE (R134): the oldest item whose advice deadline is reached is cancelled LATE (assumption 6). -/
def execAdviceDeadline (s : State) : Host.Outcome State Fault Refusal :=
  .next (match s.table.items.find? s.adviceDeadlineReached with
    | some it => ((s.cancelItem it.slot .late).dispatch).settle
    | none => s)

/-- LINE_WRITE (R169). -/
def execLineWrite (cam : Camera) (s : State) : Host.Outcome State Fault Refusal := .next (s.lineWrite cam).settle

/-- ANNOUNCE (R6 to R10). -/
def execAnnounce (tag : Half) (lead : Position) (length : Half) (s : State) : Host.Outcome State Fault Refusal :=
  .next (s.receive .track fun s => s.announceFrame tag lead length)

/-- CODE (R48, R49). -/
def execCode (tag : Half) (block : CodeBlock) (s : State) : Host.Outcome State Fault Refusal :=
  .next (s.receive .track fun s => s.codeFrame tag block)

/-- BATCH (R79). -/
def execBatch (number : Half) (s : State) : Host.Outcome State Fault Refusal :=
  .next (s.receive .track fun s => s.batchFrame number)

/-- HALT (R179). -/
def execHalt (s : State) : Host.Outcome State Fault Refusal := .next (s.receive .track State.haltFrame)

/-- RESUME (R181). -/
def execResume (s : State) : Host.Outcome State Fault Refusal := .next (s.receive .track State.resumeFrame)

/-- The ADVICE being sent has gone out: one left over from before an engine reset, else the head of the queue (R138,
R141). -/
def AdviceOut.sent (a : AdviceOut) : AdviceOut :=
  if a.leftover.isSome then { a with leftover := none } else { a with queue := a.queue.tail }

/-- ADVICE_SENT (R138): nothing is being sent while the track link is DOWN. -/
def execAdviceSent (s : State) : Host.Outcome State Fault Refusal :=
  .next (if s.links.track.up then { s with adviceOut := s.adviceOut.sent } else s)

end Sys2Proof.Machine
end

