-- ==== Sys2Proof/Machine/Exchange.lean ====
section
/-! DEFINITION. The commands of the engines and of the exchange link's frames: STRIP_READ, CREDIT, FRAME_END,
TRAILER_END, CANCEL_NOTICE_END, SUMMARY_END, BURST_END and VALIDATION_END. -/

namespace Sys2Proof.Machine

/-- STRIP_READ (R94). -/
def execStripRead (e : EngineId) (s : State) : Host.Outcome State Fault Refusal := .next (s.stripRead e).settle

/-- CREDIT (R144). -/
def execCredit (grant : Byte) (s : State) : Host.Outcome State Fault Refusal :=
  .next (s.receive .exchange fun s => s.creditFrame grant)

/-- The frame in progress ends, an engine reset that waited for it is complete, and the Emitter chooses the next frame
(R146, R193). -/
def State.frameEnded (s : State) : State := s.endFrame.finishReset.settle

/-- FRAME_END (R146): the frame in progress, of any kind, ends. -/
def execFrameEnd (s : State) : Host.Outcome State Fault Refusal := .next s.frameEnded

/-- TRAILER_END (R150): the TRAILER in progress ends. -/
def execTrailerEnd (s : State) : Host.Outcome State Fault Refusal :=
  .next (match s.emitter.frame with
    | some (.trailer _) => s.frameEnded
    | _ => s)

/-- CANCEL_NOTICE_END (R153): the CANCEL notice in progress ends. -/
def execCancelNoticeEnd (s : State) : Host.Outcome State Fault Refusal :=
  .next (match s.emitter.frame with
    | some (.cancel _) => s.frameEnded
    | _ => s)

/-- SUMMARY_END (R155): the SUMMARY in progress ends. -/
def execSummaryEnd (s : State) : Host.Outcome State Fault Refusal :=
  .next (match s.emitter.frame with
    | some (.summary _) => s.frameEnded
    | _ => s)

/-- BURST_END (R173). -/
def execBurstEnd (waiting : List MemoryClient) (s : State) : Host.Outcome State Fault Refusal :=
  .next (s.burst waiting).settle

/-- VALIDATION_END (R74, R75). -/
def execValidationEnd (s : State) : Host.Outcome State Fault Refusal := .next s.finishValidation.settle

end Sys2Proof.Machine
end

