-- ==== Sys2Proof/Machine/Requests.lean ====
section
/-! DEFINITION. The commands that are REQUEST frames: each is admitted by R185, and its effect is that of the request
when it is taken from the queue. -/

namespace Sys2Proof.Machine

/-- STATUS (R189): answered at once with the state of the part. -/
def execStatus (corr : Byte) (s : State) : Host.Outcome State Fault Refusal :=
  .next (s.receive .exchange fun s =>
    s.admitAtOnce fun s => { plainResponse corr 1 .done with result := s.statusResult })

/-- The answer to ITEM (R23). -/
def State.itemReply (s : State) (corr : Byte) (tag : Half) : Response :=
  match s.itemByTag? tag with
  | some it => { plainResponse corr 2 .done with result := itemResult it }
  | none => plainResponse corr 2 .noItem

/-- ITEM (R23). -/
def execItem (corr : Byte) (tag : Half) (s : State) : Host.Outcome State Fault Refusal :=
  .next (s.receive .exchange fun s => s.admitAtOnce fun s => s.itemReply corr tag)

/-- REQUEST_UNKNOWN_KIND (R185): answered BAD_VALUE at once. Field bytes that fit a known kind are another command. -/
def execRequestUnknownKind (corr kind : Byte) (fields : List Byte) (s : State) : Host.Outcome State Fault Refusal :=
  .next (s.receive .exchange fun s =>
    if fieldsFit kind fields then s else s.admitAtOnce fun _ => plainResponse corr kind .badValue)

/-- A REQUEST frame of a queued kind received (R185). -/
def State.request (s : State) (corr : Byte) (r : Request) : State :=
  s.receive .exchange fun s => s.admitRequest { corr := corr, request := r }

/-- RUN (R178). -/
def execRun (corr : Byte) (s : State) : Host.Outcome State Fault Refusal := .next (s.request corr .run)

/-- PARK (R182). -/
def execPark (corr : Byte) (s : State) : Host.Outcome State Fault Refusal := .next (s.request corr .park)

/-- SETTINGS (R184). -/
def execSettings (corr : Byte) (v : RunSettings) (s : State) : Host.Outcome State Fault Refusal :=
  .next (s.request corr (.settings v))

/-- REGIONS (R164). -/
def execRegions (corr : Byte) (v : RegionFields) (s : State) : Host.Outcome State Fault Refusal :=
  .next (s.request corr (.regions v))

/-- LOAD OPEN (R67). -/
def execLoadOpen (corr set : Byte) (declared : Half) (s : State) : Host.Outcome State Fault Refusal :=
  .next (s.request corr (.loadOpen set declared))

/-- LOAD DATA (R68). -/
def execLoadData (corr : Byte) (offset : Half) (words : List Word) (s : State) : Host.Outcome State Fault Refusal :=
  .next (s.request corr (.loadData offset words))

/-- LOAD CLOSE (R69). -/
def execLoadClose (corr : Byte) (check : Word) (s : State) : Host.Outcome State Fault Refusal :=
  .next (s.request corr (.loadClose check))

/-- LOAD ABANDON (R76). -/
def execLoadAbandon (corr : Byte) (s : State) : Host.Outcome State Fault Refusal := .next (s.request corr .loadAbandon)

/-- ACTIVATE (R77). -/
def execActivate (corr set : Byte) (s : State) : Host.Outcome State Fault Refusal :=
  .next (s.request corr (.activate set))

/-- ERASE (R83). -/
def execErase (corr set : Byte) (s : State) : Host.Outcome State Fault Refusal := .next (s.request corr (.erase set))

/-- RELEASE (R17, R202). -/
def execRelease (corr : Byte) (tag : Half) (form : Byte) (s : State) : Host.Outcome State Fault Refusal :=
  .next (s.request corr (.release tag form))

/-- RELEASE in the through form, form byte 1 (R18, R202). -/
def execReleaseThrough (corr : Byte) (tag : Half) (s : State) : Host.Outcome State Fault Refusal :=
  .next (s.request corr (.release tag 1))

/-- WITHDRAW (R19). -/
def execWithdraw (corr : Byte) (tag : Half) (s : State) : Host.Outcome State Fault Refusal :=
  .next (s.request corr (.withdraw tag))

/-- RERENDER (R20, R21). -/
def execRerender (corr : Byte) (tag : Half) (profile : Byte) (s : State) : Host.Outcome State Fault Refusal :=
  .next (s.request corr (.rerender tag profile))

/-- PEEK (R174). -/
def execPeek (corr : Byte) (address : Word) (length : Half) (s : State) : Host.Outcome State Fault Refusal :=
  .next (s.request corr (.peek address length))

/-- POKE (R174, R175). -/
def execPoke (corr : Byte) (address : Word) (length : Half) (bytes : List Byte) (s : State) :
    Host.Outcome State Fault Refusal :=
  .next (s.request corr (.poke address length bytes))

/-- RESET ENGINE (R192, R193). -/
def execResetEngine (corr : Byte) (s : State) : Host.Outcome State Fault Refusal :=
  .next (s.request corr .resetEngine)

end Sys2Proof.Machine
end

