-- ==== Sys2Proof/Machine/Dispatch.lean ====
section
/-! DEFINITION. The dispatcher: one arm for each command, each one direct call of the command's meaning. -/

namespace Sys2Proof.Machine

def exec (i : Instr) (s : State) : Host.Outcome State Fault Refusal :=
  match i with
  | .powerOnReset msz => Sys2Proof.Machine.execPowerOnReset msz s
  | .receiverLock link received => Sys2Proof.Machine.execReceiverLock link received s
  | .receiverUnlock link received signalLost => Sys2Proof.Machine.execReceiverUnlock link received signalLost s
  | .linkUp link received readysSent => Sys2Proof.Machine.execLinkUp link received readysSent s
  | .trackLinkDown => Sys2Proof.Machine.execTrackLinkDown s
  | .exchangeLinkDown => Sys2Proof.Machine.execExchangeLinkDown s
  | .badFrame link received => Sys2Proof.Machine.execBadFrame link received s
  | .frameKindRefused link kind payload => Sys2Proof.Machine.execFrameKindRefused link kind payload s
  | .line camera docFlag position pixels => Sys2Proof.Machine.execLine camera docFlag position pixels s
  | .windowPassed => Sys2Proof.Machine.execWindowPassed s
  | .classifyDeadline => Sys2Proof.Machine.execClassifyDeadline s
  | .adviceDeadline => Sys2Proof.Machine.execAdviceDeadline s
  | .lineWrite camera => Sys2Proof.Machine.execLineWrite camera s
  | .announce tag lead length => Sys2Proof.Machine.execAnnounce tag lead length s
  | .code tag block => Sys2Proof.Machine.execCode tag block s
  | .batch number => Sys2Proof.Machine.execBatch number s
  | .halt => Sys2Proof.Machine.execHalt s
  | .resume => Sys2Proof.Machine.execResume s
  | .adviceSent => Sys2Proof.Machine.execAdviceSent s
  | .stripRead engine => Sys2Proof.Machine.execStripRead engine s
  | .credit grant => Sys2Proof.Machine.execCredit grant s
  | .frameEnd => Sys2Proof.Machine.execFrameEnd s
  | .trailerEnd => Sys2Proof.Machine.execTrailerEnd s
  | .cancelNoticeEnd => Sys2Proof.Machine.execCancelNoticeEnd s
  | .summaryEnd => Sys2Proof.Machine.execSummaryEnd s
  | .burstEnd waiting => Sys2Proof.Machine.execBurstEnd waiting s
  | .status corr => Sys2Proof.Machine.execStatus corr s
  | .item corr tag => Sys2Proof.Machine.execItem corr tag s
  | .requestUnknownKind corr kind fields => Sys2Proof.Machine.execRequestUnknownKind corr kind fields s
  | .run corr => Sys2Proof.Machine.execRun corr s
  | .park corr => Sys2Proof.Machine.execPark corr s
  | .settings corr v => Sys2Proof.Machine.execSettings corr v s
  | .regions corr v => Sys2Proof.Machine.execRegions corr v s
  | .loadOpen corr set declared => Sys2Proof.Machine.execLoadOpen corr set declared s
  | .loadData corr offset words => Sys2Proof.Machine.execLoadData corr offset words s
  | .loadClose corr check => Sys2Proof.Machine.execLoadClose corr check s
  | .validationEnd => Sys2Proof.Machine.execValidationEnd s
  | .loadAbandon corr => Sys2Proof.Machine.execLoadAbandon corr s
  | .activate corr set => Sys2Proof.Machine.execActivate corr set s
  | .erase corr set => Sys2Proof.Machine.execErase corr set s
  | .release corr tag form => Sys2Proof.Machine.execRelease corr tag form s
  | .releaseThrough corr tag => Sys2Proof.Machine.execReleaseThrough corr tag s
  | .withdraw corr tag => Sys2Proof.Machine.execWithdraw corr tag s
  | .rerender corr tag profile => Sys2Proof.Machine.execRerender corr tag profile s
  | .peek corr address length => Sys2Proof.Machine.execPeek corr address length s
  | .poke corr address length bytes => Sys2Proof.Machine.execPoke corr address length bytes s
  | .resetEngine corr => Sys2Proof.Machine.execResetEngine corr s

end Sys2Proof.Machine
end

