-- ==== Sys2Proof/WellFormed.lean ====
section
/-! DEFINITION. Which commands can be sent: the conditions under which the lanes, the frame layouts and the arbiter
can give a command its operands. The meanings hold for every operand, well formed or not. -/

namespace Sys2Proof

open Sys2Proof.Machine

/-- The most payload bytes a frame carries: 1,040 less the kind and the check (R197). -/
def payloadLimit : Nat := Config.frameBytes - 5

/-- The code line block of a CODE frame that passes R200: a read status of 0 to 2, counts that are bytes, and the
whole payload within a frame. -/
def CodeBlock.wf (b : CodeBlock) : Bool :=
  decide (b.status.toNat ≤ 2)
    && [b.routing, b.account, b.serial, b.tcode, b.amount].all (fun f => decide (f.length ≤ 255))
    && decide (8 + (b.routing.length + b.account.length + b.serial.length + b.tcode.length + b.amount.length)
        ≤ payloadLimit)

/-- A command whose operands the part can be given. -/
def Instr.wf : Instr → Bool
  | .receiverLock _ received => lockReached received
  | .receiverUnlock _ received signalLost => signalLost || unlockReached received
  | .linkUp _ received readysSent => received.contains .ready && decide (16 ≤ readysSent)
  | .badFrame _ received => decide (receiveFrame received = .bad)
  | .frameKindRefused link kind payload => !frameFits link kind payload && decide (payload.length ≤ payloadLimit)
  | .line _ _ _ pixels => decide (6 + pixels.length ≤ payloadLimit)
  | .code _ block => block.wf
  | .burstEnd waiting => decide waiting.Nodup
  | .requestUnknownKind _ kind fields => !fieldsFit kind fields && decide (2 + fields.length ≤ payloadLimit)
  | .loadData _ _ words => decide (4 + 4 * words.length ≤ payloadLimit)
  | .release _ _ form => form != 1
  | .poke _ _ length bytes => decide (bytes.length = length.toNat) && decide (8 + bytes.length ≤ payloadLimit)
  | _ => true

end Sys2Proof
end

