-- ==== Sys2Proof/Safety.lean ====
section
/-! DEFINITION. The invariant of the part, and the conditions and outcomes that the statements about its commands share:
when an EVENT, an ADVICE or a request finds its place, what a good line is, what an engine does next, what evaluation adds,
and what a cancel brings about. -/

namespace Sys2Proof.Machine

namespace State

/-! ### The invariant -/

/-- The capacities and distinctness that the spec gives the part's tables, queues and counters. -/
structure Sound (s : State) : Prop where
  /-- Frame memory keeps its canonical form (assumption 26). -/
  memory : Memory.wf s.mem
  /-- The credit counter holds 0 to 255 (R144). -/
  credits : s.emitter.credits ≤ Config.creditLimit
  /-- An entry stands in a slot 0 to 31 (section 1.1). -/
  slots : ∀ it ∈ s.table.items, it.slot < Config.itemSlots
  /-- No two entries share a slot (section 1.1). -/
  slotsDistinct : (s.table.items.map Item.slot).Nodup
  /-- No two entries carry the same tag (R1, R2). -/
  tagsDistinct : (s.table.items.filterMap Item.tag).Nodup
  /-- The request queue holds at most 4 requests (R186). -/
  requests : s.mgmt.requests.length ≤ Config.requestCapacity
  /-- The places reserved are those of the queued requests (R185, R187). -/
  reserved : s.mgmt.reserved = s.mgmt.requests.length
  /-- At most 16 response places are taken (R187). -/
  responses : s.responsesHeld ≤ Config.responsePlaces
  /-- At most 32 event places are taken (R187). -/
  events : s.eventsHeld ≤ Config.eventPlaces
  /-- The advice queue holds at most 64 frames (R138). -/
  advice : s.adviceOut.queue.length ≤ Config.adviceCapacity
  /-- A pending list holds at most 8 slots (R30). -/
  lists : ∀ cam, (s.channel cam).pendingList.length ≤ Config.pendingCapacity
  /-- A line FIFO holds at most 16 entries (R29). -/
  fifo : ∀ cam, (s.channel cam).fifo.length ≤ Config.fifoCapacity

/-! ### Reports and advice -/

/-- An EVENT composed now takes a place (R187). -/
def EventRoom (s : State) : Prop := s.links.exchange.up = true ∧ s.eventsHeld < 32

/-- An ADVICE handed over now joins the advice queue (R138). -/
def AdviceRoom (s : State) : Prop := s.links.track.up = true ∧ s.adviceOut.queue.length < 64

/-- A REQUEST received now finds a response place and an empty request queue (R185, R186). -/
structure Admits (s : State) : Prop where
  up : s.links.exchange.up = true
  place : s.responsesHeld < 16
  requests : s.mgmt.requests = []
  headWait : s.mgmt.headWait = .nothing

/-- An EVENT with the current number at the tail of the report queue (R187, R190). -/
def withEvent (s : State) (b : EventBody) : State :=
  { s with mgmt := { s.mgmt with
      eventSeq := s.mgmt.eventSeq + 1, reports := s.mgmt.reports ++ [.event { sequence := s.mgmt.eventSeq, body := b }] } }

/-- A RESPONSE at the tail of the report queue (R187). -/
def withResponse (s : State) (r : Response) : State :=
  { s with mgmt := { s.mgmt with reports := s.mgmt.reports ++ [.response r] } }

/-- An ADVICE REFEED at the tail of the advice queue, counted (R138, R139). -/
def withRefeed (s : State) (tag : Half) (c : AdviceCause) : State :=
  { s with
    adviceOut := { s.adviceOut with queue := s.adviceOut.queue ++ [{ tag := tag, verdict := .refeed, cause := c }] }
    mgmt := { s.mgmt with counters := { s.mgmt.counters with adviceRefeed := saturatingInc s.mgmt.counters.adviceRefeed } } }

/-- A frame discarded and counted as bad on the track link. -/
def withBadTrack (s : State) : State :=
  { s with mgmt := { s.mgmt with counters := { s.mgmt.counters with badTrack := saturatingInc s.mgmt.counters.badTrack } } }

/-- A frame discarded and counted as bad on the exchange link. -/
def withBadExchange (s : State) : State :=
  { s with mgmt := { s.mgmt with
      counters := { s.mgmt.counters with badExchange := saturatingInc s.mgmt.counters.badExchange } } }

/-- A request that has come to the head of the queue and waits there. -/
def withWaiting (s : State) (q : QueuedRequest) (w : HeadWait) : State :=
  { s with mgmt := { s.mgmt with reserved := s.mgmt.reserved + 1, requests := [q], headWait := w } }

/-! ### Lines -/

/-- No window, classify deadline or advice deadline falls due at a position, and no rendition waits in the render
queue. -/
structure NothingDue (s : State) (p : Position) : Prop where
  queue : s.render.queue = []
  windows : ∀ cam k it, (s.channel cam).pendingList.head? = some k → s.item? k = some it →
    past p ((it.side cam).expectedLead + s.tolerance) = false
  classify : ∀ it ∈ s.table.items, it.classification = .unclassified → it.state ≠ .cancelling →
    ∀ d, it.classifyDeadline = some d → atOrPast p d = false
  advice : ∀ it ∈ s.table.items, it.generation = 0 → it.state = .processing → it.advice = none →
    ∀ d, it.adviceDeadline = some d → atOrPast p d = false

/-- A LINE of a camera that passes the tests of R26, and brings no other test to an end. -/
structure GoodLine (s : State) (cam : Camera) (p : Position) (pixels : List Byte) : Prop where
  up : s.links.track.up = true
  width : pixels.length = s.mgmt.settings.lineWidth.toNat
  past : ∀ q, (s.channel cam).portPosition = some q → Machine.past p q = true
  due : s.NothingDue p

/-- A channel after it has seen a line (R26, R28). -/
def afterLine (s : State) (cam : Camera) (flag : Bool) (p : Position) : State :=
  s.modifyChannel cam fun c => { c with portPosition := some p, previousFlag := flag, lastPosition := some p }

/-! ### Engines and renditions -/

/-- An engine is about to end the reading of a strip: it is RUNNING with nothing left to write, its rendition is not
stopping, and the strip stands next in the chain of its side (R94). -/
structure Reads (s : State) (e : EngineId) (r : RendRef) (it : Item) (q : Rendition) (c : Context) (strip : ChainStrip) :
    Prop where
  running : (s.engine e).state = .running
  held : (s.engine e).rendition = some r
  work : (s.engine e).work = some { context := c, output := none }
  item : s.item? r.slot = some it
  record : s.rendition? r = some q
  going : q.stopping = false
  strip : (it.side q.descriptor.side).chain[c.nextStrip]? = some strip

/-- The strip's lines agree with its check word (R171). -/
def Matches (s : State) (strip : ChainStrip) : Prop :=
  checkWord? s.frameMemory.checks strip.strip = some (checkOf (s.stripBytes strip))

/-- Output bytes about to be written fit in the last of the blocks a rendition holds (R94, R101). -/
def Fits (q : Rendition) (c : Context) (bytes : List Byte) : Prop :=
  4096 * q.chain.length ≤ c.bytesWritten + 4096 ∧ c.bytesWritten + bytes.length ≤ 4096 * q.chain.length

/-- Frame memory once such bytes stand at their place in that block (R94, R166). -/
def memAfter (s : State) (q : Rendition) (c : Context) (bytes : List Byte) : Memory :=
  Memory.writeBytes s.mem (s.frameMemory.map.output.base + q.chain.getLastD 0 * 4096 + c.bytesWritten % 4096) bytes

/-- The context after a strip has been passed through the reduction and its bytes written (R94, R98). -/
def contextAfter (s : State) (it : Item) (q : Rendition) (c : Context) (strip : ChainStrip) : Context :=
  { nextStrip := c.nextStrip + 1
    sums := (s.reduceStrip it q c strip).vertical.sums
    linesDone := (s.reduceStrip it q c strip).vertical.linesDone
    bytesWritten := c.bytesWritten + (s.reduceStrip it q c strip).bytes.length
    coder := (s.reduceStrip it q c strip).coder
    runningCheck := checkRun c.runningCheck (s.reduceStrip it q c strip).bytes }

/-- The last bytes of a rendition: those the strip completes, and the coder's bits padded to a byte (R97, R121). -/
def lastBytes (s : State) (it : Item) (q : Rendition) (c : Context) (strip : ChainStrip) : List Byte :=
  (s.reduceStrip it q c strip).bytes ++ paddedByte (s.reduceStrip it q c strip).coder

/-- The strip is the last that its rendition reads, and the rendition's last bytes fit in the blocks it holds (R89, R97). -/
structure ReadsLast (s : State) (it : Item) (q : Rendition) (c : Context) (strip : ChainStrip) : Prop where
  complete : (it.side q.descriptor.side).capture = .complete
  last : q.height = some 0
    ∨ ((it.side q.descriptor.side).lines - q.descriptor.tail - 1) / 32 < c.nextStrip + 1
  fits : Fits q c (s.lastBytes it q c strip)

/-- A rendition as its engine leaves it RENDERED (R97). -/
def finished (s : State) (it : Item) (q : Rendition) (c : Context) (strip : ChainStrip) : Rendition :=
  { q with
    state := .rendered
    length := some (c.bytesWritten + (s.lastBytes it q c strip).length)
    check := some (~~~ checkRun c.runningCheck (s.lastBytes it q c strip)) }

/-- The context with which an engine begins a rendition, or goes on with it (R92, R98). -/
def startContext (q : Rendition) : Context :=
  q.context.getD
    { nextStrip := q.descriptor.lead / 32, sums := List.replicate q.width 0, linesDone := 0, bytesWritten := 0,
      coder := [], runningCheck := 0xFFFFFFFF#32 }

/-- A rendition's next strip is consumable on a side still being captured once the side has `strips` sealed strips
(R90). -/
structure Consumes (s : State) (u : RendRef) (v : Item) (q : Rendition) (strips : Nat) : Prop where
  item : s.item? u.slot = some v
  record : s.rendition? u = some q
  going : q.stopping = false
  capture : (v.side q.descriptor.side).capture ≠ .complete
  strip : (startContext q).nextStrip < strips
  lines : 32 * ((startContext q).nextStrip + 1) + q.descriptor.tail ≤ (v.side q.descriptor.side).lines

/-- An engine working on a rendition, its yield request clear and nothing to write (R92). -/
def runningOn (r : RendRef) (c : Context) : Engine :=
  { state := .running, rendition := some r, yieldRequest := false, work := some { context := c, output := none } }

/-- An engine writes bytes it holds: RUNNING, with a rendition that is not stopping (R94, R172). -/
structure Writes (s : State) (e : EngineId) (r : RendRef) (it : Item) (q : Rendition) (c : Context) (out : HeldOutput) :
    Prop where
  running : (s.engine e).state = .running
  held : (s.engine e).rendition = some r
  work : (s.engine e).work = some { context := c, output := some out }
  item : s.item? r.slot = some it
  record : s.rendition? r = some q
  going : q.stopping = false

/-- An engine with output in hand has written so many bytes of those it had left and stopped before the next one, which it
has in hand: from its place it goes on to the end of the strip, or of the rendition, as it would have without the stop
(R94, R101, R123). -/
structure Continues (p : ReduceRules) (c : Context) (out : HeldOutput) (count : Nat) (c' : Context) (out' : HeldOutput) :
    Prop where
  strip : c'.nextStrip = c.nextStrip
  written : c'.bytesWritten = c.bytesWritten + count
  check : c'.runningCheck = checkRun c.runningCheck ((p.resume c out).bytes.take count)
  inHand : out'.bytes ≠ []
  ends : out'.place.isNone = out.place.isNone
  onwards : p.resume c' out' = { p.resume c out with bytes := (p.resume c out).bytes.drop count }

/-! ### Quality -/

/-- The flags held after the conditions of R127 have been added to those held before. -/
structure GradedBy (img : Image) (p : Nat) (front rear : Side) (before after : QualityFlags) : Prop where
  short : after.short = true ↔ before.short = true ∨ front.lines < img.minLength p ∨ rear.lines < img.minLength p
  long : after.long = true ↔ before.long = true ∨ img.maxLength p < front.lines ∨ img.maxLength p < rear.lines
  truncated : after.truncated = true ↔ before.truncated = true ∨ front.truncated = true ∨ rear.truncated = true
  mismatch : after.mismatch = true ↔ before.mismatch = true ∨ img.mismatchMax p + rear.lines < front.lines
    ∨ img.mismatchMax p + front.lines < rear.lines
  dark : after.dark = true ↔ before.dark = true ∨ front.measures.mean < img.meanMin p
    ∨ rear.measures.mean < img.meanMin p
  light : after.light = true ↔ before.light = true ∨ img.meanMax p < front.measures.mean
    ∨ img.meanMax p < rear.measures.mean
  dense : after.dense = true ↔ before.dense = true ∨ img.denseMax p < front.measures.dense
    ∨ img.denseMax p < rear.measures.dense
  streak : after.streak = true ↔ before.streak = true ∨ img.streakMax p < front.measures.streak
    ∨ img.streakMax p < rear.measures.streak
  gap : after.gap = true ↔ before.gap = true ∨ front.gap = true ∨ rear.gap = true
  noCode : after.noCode = before.noCode
  badCode : after.badCode = before.badCode
  oversize : after.oversize = before.oversize
  memcheck : after.memcheck = before.memcheck

/-- Some policy flag held has the action of a code in the advice policy of a profile (R129). -/
def ActsAs (img : Image) (p : Nat) (held : QualityFlags) (action : Nat) : Prop :=
  ∃ i flag, policyFlags[i]? = some flag ∧ held.has flag = true ∧ img.policyCode p i = action

/-! ### Cancels -/

/-- What the cancel of an item brings about by the end of a command (R11, R44, R136): while the entry stands it is
CANCELLING with the cause, it is in no pending list and none of its lines is in a FIFO, and the ADVICE it still owed has
joined the queue. -/
structure Cancels (s t : State) (it : Item) (cause : CancelCause) (told : AdviceCause) : Prop where
  entry : ∀ x ∈ t.table.items, x.slot = it.slot → x.state = .cancelling ∧ x.cancelCause = some cause
  lists : ∀ cam, it.slot ∉ (t.channel cam).pendingList
  lines : ∀ cam, ∀ f ∈ (t.channel cam).fifo, f.slot ≠ it.slot
  advice : it.generation = 0 → it.advice = none → s.AdviceRoom →
    ∃ l, t.adviceOut.queue
      = s.adviceOut.queue ++ { tag := it.announcedTag, verdict := .refeed, cause := told } :: l

/-- The item can be cancelled at once: it stands in its slot, is not CANCELLING, and its SUMMARY is not being sent
(R11, R155). -/
structure Cancellable (s : State) (it : Item) : Prop where
  found : s.item? it.slot = some it
  distinct : (s.table.items.map Item.slot).Nodup
  state : it.state ≠ .cancelling
  summary : s.emitter.work ≠ .summary it.slot

end State

end Sys2Proof.Machine
end

