-- ==== Sys2Proof/Certificates/Slice0/Obligations.lean ====
section
/-! DEFINITION. The statements for the provers. Every command ends with the Emitter's choice of a frame, chooseFrame
(R146; assumption 23), which the statement about the choice describes. -/

section Statements

open Sys2Proof Sys2Proof.Machine

/-! ### Steps, the invariant, encoding -/

/-- A step takes the command at the front of the queue and runs it on the state with the queue's rest. -/
def Obligations.StepRunsFront : Prop :=
  ∀ (c : Instr) (rest : List Instr) (s : State), s.pending = c :: rest →
    step s = exec c { s with pending := rest }

/-- Every step keeps the bounds of the part. -/
def Obligations.StepKeepsBounds : Prop := ∀ s t : State, s.Sound → step s = .next t → t.Sound

/-- The bounds hold right after reset. -/
def Obligations.BoundsHoldAtReset : Prop := State.reset.Sound

/-- The characters that carry a frame, as the part's peer sends them after a START, are read as the command that the
frame is, with every operand at every value the frame can carry. -/
def Obligations.FrameRoundTrip : Prop :=
  ∀ (i : Instr) (link : Link) (kind : Byte) (payload : List Byte), i.wf = true → frameOf i = some (link, kind, payload) →
    commandOfChars link (frameChars kind payload).tail = some i

/-! ### Reset, pins, receivers, links -/

/-- POWER_ON_RESET: every block at its power-on values, with the default region map, no byte of frame memory written
(assumption 26), and the installed size that the memory-size pins name (any other pattern is taken as 64 MiB); the queue
of commands stays. -/
def Obligations.PowerOnReset : Prop :=
  (∀ (m : BitVec 4) (s : State), ∃ t, exec (.powerOnReset m) s = .next t
     ∧ t.pins = m ∧ t.pending = s.pending ∧ t.mem = []
     ∧ t.links.track = { locked := false, up := false } ∧ t.links.exchange = { locked := false, up := false }
     ∧ t.table.items = [] ∧ t.table.announceSeq = 0 ∧ t.table.rerenderSeq = 0
     ∧ (∀ cam, (t.channel cam).state = .idle ∧ (t.channel cam).bound = none ∧ (t.channel cam).previousFlag = true
         ∧ (t.channel cam).lastPosition = none ∧ (t.channel cam).portPosition = none
         ∧ (t.channel cam).pendingList = [] ∧ (t.channel cam).fifo = []
         ∧ (t.channel cam).lastLine = none ∧ (t.channel cam).runningCheck = none)
     ∧ (∀ n, t.dir n = { state := .empty, imageLength := 0, imageCheck := none, loadCount := 0, boundCount := 0 })
     ∧ t.sets.load = none ∧ t.sets.active = none ∧ t.sets.pendingActivation = none ∧ t.sets.batch = 0
     ∧ t.render.queue = []
     ∧ (∀ e, t.engine e = { state := .idle, rendition := none, yieldRequest := false, work := none })
     ∧ t.adviceOut = { queue := [], leftover := none }
     ∧ t.emitter = { work := .idle, frame := none, credits := 0, queue := [], summaryList := [], discarded := false }
     ∧ t.frameMemory.map =
         { tables := { base := 0, size := 262144, peekAllowed := true, pokeAllowed := false }
           strips := { base := 33554432, size := 33554432, peekAllowed := true, pokeAllowed := false }
           output := { base := 16777216, size := 16777216, peekAllowed := true, pokeAllowed := false }
           spare := { base := 1048576, size := 1048576, peekAllowed := true, pokeAllowed := true } }
     ∧ t.frameMemory.freeStrips = List.range 1024 ∧ t.frameMemory.freeBlocks = List.range 4096
     ∧ t.frameMemory.checks = []
     ∧ t.mgmt.mode = .parked ∧ t.mgmt.requests = [] ∧ t.mgmt.headWait = .nothing ∧ t.mgmt.reserved = 0
     ∧ t.mgmt.reports = [] ∧ t.mgmt.eventSeq = 0
     ∧ t.mgmt.settings = { lineWidth := 864, frontOffset := 480, rearOffset := 720, windowTolerance := 24,
                           maxSideLength := 2304, classifyMargin := 600, adviceMargin := 1200, rerenderReserve := 256,
                           darkLevel := 64, streakSpread := 6 }
     ∧ t.mgmt.counters = ⟨0, 0, 0, 0, 0, 0, 0, 0, 0, 0, 0, 0, 0, 0⟩)
  ∧ (∀ (m : BitVec 4) (s : State), ∃ t, exec (.powerOnReset m) s = .next t
       ∧ (m = 0b0001#4 → t.frameMemory.installedMiB = 64) ∧ (m = 0b0010#4 → t.frameMemory.installedMiB = 128)
       ∧ (m = 0b0100#4 → t.frameMemory.installedMiB = 256) ∧ (m = 0b1000#4 → t.frameMemory.installedMiB = 512)
       ∧ (m ≠ 0b0001#4 → m ≠ 0b0010#4 → m ≠ 0b0100#4 → m ≠ 0b1000#4 → t.frameMemory.installedMiB = 64))

/-- A receiver locks on 32 valid characters and unlocks on 4 code errors or the loss of the signal, which brings its
link DOWN. -/
def Obligations.ReceiverLockAndUnlock : Prop :=
  ∀ (k : Link) (received : List LaneChar) (lost : Bool) (s : State),
    ((s.links.link k).locked = false → 32 ≤ received.length →
      (∀ c ∈ received.drop (received.length - 32), c ≠ LaneChar.codeError) →
      exec (.receiverLock k received) s = .next (s.setLink k { s.links.link k with locked := true }))
    ∧ ((s.links.link k).locked = true →
        (lost = true ∨ (4 ≤ received.length ∧ ∀ c ∈ received.drop (received.length - 4), c = LaneChar.codeError)) →
        ∃ t, exec (.receiverUnlock k received lost) s = .next t
          ∧ (t.links.link k).locked = false ∧ (t.links.link k).up = false)

/-- A link comes UP on a READY received and 16 READYs sent since the receiver locked; no other state changes, and without
these the link stays as it is. -/
def Obligations.LinkComesUp : Prop :=
  ∀ (k : Link) (received : List LaneChar) (sent : Nat) (s : State),
    ((s.links.link k).locked = true → (s.links.link k).up = false → LaneChar.ready ∈ received → 16 ≤ sent →
      exec (.linkUp k received sent) s = .next (s.setLink k { locked := true, up := true }).chooseFrame)
    ∧ ((s.links.link k).locked = false ∨ LaneChar.ready ∉ received ∨ sent < 16 →
        exec (.linkUp k received sent) s = .next s)

/-- The track link goes DOWN: outside RUNNING the ADVICE frames it held are lost and counted, and nothing else
changes; in RUNNING the mode enters HALTED. -/
def Obligations.TrackLinkLost : Prop :=
  ∀ s : State, s.links.track.up = true →
    (s.mgmt.mode ≠ .running → s.mgmt.counters.adviceLost.toNat + s.adviceOut.held < 2 ^ 32 →
      exec .trackLinkDown s = .next (State.chooseFrame { s with
        links := { s.links with track := { s.links.track with up := false } }
        adviceOut := { queue := [], leftover := none }
        mgmt := { s.mgmt with counters := { s.mgmt.counters with
          adviceLost := s.mgmt.counters.adviceLost + BitVec.ofNat 32 s.adviceOut.held } } }))
    ∧ (s.mgmt.mode = .running → s.EventRoom → ∃ t l, exec .trackLinkDown s = .next t
        ∧ t.links.track.up = false ∧ t.mgmt.mode = .halted ∧ t.adviceOut.queue = []
        ∧ (∀ cam, (t.channel cam).pendingList = [] ∧ (t.channel cam).state ≠ .capture ∧ (t.channel cam).bound = none)
        ∧ t.reportsHeld = s.reportsHeld
            ++ .event { sequence := s.mgmt.eventSeq, body := .modeChange .running .halted .trackLink } :: l)

/-- The exchange link goes DOWN: the credits are gone, the frame in progress and the waiting reports are lost; a
rendition in hand is RENDERED again, to be sent anew from the head of the queue, and a SUMMARY counts as sent. -/
def Obligations.ExchangeLinkLost : Prop :=
  ∀ s : State, s.links.exchange.up = true → s.emitter.discarded = false → s.mgmt.headWait ≠ .engineReset →
    let down : State := { s with
      links := { s.links with exchange := { s.links.exchange with up := false } }
      emitter := { s.emitter with credits := 0, frame := none }
      mgmt := { s.mgmt with reports := [] } }
    (s.emitter.work = .idle → exec .exchangeLinkDown s = .next down)
    ∧ (∀ r n d, s.emitter.work = .rendition r n d → s.isStopping r = false →
        exec .exchangeLinkDown s = .next
          (State.modifyRendition
            { down with emitter := { down.emitter with work := .idle, queue := .rendition r :: s.emitter.queue } } r
            fun q => { q with state := .rendered, restart := true }))
    ∧ (∀ k it, s.emitter.work = .summary k → s.item? k = some it → it.deferredCancel = none →
        exec .exchangeLinkDown s = .next
          (State.modifyItem { down with emitter := { down.emitter with work := .idle } } k
            fun x => { x with state := .retained, deferredCancel := none }))

/-- While a link is DOWN no frame is received on it, whatever its kind and payload, good or bad: the part is as it was
(R197; assumption 4). -/
def Obligations.FramesNeedLinkUp : Prop :=
  ∀ (s : State) (k : Link), (s.links.link k).up = false →
    (∀ (i : Instr) (kind : Byte) (payload : List Byte), frameOf i = some (k, kind, payload) → exec i s = .next s)
    ∧ (∀ received, exec (.badFrame k received) s = .next s)

/-- A frame that ends badly is discarded and counted: cut by a START, shorter than 5 or longer than 1,040 bytes, with a
check that does not match, or with a code error in it; one cut by an ABORT, or by the four code errors in a row that take
the link DOWN, is discarded and not counted. A good frame of a kind not listed for its link, or of a length that does not
fit its kind, is discarded and counted. -/
def Obligations.BadFrames : Prop :=
  (∀ (s : State) (bytes : List Byte) (rest : List LaneChar),
     (s.links.track.up = true →
       exec (.badFrame .track (bytes.map .data ++ .start :: rest)) s = .next s.withBadTrack.chooseFrame
       ∧ exec (.badFrame .track (bytes.map .data ++ .abort :: rest)) s = .next s.chooseFrame
       ∧ exec (.badFrame .track (bytes.map .data ++ [.codeError, .codeError, .codeError, .codeError] ++ rest)) s
           = .next s.chooseFrame
       ∧ (∀ before : List Byte, exec (.badFrame .track (before.map .data ++ .codeError :: (bytes.map .data ++ .endOfFrame :: rest))) s
           = .next s.withBadTrack.chooseFrame)
       ∧ (bytes.length < 5 ∨ 1040 < bytes.length
           ∨ bytes.drop (bytes.length - 4) ≠ wordBytes (checkOf (bytes.take (bytes.length - 4))) →
           exec (.badFrame .track (bytes.map .data ++ .endOfFrame :: rest)) s = .next s.withBadTrack.chooseFrame))
     ∧ (s.links.exchange.up = true →
         exec (.badFrame .exchange (bytes.map .data ++ .start :: rest)) s = .next s.withBadExchange.chooseFrame))
  ∧ (∀ (s : State) (kind : Byte) (payload : List Byte),
       (s.links.track.up = true →
         kind.toNat = 0 ∨ 6 < kind.toNat ∨ (kind = 1 ∧ payload.length < 6) ∨ (kind = 2 ∧ payload.length ≠ 8)
           ∨ (kind = 4 ∧ payload.length ≠ 2) ∨ ((kind = 5 ∨ kind = 6) ∧ payload ≠ []) →
         exec (.frameKindRefused .track kind payload) s = .next s.withBadTrack.chooseFrame)
       ∧ (s.links.exchange.up = true →
           (kind ≠ 16 ∧ kind ≠ 17) ∨ (kind = 16 ∧ payload.length ≠ 1) ∨ (kind = 17 ∧ payload.length < 2) →
           exec (.frameKindRefused .exchange kind payload) s = .next s.withBadExchange.chooseFrame))

/-! ### LINE -/

/-- A LINE of no camera or of the wrong width is counted as a bad frame, one whose position is not past the port
position as out of sequence, and a good one that finds its FIFO full moves the port position and is counted as
dropped. -/
def Obligations.LineNotTaken : Prop :=
  ∀ (s : State) (cam : Camera) (a doc : Byte) (p : Position) (px : List Byte), s.links.track.up = true →
    (2 ≤ a.toNat ∨ px.length ≠ s.mgmt.settings.lineWidth.toNat →
      exec (.line a doc p px) s = .next s.withBadTrack.chooseFrame)
    ∧ (∀ q, px.length = s.mgmt.settings.lineWidth.toNat → (s.channel cam).portPosition = some q → past p q = false →
        exec (.line (cameraCode cam) doc p px) s = .next (s.modifyCounters fun c =>
          { c with badSequence := saturatingInc c.badSequence }).chooseFrame)
    ∧ (s.GoodLine .rear p px → 16 ≤ (s.channel .rear).fifo.length →
        exec (.line 1 doc p px) s = .next (State.chooseFrame
          ((s.modifyChannel .rear fun c => { c with portPosition := some p }).modifyCounters fun c =>
            { c with droppedRear := saturatingInc c.droppedRear })))

/-- Outside CAPTURE a line without the flag ends SKIP, and any line that is no leading edge moves the port position, the
previous flag and the last position, and changes nothing else. A leading edge in RUNNING with an empty pending list, or
whose head is not open yet, is an orphan. -/
def Obligations.LineOutsideCapture : Prop :=
  (∀ (s : State) (cam : Camera) (doc : Byte) (p : Position) (px : List Byte), s.GoodLine cam p px →
     (s.channel cam).fifo.length < 16 →
     ((s.channel cam).state = .idle → doc = 0 ∨ (s.channel cam).previousFlag = true ∨ s.mgmt.mode ≠ .running →
       exec (.line (cameraCode cam) doc p px) s = .next (s.afterLine cam (doc != 0) p).chooseFrame)
     ∧ ((s.channel cam).state = .skip → doc ≠ 0 →
         exec (.line (cameraCode cam) doc p px) s = .next (s.afterLine cam true p).chooseFrame)
     ∧ ((s.channel cam).state = .skip → doc = 0 →
         exec (.line (cameraCode cam) doc p px) s = .next (State.chooseFrame
           ((s.afterLine cam false p).modifyChannel cam fun c => { c with state := .idle }))))
  ∧ (∀ (s : State) (cam : Camera) (doc : Byte) (p : Position) (px : List Byte), s.GoodLine cam p px →
       (s.channel cam).fifo.length < 16 → (s.channel cam).state = .idle → (s.channel cam).previousFlag = false →
       doc ≠ 0 → s.mgmt.mode = .running → s.EventRoom →
       ((s.channel cam).pendingList = []
         ∨ ∃ k it, (s.channel cam).pendingList.head? = some k ∧ s.item? k = some it
             ∧ past p ((it.side cam).expectedLead + s.tolerance) = false
             ∧ atOrPast p ((it.side cam).expectedLead - s.tolerance) = false) →
       exec (.line (cameraCode cam) doc p px) s = .next (State.chooseFrame
         ((((s.afterLine cam true p).modifyChannel cam fun c => { c with state := .skip }).withEvent
           (.orphan cam p)).modifyCounters fun c => { c with orphans := saturatingInc c.orphans })))

/-- A leading edge within the window of the head of the pending list is bound to it: the list, the side, the channel,
the first strip, the FIFO entry; a FRONT binding brings the item to CAPTURING and refines its rear expected lead. -/
def Obligations.EdgeIsBound : Prop :=
  ∀ (s : State) (cam : Camera) (doc : Byte) (p : Position) (px : List Byte) (k : Slot) (later : List Slot) (it : Item)
    (n : Nat) (free : List Nat), s.GoodLine cam p px →
    (s.channel cam).fifo.length < 16 → (s.channel cam).state = .idle → (s.channel cam).previousFlag = false →
    doc ≠ 0 → s.mgmt.mode = .running →
    (s.channel cam).pendingList = k :: later → s.item? k = some it →
    past p ((it.side cam).expectedLead + s.tolerance) = false →
    atOrPast p ((it.side cam).expectedLead - s.tolerance) = true →
    (cam = .rear → it.front.capture ≠ .pending) → (it.side cam).lines = 0 → (it.side cam).chain = [] →
    s.frameMemory.freeStrips = n :: free → s.mgmt.settings.maxSideLength.toNat ≠ 1 →
    ∃ t x, exec (.line (cameraCode cam) doc p px) s = .next t
      ∧ (t.channel cam).pendingList = later ∧ (t.channel cam).state = .capture ∧ (t.channel cam).bound = some k
      ∧ (t.channel cam).fifo = (s.channel cam).fifo
          ++ [{ slot := k, camera := cam, firstIndex := 0, fills := 0, pixels := some px }]
      ∧ t.frameMemory.freeStrips = free ∧ t.mem = s.mem
      ∧ t.item? k = some x ∧ (x.side cam).capture = .active ∧ (x.side cam).leading = some p
      ∧ (x.side cam).lines = 1 ∧ (x.side cam).chain = [{ strip := n, lines := 1 }]
      ∧ (cam = .rear → x.state = it.state)
      ∧ (cam = .front → it.state = .announced → x.state = .capturing)
      ∧ (cam = .front → x.rear.expectedLead = p + s.mgmt.settings.rearOffset.setWidth 32)

/-- What a channel in CAPTURE does with a line. With the flag and no gap the line is taken into the side: one line more, in
the last strip, measured, and handed to the FIFO. With the flag after 1 to 8 missing lines, these are filled first with
copies of the last line taken, and travel as the fill count of the line's FIFO entry. A line that brings the side to the
maximum length truncates it. A line without the flag completes the side: its trailing position, and with it the classify
deadline (FRONT; reached at once with a margin of 0) or the advice deadline and the key (REAR). The second side to complete
brings the item to PROCESSING, where an advice deadline reached meanwhile cancels it LATE. -/
def Obligations.LineInCapture : Prop :=
  (∀ (s : State) (cam : Camera) (doc : Byte) (p : Position) (px : List Byte) (k : Slot) (it : Item),
     s.GoodLine cam p px → (s.channel cam).fifo.length < 16 → (s.channel cam).state = .capture →
     (s.channel cam).bound = some k → s.item? k = some it → doc ≠ 0 → (it.side cam).lines % 32 ≠ 0 →
     ((s.channel cam).lastPosition = some (p - 1) → (it.side cam).lines + 1 ≠ s.mgmt.settings.maxSideLength.toNat →
       ∃ t x, exec (.line (cameraCode cam) doc p px) s = .next t
         ∧ (t.channel cam).state = .capture ∧ (t.channel cam).bound = some k ∧ (t.channel cam).lastPosition = some p
         ∧ (t.channel cam).fifo = (s.channel cam).fifo
             ++ [{ slot := k, camera := cam, firstIndex := (it.side cam).lines, fills := 0, pixels := some px }]
         ∧ t.frameMemory = s.frameMemory ∧ t.mem = s.mem
         ∧ t.item? k = some x ∧ (x.side cam).lines = (it.side cam).lines + 1
         ∧ (x.side cam).chain = countLine (it.side cam).chain ∧ (x.side cam).gap = (it.side cam).gap
         ∧ (∀ a, (it.side cam).accumulators = some a → ∃ b, (x.side cam).accumulators = some b
             ∧ b.pixelCount = a.pixelCount + px.length ∧ b.pixelSum = a.pixelSum + (px.map BitVec.toNat).sum
             ∧ b.darkCount = a.darkCount
                 + (px.filter fun v => decide (v.toNat < s.mgmt.settings.darkLevel.toNat)).length))
     ∧ (∀ m, 1 ≤ m → m ≤ 8 → (s.channel cam).lastPosition = some (p - 1 - BitVec.ofNat 32 m) →
         (it.side cam).lines % 32 + m < 32 → (it.side cam).lines + m + 1 < s.mgmt.settings.maxSideLength.toNat →
         ∃ t x, exec (.line (cameraCode cam) doc p px) s = .next t
           ∧ (t.channel cam).state = .capture ∧ (t.channel cam).bound = some k ∧ (t.channel cam).lastPosition = some p
           ∧ (t.channel cam).fifo = (s.channel cam).fifo
               ++ [{ slot := k, camera := cam, firstIndex := (it.side cam).lines, fills := m, pixels := some px }]
           ∧ t.frameMemory = s.frameMemory ∧ t.mem = s.mem
           ∧ t.item? k = some x ∧ (x.side cam).lines = (it.side cam).lines + m + 1 ∧ (x.side cam).gap = true
           ∧ (∀ a, (it.side cam).accumulators = some a → ∃ b, (x.side cam).accumulators = some b
               ∧ b.pixelCount = a.pixelCount + m * (s.channel cam).lastTaken.length + px.length
               ∧ b.pixelSum = a.pixelSum + m * ((s.channel cam).lastTaken.map BitVec.toNat).sum
                   + (px.map BitVec.toNat).sum))
     ∧ ((s.channel cam).lastPosition = some (p - 1) → (it.side cam).lines + 1 = s.mgmt.settings.maxSideLength.toNat →
         (it.side (otherCamera cam)).capture ≠ .complete →
         ∃ t x, exec (.line (cameraCode cam) doc p px) s = .next t
           ∧ (t.channel cam).state = .skip ∧ (t.channel cam).bound = none
           ∧ (t.channel cam).fifo = (s.channel cam).fifo
               ++ [{ slot := k, camera := cam, firstIndex := (it.side cam).lines, fills := 0, pixels := some px }]
           ∧ t.item? k = some x ∧ x.state = it.state ∧ (x.side cam).lines = (it.side cam).lines + 1
           ∧ (x.side cam).capture = .complete ∧ (x.side cam).truncated = true ∧ (x.side cam).trailing = some (p + 1)))
  ∧ (∀ (s : State) (p : Position) (px : List Byte) (k : Slot) (it : Item), s.GoodLine .rear p px →
       (s.channel .rear).fifo.length < 16 → (s.channel .rear).state = .capture → (s.channel .rear).bound = some k →
       (s.channel .rear).lastPosition = some (p - 1) → s.item? k = some it →
       (it.front.capture ≠ .complete →
         ∃ t x, exec (.line 1 0 p px) s = .next t
           ∧ (t.channel .rear).state = .idle ∧ (t.channel .rear).bound = none ∧ t.mem = s.mem
           ∧ t.item? k = some x ∧ x.state = it.state ∧ x.rear.capture = .complete ∧ x.rear.trailing = some p
           ∧ x.rear.lines = it.rear.lines ∧ x.rear.truncated = it.rear.truncated
           ∧ x.adviceDeadline = some (p + s.mgmt.settings.adviceMargin.setWidth 32)
           ∧ x.key = .pos (p + s.mgmt.settings.adviceMargin.setWidth 32))
       ∧ (it.front.capture = .complete → it.state = .capturing → it.profile = none →
           (∀ r, s.reference = some r → atOrPast r (p + s.mgmt.settings.adviceMargin.setWidth 32) = false) →
           ∃ t x, exec (.line 1 0 p px) s = .next t
             ∧ (t.channel .rear).state = .idle ∧ t.mem = s.mem ∧ t.item? k = some x ∧ x.state = .processing
             ∧ x.rear.capture = .complete ∧ x.rear.trailing = some p
             ∧ (∀ cam, (x.side cam).accumulators = none)
             ∧ x.adviceDeadline = some (p + s.mgmt.settings.adviceMargin.setWidth 32) ∧ x.advice = it.advice))
  ∧ (∀ (s : State) (p : Position) (px : List Byte) (it : Item), s.GoodLine .front p px →
       (s.channel .front).fifo.length < 16 → (s.channel .front).state = .capture →
       (s.channel .front).bound = some it.slot → (s.channel .front).lastPosition = some (p - 1) →
       s.item? it.slot = some it → (s.table.items.map Item.slot).Nodup →
       (it.rear.capture ≠ .complete → 1 ≤ s.mgmt.settings.classifyMargin.toNat →
         ∃ t x, exec (.line 0 0 p px) s = .next t
           ∧ (t.channel .front).state = .idle ∧ (t.channel .front).bound = none ∧ t.mem = s.mem
           ∧ t.item? it.slot = some x ∧ x.state = it.state ∧ x.front.capture = .complete ∧ x.front.trailing = some p
           ∧ x.classifyDeadline = some (p + s.mgmt.settings.classifyMargin.setWidth 32)
           ∧ x.classification = it.classification ∧ x.profile = it.profile ∧ x.key = it.key)
       ∧ (s.mgmt.settings.classifyMargin = 0 → it.classification = .unclassified → it.state ≠ .cancelling →
           ∃ t, exec (.line 0 0 p px) s = .next t ∧ ∀ x ∈ t.table.items, x.slot = it.slot →
             x.classification = .byDefault ∧ x.profile = some (s.image it.set).defaultProfile
             ∧ x.classifyDeadline = some p)
       ∧ (∀ d, it.rear.capture = .complete → it.state = .capturing → it.generation = 0 → it.advice = none →
           1 ≤ s.mgmt.settings.classifyMargin.toNat → it.adviceDeadline = some d → atOrPast p d = true →
           s.Cancellable it →
           ∃ t, exec (.line 0 0 p px) s = .next t ∧ s.Cancels t it .late .late))

/-- A side that cannot go on. Nine or more missing lines lose it: its item is cancelled LINE_LOSS. A line that needs a new
strip when none is free takes the first that an eviction of the oldest RETAINED item returns, EVENT EVICTED first (its place before a SET_RETIRED is
assumption 12); with no item RETAINED the item is cancelled NO_STRIP. -/
def Obligations.LongGapLosesItem : Prop :=
  (∀ (s : State) (cam : Camera) (doc : Byte) (p q : Position) (px : List Byte) (it : Item),
     s.GoodLine cam p px → (s.channel cam).fifo.length < 16 → (s.channel cam).state = .capture →
     (s.channel cam).bound = some it.slot → (s.channel cam).lastPosition = some q → 10 ≤ (p - q).toNat →
     s.Cancellable it →
     ∃ t, exec (.line (cameraCode cam) doc p px) s = .next t ∧ s.Cancels t it .lineLoss .lineLoss)
  ∧ (∀ (s : State) (cam : Camera) (doc : Byte) (p : Position) (px : List Byte) (it : Item),
       s.GoodLine cam p px → (s.channel cam).fifo.length < 16 → (s.channel cam).state = .capture →
       (s.channel cam).bound = some it.slot → (s.channel cam).lastPosition = some (p - 1) → doc ≠ 0 →
       s.Cancellable it → (it.side cam).lines % 32 = 0 → s.frameMemory.freeStrips = [] →
       ((∀ x ∈ s.table.items, x.state ≠ .retained) →
         ∃ t, exec (.line (cameraCode cam) doc p px) s = .next t ∧ s.Cancels t it .noStrip .noStrip
           ∧ (t.channel cam).state = .skip)
       ∧ (∀ (v : Item) (older younger : List Item) (n : Nat) (more : List Nat),
           s.table.items = older ++ v :: younger → (∀ x ∈ older, x.state ≠ .retained) → v.state = .retained →
           it.state ≠ .retained → (v.front.chain ++ v.rear.chain).map ChainStrip.strip = n :: more → s.EventRoom →
           (it.side cam).lines + 1 ≠ s.mgmt.settings.maxSideLength.toNat →
           ∃ t x l, exec (.line (cameraCode cam) doc p px) s = .next t
             ∧ t.frameMemory.freeStrips = more ∧ (∀ y ∈ t.table.items, y.slot ≠ v.slot)
             ∧ t.mgmt.counters.evictions = saturatingInc s.mgmt.counters.evictions
             ∧ t.reportsHeld = s.reportsHeld
                 ++ .event ⟨s.mgmt.eventSeq, .evicted v.announcedTag v.generation v.sequence⟩ :: l
             ∧ t.item? it.slot = some x ∧ (x.side cam).lines = (it.side cam).lines + 1
             ∧ (x.side cam).chain = countLine ((it.side cam).chain ++ [{ strip := n, lines := 0 }])))

/-! ### Deadlines -/

/-- WINDOW_PASSED: with the FRONT head's window passed at the reference position, and no REAR head passed, the head is
removed and its item cancelled NOT_SEEN, and counted; with no reference position nothing happens. -/
def Obligations.WindowPassed : Prop :=
  ∀ s : State,
    (∀ (q : Position) (it : Item) (later : List Slot), s.reference = some q → s.Cancellable it →
      s.capture.front.pendingList = it.slot :: later → past q (it.front.expectedLead + s.tolerance) = true →
      (∀ k x, s.capture.rear.pendingList.head? = some k → s.item? k = some x →
        past q (x.rear.expectedLead + s.tolerance) = false) →
      ∃ t, exec .windowPassed s = .next t ∧ s.Cancels t it .notSeen .notSeen
        ∧ t.mgmt.counters.notSeen = saturatingInc s.mgmt.counters.notSeen)
    ∧ (s.reference = none → exec .windowPassed s = .next s)

/-- CLASSIFY_DEADLINE: the oldest UNCLASSIFIED item whose deadline is reached is classified BY_DEFAULT to its set's default
profile, and while its entry stands it stays so. -/
def Obligations.ClassifyDeadline : Prop :=
  ∀ (s : State) (q d : Position) (it : Item) (older younger : List Item), s.reference = some q →
    s.table.items = older ++ it :: younger → (s.table.items.map Item.slot).Nodup →
    (∀ x ∈ older, x.classifyDeadline = none) → it.classification = .unclassified → it.state ≠ .cancelling →
    it.classifyDeadline = some d → atOrPast q d = true →
    ∃ t, exec .classifyDeadline s = .next t
      ∧ ∀ x ∈ t.table.items, x.slot = it.slot → x.classification = .byDefault
          ∧ x.profile = some (s.image it.set).defaultProfile ∧ x.codeLine = it.codeLine ∧ x.lateCode = it.lateCode

/-- ADVICE_DEADLINE: the oldest item in PROCESSING without advice whose deadline is reached is cancelled LATE. -/
def Obligations.AdviceDeadline : Prop :=
  ∀ (s : State) (q d : Position) (it : Item) (older younger : List Item), s.reference = some q →
    s.table.items = older ++ it :: younger → s.Cancellable it → (∀ x ∈ older, x.adviceDeadline = none) →
    it.generation = 0 → it.state = .processing → it.advice = none → it.adviceDeadline = some d →
    atOrPast q d = true →
    ∃ t, exec .adviceDeadline s = .next t ∧ s.Cancels t it .late .late

/-! ### The line writer and frame memory -/

/-- LINE_WRITE: a line of a side goes to its place in its strip, W bytes from pixel 0, and the entry leaves the FIFO; the
running check starts again at line 0 of a strip; with an empty FIFO nothing is written (assumption 3). An entry with fill
lines is written in order, the fill lines copies of the camera's last line; a burst of the line writer writes one of them.
The 32nd line of a strip, or the last of a COMPLETE side, seals the strip: its check word is recorded and the side's sealed
count increments. A rendition that waited for the strip is taken by the lowest IDLE engine; with none IDLE and a position
key, the engine with the least urgent rendition below its own is asked to yield, and no other. -/
def Obligations.LineIsWritten : Prop :=
  ∀ (s : State) (cam : Camera),
    ((s.channel cam).fifo = [] → exec (.lineWrite cam) s = .next s.chooseFrame)
    ∧ (∀ (k : Slot) (n : Nat) (px : List Byte) (later : List FifoEntry) (it : Item) (c : ChainStrip),
        (s.channel cam).fifo = { slot := k, camera := cam, firstIndex := n, fills := 0, pixels := some px } :: later →
        s.item? k = some it → (it.side cam).chain[n / 32]? = some c →
        let check : Word := checkRun (if n % 32 = 0 then 0xFFFFFFFF#32 else (s.channel cam).runningCheck.getD 0xFFFFFFFF#32) px
        let written : State :=
          { (s.modifyChannel cam fun ch => { ch with fifo := later, lastLine := some px, runningCheck := some check }) with
            mem := Memory.writeBytes s.mem
              (s.frameMemory.map.strips.base + c.strip * 32768 + n % 32 * s.mgmt.settings.lineWidth.toNat) px }
        (n % 32 ≠ 31 → ((it.side cam).capture = .complete → n + 1 ≠ (it.side cam).lines) → s.render.queue = [] →
          exec (.lineWrite cam) s = .next written.chooseFrame)
        ∧ (∀ c' : ChainStrip, n % 32 = 31 ∨ ((it.side cam).capture = .complete ∧ n + 1 = (it.side cam).lines) →
            (it.side cam).chain[(it.side cam).sealedCount]? = some c' →
            (s.render.queue = [] ∨ (∀ e, (s.engine e).state ≠ .idle) ∨ ∃ u qu, s.render.queue = [u] ∧ u.slot = k
              ∧ qu.descriptor.side = cam ∧ (State.startContext qu).nextStrip = (it.side cam).sealedCount
              ∧ s.Consumes u it qu ((it.side cam).sealedCount + 1)) →
            ∃ t : State, exec (.lineWrite cam) s = .next t.chooseFrame
              ∧ t.capture = written.capture ∧ t.mem = written.mem ∧ t.frameMemory.freeStrips = s.frameMemory.freeStrips
              ∧ checkWord? t.frameMemory.checks c'.strip = some (~~~ check)
              ∧ (∀ m, m ≠ c'.strip → checkWord? t.frameMemory.checks m = checkWord? s.frameMemory.checks m)
              ∧ (s.render.queue = [] → t.item? k = some
                  (it.modifySide cam fun x => { x with sealedCount := x.sealedCount + 1 }))
              ∧ (∀ u qu, s.render.queue = [u] → u.slot = k → qu.descriptor.side = cam →
                  (State.startContext qu).nextStrip = (it.side cam).sealedCount →
                  s.Consumes u it qu ((it.side cam).sealedCount + 1) →
                  (∀ e, s.idleEngine? = some e →
                    t.render.queue = [] ∧ t.engine e = State.runningOn u (State.startContext qu)
                    ∧ ∀ e', e' ≠ e → t.engine e' = s.engine e')
                  ∧ (∀ e r pos, (∀ e', (s.engine e').state ≠ .idle) → it.key = .pos pos →
                      (s.engine e).state = .running → (s.engine e).yieldRequest = false →
                      (∀ e', (s.engine e').rendition = some r ↔ e' = e) → s.moreUrgent u r = true →
                      (∀ e' r', e' ≠ e → (s.engine e').state = .running → (s.engine e').yieldRequest = false →
                        (s.engine e').rendition = some r' → s.moreUrgent u r' = true →
                        s.moreUrgent r' r = true ∧ s.moreUrgent r r' = false) →
                      t.render.queue = [u] ∧ t.engine e = { s.engine e with yieldRequest := true }
                      ∧ ∀ e', e' ≠ e → t.engine e' = s.engine e')
                  ∧ ((∀ e', (s.engine e').state ≠ .idle) →
                      (it.key = .none ∨ ∀ e' r', (s.engine e').state = .running → (s.engine e').yieldRequest = false →
                        (s.engine e').rendition = some r' → s.moreUrgent u r' = false) →
                      t.render.queue = [u] ∧ ∀ e', t.engine e' = s.engine e'))))
    ∧ (∀ (k : Slot) (n m : Nat) (px last : List Byte) (later : List FifoEntry) (it : Item) (c : ChainStrip),
        (s.channel cam).fifo = { slot := k, camera := cam, firstIndex := n, fills := m + 1, pixels := some px } :: later →
        s.item? k = some it → (it.side cam).chain[n / 32]? = some c → (s.channel cam).lastLine = some last →
        (it.side cam).capture ≠ .complete → s.render.queue = [] →
        let place : Nat → Nat := fun j =>
          s.frameMemory.map.strips.base + c.strip * 32768 + j * s.mgmt.settings.lineWidth.toNat
        (n % 32 + m + 1 < 31 → ∃ t, exec (.lineWrite cam) s = .next t
          ∧ (t.channel cam).fifo = later ∧ (t.channel cam).lastLine = some px ∧ t.frameMemory = s.frameMemory
          ∧ t.mem = Memory.writeBytes
              ((List.range (m + 1)).foldl (fun mem i => Memory.writeBytes mem (place (n % 32 + i)) last) s.mem)
              (place (n % 32 + m + 1)) px)
        ∧ (n % 32 < 31 → ∃ t, exec (.burstEnd [.lineWriter cam]) s = .next t
            ∧ (t.channel cam).fifo
                = { slot := k, camera := cam, firstIndex := n + 1, fills := m, pixels := some px } :: later
            ∧ (t.channel cam).lastLine = some last ∧ t.frameMemory = s.frameMemory
            ∧ t.mem = Memory.writeBytes s.mem (place (n % 32)) last))

/-- Bytes written to frame memory are read back where they were written, and every other byte reads as before. -/
def Obligations.FrameMemoryHoldsBytes : Prop :=
  ∀ (s : State) (address x : Nat) (bytes : List Byte), Memory.wf s.mem →
    (∀ i b, x = address + i → bytes[i]? = some b → (s.writeBytes address bytes).byteAt x = b)
    ∧ (x < address ∨ address + bytes.length ≤ x → (s.writeBytes address bytes).byteAt x = s.byteAt x)

/-! ### ANNOUNCE -/

/-- An ANNOUNCE of length 0 is counted as a bad frame; outside RUNNING it is refused NOT_RUNNING; with a pending list full
it is refused CROWDED, and with no slot FREE and no item RETAINED it is refused NO_SLOT. -/
def Obligations.AnnounceRefused : Prop :=
  ∀ (s : State) (tag : Half) (lead : Position) (n : Half), s.AdviceRoom →
    exec (.announce tag lead 0) s = .next s.withBadTrack.chooseFrame
    ∧ (n ≠ 0 → s.mgmt.mode ≠ .running →
        exec (.announce tag lead n) s = .next (s.withRefeed tag .notRunning).chooseFrame)
    ∧ (n ≠ 0 → s.mgmt.mode = .running → (∀ it ∈ s.table.items, it.tag ≠ some tag) →
        (s.table.items.length < 32 →
          8 ≤ (s.channel .front).pendingList.length ∨ 8 ≤ (s.channel .rear).pendingList.length →
          exec (.announce tag lead n) s = .next (s.withRefeed tag .crowded).chooseFrame)
        ∧ (32 ≤ s.table.items.length → (∀ it ∈ s.table.items, it.state ≠ .retained) →
          exec (.announce tag lead n) s = .next (s.withRefeed tag .noSlot).chooseFrame))

/-- An ANNOUNCE accepted: the new entry in the lowest FREE slot with the values of R10, its measures 0 and its accumulators
cleared, the sequence counter, the items-announced counter, the bound count of the active set, and the slot at the tail of
both pending lists. An entry that carries the tag is superseded first: its tag becomes absent and it is cancelled TAG_REUSE,
and it stays until its CANCEL notice if something of it was emitted. With no slot FREE the oldest RETAINED item is evicted
and the new entry takes its slot, EVENT EVICTED first (its place before a SET_RETIRED is assumption 12). -/
def Obligations.AnnounceAccepted : Prop :=
  (∀ (s : State) (tag : Half) (lead : Position) (n : Half) (k : Slot) (set : SetNo), s.links.track.up = true → n ≠ 0 →
     s.mgmt.mode = .running → (∀ it ∈ s.table.items, it.tag ≠ some tag) → s.table.items.length < 32 →
     (∀ cam, (s.channel cam).pendingList.length < 8) → s.sets.active = some set →
     k < 32 → (∀ it ∈ s.table.items, it.slot ≠ k) → (∀ j < k, ∃ it ∈ s.table.items, it.slot = j) →
     ∃ (t : State) (it : Item), exec (.announce tag lead n) s = .next t.chooseFrame
       ∧ t.table.items = s.table.items ++ [it] ∧ t.table.announceSeq = s.table.announceSeq + 1
       ∧ t.mgmt.counters.announced = saturatingInc s.mgmt.counters.announced
       ∧ (t.dir set).boundCount = (s.dir set).boundCount + 1
       ∧ (∀ cam, (t.channel cam).pendingList = (s.channel cam).pendingList ++ [k])
       ∧ t.adviceOut = s.adviceOut
       ∧ it.slot = k ∧ it.state = .announced ∧ it.announcedTag = tag ∧ it.tag = some tag
       ∧ it.sequence = s.table.announceSeq ∧ it.batch = s.sets.batch ∧ it.lead = lead ∧ it.announcedLength = n
       ∧ it.set = set ∧ it.generation = 0 ∧ it.rerenderOrder = none ∧ it.profile = none ∧ it.codeLine = none
       ∧ it.classification = .unclassified ∧ it.lateCode = false ∧ it.emittedAny = false ∧ it.evaluated = false
       ∧ (∀ cam, (it.side cam).capture = .pending ∧ (it.side cam).leading = none ∧ (it.side cam).trailing = none
           ∧ (it.side cam).lines = 0 ∧ (it.side cam).chain = [] ∧ (it.side cam).sealedCount = 0
           ∧ (it.side cam).gap = false ∧ (it.side cam).truncated = false
           ∧ (it.side cam).measures = { mean := 0, dense := 0, streak := 0 }
           ∧ (it.side cam).accumulators = some
               { pixelCount := 0, pixelSum := 0, darkCount := 0
                 columnMin := List.replicate s.mgmt.settings.lineWidth.toNat 255
                 columnMax := List.replicate s.mgmt.settings.lineWidth.toNat 0 })
       ∧ it.front.expectedLead = lead + s.mgmt.settings.frontOffset.setWidth 32
       ∧ it.rear.expectedLead
           = lead + s.mgmt.settings.frontOffset.setWidth 32 + s.mgmt.settings.rearOffset.setWidth 32
       ∧ it.classifyDeadline = none ∧ it.adviceDeadline = none
       ∧ it.key = .pos (lead + s.mgmt.settings.frontOffset.setWidth 32 + s.mgmt.settings.rearOffset.setWidth 32
           + n.setWidth 32 + s.mgmt.settings.adviceMargin.setWidth 32)
       ∧ it.flags = ⟨false, false, false, false, false, false, false, false, false, false, false, false, false⟩
       ∧ it.advice = none ∧ it.renditions = none ∧ it.cancelCause = none)
  ∧ (∀ (s : State) (tag : Half) (lead : Position) (n : Half) (set : SetNo) (old : Item), s.links.track.up = true →
       n ≠ 0 → s.mgmt.mode = .running → s.itemByTag? tag = some old → s.Cancellable old →
       (∀ cam, (s.channel cam).pendingList.length < 8) → s.sets.active = some set → s.table.items.length < 32 →
       s.render.queue = [] →
       (old.emittedAny = true → (∀ q ∈ old.renditions.getD [], q.state = .emitted ∨ q.state = .dropped) →
         (∀ it ∈ s.table.items, it.slot < 32) →
         ∃ t it, exec (.announce tag lead n) s = .next t ∧ s.Cancels t old .tagReuse .tagReuse
           ∧ it ∈ t.table.items ∧ it.slot ≠ old.slot ∧ it.tag = some tag ∧ it.state = .announced
           ∧ ∃ x ∈ t.table.items, x.slot = old.slot ∧ x.tag = none ∧ x.announcedTag = old.announcedTag)
       ∧ (old.emittedAny = false → old.renditions = none → old.generation = 0 → old.advice = none → s.AdviceRoom →
           ∃ (t : State) (it : Item), exec (.announce tag lead n) s = .next t.chooseFrame
             ∧ t.table.items = s.table.items.filter (fun x => x.slot != old.slot) ++ [it]
             ∧ it.tag = some tag ∧ it.state = .announced
             ∧ t.adviceOut.queue
                 = s.adviceOut.queue ++ [{ tag := old.announcedTag, verdict := .refeed, cause := .tagReuse }]))
  ∧ (∀ (s : State) (tag : Half) (lead : Position) (n : Half) (set : SetNo) (v : Item) (older younger : List Item),
       s.links.track.up = true → n ≠ 0 → s.mgmt.mode = .running → (∀ it ∈ s.table.items, it.tag ≠ some tag) →
       s.table.items.length = 32 → (s.table.items.map Item.slot).Nodup → (∀ it ∈ s.table.items, it.slot < 32) →
       (∀ cam, (s.channel cam).pendingList.length < 8) → s.sets.active = some set → s.EventRoom →
       s.table.items = older ++ v :: younger → (∀ x ∈ older, x.state ≠ .retained) → v.state = .retained →
       ∃ (t : State) (it : Item) (l : List Report), exec (.announce tag lead n) s = .next t.chooseFrame
         ∧ t.table.items = older ++ younger ++ [it] ∧ it.slot = v.slot ∧ it.tag = some tag
         ∧ t.frameMemory.freeStrips
             = s.frameMemory.freeStrips ++ (v.front.chain ++ v.rear.chain).map ChainStrip.strip
         ∧ t.mgmt.counters.evictions = saturatingInc s.mgmt.counters.evictions
         ∧ t.reportsHeld = s.reportsHeld
             ++ .event ⟨s.mgmt.eventSeq, .evicted v.announcedTag v.generation v.sequence⟩ :: l)

/-! ### CODE -/

/-- A CODE frame that is malformed is counted as a bad frame: READ or PARTIAL without nine ROUTING symbols, NONE with a
symbol, a field too long, AMOUNT of another length than 0 or 10, or a symbol that is none. -/
def Obligations.CodeMalformed : Prop :=
  ∀ (s : State) (tag : Half) (b : CodeBlock), s.links.track.up = true → b.status.toNat ≤ 2 →
    (b.status ≠ 2 ∧ b.routing.length ≠ 9)
      ∨ (b.status = 2 ∧ b.routing ++ b.account ++ b.serial ++ b.tcode ++ b.amount ≠ [])
      ∨ 17 < b.account.length ∨ 10 < b.serial.length ∨ 6 < b.tcode.length
      ∨ (b.amount.length ≠ 0 ∧ b.amount.length ≠ 10)
      ∨ (∃ v ∈ b.routing ++ b.account ++ b.serial ++ b.tcode ++ b.amount, 10 ≤ v.toNat ∧ v ≠ 15) →
    exec (.code tag b) s = .next s.withBadTrack.chooseFrame

/-- A CODE frame that finds no item, or one in CANCELLING, is discarded with EVENT UNKNOWN_TAG; no item is changed. -/
def Obligations.CodeUnknownTag : Prop :=
  ∀ (s : State) (tag : Half) (b : CodeBlock) (c : CodeLine), s.links.track.up = true → s.EventRoom →
    codeLineOf b = some c →
    ((∀ it ∈ s.table.items, it.tag ≠ some tag) ∨ ∃ it, s.itemByTag? tag = some it ∧ it.state = .cancelling) →
    exec (.code tag b) s = .next (s.withEvent (.unknownTag tag c.status)).chooseFrame

/-- A CODE frame that reaches a classified item whose code line is present is discarded with EVENT DUP_CODE; every field
of the entry keeps its value. -/
def Obligations.CodeDuplicate : Prop :=
  ∀ (s : State) (tag : Half) (b : CodeBlock) (c old : CodeLine) (it : Item), s.links.track.up = true → s.EventRoom →
    codeLineOf b = some c → s.itemByTag? tag = some it → it.state ≠ .cancelling → it.classification ≠ .unclassified →
    it.codeLine = some old →
    exec (.code tag b) s = .next (s.withEvent (.dupCode tag)).chooseFrame

/-- A CODE frame that reaches a classified item without a code line is stored as late, and nothing else changes; one that
reaches an UNCLASSIFIED item is stored and classifies it: by the routing rules, or to the default profile on status NONE.
An item of generation 0 that is in PROCESSING by then is evaluated at its classification: its flags are those it held, those
of the classification and those of R127; on the verdict REFEED it is cancelled REFEED at once, on any other it waits for
its renditions, which stand in the render queue (taken while no engine is IDLE, so that none is dispatched before the
tests; assumption 29). -/
def Obligations.CodeStored : Prop :=
  ∀ (s : State) (tag : Half) (b : CodeBlock) (c : CodeLine) (it : Item), s.links.track.up = true →
    codeLineOf b = some c → s.itemByTag? tag = some it → it.state ≠ .cancelling →
    (it.classification ≠ .unclassified → it.codeLine = none →
      exec (.code tag b) s = .next
        (s.modifyItem it.slot fun x => { x with codeLine := some c, lateCode := true }).chooseFrame)
    ∧ (it.classification = .unclassified → (s.table.items.map Item.slot).Nodup →
        (∃ t, exec (.code tag b) s = .next t ∧ ∀ x ∈ t.table.items, x.slot = it.slot →
          x.codeLine = some c ∧ x.lateCode = it.lateCode
          ∧ (c.status = .notFound → x.classification = .byDefault
              ∧ x.profile = some (s.image it.set).defaultProfile)
          ∧ (c.status ≠ .notFound → x.classification = .byCode
              ∧ x.profile = some (routedProfile (s.image it.set) c)))
        ∧ (∀ (p : Nat) (coded graded : QualityFlags),
            p = (if c.status = .notFound then (s.image it.set).defaultProfile else routedProfile (s.image it.set) c) →
            coded = { it.flags with noCode := it.flags.noCode || decide (c.status = .notFound)
                                    badCode := it.flags.badCode || hasUnreadable c } →
            State.GradedBy (s.image it.set) p it.front it.rear coded graded →
            it.state = .processing → it.generation = 0 → it.advice = none → it.evaluated = false →
            (∀ e, (s.engine e).state ≠ .idle) → s.Cancellable it → 1 ≤ (s.image it.set).renditionCount p →
            (verdictOf (s.image it.set) p graded = .refeed →
              ∃ t, exec (.code tag b) s = .next t ∧ s.Cancels t it .refeed .quality)
            ∧ (verdictOf (s.image it.set) p graded ≠ .refeed →
                ∃ t x, exec (.code tag b) s = .next t ∧ t.item? it.slot = some x ∧ x.state = .processing
                  ∧ x.flags = graded ∧ x.evaluated = true ∧ x.advice = none ∧ t.adviceOut = s.adviceOut
                  ∧ (x.renditions.getD []).length = (s.image it.set).renditionCount p
                  ∧ (∀ r, r ∈ t.render.queue ↔ r ∈ s.render.queue
                      ∨ r.slot = it.slot ∧ r.index < (s.image it.set).renditionCount p))))

/-- What the set's image decides. The rules are evaluated in ascending index: the first enabled rule that matches gives the
profile, and with none the set's default profile is taken. The verdict over the flags held follows the strongest action of
the profile's advice policy, MEMCHECK always acting as REFEED. -/
def Obligations.FirstRuleRoutes : Prop :=
  (∀ (img : Image) (c : CodeLine),
     (∀ e < 64, img.ruleEnabled e = true → ruleMatches img e c = true →
       (∀ k < e, img.ruleEnabled k = false ∨ ruleMatches img k c = false) → routedProfile img c = img.ruleProfile e)
     ∧ ((∀ e < 64, img.ruleEnabled e = false ∨ ruleMatches img e c = false) →
         routedProfile img c = img.defaultProfile))
  ∧ (∀ (img : Image) (p : Nat) (held : QualityFlags),
       (verdictOf img p held = .refeed ↔ held.memcheck = true ∨ State.ActsAs img p held 2)
       ∧ (verdictOf img p held = .flagged ↔ held.memcheck = false ∧ ¬ State.ActsAs img p held 2 ∧ State.ActsAs img p held 1)
       ∧ (verdictOf img p held = .accept ↔ held.memcheck = false ∧ ¬ State.ActsAs img p held 2 ∧ ¬ State.ActsAs img p held 1))

/-! ### BATCH, HALT, RESUME, ADVICE_SENT -/

/-- A BATCH frame sets the current batch, and applies a pending activation: the old active set RETIRING or READY by its
bound count, the new one ACTIVE, EVENT SET_ACTIVATED. -/
def Obligations.BatchTaken : Prop :=
  ∀ (s : State) (number : Half), s.links.track.up = true →
    (s.sets.pendingActivation = none →
      exec (.batch number) s = .next (State.chooseFrame { s with sets := { s.sets with batch := number } }))
    ∧ (∀ n old : SetNo, s.sets.pendingActivation = some n → s.sets.active = some old → n ≠ old → s.EventRoom →
        ∃ t, exec (.batch number) s = .next t
          ∧ t.sets.batch = number ∧ t.sets.active = some n ∧ t.sets.pendingActivation = none
          ∧ t.dir n = { s.dir n with state := .active }
          ∧ t.dir old = { s.dir old with state := if 0 < (s.dir old).boundCount then .retiring else .ready }
          ∧ t.table = s.table ∧ t.mgmt.mode = s.mgmt.mode
          ∧ t.reportsHeld = s.reportsHeld ++ [.event ⟨s.mgmt.eventSeq, .setActivated n (s.dir n).loadCount (some old) number⟩])

/-- A HALT frame in RUNNING enters HALTED with EVENT MODE, empties both pending lists and leaves no channel in CAPTURE;
outside RUNNING it is ignored. A RESUME frame in HALTED moves the mode to RUNNING with EVENT MODE and changes nothing else;
in PARKED or RUNNING it is ignored. -/
def Obligations.HaltAndResume : Prop :=
  (∀ s : State, s.links.track.up = true →
     (s.mgmt.mode ≠ .running → exec .halt s = .next s.chooseFrame)
     ∧ (s.mgmt.mode = .running → s.EventRoom → ∃ t l, exec .halt s = .next t ∧ t.mgmt.mode = .halted
         ∧ (∀ cam, (t.channel cam).pendingList = [] ∧ (t.channel cam).state ≠ .capture ∧ (t.channel cam).bound = none)
         ∧ t.reportsHeld = s.reportsHeld
             ++ .event { sequence := s.mgmt.eventSeq, body := .modeChange .running .halted .halt } :: l))
  ∧ (∀ s : State, s.links.track.up = true →
       (s.mgmt.mode ≠ .halted → exec .resume s = .next s.chooseFrame)
       ∧ (s.mgmt.mode = .halted → s.EventRoom →
           exec .resume s = .next (State.chooseFrame
             (State.withEvent { s with mgmt := { s.mgmt with mode := .running } }
               (.modeChange .halted .running .resume)))))

/-- ADVICE_SENT: the ADVICE at the head of the queue leaves it, after one left over from before an engine reset. While the
track link is UP, the one to be sent goes out as a frame of kind 9, and IDLE characters when there is none. The advice of an
item of generation 0 is composed when the last of its renditions settles after its evaluation: ACCEPT with cause NONE, or
FLAGGED with cause QUALITY; its RENDERED renditions become eligible and join the emission queue in index order. -/
def Obligations.AdviceSent : Prop :=
  (∀ s : State, s.links.track.up = true →
     (s.adviceOut.leftover = none →
       exec .adviceSent s = .next { s with adviceOut := { queue := s.adviceOut.queue.tail, leftover := none } })
     ∧ (∀ a, s.adviceOut.leftover = some a →
         exec .adviceSent s = .next { s with adviceOut := { queue := s.adviceOut.queue, leftover := none } })
     ∧ (∀ a, s.adviceOut.leftover = some a ∨ (s.adviceOut.leftover = none ∧ s.adviceOut.queue.head? = some a) →
         s.laneOut .track = frameChars 9
           (halfBytes a.tag ++ [BitVec.ofNat 8 (verdictCode a.verdict), BitVec.ofNat 8 (adviceCauseCode a.cause)]))
     ∧ (s.links.track.locked = true → s.adviceOut = { queue := [], leftover := none } → s.laneOut .track = [.idle]))
  ∧ (∀ (s : State) (e : EngineId) (r : RendRef) (it : Item) (q : Rendition) (c : Context) (strip : ChainStrip)
       (p : Nat) (v : Verdict) (a : AdviceCause),
       s.Reads e r it q c strip → s.Matches strip → s.ReadsLast it q c strip → s.render.queue = [] →
       (s.table.items.map Item.slot).Nodup →
       it.generation = 0 → it.evaluated = true → it.advice = none → it.state ≠ .cancelling → it.profile = some p →
       (∀ y ∈ it.renditions.getD [], y.index ≠ r.index → y.state = .rendered ∨ y.state = .dropped) →
       verdictOf (State.image { s with mem := s.memAfter q c (s.lastBytes it q c strip) } it.set) p it.flags = v →
       (v = .accept ∧ a = .none) ∨ (v = .flagged ∧ a = .quality) →
       s.AdviceRoom →
       ∃ (t : State) (x : Item), exec (.stripRead e) s = .next t.chooseFrame ∧ t.item? r.slot = some x ∧ x.state = it.state
         ∧ x.advice = some (v, a)
         ∧ t.adviceOut.queue = s.adviceOut.queue ++ [{ tag := it.announcedTag, verdict := v, cause := a }]
         ∧ (∀ y ∈ x.renditions.getD [], y.state = .rendered → y.eligible = true)
         ∧ t.emitter.queue = s.emitter.queue
             ++ ((it.renditions.getD []).filter fun y => decide (y.index = r.index ∨ y.state = .rendered)).map
                 fun y => .rendition { slot := it.slot, index := y.index })

/-! ### The engines -/

/-- STRIP_READ. A strip whose bytes match its check word is passed through the reduction, the output bytes it completes are
written (here into the block in hand), and the engine stands at a strip boundary: with the next strip consumable it goes on,
a yield request with nothing more urgent in the queue withdrawn; asked to yield to a more urgent rendition it sets its own
aside, PAUSED with its context, and takes that one; with the next strip not consumable it sets its own aside too. Where the
strip is the last, the last bytes are written and the rendition is RENDERED with its length and check; one of a later
generation becomes eligible and joins the emission queue. A strip that does not match drops the rendition MEMCHECK: its blocks return to the
tail of the free list, the item's flag is set, and the engine enters IDLE; an item of generation 0 is cancelled REFEED for
it. An engine that is not RUNNING does nothing (assumption 3). -/
def Obligations.StripRead : Prop :=
  (∀ (s : State) (e : EngineId),
     ((s.engine e).state ≠ .running → exec (.stripRead e) s = .next s.chooseFrame)
     ∧ (∀ (r : RendRef) (it : Item) (q : Rendition) (c : Context) (strip : ChainStrip)
         (bytes : List Byte), s.Reads e r it q c strip → s.Matches strip →
         (s.reduceStrip it q c strip).bytes = bytes → State.Fits q c bytes →
         (it.side q.descriptor.side).capture ≠ .complete →
         (s.render.queue = [] → c.nextStrip + 1 < (it.side q.descriptor.side).sealedCount →
           32 * (c.nextStrip + 2) + q.descriptor.tail ≤ (it.side q.descriptor.side).lines →
           ∃ t, exec (.stripRead e) s = .next t ∧ t.mem = s.memAfter q c bytes ∧ t.frameMemory = s.frameMemory
             ∧ t.engine e = State.runningOn r (s.contextAfter it q c strip))
         ∧ (s.render.queue = [] → (it.side q.descriptor.side).sealedCount ≤ c.nextStrip + 1
               ∨ (it.side q.descriptor.side).lines < 32 * (c.nextStrip + 2) + q.descriptor.tail →
             ∃ (t : State) (x : Item), exec (.stripRead e) s = .next t.chooseFrame
               ∧ t.mem = s.memAfter q c bytes ∧ t.frameMemory = s.frameMemory
               ∧ t.engine e = { state := .idle, rendition := none, yieldRequest := false, work := none }
               ∧ t.render.queue = [r] ∧ t.item? r.slot = some x
               ∧ x.rendition? r.index = some { q with
                   state := .paused, context := some (s.contextAfter it q c strip) })
         ∧ (∀ u v qu, s.render.queue = [u] → u ≠ r → (s.engine e).yieldRequest = true →
             (∀ e', (s.engine e').state ≠ .idle) → s.Consumes u v qu (v.side qu.descriptor.side).sealedCount →
             s.moreUrgent u r = true → s.moreUrgent r u = false →
             ∃ (t : State) (x : Item) (z : Item), exec (.stripRead e) s = .next t.chooseFrame
               ∧ t.mem = s.memAfter q c bytes ∧ t.frameMemory = s.frameMemory
               ∧ t.engine e = State.runningOn u (State.startContext qu)
               ∧ t.render.queue = [r] ∧ t.item? r.slot = some x
               ∧ x.rendition? r.index = some { q with
                   state := .paused, context := some (s.contextAfter it q c strip) }
               ∧ t.item? u.slot = some z
               ∧ z.rendition? u.index = some { qu with state := .running, context := none }))
     ∧ (∀ (r : RendRef) (it : Item) (q : Rendition) (c : Context) (strip : ChainStrip),
         s.Reads e r it q c strip → s.Matches strip → s.ReadsLast it q c strip → s.render.queue = [] →
         1 ≤ it.generation →
         ∃ (t : State) (x : Item), exec (.stripRead e) s = .next t.chooseFrame
           ∧ t.engine e = { state := .idle, rendition := none, yieldRequest := false, work := none }
           ∧ t.frameMemory = s.frameMemory
           ∧ t.mem = s.memAfter q c (s.lastBytes it q c strip)
           ∧ t.emitter.queue = s.emitter.queue ++ [.rendition r] ∧ t.item? r.slot = some x
           ∧ x.rendition? r.index = some { s.finished it q c strip with eligible := true }))
  ∧ (∀ (s : State) (e : EngineId) (r : RendRef) (it : Item) (q : Rendition) (c : Context) (strip : ChainStrip),
       s.Reads e r it q c strip → ¬ s.Matches strip →
       (1 ≤ it.generation → (∀ e', (s.engine e').state ≠ .blocked) → s.render.queue = [] → q.state = .running →
         ∃ (t : State) (x : Item) (y : Rendition), exec (.stripRead e) s = .next t.chooseFrame
           ∧ t.frameMemory.freeBlocks = s.frameMemory.freeBlocks ++ q.chain ∧ t.mem = s.mem
           ∧ t.engine e = { state := .idle, rendition := none, yieldRequest := false, work := none }
           ∧ t.item? r.slot = some x ∧ x.flags = { it.flags with memcheck := true }
           ∧ x.rendition? r.index = some y ∧ y.state = .dropped ∧ y.dropCause = some .memcheck ∧ y.chain = [])
       ∧ (∀ p, it.generation = 0 → it.profile = some p → it.advice = none → s.Cancellable it →
           ∃ t, exec (.stripRead e) s = .next t ∧ s.Cancels t it .refeed .quality))

/-- The output size of a rendition: the kept pixels and lines, scaled by their ratio and rounded down. The mapped line: each
value replaced by the tone map's entry at it. A FIXED threshold: black, the bit 1, below the level. -/
def Obligations.ReductionSteps : Prop :=
  (∀ (img : Image) (d : Descriptor) (width captured : Nat),
     outputWidth img d width = (width - d.top - d.bottom) * img.scaleNh d.scale / img.scaleDh d.scale
     ∧ outputHeight img d captured = (captured - d.lead - d.tail) * img.scaleNv d.scale / img.scaleDv d.scale)
  ∧ (∀ (img : Image) (tone level : Nat) (values : List Nat) (i v : Nat), values[i]? = some v →
       (toneLine img tone values)[i]? = some (img.toneEntry tone v)
       ∧ (bitonalLine (.fixed level) values)[i]? = some (decide (v < level)))

/-- The overlaps of all input pixels with one whole output pixel add up to d, and a scaled value stays within 0 to 255. -/
def Obligations.OverlapsAddUp : Prop :=
  ∀ n d : Nat, 0 < n → n ≤ d →
    (∀ count j : Nat, (j + 1) * d ≤ count * n → ((List.range count).map fun i => overlap n d i j).sum = d)
    ∧ (∀ (pixels : List Nat) (j : Nat), (∀ v ∈ pixels, v ≤ 255) → scaledValue n d pixels j ≤ 255)

/-! ### The Emitter -/

/-- CREDIT: the grant is added to the counter; above 255 the counter becomes 255 with EVENT CREDIT_OVERFLOW; a grant of 0
is counted as a bad frame and the counter does not change. -/
def Obligations.CreditTaken : Prop :=
  ∀ (s : State) (grant : Byte), s.links.exchange.up = true →
    (grant = 0 → exec (.credit grant) s = .next s.withBadExchange.chooseFrame)
    ∧ (grant ≠ 0 → s.emitter.credits + grant.toNat ≤ 255 →
        exec (.credit grant) s = .next (State.chooseFrame
          { s with emitter := { s.emitter with credits := s.emitter.credits + grant.toNat } }))
    ∧ (grant ≠ 0 → 255 < s.emitter.credits + grant.toNat → s.eventsHeld < 32 →
        exec (.credit grant) s = .next (State.chooseFrame
          (State.withEvent { s with emitter := { s.emitter with credits := 255 } }
            (.creditOverflow grant.toNat s.emitter.credits))))

/-- The choice at a frame boundary: a waiting RESPONSE or EVENT first; then, with credit, the next frame of the rendition in
hand, or the head of the summary list, or the head of the emission queue (a rendition becomes EMITTING and its HEADER is
sent, a CANCEL notice is sent), each spending one credit; no choice while a frame is in progress or the link is DOWN, and
none without credit but a report. -/
def Obligations.FrameChoice : Prop :=
  ∀ s : State,
    (s.links.exchange.up = false ∨ s.emitter.frame ≠ none → s.chooseFrame = s)
    ∧ (s.links.exchange.up = true → s.emitter.frame = none →
        (∀ r rest, s.mgmt.reports = r :: rest →
          s.chooseFrame = { s with
            emitter := { s.emitter with frame := some (.report r) }, mgmt := { s.mgmt with reports := rest } })
        ∧ (s.mgmt.reports = [] → s.emitter.credits = 0 → s.chooseFrame = s)
        ∧ (s.mgmt.reports = [] → 0 < s.emitter.credits →
            (∀ r n it q, s.emitter.work = .rendition r n false → s.item? r.slot = some it → s.rendition? r = some q →
              s.chooseFrame = { s with emitter := { s.emitter with
                credits := s.emitter.credits - 1
                frame := some (.segment { tag := it.announcedTag, generation := it.generation, index := q.index,
                                          number := n, payload := s.segmentBytesOf q n }) } })
            ∧ (∀ r n it q, s.emitter.work = .rendition r n true → s.item? r.slot = some it → s.rendition? r = some q →
              s.chooseFrame = { s with emitter := { s.emitter with
                credits := s.emitter.credits - 1
                frame := some (.trailer { tag := it.announcedTag, generation := it.generation, index := q.index,
                                          segments := (q.length.getD 0 + 511) / 512, check := q.check.getD 0 }) } })
            ∧ (∀ k rest it, s.emitter.work = .idle → s.emitter.summaryList = k :: rest → s.item? k = some it →
              s.chooseFrame = { s with emitter := { s.emitter with
                credits := s.emitter.credits - 1, summaryList := rest, work := .summary k
                frame := some (.summary (s.summaryOf it)) } })
            ∧ (∀ r rest it q, s.emitter.work = .idle → s.emitter.summaryList = [] →
              s.emitter.queue = .rendition r :: rest → s.item? r.slot = some it → s.rendition? r = some q →
              s.chooseFrame = { (s.modifyItem r.slot fun x =>
                  { x.modifyRendition r.index (fun y => { y with state := .emitting }) with emittedAny := true }) with
                emitter := { s.emitter with
                  credits := s.emitter.credits - 1, queue := rest
                  work := .rendition r 0 (decide ((q.length.getD 0 + 511) / 512 = 0))
                  frame := some (.header
                    { tag := it.announcedTag, batch := it.batch, generation := it.generation, index := q.index,
                      restart := q.restart, side := q.descriptor.side, depth := q.descriptor.depth,
                      coding := q.descriptor.coding, width := q.width, height := q.height.getD 0,
                      length := q.length.getD 0, profile := it.profile.getD 0, set := it.set,
                      loadCount := (s.dir it.set).loadCount }) } })
            ∧ (∀ k rest it, s.emitter.work = .idle → s.emitter.summaryList = [] → s.emitter.queue = .notice k :: rest →
              s.item? k = some it →
              s.chooseFrame = { s with emitter := { s.emitter with
                credits := s.emitter.credits - 1, queue := rest, work := .notice k
                frame := some (.cancel { tag := it.announcedTag, batch := it.batch, generation := it.generation }) } })))

/-- FRAME_END: the end of a report leaves the work in hand, nothing or a rendition that is not stopping; after a HEADER
segment 0 is due, after SEGMENT n segment n + 1, or the TRAILER once every SEGMENT has been sent; with no frame in progress
nothing ends (assumption 3). At the end of any of these frames, and of a TRAILER, a stopping rendition is dropped CANCELLED
and its blocks return to the tail of the free list; when it was the last in hand of a CANCELLING item, the CANCEL notice joins
the emission queue. -/
def Obligations.FramePartsEnd : Prop :=
  ∀ s : State, s.emitter.discarded = false → s.mgmt.headWait ≠ .engineReset →
    let off : State := { s with emitter := { s.emitter with frame := none } }
    (s.emitter.frame = none → exec .frameEnd s = .next s.chooseFrame)
    ∧ (∀ m, s.emitter.frame = some (.report m) →
        s.emitter.work = .idle ∨ (∃ r n d q, s.emitter.work = .rendition r n d ∧ s.rendition? r = some q
          ∧ q.stopping = false) →
        exec .frameEnd s = .next off.chooseFrame)
    ∧ (∀ h r n d q, s.emitter.frame = some (.header h) → s.emitter.work = .rendition r n d → s.rendition? r = some q →
        q.stopping = false →
        exec .frameEnd s = .next (State.chooseFrame { off with emitter := { off.emitter with
          work := .rendition r 0 (decide ((q.length.getD 0 + 511) / 512 = 0)) } }))
    ∧ (∀ g r n d q, s.emitter.frame = some (.segment g) → s.emitter.work = .rendition r n d → s.rendition? r = some q →
        q.stopping = false →
        exec .frameEnd s = .next (State.chooseFrame { off with emitter := { off.emitter with
          work := .rendition r (g.number + 1) (decide ((q.length.getD 0 + 511) / 512 ≤ g.number + 1)) } }))
    ∧ (∀ f r n d it q, s.emitter.frame = some f → (∀ x, f ≠ .cancel x) → (∀ x, f ≠ .summary x) →
        s.emitter.work = .rendition r n d → s.item? r.slot = some it → s.rendition? r = some q → q.stopping = true →
        q.state = .emitting → it.emittedAny = true → (∀ e, (s.engine e).state ≠ .blocked) → s.mgmt.reports = [] →
        s.emitter.credits = 0 →
        ∃ t x y, exec .frameEnd s = .next t ∧ t.emitter.work = .idle ∧ t.emitter.frame = none
          ∧ t.frameMemory.freeBlocks = s.frameMemory.freeBlocks ++ q.chain
          ∧ t.item? r.slot = some x ∧ x.rendition? r.index = some y
          ∧ y.state = .dropped ∧ y.dropCause = some .cancelled ∧ y.chain = []
          ∧ (it.state = .cancelling → EmissionEntry.notice r.slot ∉ s.emitter.queue →
              (∀ z ∈ it.renditions.getD [], z.index ≠ r.index → z.state ≠ .running ∧ z.state ≠ .emitting) →
              t.emitter.queue = s.emitter.queue ++ [.notice r.slot]))

/-- TRAILER_END: the rendition becomes EMITTED and its blocks return to the tail of the free list in chain order. The
BLOCKED engines are served from it in urgency order, one block each: the most urgent takes the block at the head and goes
on RUNNING; one for which no block is left, or whose later-generation rendition finds the free count at or below the
reserve, stays BLOCKED. -/
def Obligations.TrailerEnds : Prop :=
  ∀ (s : State) (m : Trailer) (r : RendRef) (n : Nat) (d : Bool) (it : Item) (q : Rendition),
    s.emitter.discarded = false → s.mgmt.headWait ≠ .engineReset → s.emitter.frame = some (.trailer m) →
    s.emitter.work = .rendition r n d → s.item? r.slot = some it → s.rendition? r = some q → q.stopping = false →
    s.mgmt.reports = [] → s.emitter.credits = 0 →
    ((∀ e, (s.engine e).state ≠ .blocked) →
      ∃ t x y, exec .trailerEnd s = .next t ∧ t.emitter.work = .idle ∧ t.emitter.frame = none
        ∧ t.frameMemory.freeBlocks = s.frameMemory.freeBlocks ++ q.chain
        ∧ t.item? r.slot = some x ∧ x.state = it.state ∧ x.advice = it.advice
        ∧ x.rendition? r.index = some y ∧ y.state = .emitted ∧ y.chain = [] ∧ y.restart = false)
    ∧ (∀ (e : EngineId) (u : RendRef) (v : Item) (qu : Rendition) (b : Nat) (rest : List Nat),
        u ≠ r → (s.engine e).state = .blocked → (∀ e', (s.engine e').rendition = some u ↔ e' = e) →
        s.item? u.slot = some v → s.rendition? u = some qu → q.chain ≠ [] →
        s.frameMemory.freeBlocks ++ q.chain = b :: rest →
        (v.generation = 0 ∨ s.mgmt.settings.rerenderReserve.toNat < (b :: rest).length →
          (∀ e' u', e' ≠ e → (s.engine e').state = .blocked → (s.engine e').rendition = some u' →
            rest = [] ∧ s.moreUrgent u u' = true ∧ s.moreUrgent u' u = false) →
          ∃ t x, exec .trailerEnd s = .next t ∧ t.frameMemory.freeBlocks = rest
            ∧ t.engine e = { s.engine e with state := .running }
            ∧ (∀ e', e' ≠ e → t.engine e' = s.engine e')
            ∧ t.item? u.slot = some x
            ∧ x.rendition? u.index = some { qu with state := .running, chain := qu.chain ++ [b] })
        ∧ (∀ (e₂ : EngineId) (u₂ : RendRef) (v₂ : Item) (qu₂ : Rendition) (b₂ : Nat) (left : List Nat),
            e₂ ≠ e → u₂ ≠ r → (s.engine e₂).state = .blocked → (∀ e', (s.engine e').rendition = some u₂ ↔ e' = e₂) →
            (∀ e', e' ≠ e → e' ≠ e₂ → (s.engine e').state ≠ .blocked) → s.item? u₂.slot = some v₂ →
            s.rendition? u₂ = some qu₂ → v.generation = 0 → v₂.generation = 0 → s.moreUrgent u u₂ = true →
            s.moreUrgent u₂ u = false → rest = b₂ :: left →
            ∃ t x x₂, exec .trailerEnd s = .next t ∧ t.frameMemory.freeBlocks = left
              ∧ t.engine e = { s.engine e with state := .running } ∧ t.engine e₂ = { s.engine e₂ with state := .running }
              ∧ t.item? u.slot = some x ∧ t.item? u₂.slot = some x₂
              ∧ x.rendition? u.index = some { qu with state := .running, chain := qu.chain ++ [b] }
              ∧ x₂.rendition? u₂.index = some { qu₂ with state := .running, chain := qu₂.chain ++ [b₂] })
        ∧ (1 ≤ v.generation → (b :: rest).length ≤ s.mgmt.settings.rerenderReserve.toNat →
            (∀ e', e' ≠ e → (s.engine e').state ≠ .blocked) →
            ∃ t, exec .trailerEnd s = .next t ∧ t.frameMemory.freeBlocks = b :: rest
              ∧ ∀ e', t.engine e' = s.engine e'))

/-- CANCEL_NOTICE_END: the item of the notice becomes FREE, its strips returning front chain first. -/
def Obligations.CancelNoticeEnds : Prop :=
  ∀ (s : State) (m : CancelNotice) (it : Item),
    s.emitter.discarded = false → s.mgmt.headWait ≠ .engineReset → s.emitter.frame = some (.cancel m) →
    s.emitter.work = .notice it.slot → s.item? it.slot = some it → s.mgmt.reports = [] → s.emitter.credits = 0 →
    (s.dir it.set).state ≠ .retiring →
    ∃ t, exec .cancelNoticeEnd s = .next t ∧ t.emitter.work = .idle ∧ t.emitter.frame = none
      ∧ t.table.items = s.table.items.filter (fun x => x.slot != it.slot)
      ∧ t.frameMemory.freeStrips
          = s.frameMemory.freeStrips ++ (it.front.chain ++ it.rear.chain).map ChainStrip.strip
      ∧ (t.dir it.set).boundCount = (s.dir it.set).boundCount - 1

/-- SUMMARY_END: the item enters RETAINED; a cancel taken while the SUMMARY was in progress is then applied to it. -/
def Obligations.SummaryEnds : Prop :=
  ∀ (s : State) (m : Summary) (it : Item),
    s.emitter.discarded = false → s.mgmt.headWait ≠ .engineReset → s.emitter.frame = some (.summary m) →
    s.emitter.work = .summary it.slot → s.item? it.slot = some it →
    (it.deferredCancel = none →
      exec .summaryEnd s = .next (State.chooseFrame
        (State.modifyItem { s with emitter := { s.emitter with frame := none, work := .idle } } it.slot
          fun x => { x with state := .retained, deferredCancel := none })))
    ∧ (∀ c, it.deferredCancel = some c → (s.table.items.map Item.slot).Nodup →
        ∃ t, exec .summaryEnd s = .next t
          ∧ ∀ x ∈ t.table.items, x.slot = it.slot → x.state = .cancelling ∧ x.cancelCause = some c)

/-! ### Arbitration -/

/-- The arbiter grants the waiting client of the highest class: a FRONT line before a REAR line, a line before the Emitter,
the Emitter before the engines, of these the one with the most urgent rendition, then the Loader, then management; a client
that waits for nothing is passed over (assumption 7). The burst of an engine in the middle of a strip or a finish writes up
to 512 of the bytes it has left (assumption 9) within its block, and stops just before the next, which it has in hand; one
that fills the block with bytes left demands the next: it is granted, or the engine enters BLOCKED (free list empty, or a
later generation at the reserve), or the rendition is dropped OVERSIZE at its size limit. -/
def Obligations.BurstPriority : Prop :=
  (∀ (s : State) (waiting : List MemoryClient),
     (MemoryClient.lineWriter .front ∈ waiting → (s.channel .front).fifo ≠ [] →
       s.grant waiting = some (.lineWriter .front))
     ∧ (MemoryClient.lineWriter .front ∉ waiting →
         (MemoryClient.lineWriter .rear ∈ waiting → (s.channel .rear).fifo ≠ [] →
           s.grant waiting = some (.lineWriter .rear))
         ∧ (MemoryClient.lineWriter .rear ∉ waiting →
             (∀ r n, MemoryClient.emitter ∈ waiting → s.emitter.work = .rendition r n false →
               s.grant waiting = some .emitter)
             ∧ (MemoryClient.emitter ∉ waiting →
                 (∀ e r, MemoryClient.engine e ∈ waiting → (s.engine e).state = .running →
                   (∀ e', (s.engine e').rendition = some r ↔ e' = e) →
                   (∀ e' r', e' ≠ e → MemoryClient.engine e' ∈ waiting → (s.engine e').rendition = some r' →
                     s.moreUrgent r r' = true ∧ s.moreUrgent r' r = false) →
                   s.grant waiting = some (.engine e))
                 ∧ ((∀ e, MemoryClient.engine e ∉ waiting) →
                     (MemoryClient.loader ∈ waiting → s.mgmt.headWait = .loaderWrite ∨ s.mgmt.headWait = .validation →
                       s.grant waiting = some .loader)
                     ∧ (MemoryClient.loader ∉ waiting → MemoryClient.management ∈ waiting →
                         s.mgmt.headWait = .managementBurst → s.grant waiting = some .management)))))
     ∧ (s.grant waiting = none → exec (.burstEnd waiting) s = .next s.chooseFrame)
     ∧ (∀ c, s.grant waiting = some c →
         c ∈ waiting ∧ exec (.burstEnd waiting) s = .next (s.endBurst c).chooseFrame))
  ∧ (∀ (s : State) (e : EngineId) (r : RendRef) (it : Item) (q : Rendition) (c : Context) (out : HeldOutput) (room : Nat)
       (left : List Byte),
       s.Writes e r it q c out → (∀ e', (s.engine e').rendition = some r ↔ e' = e) →
       room = 4096 * q.chain.length - c.bytesWritten → left = ((s.reduceRules it q).resume c out).bytes →
       min 512 room < left.length →
       let count := min 512 room
       let mem := Memory.writeBytes s.mem
         (s.frameMemory.map.output.base + q.chain.getLastD 0 * 4096 + c.bytesWritten % 4096) (left.take count)
       (512 < room →
         ∃ (t : State) (x : Item) (c' : Context) (out' : HeldOutput),
           exec (.burstEnd [.engine e]) s = .next t.chooseFrame
           ∧ t.mem = mem ∧ t.frameMemory = s.frameMemory
           ∧ State.Continues (s.reduceRules it q) c out count c' out'
           ∧ t.engine e = { s.engine e with work := some { context := c', output := some out' } }
           ∧ t.item? r.slot = some x ∧ x.rendition? r.index = some q)
       ∧ (room ≤ 512 →
           (∀ b rest, s.frameMemory.freeBlocks = b :: rest → q.chain.length < q.descriptor.sizeLimit →
             it.generation = 0 ∨ s.mgmt.settings.rerenderReserve.toNat < (b :: rest).length →
             ∃ (t : State) (x : Item) (c' : Context) (out' : HeldOutput),
               exec (.burstEnd [.engine e]) s = .next t.chooseFrame ∧ t.mem = mem
               ∧ t.frameMemory = { s.frameMemory with freeBlocks := rest }
               ∧ State.Continues (s.reduceRules it q) c out count c' out'
               ∧ t.engine e = { s.engine e with work := some { context := c', output := some out' } }
               ∧ t.item? r.slot = some x ∧ x.rendition? r.index = some { q with chain := q.chain ++ [b] })
           ∧ (q.chain.length < q.descriptor.sizeLimit →
               s.frameMemory.freeBlocks = [] ∨ (1 ≤ it.generation
                 ∧ s.frameMemory.freeBlocks.length ≤ s.mgmt.settings.rerenderReserve.toNat) →
               ∃ (t : State) (x : Item) (c' : Context) (out' : HeldOutput),
                 exec (.burstEnd [.engine e]) s = .next t.chooseFrame ∧ t.mem = mem
                 ∧ t.frameMemory = s.frameMemory
                 ∧ State.Continues (s.reduceRules it q) c out count c' out'
                 ∧ t.engine e = { s.engine e with
                     state := .blocked, yieldRequest := false, work := some { context := c', output := some out' } }
                 ∧ t.item? r.slot = some x ∧ x.rendition? r.index = some { q with state := .blocked })
           ∧ (q.descriptor.sizeLimit ≤ q.chain.length → 1 ≤ it.generation → q.state = .running →
               s.render.queue = [] → (∀ e', (s.engine e').state ≠ .blocked) →
               ∃ (t : State) (x : Item) (y : Rendition), exec (.burstEnd [.engine e]) s = .next t.chooseFrame
                 ∧ t.frameMemory.freeBlocks = s.frameMemory.freeBlocks ++ q.chain
                 ∧ t.engine e = { state := .idle, rendition := none, yieldRequest := false, work := none }
                 ∧ t.item? r.slot = some x ∧ x.flags = { it.flags with oversize := true }
                 ∧ x.rendition? r.index = some y ∧ y.state = .dropped ∧ y.dropCause = some .oversize ∧ y.chain = [])))

/-- The bursts of the request at the head: LOAD DATA writes its words at their place in the slot and is answered with the
new next offset; PEEK is answered with the bytes as they stand; POKE writes its bytes and is answered DONE. -/
def Obligations.RequestBurstEnds : Prop :=
  ∀ (s : State) (corr : Byte), s.links.exchange.up = true → s.mgmt.reserved = 1 →
    let done : State := { s with mgmt := { s.mgmt with reserved := 0, requests := [], headWait := .nothing } }
    (∀ (offset : Half) (words : List Word) (l : OpenLoad),
      s.mgmt.requests = [{ corr := corr, request := .loadData offset words }] → s.mgmt.headWait = .loaderWrite →
      s.sets.load = some l →
      exec (.burstEnd [.loader]) s = .next (State.chooseFrame (State.withResponse
        { done with
          mem := Memory.writeBytes s.mem (s.frameMemory.map.tables.base + l.set.val * 65536 + 4 * offset.toNat)
            (words.flatMap wordBytes)
          sets := { s.sets with load := some { l with
            nextOffset := l.nextOffset + words.length
            runningCheck := checkRun l.runningCheck (words.flatMap wordBytes) } } }
        { corr := corr, kind := 8, code := .done, detail := 0, location := (0, 0, 0),
          result := halfBytes (BitVec.ofNat 16 (l.nextOffset + words.length)) })))
    ∧ (∀ (address : Word) (n : Half),
        s.mgmt.requests = [{ corr := corr, request := .peek address n }] → s.mgmt.headWait = .managementBurst →
        exec (.burstEnd [.management]) s = .next (State.chooseFrame (done.withResponse
          { corr := corr, kind := 16, code := .done, detail := 0, location := (0, 0, 0),
            result := (List.range n.toNat).map fun i => s.byteAt (address.toNat + i) })))
    ∧ (∀ (address : Word) (n : Half) (bytes : List Byte),
        s.mgmt.requests = [{ corr := corr, request := .poke address n bytes }] → s.mgmt.headWait = .managementBurst →
        exec (.burstEnd [.management]) s = .next (State.chooseFrame (State.withResponse
          { done with mem := Memory.writeBytes s.mem address.toNat bytes }
          { corr := corr, kind := 17, code := .done, detail := 0, location := (0, 0, 0), result := [] })))

/-! ### Requests -/

/-- STATUS and ITEM are answered at once, and so is a request that is none, BAD_VALUE; nothing else changes. -/
def Obligations.AnsweredAtOnce : Prop :=
  ∀ (s : State) (corr : Byte), s.links.exchange.up = true → s.responsesHeld < 16 →
    let reply : Byte → ResponseCode → List Byte → Response := fun kind code result =>
      { corr := corr, kind := kind, code := code, detail := 0, location := (0, 0, 0), result := result }
    exec (.status corr) s = .next (s.withResponse (reply 1 .done s.statusResult)).chooseFrame
    ∧ (∀ tag it, s.itemByTag? tag = some it →
        exec (.item corr tag) s = .next (s.withResponse (reply 2 .done (itemResult it))).chooseFrame)
    ∧ (∀ tag, (∀ it ∈ s.table.items, it.tag ≠ some tag) →
        exec (.item corr tag) s = .next (s.withResponse (reply 2 .noItem [])).chooseFrame)
    ∧ (∀ (kind : Byte) fields, kind = 0 ∨ 18 < kind.toNat ∨ (kind = 3 ∧ fields ≠ []) →
        exec (.requestUnknownKind corr kind fields) s
          = .next (s.withResponse (reply kind .badValue [])).chooseFrame)

/-- With no free response place a REQUEST frame of any kind is discarded and counted as bad; with four requests queued a
request of any queued kind is answered FULL at once. -/
def Obligations.RequestNotQueued : Prop :=
  ∀ (s : State) (i : Instr) (corr kind : Byte) (fields : List Byte), s.links.exchange.up = true → i.wf = true →
    requestBytes i = some (corr, kind, fields) →
    (16 ≤ s.responsesHeld → exec i s = .next s.withBadExchange.chooseFrame)
    ∧ (s.responsesHeld < 16 → 4 ≤ s.mgmt.requests.length → fieldsFit kind fields = true → kind ≠ 1 → kind ≠ 2 →
        exec i s = .next (s.withResponse
          { corr := corr, kind := kind, code := .full, detail := 0, location := (0, 0, 0), result := [] }).chooseFrame)

/-- RUN and PARK: the checks in order, the mode, EVENT MODE and the answer; a PARK in PARKED changes nothing. -/
def Obligations.RunAndPark : Prop :=
  ∀ (s : State) (corr : Byte), s.Admits → s.eventsHeld < 32 →
    let reply : Byte → ResponseCode → Response := fun kind code =>
      { corr := corr, kind := kind, code := code, detail := 0, location := (0, 0, 0), result := [] }
    (s.mgmt.mode ≠ .parked → exec (.run corr) s = .next (s.withResponse (reply 3 .wrongMode)).chooseFrame)
    ∧ (s.mgmt.mode = .parked → s.sets.active = none ∨ s.links.track.up = false →
        exec (.run corr) s = .next (s.withResponse (reply 3 .wrongState)).chooseFrame)
    ∧ (∀ n, s.mgmt.mode = .parked → s.sets.active = some n → s.links.track.up = true →
        exec (.run corr) s = .next (State.chooseFrame (State.withResponse
          (State.withEvent { s with mgmt := { s.mgmt with mode := .running } } (.modeChange .parked .running .run))
          (reply 3 .done))))
    ∧ (s.mgmt.mode = .parked → exec (.park corr) s = .next (s.withResponse (reply 4 .done)).chooseFrame)
    ∧ (∀ it ∈ s.table.items, s.mgmt.mode ≠ .parked → it.state ≠ .retained →
        exec (.park corr) s = .next (s.withResponse (reply 4 .busy)).chooseFrame)
    ∧ (s.mgmt.mode ≠ .parked → (∀ it ∈ s.table.items, it.state = .retained) → s.sets.pendingActivation = none →
        exec (.park corr) s = .next (State.chooseFrame (State.withResponse
          (State.withEvent { s with mgmt := { s.mgmt with mode := .parked } } (.modeChange s.mgmt.mode .parked .park))
          (reply 4 .done))))

/-- SETTINGS: outside PARKED WRONG_MODE; values in their ranges and on their steps, with the reserve below the block count
and the items check passed, take effect together; the line width out of range is BAD_VALUE naming it. -/
def Obligations.SettingsTaken : Prop :=
  ∀ (s : State) (corr : Byte) (v : RunSettings), s.Admits →
    let reply : ResponseCode → Byte → Response := fun code detail =>
      { corr := corr, kind := 5, code := code, detail := detail, location := (0, 0, 0), result := [] }
    (s.mgmt.mode ≠ .parked → exec (.settings corr v) s = .next (s.withResponse (reply .wrongMode 0)).chooseFrame)
    ∧ (s.mgmt.mode = .parked → v.lineWidth.toNat < 64 ∨ 1024 < v.lineWidth.toNat ∨ v.lineWidth.toNat % 16 ≠ 0 →
        exec (.settings corr v) s = .next (s.withResponse (reply .badValue 32)).chooseFrame)
    ∧ (s.mgmt.mode = .parked →
        64 ≤ v.lineWidth.toNat → v.lineWidth.toNat ≤ 1024 → v.lineWidth.toNat % 16 = 0 →
        1 ≤ v.rearOffset.toNat → 4 ≤ v.windowTolerance.toNat → v.windowTolerance.toNat ≤ 255 →
        256 ≤ v.maxSideLength.toNat → v.maxSideLength.toNat ≤ 2560 → v.maxSideLength.toNat % 32 = 0 →
        1 ≤ v.adviceMargin.toNat → v.rerenderReserve.toNat ≤ 4095 → 1 ≤ v.darkLevel.toNat →
        v.streakSpread.toNat ≤ 31 →
        (s.frameMemory.map.output.size / 4096 ≤ v.rerenderReserve.toNat →
          exec (.settings corr v) s = .next (s.withResponse (reply .badValue 39)).chooseFrame)
        ∧ (v.rerenderReserve.toNat < s.frameMemory.map.output.size / 4096 →
            (s.table.items ≠ [] → v.lineWidth ≠ s.mgmt.settings.lineWidth →
              exec (.settings corr v) s = .next (s.withResponse (reply .wrongState 0)).chooseFrame)
            ∧ (s.table.items = [] ∨ (v.lineWidth = s.mgmt.settings.lineWidth
                  ∧ v.maxSideLength = s.mgmt.settings.maxSideLength) →
                exec (.settings corr v) s = .next (State.chooseFrame (State.withResponse
                  { s with mgmt := { s.mgmt with settings := v } } (reply .done 0))))))

/-- REGIONS: outside PARKED WRONG_MODE, with an item WRONG_STATE; a map that passes every check replaces the one in force,
both pools are rebuilt full, the check table is cleared, and the answer carries both counts; a changed TABLES base empties
every set. -/
def Obligations.RegionsTaken : Prop :=
  ∀ (s : State) (corr : Byte) (v : RegionFields), s.Admits →
    let reply : ResponseCode → List Byte → Response := fun code result =>
      { corr := corr, kind := 6, code := code, detail := 0, location := (0, 0, 0), result := result }
    (s.mgmt.mode ≠ .parked → exec (.regions corr v) s = .next (s.withResponse (reply .wrongMode [])).chooseFrame)
    ∧ (s.mgmt.mode = .parked → s.table.items ≠ [] →
        exec (.regions corr v) s = .next (s.withResponse (reply .wrongState [])).chooseFrame)
    ∧ (s.mgmt.mode = .parked → s.table.items = [] →
        mapFailure (regionMapOf v) (s.frameMemory.installedMiB * 1048576) s.mgmt.settings.rerenderReserve.toNat = none →
        ∃ t, exec (.regions corr v) s = .next t ∧ t.frameMemory.map = regionMapOf v
          ∧ t.frameMemory.installedMiB = s.frameMemory.installedMiB
          ∧ t.frameMemory.freeStrips = List.range (v.strips.size.toNat / 32768)
          ∧ t.frameMemory.freeBlocks = List.range (v.output.size.toNat / 4096)
          ∧ t.frameMemory.checks = [] ∧ t.mem = s.mem ∧ t.mgmt.mode = .parked
          ∧ t.reportsHeld = s.reportsHeld ++ [.response (reply .done
              (halfBytes (BitVec.ofNat 16 (v.strips.size.toNat / 32768))
                ++ halfBytes (BitVec.ofNat 16 (v.output.size.toNat / 4096))))]
          ∧ (v.tablesBase.toNat = s.frameMemory.map.tables.base → t.sets = s.sets)
          ∧ (v.tablesBase.toNat ≠ s.frameMemory.map.tables.base →
              t.sets.load = none ∧ t.sets.active = none ∧ t.sets.pendingActivation = none ∧ t.sets.batch = s.sets.batch
              ∧ ∀ n, (t.dir n).state = .empty ∧ (t.dir n).imageLength = 0 ∧ (t.dir n).imageCheck = none
                  ∧ (t.dir n).loadCount = (s.dir n).loadCount))

/-- What the checks of REGIONS pass: TABLES not poke-allowed, sizes that are powers of two in their ranges, bases aligned,
every region within the installed size, no two overlapping, and the reserve below the block count. -/
def Obligations.RegionChecks : Prop :=
  ∀ (m : RegionMap) (installed reserve : Nat), m.tables.size = 262144 →
    (mapFailure m installed reserve = none ↔
      m.tables.pokeAllowed = false
      ∧ (∃ k ≤ 5, m.strips.size = 8388608 * 2 ^ k) ∧ (∃ k ≤ 7, m.output.size = 1048576 * 2 ^ k)
      ∧ (m.spare.size = 0 ∨ ∃ k ≤ 8, m.spare.size = 262144 * 2 ^ k)
      ∧ (∀ r, (m.region r).size = 0 ∨
          ((m.region r).base % (m.region r).size = 0 ∧ (m.region r).base + (m.region r).size ≤ installed))
      ∧ (∀ r r', r ≠ r' → ∀ a, ¬ ((m.region r).base ≤ a ∧ a < (m.region r).base + (m.region r).size
          ∧ (m.region r').base ≤ a ∧ a < (m.region r').base + (m.region r').size))
      ∧ reserve < m.output.size / 4096)

/-- LOAD OPEN: a set or length out of range BAD_VALUE, a load open BUSY, an ACTIVE, RETIRING or pending set WRONG_STATE;
otherwise the set is LOADING with the declared length and the open load begins at offset 0. -/
def Obligations.LoadOpened : Prop :=
  ∀ (s : State) (corr set : Byte) (n : SetNo) (declared : Half), s.Admits →
    let reply : ResponseCode → Response := fun code =>
      { corr := corr, kind := 7, code := code, detail := 0, location := (0, 0, 0), result := [] }
    (4 ≤ set.toNat ∨ declared.toNat < 16 ∨ 16384 < declared.toNat →
      exec (.loadOpen corr set declared) s = .next (s.withResponse (reply .badValue)).chooseFrame)
    ∧ (set.toNat = n.val → 16 ≤ declared.toNat → declared.toNat ≤ 16384 →
        (s.sets.load ≠ none →
          exec (.loadOpen corr set declared) s = .next (s.withResponse (reply .busy)).chooseFrame)
        ∧ (s.sets.load = none → (s.dir n).state = .active ∨ (s.dir n).state = .retiring
              ∨ s.sets.pendingActivation = some n →
            exec (.loadOpen corr set declared) s = .next (s.withResponse (reply .wrongState)).chooseFrame)
        ∧ (s.sets.load = none → (s.dir n).state ≠ .active → (s.dir n).state ≠ .retiring →
            s.sets.pendingActivation ≠ some n →
            ∃ t, exec (.loadOpen corr set declared) s = .next t
              ∧ t.dir n = { s.dir n with state := .loading, imageLength := declared.toNat, imageCheck := none }
              ∧ (∀ j, j ≠ n → t.dir j = s.dir j)
              ∧ t.sets.load = some { set := n, declared := declared.toNat, nextOffset := 0,
                                     runningCheck := 0xFFFFFFFF#32 }
              ∧ t.mem = s.mem ∧ t.reportsHeld = s.reportsHeld ++ [.response (reply .done)]))

/-- LOAD DATA and LOAD CLOSE without a load open are answered WRONG_STATE; LOAD DATA at the next offset within the declared
length waits for the Loader, whose burst writes its words, and fails with ORDER or OVERRUN otherwise; LOAD CLOSE of a full image
whose check matches waits for validation, which ends it, and fails with SHORT or CHECK otherwise. A failed load leaves the set INVALID. -/
def Obligations.LoadDataAndClose : Prop :=
  ∀ (s : State) (corr : Byte) (offset : Half) (words : List Word) (check : Word), s.Admits → s.mgmt.reserved = 0 →
    words ≠ [] → words.length ≤ 64 →
    let reply : Byte → ResponseCode → Byte → Response := fun kind code detail =>
      { corr := corr, kind := kind, code := code, detail := detail, location := (0, 0, 0), result := [] }
    let failed : OpenLoad → Byte → Byte → State := fun l kind detail =>
      State.withResponse
        { s.modifyDir l.set (fun e => { e with state := .invalid }) with
          sets := { (s.modifyDir l.set fun e => { e with state := .invalid }).sets with load := none } }
        (reply kind .loadFault detail)
    (s.sets.load = none →
      exec (.loadData corr offset words) s = .next (s.withResponse (reply 8 .wrongState 0)).chooseFrame
      ∧ exec (.loadClose corr check) s = .next (s.withResponse (reply 9 .wrongState 0)).chooseFrame)
    ∧ (∀ l, s.sets.load = some l →
        (offset.toNat ≠ l.nextOffset → exec (.loadData corr offset words) s = .next (failed l 8 1).chooseFrame)
        ∧ (offset.toNat = l.nextOffset → l.declared < l.nextOffset + words.length →
            exec (.loadData corr offset words) s = .next (failed l 8 2).chooseFrame)
        ∧ (offset.toNat = l.nextOffset → l.nextOffset + words.length ≤ l.declared →
            exec (.loadData corr offset words) s = .next (s.withWaiting
                { corr := corr, request := .loadData offset words } .loaderWrite).chooseFrame
            ∧ ∃ u, exec (.burstEnd [.loader]) (s.withWaiting
                  { corr := corr, request := .loadData offset words } .loaderWrite).chooseFrame = .next u
                ∧ u.mem = Memory.writeBytes s.mem
                    (s.frameMemory.map.tables.base + l.set.val * 65536 + 4 * offset.toNat) (words.flatMap wordBytes)
                ∧ u.sets.load = some { l with
                    nextOffset := l.nextOffset + words.length
                    runningCheck := checkRun l.runningCheck (words.flatMap wordBytes) }
                ∧ u.mgmt.requests = []
                ∧ u.reportsHeld = s.reportsHeld ++ [.response { reply 8 .done 0 with
                    result := halfBytes (BitVec.ofNat 16 (l.nextOffset + words.length)) }])
        ∧ (l.nextOffset < l.declared → exec (.loadClose corr check) s = .next (failed l 9 3).chooseFrame)
        ∧ (l.declared ≤ l.nextOffset → ~~~l.runningCheck ≠ check →
            exec (.loadClose corr check) s = .next (failed l 9 4).chooseFrame)
        ∧ (l.declared ≤ l.nextOffset → ~~~l.runningCheck = check →
            exec (.loadClose corr check) s = .next (s.withWaiting
                { corr := corr, request := .loadClose check } .validation).chooseFrame
            ∧ (validationFailure (s.image l.set) l.declared = none →
                ∃ u, exec .validationEnd (s.withWaiting
                    { corr := corr, request := .loadClose check } .validation).chooseFrame = .next u
                  ∧ u.sets.load = none ∧ u.mem = s.mem ∧ u.mgmt.requests = []
                  ∧ u.dir l.set = { s.dir l.set with
                      state := .ready, imageCheck := some check, loadCount := (s.dir l.set).loadCount + 1 }
                  ∧ u.reportsHeld = s.reportsHeld ++ [.response { reply 9 .done 0 with
                      result := halfBytes ((s.dir l.set).loadCount + 1) }])))

/-- VALIDATION_END: an image that passes makes the set READY with the carried check and a load count one higher; one that
fails makes it INVALID and names the place; with no validation under way nothing ends. -/
def Obligations.ValidationEnds : Prop :=
  ∀ (s : State) (corr : Byte) (check : Word) (l : OpenLoad), s.links.exchange.up = true → s.mgmt.reserved = 1 →
    (s.mgmt.headWait ≠ .validation → exec .validationEnd s = .next s.chooseFrame)
    ∧ (s.mgmt.headWait = .validation → s.mgmt.requests = [{ corr := corr, request := .loadClose check }] →
        s.sets.load = some l →
        (validationFailure (s.image l.set) l.declared = none →
          ∃ t, exec .validationEnd s = .next t ∧ t.sets.load = none ∧ t.mgmt.requests = []
            ∧ t.dir l.set = { s.dir l.set with
                state := .ready, imageCheck := some check, loadCount := (s.dir l.set).loadCount + 1 }
            ∧ t.reportsHeld = s.reportsHeld ++ [.response
                { corr := corr, kind := 9, code := .done, detail := 0, location := (0, 0, 0),
                  result := halfBytes ((s.dir l.set).loadCount + 1) }])
        ∧ (∀ f, validationFailure (s.image l.set) l.declared = some f →
          ∃ t, exec .validationEnd s = .next t ∧ t.sets.load = none ∧ t.mgmt.requests = []
            ∧ t.dir l.set = { s.dir l.set with state := .invalid }
            ∧ t.reportsHeld = s.reportsHeld ++ [.response
                { corr := corr, kind := 9, code := .loadFault, detail := f.detail,
                  location := (BitVec.ofNat 8 f.part, BitVec.ofNat 8 f.entry, BitVec.ofNat 8 f.sub), result := [] }]))

/-- The FORMAT check: the image mark, the format version 1, and a declared length of at least 1,228 words. -/
def Obligations.FormatCheck : Prop :=
  ∀ (img : Image) (declared : Nat),
    formatOk img declared = true ↔
      img 0 = 158 ∧ img 1 = 7 ∧ img 2 = 64 ∧ img 3 = 49 ∧ img 4 = 1 ∧ 1228 ≤ declared

/-- LOAD ABANDON: the set being loaded becomes EMPTY, its load count unchanged, the record is cleared and the words stay
in the slot; without a load open it is answered WRONG_STATE. -/
def Obligations.LoadAbandoned : Prop :=
  ∀ (s : State) (corr : Byte), s.Admits →
    let reply : ResponseCode → Response := fun code =>
      { corr := corr, kind := 10, code := code, detail := 0, location := (0, 0, 0), result := [] }
    (s.sets.load = none → exec (.loadAbandon corr) s = .next (s.withResponse (reply .wrongState)).chooseFrame)
    ∧ (∀ l, s.sets.load = some l →
        exec (.loadAbandon corr) s = .next (State.chooseFrame (State.withResponse
          { s.modifyDir l.set (fun e => { e with state := .empty, imageLength := 0, imageCheck := none }) with
            sets := { (s.modifyDir l.set fun e =>
              { e with state := .empty, imageLength := 0, imageCheck := none }).sets with load := none } }
          (reply .done))))

/-- ACTIVATE: no set BAD_VALUE; the ACTIVE set clears the pending activation; a READY set becomes pending outside PARKED
and is applied at once in PARKED; any other set WRONG_STATE. -/
def Obligations.ActivateTaken : Prop :=
  ∀ (s : State) (corr set : Byte) (n : SetNo), s.Admits → s.eventsHeld < 32 →
    let reply : ResponseCode → Response := fun code =>
      { corr := corr, kind := 11, code := code, detail := 0, location := (0, 0, 0), result := [] }
    (4 ≤ set.toNat → exec (.activate corr set) s = .next (s.withResponse (reply .badValue)).chooseFrame)
    ∧ (set.toNat = n.val →
        ((s.dir n).state = .active →
          exec (.activate corr set) s = .next (State.chooseFrame (State.withResponse
            { s with sets := { s.sets with pendingActivation := none } } (reply .done))))
        ∧ ((s.dir n).state = .ready → s.mgmt.mode ≠ .parked →
            exec (.activate corr set) s = .next (State.chooseFrame (State.withResponse
              { s with sets := { s.sets with pendingActivation := some n } } (reply .done))))
        ∧ ((s.dir n).state = .ready → s.mgmt.mode = .parked → s.sets.active = none →
            ∃ t, exec (.activate corr set) s = .next t ∧ t.sets.active = some n ∧ t.sets.pendingActivation = none
              ∧ t.dir n = { s.dir n with state := .active }
              ∧ t.reportsHeld = s.reportsHeld ++ [.event ⟨s.mgmt.eventSeq, .setActivated n (s.dir n).loadCount none s.sets.batch⟩, .response (reply .done)])
        ∧ ((s.dir n).state ≠ .active → (s.dir n).state ≠ .ready →
            exec (.activate corr set) s = .next (s.withResponse (reply .wrongState)).chooseFrame))

/-- ERASE: no set BAD_VALUE; an ACTIVE, RETIRING, LOADING or pending set WRONG_STATE; any other becomes EMPTY with its load
count kept, and the bytes of the slot are not changed. -/
def Obligations.EraseTaken : Prop :=
  ∀ (s : State) (corr set : Byte) (n : SetNo), s.Admits →
    let reply : ResponseCode → Response := fun code =>
      { corr := corr, kind := 12, code := code, detail := 0, location := (0, 0, 0), result := [] }
    (4 ≤ set.toNat → exec (.erase corr set) s = .next (s.withResponse (reply .badValue)).chooseFrame)
    ∧ (set.toNat = n.val →
        ((s.dir n).state = .active ∨ (s.dir n).state = .retiring ∨ (s.dir n).state = .loading
            ∨ s.sets.pendingActivation = some n →
          exec (.erase corr set) s = .next (s.withResponse (reply .wrongState)).chooseFrame)
        ∧ ((s.dir n).state ≠ .active → (s.dir n).state ≠ .retiring → (s.dir n).state ≠ .loading →
            s.sets.pendingActivation ≠ some n →
            exec (.erase corr set) s = .next (State.chooseFrame (State.withResponse
              (s.modifyDir n fun e => { e with state := .empty, imageLength := 0, imageCheck := none })
              (reply .done)))))

/-- RELEASE: a tag that finds no item NO_ITEM, an item not RETAINED WRONG_STATE, another form byte BAD_VALUE; one item, or
in the through form every RETAINED item at or before it, becomes FREE, and the answer carries their number. -/
def Obligations.ReleaseTaken : Prop :=
  ∀ (s : State) (corr : Byte) (tag : Half) (form : Byte), s.Admits →
    let reply : ResponseCode → List Byte → Response := fun code result =>
      { corr := corr, kind := 13, code := code, detail := 0, location := (0, 0, 0), result := result }
    (form ≠ 0 → form ≠ 1 →
      exec (.release corr tag form) s = .next (s.withResponse (reply .badValue [])).chooseFrame)
    ∧ ((∀ it ∈ s.table.items, it.tag ≠ some tag) →
        exec (.release corr tag 0) s = .next (s.withResponse (reply .noItem [])).chooseFrame
        ∧ exec (.releaseThrough corr tag) s = .next (s.withResponse (reply .noItem [])).chooseFrame)
    ∧ (∀ it, s.itemByTag? tag = some it → it.state ≠ .retained →
        exec (.release corr tag 0) s = .next (s.withResponse (reply .wrongState [])).chooseFrame
        ∧ exec (.releaseThrough corr tag) s = .next (s.withResponse (reply .wrongState [])).chooseFrame)
    ∧ (∀ it, s.itemByTag? tag = some it → it.state = .retained → (s.table.items.map Item.slot).Nodup →
        (∃ t l, exec (.release corr tag 0) s = .next t
          ∧ t.table.items = s.table.items.filter (fun x => x.slot != it.slot)
          ∧ t.frameMemory.freeStrips
              = s.frameMemory.freeStrips ++ (it.front.chain ++ it.rear.chain).map ChainStrip.strip
          ∧ t.reportsHeld = s.reportsHeld ++ l ++ [.response (reply .done [1])])
        ∧ (∃ t l, exec (.releaseThrough corr tag) s = .next t
          ∧ t.table.items = s.table.items.filter
              (fun x => !(decide (x.state = .retained) && seqAtOrBefore x.sequence it.sequence))
          ∧ t.reportsHeld = s.reportsHeld ++ l ++ [.response (reply .done [BitVec.ofNat 8 (s.table.items.filter
              (fun x => decide (x.state = .retained) && seqAtOrBefore x.sequence it.sequence)).length])]))

/-- WITHDRAW: a tag that finds no item NO_ITEM; an item in CANCELLING is answered DONE and stays; any other is cancelled
WITHDRAWN and the request answered DONE. -/
def Obligations.WithdrawTaken : Prop :=
  ∀ (s : State) (corr : Byte) (tag : Half), s.Admits →
    let reply : ResponseCode → Response := fun code =>
      { corr := corr, kind := 14, code := code, detail := 0, location := (0, 0, 0), result := [] }
    ((∀ it ∈ s.table.items, it.tag ≠ some tag) →
      exec (.withdraw corr tag) s = .next (s.withResponse (reply .noItem)).chooseFrame)
    ∧ (∀ it, s.itemByTag? tag = some it → it.state = .cancelling → s.item? it.slot = some it → s.render.queue = [] →
        exec (.withdraw corr tag) s = .next (s.withResponse (reply .done)).chooseFrame)
    ∧ (∀ it, s.itemByTag? tag = some it → s.Cancellable it →
        ∃ t l, exec (.withdraw corr tag) s = .next t ∧ s.Cancels t it .withdrawn .withdrawn
          ∧ (∀ r ∈ l, Report.isEvent r = true)
          ∧ t.reportsHeld = s.reportsHeld ++ l ++ [.response (reply .done)])

/-- RERENDER: the checks in order; on acceptance the entry is of the next generation, bound to the active set, with the
named profile, no key and no deadlines, and the re-render counter advances. The binding counts of both sets follow. While no
engine is IDLE the entry stands in PROCESSING with its new renditions QUEUED in the render queue, the flags NO_CODE and
BAD_CODE kept and those of R127 added, and the advice it had. -/
def Obligations.RerenderTaken : Prop :=
  ∀ (s : State) (corr : Byte) (tag : Half) (profile : Byte), s.Admits →
    let reply : ResponseCode → List Byte → Response := fun code result =>
      { corr := corr, kind := 15, code := code, detail := 0, location := (0, 0, 0), result := result }
    (15 < profile.toNat →
      exec (.rerender corr tag profile) s = .next (s.withResponse (reply .badValue [])).chooseFrame)
    ∧ (profile.toNat ≤ 15 → (∀ it ∈ s.table.items, it.tag ≠ some tag) →
        exec (.rerender corr tag profile) s = .next (s.withResponse (reply .noItem [])).chooseFrame)
    ∧ (∀ it, profile.toNat ≤ 15 → s.itemByTag? tag = some it →
        (it.state ≠ .retained ∨ it.generation = 15 →
          exec (.rerender corr tag profile) s = .next (s.withResponse (reply .wrongState [])).chooseFrame)
        ∧ (∀ n, it.state = .retained → it.generation < 15 → s.sets.active = some n →
            ((s.image n).profileDefined profile.toNat = false →
              exec (.rerender corr tag profile) s = .next (s.withResponse (reply .badValue [])).chooseFrame)
            ∧ ((s.image n).profileDefined profile.toNat = true → (s.table.items.map Item.slot).Nodup →
                (∃ t l, exec (.rerender corr tag profile) s = .next t
                  ∧ t.table.rerenderSeq = s.table.rerenderSeq + 1
                  ∧ (∀ x ∈ t.table.items, x.slot = it.slot →
                      x.generation = it.generation + 1 ∧ x.set = n ∧ x.profile = some profile.toNat
                      ∧ x.key = .none ∧ x.rerenderOrder = some s.table.rerenderSeq
                      ∧ x.classifyDeadline = none ∧ x.adviceDeadline = none
                      ∧ x.classification = it.classification ∧ x.codeLine = it.codeLine ∧ x.lateCode = it.lateCode
                      ∧ x.front.chain = it.front.chain ∧ x.rear.chain = it.rear.chain)
                  ∧ t.reportsHeld = s.reportsHeld ++ l
                      ++ [.response (reply .done [BitVec.ofNat 8 (it.generation + 1)])])
                ∧ ((∀ e, (s.engine e).state ≠ .idle) →
                    ∃ t x, exec (.rerender corr tag profile) s = .next t ∧ t.item? it.slot = some x
                      ∧ x.state = .processing ∧ x.advice = it.advice ∧ x.evaluated = true
                      ∧ State.GradedBy (s.image n) profile.toNat it.front it.rear
                          ⟨false, false, false, false, false, false, false, false, false,
                            it.flags.noCode, it.flags.badCode, false, false⟩ x.flags
                      ∧ (x.renditions.getD []).length = (s.image n).renditionCount profile.toNat
                      ∧ (∀ i < (s.image n).renditionCount profile.toNat, ∃ q, (x.renditions.getD [])[i]? = some q
                          ∧ q.index = i ∧ q.state = .queued ∧ q.descriptor = (s.image n).descriptor profile.toNat i
                          ∧ q.chain = [] ∧ q.dropCause = none ∧ q.stopping = false ∧ q.eligible = false
                          ∧ q.restart = false ∧ q.length = none ∧ q.context = none)
                      ∧ (∀ r, r ∈ t.render.queue ↔ r ∈ s.render.queue
                          ∨ r.slot = it.slot ∧ r.index < (s.image n).renditionCount profile.toNat)
                      ∧ (n ≠ it.set → (t.dir n).boundCount = (s.dir n).boundCount + 1
                          ∧ (t.dir it.set).boundCount = (s.dir it.set).boundCount - 1)
                      ∧ (n = it.set → (t.dir n).boundCount = (s.dir n).boundCount)
                      ∧ ((s.dir it.set).state = .retiring → n ≠ it.set → (s.dir it.set).boundCount = 1 →
                          (t.dir it.set).state = .ready)))))

/-- PEEK and POKE: a bad length or address BAD_VALUE; a byte in no region, or in one that does not allow the access,
FENCED; otherwise the request waits for its burst, at whose end a PEEK is answered with the bytes and a POKE has written
its own. -/
def Obligations.PeekAndPoke : Prop :=
  ∀ (s : State) (corr : Byte) (address : Word) (n : Half) (bytes : List Byte), s.Admits → s.mgmt.reserved = 0 →
    bytes.length = n.toNat →
    let reply : Byte → ResponseCode → Response := fun kind code =>
      { corr := corr, kind := kind, code := code, detail := 0, location := (0, 0, 0), result := [] }
    (n.toNat < 4 ∨ 256 < n.toNat ∨ n.toNat % 4 ≠ 0 ∨ address.toNat % 4 ≠ 0 →
      exec (.peek corr address n) s = .next (s.withResponse (reply 16 .badValue)).chooseFrame
      ∧ exec (.poke corr address n bytes) s = .next (s.withResponse (reply 17 .badValue)).chooseFrame)
    ∧ (4 ≤ n.toNat → n.toNat ≤ 256 → n.toNat % 4 = 0 → address.toNat % 4 = 0 →
        (∀ i < n.toNat, s.regionAt (address.toNat + i) = none →
          exec (.peek corr address n) s = .next (s.withResponse (reply 16 .fenced)).chooseFrame
          ∧ exec (.poke corr address n bytes) s = .next (s.withResponse (reply 17 .fenced)).chooseFrame)
        ∧ (∀ i < n.toNat, ∀ r, s.regionAt (address.toNat + i) = some r →
            ((s.frameMemory.map.region r).peekAllowed = false →
              exec (.peek corr address n) s = .next (s.withResponse (reply 16 .fenced)).chooseFrame)
            ∧ (r = .tables ∨ (s.frameMemory.map.region r).pokeAllowed = false
                ∨ (r ≠ .spare ∧ s.mgmt.mode ≠ .parked) →
              exec (.poke corr address n bytes) s = .next (s.withResponse (reply 17 .fenced)).chooseFrame))
        ∧ ((∀ i < n.toNat, ∃ r, s.regionAt (address.toNat + i) = some r
              ∧ (s.frameMemory.map.region r).peekAllowed = true) →
            exec (.peek corr address n) s = .next (s.withWaiting
                { corr := corr, request := .peek address n } .managementBurst).chooseFrame
            ∧ ∃ u, exec (.burstEnd [.management]) (s.withWaiting
                  { corr := corr, request := .peek address n } .managementBurst).chooseFrame = .next u
                ∧ u.mem = s.mem ∧ u.mgmt.requests = []
                ∧ u.reportsHeld = s.reportsHeld ++ [.response { reply 16 .done with
                    result := (List.range n.toNat).map fun i => s.byteAt (address.toNat + i) }])
        ∧ ((∀ i < n.toNat, ∃ r, s.regionAt (address.toNat + i) = some r ∧ r ≠ .tables
              ∧ (s.frameMemory.map.region r).pokeAllowed = true ∧ (r = .spare ∨ s.mgmt.mode = .parked)) →
            exec (.poke corr address n bytes) s = .next (s.withWaiting
                { corr := corr, request := .poke address n bytes } .managementBurst).chooseFrame
            ∧ ∃ u, exec (.burstEnd [.management]) (s.withWaiting
                  { corr := corr, request := .poke address n bytes } .managementBurst).chooseFrame = .next u
                ∧ u.mem = Memory.writeBytes s.mem address.toNat bytes ∧ u.mgmt.requests = []
                ∧ u.reportsHeld = s.reportsHeld ++ [.response (reply 17 .done)]))

/-- RESET ENGINE: one step resets every block and the counters, keeps the links, the settings, the map, the credits and
frame memory, and parks the part, with EVENT MODE if it was not PARKED; a set that was LOADING becomes EMPTY and one that was
RETIRING becomes READY. Every counter is 0 after the step, even with no event place free. With no frame in progress it is
answered DONE at once; with one in progress it waits, and at the end of that frame the DONE is composed and the request
leaves the queue. -/
def Obligations.EngineReset : Prop :=
  (∀ (s : State) (corr : Byte), s.Admits → s.mgmt.reserved = 0 →
     ∃ t, exec (.resetEngine corr) s = .next t
       ∧ t.mgmt.mode = .parked ∧ t.mgmt.counters = ⟨0, 0, 0, 0, 0, 0, 0, 0, 0, 0, 0, 0, 0, 0⟩
       ∧ t.mgmt.settings = s.mgmt.settings ∧ t.links = s.links ∧ t.mem = s.mem
       ∧ t.table.items = [] ∧ t.table.announceSeq = 0 ∧ t.table.rerenderSeq = 0
       ∧ (∀ cam, (t.channel cam).state = .idle ∧ (t.channel cam).bound = none ∧ (t.channel cam).previousFlag = true
           ∧ (t.channel cam).lastPosition = none ∧ (t.channel cam).pendingList = [] ∧ (t.channel cam).fifo = []
           ∧ (t.channel cam).lastLine = none ∧ (t.channel cam).runningCheck = none)
       ∧ t.reference = s.reference ∧ (t.channel .rear).portPosition = none
       ∧ t.sets.load = none ∧ t.sets.pendingActivation = none ∧ t.sets.active = s.sets.active
       ∧ t.sets.batch = s.sets.batch
       ∧ (∀ n, (t.dir n).boundCount = 0 ∧ (t.dir n).loadCount = (s.dir n).loadCount
           ∧ ((s.dir n).state = .loading →
               (t.dir n).state = .empty ∧ (t.dir n).imageLength = 0 ∧ (t.dir n).imageCheck = none)
           ∧ ((s.dir n).state ≠ .loading →
               (t.dir n).imageLength = (s.dir n).imageLength ∧ (t.dir n).imageCheck = (s.dir n).imageCheck)
           ∧ ((s.dir n).state = .retiring → (t.dir n).state = .ready)
           ∧ ((s.dir n).state ≠ .loading → (s.dir n).state ≠ .retiring → (t.dir n).state = (s.dir n).state))
       ∧ t.render.queue = [] ∧ (∀ e, t.engine e = { state := .idle, rendition := none, yieldRequest := false, work := none })
       ∧ t.adviceOut.queue = [] ∧ t.emitter.queue = [] ∧ t.emitter.summaryList = []
       ∧ t.emitter.credits = s.emitter.credits
       ∧ t.frameMemory.map = s.frameMemory.map ∧ t.frameMemory.checks = []
       ∧ t.frameMemory.freeStrips = List.range (s.frameMemory.map.strips.size / 32768)
       ∧ t.frameMemory.freeBlocks = List.range (s.frameMemory.map.output.size / 4096)
       ∧ (s.mgmt.mode = .parked → s.emitter.frame = none → t.mgmt.requests = []
           ∧ t.reportsHeld = s.reportsHeld ++ [.response ⟨corr, 18, .done, 0, (0, 0, 0), []⟩])
       ∧ (s.mgmt.mode ≠ .parked → s.emitter.frame = none → s.eventsHeld < 32 → t.mgmt.requests = []
           ∧ t.reportsHeld = s.reportsHeld
               ++ [.event ⟨s.mgmt.eventSeq, .modeChange s.mgmt.mode .parked .reset⟩,
                   .response ⟨corr, 18, .done, 0, (0, 0, 0), []⟩])
       ∧ (s.mgmt.mode ≠ .parked → s.emitter.frame ≠ none → s.eventsHeld < 32 →
           t.reportsHeld = s.reportsHeld
             ++ [.event ⟨s.mgmt.eventSeq, .modeChange s.mgmt.mode .parked .reset⟩])
       ∧ (s.emitter.frame ≠ none → t.mgmt.headWait = .engineReset
           ∧ t.mgmt.requests = [{ corr := corr, request := .resetEngine }]))
  ∧ (∀ (s : State) (corr : Byte) (f : ExchangeFrame), s.links.exchange.up = true → s.mgmt.reserved = 1 →
       s.emitter.frame = some f → s.emitter.discarded = true → s.mgmt.headWait = .engineReset →
       s.mgmt.requests = [{ corr := corr, request := .resetEngine }] →
       exec .frameEnd s = .next (State.chooseFrame (State.withResponse
         { s with
           emitter := { s.emitter with frame := none, work := .idle, discarded := false }
           mgmt := { s.mgmt with reserved := 0, requests := [], headWait := .nothing } }
         { corr := corr, kind := 18, code := .done, detail := 0, location := (0, 0, 0), result := [] })))

end Statements
end

