-- ==== Sys2Proof/Laws/Memory.lean ====
section
/-! SUPPORT. Frame memory: what reading finds after a write, that every write keeps the canonical form, and the writing of
output bytes that fit; the strip check table. -/

namespace Sys2Proof.Machine

namespace Memory

theorem wf_nil : wf [] := List.Pairwise.nil

/-- The canonical form of a non-empty list: the head's address is below every other, and the rest is canonical. -/
theorem wf_cons {a : Nat} {b : Byte} {m : Memory} :
    wf ((a, b) :: m) ↔ (∀ c ∈ m, a < c.1) ∧ wf m := by
  unfold wf
  rw [List.map_cons, List.pairwise_cons]
  constructor
  · rintro ⟨h1, h2⟩
    exact ⟨fun c hc => h1 _ (List.mem_map_of_mem hc), h2⟩
  · rintro ⟨h1, h2⟩
    refine ⟨fun x hx => ?_, h2⟩
    obtain ⟨c, hc, rfl⟩ := List.mem_map.1 hx
    exact h1 c hc

/-- A cell of a written memory is the written one or one that stood. -/
theorem mem_write {m : Memory} {x : Nat} {v : Byte} {c : Nat × Byte} (h : c ∈ write m x v) : c = (x, v) ∨ c ∈ m := by
  induction m with
  | nil => simpa [write] using h
  | cons d m ih =>
    obtain ⟨a, b⟩ := d
    unfold write at h
    split at h
    · simpa using h
    · split at h
      · rcases List.mem_cons.1 h with h | h
        · exact Or.inl h
        · exact Or.inr (List.mem_cons_of_mem _ h)
      · rcases List.mem_cons.1 h with h | h
        · exact Or.inr (h ▸ List.mem_cons_self)
        · rcases ih h with h | h
          · exact Or.inl h
          · exact Or.inr (List.mem_cons_of_mem _ h)

/-- A write keeps the canonical form. -/
theorem wf_write {m : Memory} (h : wf m) (x : Nat) (v : Byte) : wf (write m x v) := by
  induction m with
  | nil => exact wf_cons.2 ⟨by simp, wf_nil⟩
  | cons d m ih =>
    obtain ⟨a, b⟩ := d
    obtain ⟨h1, h2⟩ := wf_cons.1 h
    unfold write
    split
    · refine wf_cons.2 ⟨fun c hc => ?_, h⟩
      rcases List.mem_cons.1 hc with hc | hc
      · subst hc; assumption
      · have := h1 c hc; omega
    · split
      · subst_vars
        exact wf_cons.2 ⟨h1, h2⟩
      · refine wf_cons.2 ⟨fun c hc => ?_, ih h2⟩
        rcases mem_write hc with hc | hc
        · subst hc; simp only; omega
        · exact h1 c hc

/-- Writing bytes keeps the canonical form. -/
theorem wf_writeBytes {m : Memory} (h : wf m) (x : Nat) (bytes : List Byte) : wf (writeBytes m x bytes) := by
  induction bytes generalizing m x with
  | nil => exact h
  | cons v vs ih => exact ih (wf_write h x v) (x + 1)

/-- An address below every listed one holds no written byte. -/
theorem read_below {m : Memory} {x : Nat} (h : ∀ c ∈ m, x < c.1) : read? m x = none := by
  cases m with
  | nil => rfl
  | cons d m =>
    obtain ⟨a, b⟩ := d
    have : x < a := h (a, b) List.mem_cons_self
    unfold read?
    rw [if_neg (by omega), if_pos this]

/-- A written address reads the byte written. -/
theorem read_write_same {m : Memory} (h : wf m) (x : Nat) (v : Byte) : read? (write m x v) x = some v := by
  induction m with
  | nil => simp [write, read?]
  | cons d m ih =>
    obtain ⟨a, b⟩ := d
    obtain ⟨h1, h2⟩ := wf_cons.1 h
    unfold write
    split
    · simp [read?]
    · split
      · simp [read?]
      · unfold read?
        rw [if_neg (by omega), if_neg (by omega)]
        exact ih h2

/-- A write leaves every other address as it was. -/
theorem read_write_other {m : Memory} (h : wf m) {x y : Nat} (v : Byte) (hne : y ≠ x) :
    read? (write m x v) y = read? m y := by
  induction m with
  | nil => simp [write, read?]; omega
  | cons d m ih =>
    obtain ⟨a, b⟩ := d
    obtain ⟨h1, h2⟩ := wf_cons.1 h
    unfold write
    split
    · rename_i hxa
      rw [read?, if_neg (by omega)]
      split
      · rw [read?, if_neg (by omega), if_pos (by omega)]
      · rfl
    · split
      · subst_vars
        simp only [read?, if_neg (Ne.symm hne)]
      · simp only [read?, ih h2]

/-- Written bytes leave every address outside them as it was. -/
theorem read_writeBytes_other {m : Memory} (h : wf m) {x y : Nat} (bytes : List Byte)
    (hne : y < x ∨ x + bytes.length ≤ y) : read? (writeBytes m x bytes) y = read? m y := by
  induction bytes generalizing m x with
  | nil => rfl
  | cons v vs ih =>
    simp only [List.length_cons] at hne
    unfold writeBytes
    rw [ih (wf_write h x v) (by omega), read_write_other h v (by omega)]

/-- Written bytes are read where they were written. -/
theorem read_writeBytes_same {m : Memory} (h : wf m) {x i : Nat} {bytes : List Byte} (hi : i < bytes.length) :
    read? (writeBytes m x bytes) (x + i) = some bytes[i] := by
  induction bytes generalizing m x i with
  | nil => simp at hi
  | cons v vs ih =>
    unfold writeBytes
    cases i with
    | zero => rw [read_writeBytes_other (wf_write h x v) vs (by omega)]; simpa using read_write_same h x v
    | succ j =>
      have hj : j < vs.length := by simpa using hi
      have := ih (wf_write h x v) (x := x + 1) hj
      rw [show x + (j + 1) = x + 1 + j by omega, this]
      rfl

end Memory

/-- Output bytes written by an engine keep the canonical form (R94, R101). -/
theorem Writer.wf_put (p : WriteRules) {w : Writer} (h : Memory.wf w.mem) (bytes : List Byte) :
    Memory.wf (w.put p bytes).mem := Memory.wf_writeBytes h _ _

theorem Writer.mem_takeBlock (w : Writer) : w.takeBlock.mem = w.mem := by
  unfold Writer.takeBlock; split <;> rfl

theorem wf_writeOutput (p : WriteRules) (n : Nat) {w : Writer} (h : Memory.wf w.mem) (bytes : List Byte) :
    Memory.wf (writeOutput p n w bytes).1.mem := by
  induction n generalizing w bytes with
  | zero => cases bytes <;> exact h
  | succ n ih =>
    cases bytes with
    | nil => exact h
    | cons b bs =>
      unfold writeOutput
      split
      · split
        · exact h
        · exact ih (w.mem_takeBlock ▸ h) _
      · exact ih (Writer.wf_put p h _) _

theorem wf_writeBurst (p : WriteRules) {w : Writer} (h : Memory.wf w.mem) (bytes : List Byte) :
    Memory.wf (writeBurst p w bytes).1.mem := by
  have hp := Writer.wf_put p h (bytes.take (min Config.outputBurstBytes w.room))
  unfold writeBurst
  dsimp only
  split
  · exact hp
  · split
    · split
      · exact hp
      · exact (Writer.mem_takeBlock _).symm ▸ hp
    · exact hp

theorem writeOutput_nil (p : WriteRules) (n : Nat) (w : Writer) : writeOutput p n w [] = (w, .written, []) := by
  cases n <;> rfl

/-- Bytes that fit in the block in hand are written without a demand (R94, R101). -/
theorem writeOutput_fits (p : WriteRules) (w : Writer) {bytes : List Byte} (h : bytes = [] ∨ bytes.length ≤ w.room) :
    writeOutput p (writeFuel bytes.length) w bytes = (if bytes = [] then w else w.put p bytes, .written, []) := by
  cases bytes with
  | nil => rw [writeOutput_nil]; rfl
  | cons b bs =>
    have hr : (b :: bs).length ≤ w.room := h.resolve_left (by simp)
    have hz : w.room ≠ 0 := by simp at hr; omega
    rw [if_neg (by simp)]
    change writeOutput p (2 * (b :: bs).length + 1 + 1) w (b :: bs) = _
    rw [writeOutput, if_neg hz, List.take_of_length_le hr, List.drop_of_length_le hr, writeOutput_nil]

/-- The check word recorded for a slot is found there, and the others stay (R171). -/
theorem checkWord?_checksSet (l : List (Nat × Word)) (n : Nat) (w : Word) (m : Nat) :
    checkWord? (checksSet l n w) m = if m = n then some w else checkWord? l m := by
  induction l with
  | nil =>
    unfold checksSet checkWord?
    by_cases h : m = n
    · subst h; simp
    · rw [if_neg h]; simp [Ne.symm h]
  | cons a l ih =>
    obtain ⟨k, v⟩ := a
    unfold checksSet
    unfold checkWord? at ih ⊢
    split
    · by_cases h : m = n
      · subst h; simp
      · rw [if_neg h, List.find?_cons_of_neg (by simpa using Ne.symm h)]
    · split
      · rename_i _ e
        subst e
        by_cases h : m = n
        · subst h; simp
        · rw [if_neg h, List.find?_cons_of_neg (by simpa using Ne.symm h),
            List.find?_cons_of_neg (by simpa using Ne.symm h)]
      · rename_i _ e
        by_cases hk : k = m
        · subst hk
          rw [if_neg (Ne.symm e)]; simp
        · rw [List.find?_cons_of_neg (by simpa using hk), List.find?_cons_of_neg (by simpa using hk)]
          exact ih

end Sys2Proof.Machine
end

