-- ==== Sys2Proof/Laws/State.lean ====
section
/-! SUPPORT. What each named update of the state leaves and sets, field by field. -/

namespace Sys2Proof.Machine

namespace State

/-! ### writeBytes -/

@[simp] theorem writeBytes_pins (s : State) (a : Nat) (bs : List Byte) : (s.writeBytes a bs).pins = s.pins := rfl
@[simp] theorem writeBytes_links (s : State) (a : Nat) (bs : List Byte) : (s.writeBytes a bs).links = s.links := rfl
@[simp] theorem writeBytes_table (s : State) (a : Nat) (bs : List Byte) : (s.writeBytes a bs).table = s.table := rfl
@[simp] theorem writeBytes_capture (s : State) (a : Nat) (bs : List Byte) : (s.writeBytes a bs).capture = s.capture := rfl
@[simp] theorem writeBytes_sets (s : State) (a : Nat) (bs : List Byte) : (s.writeBytes a bs).sets = s.sets := rfl
@[simp] theorem writeBytes_render (s : State) (a : Nat) (bs : List Byte) : (s.writeBytes a bs).render = s.render := rfl
@[simp] theorem writeBytes_adviceOut (s : State) (a : Nat) (bs : List Byte) : (s.writeBytes a bs).adviceOut = s.adviceOut := rfl
@[simp] theorem writeBytes_emitter (s : State) (a : Nat) (bs : List Byte) : (s.writeBytes a bs).emitter = s.emitter := rfl
@[simp] theorem writeBytes_frameMemory (s : State) (a : Nat) (bs : List Byte) : (s.writeBytes a bs).frameMemory = s.frameMemory := rfl
@[simp] theorem writeBytes_mem (s : State) (a : Nat) (bs : List Byte) :
    (s.writeBytes a bs).mem = Memory.writeBytes s.mem a bs := rfl
@[simp] theorem writeBytes_mgmt (s : State) (a : Nat) (bs : List Byte) : (s.writeBytes a bs).mgmt = s.mgmt := rfl
@[simp] theorem writeBytes_powerOns (s : State) (a : Nat) (bs : List Byte) : (s.writeBytes a bs).powerOns = s.powerOns := rfl
@[simp] theorem writeBytes_pending (s : State) (a : Nat) (bs : List Byte) : (s.writeBytes a bs).pending = s.pending := rfl

/-! ### modifyChannel -/

@[simp] theorem modifyChannel_pins (s : State) (cam : Camera) (f : Channel → Channel) : (s.modifyChannel cam f).pins = s.pins := rfl
@[simp] theorem modifyChannel_links (s : State) (cam : Camera) (f : Channel → Channel) : (s.modifyChannel cam f).links = s.links := rfl
@[simp] theorem modifyChannel_table (s : State) (cam : Camera) (f : Channel → Channel) : (s.modifyChannel cam f).table = s.table := rfl
@[simp] theorem modifyChannel_capture (s : State) (cam : Camera) (f : Channel → Channel) :
    (s.modifyChannel cam f).capture = s.capture.setChannel cam (f (s.capture.channel cam)) := rfl
@[simp] theorem modifyChannel_sets (s : State) (cam : Camera) (f : Channel → Channel) : (s.modifyChannel cam f).sets = s.sets := rfl
@[simp] theorem modifyChannel_render (s : State) (cam : Camera) (f : Channel → Channel) : (s.modifyChannel cam f).render = s.render := rfl
@[simp] theorem modifyChannel_adviceOut (s : State) (cam : Camera) (f : Channel → Channel) : (s.modifyChannel cam f).adviceOut = s.adviceOut := rfl
@[simp] theorem modifyChannel_emitter (s : State) (cam : Camera) (f : Channel → Channel) : (s.modifyChannel cam f).emitter = s.emitter := rfl
@[simp] theorem modifyChannel_frameMemory (s : State) (cam : Camera) (f : Channel → Channel) : (s.modifyChannel cam f).frameMemory = s.frameMemory := rfl
@[simp] theorem modifyChannel_mem (s : State) (cam : Camera) (f : Channel → Channel) : (s.modifyChannel cam f).mem = s.mem := rfl
@[simp] theorem modifyChannel_mgmt (s : State) (cam : Camera) (f : Channel → Channel) : (s.modifyChannel cam f).mgmt = s.mgmt := rfl
@[simp] theorem modifyChannel_powerOns (s : State) (cam : Camera) (f : Channel → Channel) : (s.modifyChannel cam f).powerOns = s.powerOns := rfl
@[simp] theorem modifyChannel_pending (s : State) (cam : Camera) (f : Channel → Channel) : (s.modifyChannel cam f).pending = s.pending := rfl

/-! ### modifyItem -/

@[simp] theorem modifyItem_pins (s : State) (k : Slot) (f : Item → Item) : (s.modifyItem k f).pins = s.pins := rfl
@[simp] theorem modifyItem_links (s : State) (k : Slot) (f : Item → Item) : (s.modifyItem k f).links = s.links := rfl
@[simp] theorem modifyItem_table (s : State) (k : Slot) (f : Item → Item) :
    (s.modifyItem k f).table = { s.table with items := s.table.items.map fun it => if it.slot = k then f it else it } := rfl
@[simp] theorem modifyItem_capture (s : State) (k : Slot) (f : Item → Item) : (s.modifyItem k f).capture = s.capture := rfl
@[simp] theorem modifyItem_sets (s : State) (k : Slot) (f : Item → Item) : (s.modifyItem k f).sets = s.sets := rfl
@[simp] theorem modifyItem_render (s : State) (k : Slot) (f : Item → Item) : (s.modifyItem k f).render = s.render := rfl
@[simp] theorem modifyItem_adviceOut (s : State) (k : Slot) (f : Item → Item) : (s.modifyItem k f).adviceOut = s.adviceOut := rfl
@[simp] theorem modifyItem_emitter (s : State) (k : Slot) (f : Item → Item) : (s.modifyItem k f).emitter = s.emitter := rfl
@[simp] theorem modifyItem_frameMemory (s : State) (k : Slot) (f : Item → Item) : (s.modifyItem k f).frameMemory = s.frameMemory := rfl
@[simp] theorem modifyItem_mem (s : State) (k : Slot) (f : Item → Item) : (s.modifyItem k f).mem = s.mem := rfl
@[simp] theorem modifyItem_mgmt (s : State) (k : Slot) (f : Item → Item) : (s.modifyItem k f).mgmt = s.mgmt := rfl
@[simp] theorem modifyItem_powerOns (s : State) (k : Slot) (f : Item → Item) : (s.modifyItem k f).powerOns = s.powerOns := rfl
@[simp] theorem modifyItem_pending (s : State) (k : Slot) (f : Item → Item) : (s.modifyItem k f).pending = s.pending := rfl

/-! ### modifySide -/

@[simp] theorem modifySide_pins (s : State) (k : Slot) (cam : Camera) (f : Side → Side) : (s.modifySide k cam f).pins = s.pins := rfl
@[simp] theorem modifySide_links (s : State) (k : Slot) (cam : Camera) (f : Side → Side) : (s.modifySide k cam f).links = s.links := rfl
@[simp] theorem modifySide_capture (s : State) (k : Slot) (cam : Camera) (f : Side → Side) : (s.modifySide k cam f).capture = s.capture := rfl
@[simp] theorem modifySide_sets (s : State) (k : Slot) (cam : Camera) (f : Side → Side) : (s.modifySide k cam f).sets = s.sets := rfl
@[simp] theorem modifySide_render (s : State) (k : Slot) (cam : Camera) (f : Side → Side) : (s.modifySide k cam f).render = s.render := rfl
@[simp] theorem modifySide_adviceOut (s : State) (k : Slot) (cam : Camera) (f : Side → Side) : (s.modifySide k cam f).adviceOut = s.adviceOut := rfl
@[simp] theorem modifySide_emitter (s : State) (k : Slot) (cam : Camera) (f : Side → Side) : (s.modifySide k cam f).emitter = s.emitter := rfl
@[simp] theorem modifySide_frameMemory (s : State) (k : Slot) (cam : Camera) (f : Side → Side) : (s.modifySide k cam f).frameMemory = s.frameMemory := rfl
@[simp] theorem modifySide_mem (s : State) (k : Slot) (cam : Camera) (f : Side → Side) : (s.modifySide k cam f).mem = s.mem := rfl
@[simp] theorem modifySide_mgmt (s : State) (k : Slot) (cam : Camera) (f : Side → Side) : (s.modifySide k cam f).mgmt = s.mgmt := rfl
@[simp] theorem modifySide_powerOns (s : State) (k : Slot) (cam : Camera) (f : Side → Side) : (s.modifySide k cam f).powerOns = s.powerOns := rfl
@[simp] theorem modifySide_pending (s : State) (k : Slot) (cam : Camera) (f : Side → Side) : (s.modifySide k cam f).pending = s.pending := rfl

/-! ### modifyRendition -/

@[simp] theorem modifyRendition_pins (s : State) (r : RendRef) (f : Rendition → Rendition) : (s.modifyRendition r f).pins = s.pins := rfl
@[simp] theorem modifyRendition_links (s : State) (r : RendRef) (f : Rendition → Rendition) : (s.modifyRendition r f).links = s.links := rfl
@[simp] theorem modifyRendition_capture (s : State) (r : RendRef) (f : Rendition → Rendition) : (s.modifyRendition r f).capture = s.capture := rfl
@[simp] theorem modifyRendition_sets (s : State) (r : RendRef) (f : Rendition → Rendition) : (s.modifyRendition r f).sets = s.sets := rfl
@[simp] theorem modifyRendition_render (s : State) (r : RendRef) (f : Rendition → Rendition) : (s.modifyRendition r f).render = s.render := rfl
@[simp] theorem modifyRendition_adviceOut (s : State) (r : RendRef) (f : Rendition → Rendition) : (s.modifyRendition r f).adviceOut = s.adviceOut := rfl
@[simp] theorem modifyRendition_emitter (s : State) (r : RendRef) (f : Rendition → Rendition) : (s.modifyRendition r f).emitter = s.emitter := rfl
@[simp] theorem modifyRendition_frameMemory (s : State) (r : RendRef) (f : Rendition → Rendition) : (s.modifyRendition r f).frameMemory = s.frameMemory := rfl
@[simp] theorem modifyRendition_mem (s : State) (r : RendRef) (f : Rendition → Rendition) : (s.modifyRendition r f).mem = s.mem := rfl
@[simp] theorem modifyRendition_mgmt (s : State) (r : RendRef) (f : Rendition → Rendition) : (s.modifyRendition r f).mgmt = s.mgmt := rfl
@[simp] theorem modifyRendition_powerOns (s : State) (r : RendRef) (f : Rendition → Rendition) : (s.modifyRendition r f).powerOns = s.powerOns := rfl
@[simp] theorem modifyRendition_pending (s : State) (r : RendRef) (f : Rendition → Rendition) : (s.modifyRendition r f).pending = s.pending := rfl

/-! ### modifyDir -/

@[simp] theorem modifyDir_pins (s : State) (n : SetNo) (f : DirEntry → DirEntry) : (s.modifyDir n f).pins = s.pins := rfl
@[simp] theorem modifyDir_links (s : State) (n : SetNo) (f : DirEntry → DirEntry) : (s.modifyDir n f).links = s.links := rfl
@[simp] theorem modifyDir_table (s : State) (n : SetNo) (f : DirEntry → DirEntry) : (s.modifyDir n f).table = s.table := rfl
@[simp] theorem modifyDir_capture (s : State) (n : SetNo) (f : DirEntry → DirEntry) : (s.modifyDir n f).capture = s.capture := rfl
@[simp] theorem modifyDir_sets (s : State) (n : SetNo) (f : DirEntry → DirEntry) :
    (s.modifyDir n f).sets = s.sets.setEntry n (f (s.sets.entry n)) := rfl
@[simp] theorem modifyDir_render (s : State) (n : SetNo) (f : DirEntry → DirEntry) : (s.modifyDir n f).render = s.render := rfl
@[simp] theorem modifyDir_adviceOut (s : State) (n : SetNo) (f : DirEntry → DirEntry) : (s.modifyDir n f).adviceOut = s.adviceOut := rfl
@[simp] theorem modifyDir_emitter (s : State) (n : SetNo) (f : DirEntry → DirEntry) : (s.modifyDir n f).emitter = s.emitter := rfl
@[simp] theorem modifyDir_frameMemory (s : State) (n : SetNo) (f : DirEntry → DirEntry) : (s.modifyDir n f).frameMemory = s.frameMemory := rfl
@[simp] theorem modifyDir_mem (s : State) (n : SetNo) (f : DirEntry → DirEntry) : (s.modifyDir n f).mem = s.mem := rfl
@[simp] theorem modifyDir_mgmt (s : State) (n : SetNo) (f : DirEntry → DirEntry) : (s.modifyDir n f).mgmt = s.mgmt := rfl
@[simp] theorem modifyDir_powerOns (s : State) (n : SetNo) (f : DirEntry → DirEntry) : (s.modifyDir n f).powerOns = s.powerOns := rfl
@[simp] theorem modifyDir_pending (s : State) (n : SetNo) (f : DirEntry → DirEntry) : (s.modifyDir n f).pending = s.pending := rfl

/-! ### setEngine -/

@[simp] theorem setEngine_pins (s : State) (e : EngineId) (x : Engine) : (s.setEngine e x).pins = s.pins := rfl
@[simp] theorem setEngine_links (s : State) (e : EngineId) (x : Engine) : (s.setEngine e x).links = s.links := rfl
@[simp] theorem setEngine_table (s : State) (e : EngineId) (x : Engine) : (s.setEngine e x).table = s.table := rfl
@[simp] theorem setEngine_capture (s : State) (e : EngineId) (x : Engine) : (s.setEngine e x).capture = s.capture := rfl
@[simp] theorem setEngine_sets (s : State) (e : EngineId) (x : Engine) : (s.setEngine e x).sets = s.sets := rfl
@[simp] theorem setEngine_render (s : State) (e : EngineId) (x : Engine) :
    (s.setEngine e x).render = s.render.setEngine e x := rfl
@[simp] theorem setEngine_adviceOut (s : State) (e : EngineId) (x : Engine) : (s.setEngine e x).adviceOut = s.adviceOut := rfl
@[simp] theorem setEngine_emitter (s : State) (e : EngineId) (x : Engine) : (s.setEngine e x).emitter = s.emitter := rfl
@[simp] theorem setEngine_frameMemory (s : State) (e : EngineId) (x : Engine) : (s.setEngine e x).frameMemory = s.frameMemory := rfl
@[simp] theorem setEngine_mem (s : State) (e : EngineId) (x : Engine) : (s.setEngine e x).mem = s.mem := rfl
@[simp] theorem setEngine_mgmt (s : State) (e : EngineId) (x : Engine) : (s.setEngine e x).mgmt = s.mgmt := rfl
@[simp] theorem setEngine_powerOns (s : State) (e : EngineId) (x : Engine) : (s.setEngine e x).powerOns = s.powerOns := rfl
@[simp] theorem setEngine_pending (s : State) (e : EngineId) (x : Engine) : (s.setEngine e x).pending = s.pending := rfl

/-! ### setLink -/

@[simp] theorem setLink_pins (s : State) (k : Link) (x : LinkState) : (s.setLink k x).pins = s.pins := rfl
@[simp] theorem setLink_links (s : State) (k : Link) (x : LinkState) :
    (s.setLink k x).links = s.links.setLink k x := rfl
@[simp] theorem setLink_table (s : State) (k : Link) (x : LinkState) : (s.setLink k x).table = s.table := rfl
@[simp] theorem setLink_capture (s : State) (k : Link) (x : LinkState) : (s.setLink k x).capture = s.capture := rfl
@[simp] theorem setLink_sets (s : State) (k : Link) (x : LinkState) : (s.setLink k x).sets = s.sets := rfl
@[simp] theorem setLink_render (s : State) (k : Link) (x : LinkState) : (s.setLink k x).render = s.render := rfl
@[simp] theorem setLink_adviceOut (s : State) (k : Link) (x : LinkState) : (s.setLink k x).adviceOut = s.adviceOut := rfl
@[simp] theorem setLink_emitter (s : State) (k : Link) (x : LinkState) : (s.setLink k x).emitter = s.emitter := rfl
@[simp] theorem setLink_frameMemory (s : State) (k : Link) (x : LinkState) : (s.setLink k x).frameMemory = s.frameMemory := rfl
@[simp] theorem setLink_mem (s : State) (k : Link) (x : LinkState) : (s.setLink k x).mem = s.mem := rfl
@[simp] theorem setLink_mgmt (s : State) (k : Link) (x : LinkState) : (s.setLink k x).mgmt = s.mgmt := rfl
@[simp] theorem setLink_powerOns (s : State) (k : Link) (x : LinkState) : (s.setLink k x).powerOns = s.powerOns := rfl
@[simp] theorem setLink_pending (s : State) (k : Link) (x : LinkState) : (s.setLink k x).pending = s.pending := rfl

/-! ### modifyCounters -/

@[simp] theorem modifyCounters_pins (s : State) (f : Counters → Counters) : (s.modifyCounters f).pins = s.pins := rfl
@[simp] theorem modifyCounters_links (s : State) (f : Counters → Counters) : (s.modifyCounters f).links = s.links := rfl
@[simp] theorem modifyCounters_table (s : State) (f : Counters → Counters) : (s.modifyCounters f).table = s.table := rfl
@[simp] theorem modifyCounters_capture (s : State) (f : Counters → Counters) : (s.modifyCounters f).capture = s.capture := rfl
@[simp] theorem modifyCounters_sets (s : State) (f : Counters → Counters) : (s.modifyCounters f).sets = s.sets := rfl
@[simp] theorem modifyCounters_render (s : State) (f : Counters → Counters) : (s.modifyCounters f).render = s.render := rfl
@[simp] theorem modifyCounters_adviceOut (s : State) (f : Counters → Counters) : (s.modifyCounters f).adviceOut = s.adviceOut := rfl
@[simp] theorem modifyCounters_emitter (s : State) (f : Counters → Counters) : (s.modifyCounters f).emitter = s.emitter := rfl
@[simp] theorem modifyCounters_frameMemory (s : State) (f : Counters → Counters) : (s.modifyCounters f).frameMemory = s.frameMemory := rfl
@[simp] theorem modifyCounters_mem (s : State) (f : Counters → Counters) : (s.modifyCounters f).mem = s.mem := rfl
@[simp] theorem modifyCounters_mgmt (s : State) (f : Counters → Counters) :
    (s.modifyCounters f).mgmt = { s.mgmt with counters := f s.mgmt.counters } := rfl
@[simp] theorem modifyCounters_powerOns (s : State) (f : Counters → Counters) : (s.modifyCounters f).powerOns = s.powerOns := rfl
@[simp] theorem modifyCounters_pending (s : State) (f : Counters → Counters) : (s.modifyCounters f).pending = s.pending := rfl

/-! ### countBadFrame -/

@[simp] theorem countBadFrame_pins (s : State) (k : Link) : (s.countBadFrame k).pins = s.pins := by
  cases k <;> rfl
@[simp] theorem countBadFrame_links (s : State) (k : Link) : (s.countBadFrame k).links = s.links := by
  cases k <;> rfl
@[simp] theorem countBadFrame_table (s : State) (k : Link) : (s.countBadFrame k).table = s.table := by
  cases k <;> rfl
@[simp] theorem countBadFrame_capture (s : State) (k : Link) : (s.countBadFrame k).capture = s.capture := by
  cases k <;> rfl
@[simp] theorem countBadFrame_sets (s : State) (k : Link) : (s.countBadFrame k).sets = s.sets := by
  cases k <;> rfl
@[simp] theorem countBadFrame_render (s : State) (k : Link) : (s.countBadFrame k).render = s.render := by
  cases k <;> rfl
@[simp] theorem countBadFrame_adviceOut (s : State) (k : Link) : (s.countBadFrame k).adviceOut = s.adviceOut := by
  cases k <;> rfl
@[simp] theorem countBadFrame_emitter (s : State) (k : Link) : (s.countBadFrame k).emitter = s.emitter := by
  cases k <;> rfl
@[simp] theorem countBadFrame_frameMemory (s : State) (k : Link) : (s.countBadFrame k).frameMemory = s.frameMemory := by
  cases k <;> rfl
@[simp] theorem countBadFrame_mem (s : State) (k : Link) : (s.countBadFrame k).mem = s.mem := by
  cases k <;> rfl
@[simp] theorem countBadFrame_powerOns (s : State) (k : Link) : (s.countBadFrame k).powerOns = s.powerOns := by
  cases k <;> rfl
@[simp] theorem countBadFrame_pending (s : State) (k : Link) : (s.countBadFrame k).pending = s.pending := by
  cases k <;> rfl

/-! ### pushReport -/

@[simp] theorem pushReport_pins (s : State) (r : Report) : (s.pushReport r).pins = s.pins := rfl
@[simp] theorem pushReport_links (s : State) (r : Report) : (s.pushReport r).links = s.links := rfl
@[simp] theorem pushReport_table (s : State) (r : Report) : (s.pushReport r).table = s.table := rfl
@[simp] theorem pushReport_capture (s : State) (r : Report) : (s.pushReport r).capture = s.capture := rfl
@[simp] theorem pushReport_sets (s : State) (r : Report) : (s.pushReport r).sets = s.sets := rfl
@[simp] theorem pushReport_render (s : State) (r : Report) : (s.pushReport r).render = s.render := rfl
@[simp] theorem pushReport_adviceOut (s : State) (r : Report) : (s.pushReport r).adviceOut = s.adviceOut := rfl
@[simp] theorem pushReport_emitter (s : State) (r : Report) : (s.pushReport r).emitter = s.emitter := rfl
@[simp] theorem pushReport_frameMemory (s : State) (r : Report) : (s.pushReport r).frameMemory = s.frameMemory := rfl
@[simp] theorem pushReport_mem (s : State) (r : Report) : (s.pushReport r).mem = s.mem := rfl
@[simp] theorem pushReport_mgmt (s : State) (r : Report) :
    (s.pushReport r).mgmt = { s.mgmt with reports := s.mgmt.reports ++ [r] } := rfl
@[simp] theorem pushReport_powerOns (s : State) (r : Report) : (s.pushReport r).powerOns = s.powerOns := rfl
@[simp] theorem pushReport_pending (s : State) (r : Report) : (s.pushReport r).pending = s.pending := rfl

/-! ### composeEvent -/

@[simp] theorem composeEvent_pins (s : State) (b : EventBody) : (s.composeEvent b).pins = s.pins := by
  unfold composeEvent; dsimp only; split
  · split <;> rfl
  · rfl
@[simp] theorem composeEvent_links (s : State) (b : EventBody) : (s.composeEvent b).links = s.links := by
  unfold composeEvent; dsimp only; split
  · split <;> rfl
  · rfl
@[simp] theorem composeEvent_table (s : State) (b : EventBody) : (s.composeEvent b).table = s.table := by
  unfold composeEvent; dsimp only; split
  · split <;> rfl
  · rfl
@[simp] theorem composeEvent_capture (s : State) (b : EventBody) : (s.composeEvent b).capture = s.capture := by
  unfold composeEvent; dsimp only; split
  · split <;> rfl
  · rfl
@[simp] theorem composeEvent_sets (s : State) (b : EventBody) : (s.composeEvent b).sets = s.sets := by
  unfold composeEvent; dsimp only; split
  · split <;> rfl
  · rfl
@[simp] theorem composeEvent_render (s : State) (b : EventBody) : (s.composeEvent b).render = s.render := by
  unfold composeEvent; dsimp only; split
  · split <;> rfl
  · rfl
@[simp] theorem composeEvent_adviceOut (s : State) (b : EventBody) : (s.composeEvent b).adviceOut = s.adviceOut := by
  unfold composeEvent; dsimp only; split
  · split <;> rfl
  · rfl
@[simp] theorem composeEvent_emitter (s : State) (b : EventBody) : (s.composeEvent b).emitter = s.emitter := by
  unfold composeEvent; dsimp only; split
  · split <;> rfl
  · rfl
@[simp] theorem composeEvent_frameMemory (s : State) (b : EventBody) : (s.composeEvent b).frameMemory = s.frameMemory := by
  unfold composeEvent; dsimp only; split
  · split <;> rfl
  · rfl
@[simp] theorem composeEvent_mem (s : State) (b : EventBody) : (s.composeEvent b).mem = s.mem := by
  unfold composeEvent; dsimp only; split
  · split <;> rfl
  · rfl
@[simp] theorem composeEvent_powerOns (s : State) (b : EventBody) : (s.composeEvent b).powerOns = s.powerOns := by
  unfold composeEvent; dsimp only; split
  · split <;> rfl
  · rfl
@[simp] theorem composeEvent_pending (s : State) (b : EventBody) : (s.composeEvent b).pending = s.pending := by
  unfold composeEvent; dsimp only; split
  · split <;> rfl
  · rfl

/-! ### respond -/

@[simp] theorem respond_pins (s : State) (r : Response) : (s.respond r).pins = s.pins := by
  unfold respond; dsimp only; split <;> rfl
@[simp] theorem respond_links (s : State) (r : Response) : (s.respond r).links = s.links := by
  unfold respond; dsimp only; split <;> rfl
@[simp] theorem respond_table (s : State) (r : Response) : (s.respond r).table = s.table := by
  unfold respond; dsimp only; split <;> rfl
@[simp] theorem respond_capture (s : State) (r : Response) : (s.respond r).capture = s.capture := by
  unfold respond; dsimp only; split <;> rfl
@[simp] theorem respond_sets (s : State) (r : Response) : (s.respond r).sets = s.sets := by
  unfold respond; dsimp only; split <;> rfl
@[simp] theorem respond_render (s : State) (r : Response) : (s.respond r).render = s.render := by
  unfold respond; dsimp only; split <;> rfl
@[simp] theorem respond_adviceOut (s : State) (r : Response) : (s.respond r).adviceOut = s.adviceOut := by
  unfold respond; dsimp only; split <;> rfl
@[simp] theorem respond_emitter (s : State) (r : Response) : (s.respond r).emitter = s.emitter := by
  unfold respond; dsimp only; split <;> rfl
@[simp] theorem respond_frameMemory (s : State) (r : Response) : (s.respond r).frameMemory = s.frameMemory := by
  unfold respond; dsimp only; split <;> rfl
@[simp] theorem respond_mem (s : State) (r : Response) : (s.respond r).mem = s.mem := by
  unfold respond; dsimp only; split <;> rfl
@[simp] theorem respond_powerOns (s : State) (r : Response) : (s.respond r).powerOns = s.powerOns := by
  unfold respond; dsimp only; split <;> rfl
@[simp] theorem respond_pending (s : State) (r : Response) : (s.respond r).pending = s.pending := by
  unfold respond; dsimp only; split <;> rfl

end State

/-! ### Reading back what was set -/

@[simp] theorem Capture.channel_setChannel (c : Capture) (cam : Camera) (x : Channel) :
    (c.setChannel cam x).channel cam = x := by
  cases cam <;> rfl

theorem Capture.channel_setChannel_of_ne (c : Capture) {cam cam' : Camera} (x : Channel) (h : cam' ≠ cam) :
    (c.setChannel cam x).channel cam' = c.channel cam' := by
  cases cam <;> cases cam' <;> first | rfl | exact absurd rfl h

@[simp] theorem State.channel_modifyChannel (s : State) (cam : Camera) (f : Channel → Channel) :
    (s.modifyChannel cam f).channel cam = f (s.channel cam) := Capture.channel_setChannel _ _ _

theorem State.channel_modifyChannel_of_ne (s : State) {cam cam' : Camera} (f : Channel → Channel) (h : cam' ≠ cam) :
    (s.modifyChannel cam f).channel cam' = s.channel cam' := Capture.channel_setChannel_of_ne _ _ h

@[simp] theorem TableStore.entry_setEntry (t : TableStore) (n : SetNo) (e : DirEntry) :
    (t.setEntry n e).entry n = e := by
  match n with
  | 0 => rfl
  | 1 => rfl
  | 2 => rfl
  | 3 => rfl

@[simp] theorem State.dir_modifyDir (s : State) (n : SetNo) (f : DirEntry → DirEntry) :
    (s.modifyDir n f).dir n = f (s.dir n) := TableStore.entry_setEntry _ _ _

@[simp] theorem Render.engine_setEngine (r : Render) (e : EngineId) (x : Engine) : (r.setEngine e x).engine e = x := by
  cases e <;> rfl

@[simp] theorem State.engine_setEngine (s : State) (e : EngineId) (x : Engine) : (s.setEngine e x).engine e = x :=
  Render.engine_setEngine _ _ _

@[simp] theorem Links.link_setLink (l : Links) (k : Link) (x : LinkState) : (l.setLink k x).link k = x := by
  cases k <;> rfl

/-- Every entry of the changed slot is the changed one. -/
theorem State.mem_modifyItem {s : State} {k : Slot} {f : Item → Item} {x : Item}
    (h : x ∈ (s.modifyItem k f).table.items) :
    ∃ y ∈ s.table.items, x = if y.slot = k then f y else y := by
  obtain ⟨y, hy, e⟩ := List.mem_map.1 h
  exact ⟨y, hy, e.symm⟩

@[simp] theorem TableStore.setEntry_load (t : TableStore) (n : SetNo) (e : DirEntry) :
    (t.setEntry n e).load = t.load := by
  match n with
  | 0 => rfl
  | 1 => rfl
  | 2 => rfl
  | 3 => rfl

@[simp] theorem TableStore.setEntry_active (t : TableStore) (n : SetNo) (e : DirEntry) :
    (t.setEntry n e).active = t.active := by
  match n with
  | 0 => rfl
  | 1 => rfl
  | 2 => rfl
  | 3 => rfl

@[simp] theorem TableStore.setEntry_pendingActivation (t : TableStore) (n : SetNo) (e : DirEntry) :
    (t.setEntry n e).pendingActivation = t.pendingActivation := by
  match n with
  | 0 => rfl
  | 1 => rfl
  | 2 => rfl
  | 3 => rfl

@[simp] theorem TableStore.setEntry_batch (t : TableStore) (n : SetNo) (e : DirEntry) :
    (t.setEntry n e).batch = t.batch := by
  match n with
  | 0 => rfl
  | 1 => rfl
  | 2 => rfl
  | 3 => rfl

end Sys2Proof.Machine
end

