-- ==== Sys2Proof/Laws/Calm.lean ====
section
/-! SUPPORT. What the internal work of the part can do: the relation Calm between a state and a later one, that holds
for every cancel, dispatch, strip boundary, service and choice of a frame, and the weaker relation Keeps, that holds for
capture and classification too. One lemma for each shared operation stands in the files that import this one. -/

namespace Sys2Proof.Machine

/-! ### Entries -/

/-- The fields of an entry that internal work never changes. -/
structure ItemName where
  slot : Slot
  announcedTag : Half
  tag : Option Half
  sequence : Word
  batch : Half
  lead : Position
  announcedLength : Half
  set : SetNo
  generation : Nat
  rerenderOrder : Option Word
  profile : Option Nat
  classification : Classification
  codeLine : Option CodeLine
  lateCode : Bool
  classifyDeadline : Option Position
  adviceDeadline : Option Position
  key : Key

def Item.name (it : Item) : ItemName :=
  { slot := it.slot, announcedTag := it.announcedTag, tag := it.tag, sequence := it.sequence, batch := it.batch,
    lead := it.lead, announcedLength := it.announcedLength, set := it.set, generation := it.generation,
    rerenderOrder := it.rerenderOrder, profile := it.profile, classification := it.classification,
    codeLine := it.codeLine, lateCode := it.lateCode, classifyDeadline := it.classifyDeadline,
    adviceDeadline := it.adviceDeadline, key := it.key }

/-- A side record without its accumulators. -/
def Side.core (x : Side) : Side := { x with accumulators := none }

/-- `x` is entry `y` after internal work: its name and captured sides as they were, its state the same or CANCELLING,
and what is set once still set (R11, R130, R148). -/
structure Item.Later (x y : Item) : Prop where
  name : x.name = y.name
  state : x.state = y.state ∨ x.state = .cancelling
  cause : y.state = .cancelling → x.state = .cancelling ∧ x.cancelCause = y.cancelCause
  advice : y.advice ≠ none → x.advice = y.advice
  emittedAny : y.emittedAny = true → x.emittedAny = true
  front : x.front.core = y.front.core
  rear : x.rear.core = y.rear.core

theorem Item.Later.refl (x : Item) : x.Later x :=
  ⟨rfl, Or.inl rfl, fun h => ⟨h, rfl⟩, fun _ => rfl, id, rfl, rfl⟩

theorem Item.Later.trans {x y z : Item} (h : x.Later y) (g : y.Later z) : x.Later z where
  name := h.name.trans g.name
  state := by
    rcases h.state with e | e
    · rcases g.state with e' | e'
      · exact Or.inl (e.trans e')
      · exact Or.inr (e.trans e')
    · exact Or.inr e
  cause := fun e =>
    let ⟨a, b⟩ := g.cause e
    let ⟨c, d⟩ := h.cause a
    ⟨c, d.trans b⟩
  advice := fun e => by
    have a := g.advice e
    rw [h.advice (a ▸ e), a]
  emittedAny := fun e => h.emittedAny (g.emittedAny e)
  front := h.front.trans g.front
  rear := h.rear.trans g.rear

/-- `x` is entry `y` later: its slot, announced tag and sequence as they were, its tag the same or gone (R1, R7). -/
structure Item.SameEntry (x y : Item) : Prop where
  slot : x.slot = y.slot
  announcedTag : x.announcedTag = y.announcedTag
  sequence : x.sequence = y.sequence
  tag : x.tag = y.tag ∨ x.tag = none

theorem Item.SameEntry.refl (x : Item) : x.SameEntry x := ⟨rfl, rfl, rfl, Or.inl rfl⟩

theorem Item.SameEntry.trans {x y z : Item} (h : x.SameEntry y) (g : y.SameEntry z) : x.SameEntry z where
  slot := h.slot.trans g.slot
  announcedTag := h.announcedTag.trans g.announcedTag
  sequence := h.sequence.trans g.sequence
  tag := by
    rcases h.tag with e | e
    · rcases g.tag with e' | e'
      · exact Or.inl (e.trans e')
      · exact Or.inr (e.trans e')
    · exact Or.inr e

theorem Item.Later.sameEntry {x y : Item} (h : x.Later y) : x.SameEntry y :=
  ⟨congrArg ItemName.slot h.name, congrArg ItemName.announcedTag h.name, congrArg ItemName.sequence h.name,
    Or.inl (congrArg ItemName.tag h.name)⟩

/-! ### Lists of entries -/

/-- Entries `l` come from entries `m`, some gone, the rest in order, each related by `R`. -/
abbrev From (R : Item → Item → Prop) (l m : List Item) : Prop := List.SublistForall₂ R l m

theorem From.refl {R : Item → Item → Prop} (hR : ∀ x, R x x) (l : List Item) : From R l l := by
  induction l with
  | nil => exact .nil
  | cons a l ih => exact .cons (hR a) ih

theorem From.trans {R : Item → Item → Prop} (hR : ∀ {x y z}, R x y → R y z → R x z) {l m n : List Item}
    (h : From R l m) (g : From R m n) : From R l n := by
  induction g generalizing l with
  | nil => cases h; exact .nil
  | cons r _ ih =>
    cases h with
    | nil => exact .nil
    | cons r' h' => exact .cons (hR r' r) (ih h')
    | cons_right h' => exact .cons_right (ih h')
  | cons_right _ ih => exact .cons_right (ih h)

theorem From.mono {R Q : Item → Item → Prop} (hRQ : ∀ {x y}, R x y → Q x y) {l m : List Item} (h : From R l m) :
    From Q l m := by
  induction h with
  | nil => exact .nil
  | cons r _ ih => exact .cons (hRQ r) ih
  | cons_right _ ih => exact .cons_right ih

theorem From.map {R : Item → Item → Prop} {f : Item → Item} {l : List Item} (h : ∀ x ∈ l, R (f x) x) :
    From R (l.map f) l := by
  induction l with
  | nil => exact .nil
  | cons a l ih =>
    exact .cons (h a List.mem_cons_self) (ih fun x hx => h x (List.mem_cons_of_mem _ hx))

theorem From.filter {R : Item → Item → Prop} (hR : ∀ x, R x x) (p : Item → Bool) (l : List Item) :
    From R (l.filter p) l := by
  induction l with
  | nil => exact .nil
  | cons a l ih =>
    rw [List.filter_cons]
    split
    · exact .cons (hR a) ih
    · exact .cons_right ih

theorem From.mem {R : Item → Item → Prop} {l m : List Item} (h : From R l m) {x : Item} (hx : x ∈ l) :
    ∃ y ∈ m, R x y := by
  induction h with
  | nil => cases hx
  | cons r _ ih =>
    rcases List.mem_cons.1 hx with e | e
    · subst e; exact ⟨_, List.mem_cons_self, r⟩
    · obtain ⟨y, hy, hr⟩ := ih e
      exact ⟨y, List.mem_cons_of_mem _ hy, hr⟩
  | cons_right _ ih =>
    obtain ⟨y, hy, hr⟩ := ih hx
    exact ⟨y, List.mem_cons_of_mem _ hy, hr⟩

theorem From.length_le {R : Item → Item → Prop} {l m : List Item} (h : From R l m) : l.length ≤ m.length := by
  induction h with
  | nil => exact Nat.zero_le _
  | cons _ _ ih => exact Nat.succ_le_succ ih
  | cons_right _ ih => exact Nat.le_succ_of_le ih

/-- Slots and tags that were distinct stay distinct. -/
theorem From.slots_sublist {l m : List Item} (h : From Item.SameEntry l m) :
    (l.map Item.slot).Sublist (m.map Item.slot) := by
  induction h with
  | nil => exact List.nil_sublist _
  | cons r _ ih => rw [List.map_cons, List.map_cons, r.slot]; exact ih.cons_cons _
  | cons_right _ ih => exact ih.cons _

theorem From.tags_sublist {l m : List Item} (h : From Item.SameEntry l m) :
    (l.filterMap Item.tag).Sublist (m.filterMap Item.tag) := by
  induction h with
  | nil => exact List.nil_sublist _
  | @cons a b _ _ r _ ih =>
    rw [List.filterMap_cons, List.filterMap_cons]
    rcases r.tag with e | e
    · rw [e]; cases b.tag with
      | none => exact ih
      | some x => exact ih.cons_cons _
    · rw [e]; cases b.tag with
      | none => exact ih
      | some x => exact ih.cons _
  | cons_right _ ih =>
    rw [List.filterMap_cons]
    split
    · exact ih
    · exact ih.cons _

/-! ### Calm -/

/-- The parts of the state that internal work never changes. -/
structure Bedrock where
  pins : BitVec 4
  links : Links
  powerOns : Nat
  pending : List Instr
  installedMiB : Nat
  map : RegionMap
  settings : RunSettings
  mode : Mode
  requests : List QueuedRequest
  headWait : HeadWait
  reserved : Nat
  load : Option OpenLoad
  active : Option SetNo
  pendingActivation : Option SetNo
  batch : Half
  announceSeq : Word
  rerenderSeq : Word
  portFront : Option Position
  portRear : Option Position
  badTrack : Word
  badExchange : Word
  badSequence : Word
  droppedFront : Word
  droppedRear : Word
  orphans : Word
  notSeen : Word
  evictions : Word
  announced : Word
  leftover : Option Advice

def State.bedrock (s : State) : Bedrock :=
  { pins := s.pins, links := s.links, powerOns := s.powerOns, pending := s.pending,
    installedMiB := s.frameMemory.installedMiB, map := s.frameMemory.map, settings := s.mgmt.settings,
    mode := s.mgmt.mode, requests := s.mgmt.requests, headWait := s.mgmt.headWait, reserved := s.mgmt.reserved,
    load := s.sets.load, active := s.sets.active, pendingActivation := s.sets.pendingActivation, batch := s.sets.batch,
    announceSeq := s.table.announceSeq, rerenderSeq := s.table.rerenderSeq,
    portFront := s.capture.front.portPosition, portRear := s.capture.rear.portPosition,
    badTrack := s.mgmt.counters.badTrack, badExchange := s.mgmt.counters.badExchange,
    badSequence := s.mgmt.counters.badSequence, droppedFront := s.mgmt.counters.droppedFront,
    droppedRear := s.mgmt.counters.droppedRear, orphans := s.mgmt.counters.orphans,
    notSeen := s.mgmt.counters.notSeen, evictions := s.mgmt.counters.evictions,
    announced := s.mgmt.counters.announced, leftover := s.adviceOut.leftover }

/-- ADVICE frames have only joined the tail of the queue, none while the track link is DOWN, and not beyond its
capacity (R138). -/
def AdviceGrown (s t : State) : Prop :=
  ∃ l, t.adviceOut.queue = s.adviceOut.queue ++ l ∧ (s.links.track.up = false → l = [])
    ∧ (s.adviceOut.queue.length ≤ Config.adviceCapacity → t.adviceOut.queue.length ≤ Config.adviceCapacity)

/-- EVENTs, and no RESPONSE, have joined the tail of the report queue, none while the exchange link is DOWN, and not
beyond the event places (R187). -/
def ReportsGrown (s t : State) : Prop :=
  ∃ l, t.reportsHeld = s.reportsHeld ++ l ∧ (∀ r ∈ l, r.isEvent = true) ∧ (s.links.exchange.up = false → l = [])
    ∧ (s.eventsHeld ≤ Config.eventPlaces → t.eventsHeld ≤ Config.eventPlaces)

/-- The entry found in a slot is the one that stands there, slots being distinct. -/
theorem State.item?_eq_of_mem {s : State} (hn : (s.table.items.map Item.slot).Nodup) {x : Item}
    (hx : x ∈ s.table.items) : s.item? x.slot = some x := by
  unfold State.item?
  generalize s.table.items = l at hn hx
  induction l with
  | nil => cases hx
  | cons a l ih =>
    rw [List.map_cons, List.nodup_cons] at hn
    rcases List.mem_cons.1 hx with e | e
    · subst e; simp
    · have : a.slot ≠ x.slot := fun c => hn.1 (c ▸ List.mem_map_of_mem e)
      rw [List.find?_cons_of_neg (by simpa using this)]
      exact ih hn.2 e

/-- The entry found in a slot is an entry of the table, and its slot is that one. -/
theorem State.mem_of_item? {s : State} {k : Slot} {it : Item} (h : s.item? k = some it) :
    it ∈ s.table.items ∧ it.slot = k :=
  ⟨List.mem_of_find?_eq_some h, by simpa using List.find?_some h⟩

/-- `t` is a state that internal work can make of `s`; the entries are spoken of where their slots are distinct
(R1). -/
structure State.Calm (s t : State) : Prop where
  bedrock : t.bedrock = s.bedrock
  pendingFront : t.capture.front.pendingList.Sublist s.capture.front.pendingList
  pendingRear : t.capture.rear.pendingList.Sublist s.capture.rear.pendingList
  fifoFront : t.capture.front.fifo.Sublist s.capture.front.fifo
  fifoRear : t.capture.rear.fifo.Sublist s.capture.rear.fifo
  advice : AdviceGrown s t
  reports : ReportsGrown s t
  credits : t.emitter.credits ≤ s.emitter.credits
  items : (s.table.items.map Item.slot).Nodup → From Item.Later t.table.items s.table.items
  memory : Memory.wf s.mem → Memory.wf t.mem

theorem AdviceGrown.of_eq {s t : State} (h : t.adviceOut = s.adviceOut) : AdviceGrown s t :=
  ⟨[], by simp [h], fun _ => rfl, fun b => by simpa [h] using b⟩

theorem ReportsGrown.of_eq {s t : State} (h : t.reportsHeld = s.reportsHeld) : ReportsGrown s t :=
  ⟨[], by simp [h], by simp, fun _ => rfl, fun b => by simpa [State.eventsHeld, h] using b⟩

theorem AdviceGrown.trans {s t u : State} (hl : t.links = s.links) (h : AdviceGrown s t) (g : AdviceGrown t u) :
    AdviceGrown s u := by
  obtain ⟨l, e, d, b⟩ := h
  obtain ⟨m, e', d', b'⟩ := g
  refine ⟨l ++ m, by rw [e', e, List.append_assoc], fun x => ?_, fun x => b' (b x)⟩
  rw [d x, d' (hl ▸ x), List.nil_append]

theorem ReportsGrown.trans {s t u : State} (hl : t.links = s.links) (h : ReportsGrown s t) (g : ReportsGrown t u) :
    ReportsGrown s u := by
  obtain ⟨l, e, a, d, b⟩ := h
  obtain ⟨m, e', a', d', b'⟩ := g
  refine ⟨l ++ m, by rw [e', e, List.append_assoc], fun r hr => ?_, fun x => ?_, fun x => b' (b x)⟩
  · rcases List.mem_append.1 hr with hr | hr
    · exact a r hr
    · exact a' r hr
  · rw [d x, d' (hl ▸ x), List.nil_append]

namespace State.Calm

theorem links {s t : State} (h : s.Calm t) : t.links = s.links := congrArg Bedrock.links h.bedrock

theorem refl (s : State) : s.Calm s :=
  ⟨rfl, .refl _, .refl _, .refl _, .refl _, .of_eq rfl, .of_eq rfl, le_refl _, fun _ => From.refl Item.Later.refl _, id⟩

theorem trans {s t u : State} (h : s.Calm t) (g : t.Calm u) : s.Calm u where
  bedrock := g.bedrock.trans h.bedrock
  pendingFront := g.pendingFront.trans h.pendingFront
  pendingRear := g.pendingRear.trans h.pendingRear
  fifoFront := g.fifoFront.trans h.fifoFront
  fifoRear := g.fifoRear.trans h.fifoRear
  advice := h.advice.trans h.links g.advice
  reports := h.reports.trans h.links g.reports
  credits := le_trans g.credits h.credits
  items := fun n =>
    have e := h.items n
    From.trans (R := Item.Later) (fun a b => a.trans b)
      (g.items ((e.mono fun r => r.sameEntry).slots_sublist.nodup n)) e
  memory := fun w => g.memory (h.memory w)

theorem foldl {α : Type} {f : State → α → State} (h : ∀ (s : State) (a : α), s.Calm (f s a)) (l : List α) (s : State) :
    s.Calm (l.foldl f s) := by
  induction l generalizing s with
  | nil => exact refl s
  | cons a l ih => exact (h s a).trans (ih (f s a))

theorem of_ite {s : State} {p : Prop} [Decidable p] {t u : State} (ht : s.Calm t) (hu : s.Calm u) :
    s.Calm (if p then t else u) := by
  split
  · exact ht
  · exact hu

/-! ### The plain updates -/

theorem modifyItem {s : State} {k : Slot} {f : Item → Item} (h : ∀ it, s.item? k = some it → (f it).Later it) :
    s.Calm (s.modifyItem k f) :=
  { refl s with
    items := fun n => From.map fun x hx => by
      split
      · rename_i e
        exact h x (e ▸ State.item?_eq_of_mem n hx)
      · exact .refl x }

theorem render (s : State) (r : Render) : s.Calm { s with render := r } := { refl s with }

theorem sets (s : State) (n : SetNo) (f : DirEntry → DirEntry) : s.Calm (s.modifyDir n f) :=
  { refl s with bedrock := by simp [State.bedrock] }

/-- The pools and the check table change. -/
theorem pools (s : State) (strips blocks : List Nat) (checks : List (Nat × Word)) :
    s.Calm { s with frameMemory :=
      { s.frameMemory with freeStrips := strips, freeBlocks := blocks, checks := checks } } := { refl s with }

/-- The Emitter's lists and the work in hand change. -/
theorem emitterLists (s : State) (w : EmitterWork) (q : List EmissionEntry) (l : List Slot) (d : Bool) :
    s.Calm { s with emitter := { s.emitter with work := w, queue := q, summaryList := l, discarded := d } } :=
  { refl s with }

theorem mem {s : State} {m : Memory} (h : Memory.wf s.mem → Memory.wf m) : s.Calm { s with mem := m } :=
  { refl s with memory := h }

/-- A channel changes, its lists losing entries at most and its port position kept. -/
theorem channel {s : State} {cam : Camera} {f : Channel → Channel}
    (hp : ∀ c, (f c).pendingList.Sublist c.pendingList) (hf : ∀ c, (f c).fifo.Sublist c.fifo)
    (hq : ∀ c, (f c).portPosition = c.portPosition) : s.Calm (s.modifyChannel cam f) := by
  cases cam
  · exact { refl s with
      bedrock := by simp [State.bedrock, Capture.setChannel, Capture.channel, hq]
      pendingFront := hp _
      fifoFront := hf _ }
  · exact { refl s with
      bedrock := by simp [State.bedrock, Capture.setChannel, Capture.channel, hq]
      pendingRear := hp _
      fifoRear := hf _ }

end State.Calm

end Sys2Proof.Machine
end

