-- ==== Sys2Proof/Laws/Items.lean ====
section
/-! SUPPORT. The operations of the Item Table and the shared frames: EVENT, ADVICE, drops, service, the end of an entry
and cancellation are Calm. -/

namespace Sys2Proof.Machine

open State (Calm)

/-! ### Frames -/

/-- A frame pushed stands at the end of the reports held. -/
theorem State.reportsHeld_pushReport (s : State) (r : Report) : (s.pushReport r).reportsHeld = s.reportsHeld ++ [r] := by
  unfold State.reportsHeld
  simp only [State.pushReport_emitter, State.pushReport_mgmt]
  split <;> rfl

theorem State.reportsHeld_congr {s t : State} (he : t.emitter.frame = s.emitter.frame)
    (hr : t.mgmt.reports = s.mgmt.reports) : t.reportsHeld = s.reportsHeld := by
  unfold State.reportsHeld; rw [he, hr]

/-- An EVENT: the number advances; the frame joins the queue, or is discarded with the link DOWN, or is lost for want
of a place (R187, R190). -/
theorem State.composeEvent_calm (s : State) (b : EventBody) : s.Calm (s.composeEvent b) := by
  unfold State.composeEvent
  dsimp only
  split
  · split
    · rename_i hup hlt
      refine { Calm.refl s with reports := ?_ }
      refine ⟨[.event { sequence := s.mgmt.eventSeq, body := b }], ?_, by simp [Report.isEvent], ?_, fun _ => ?_⟩
      · rw [State.reportsHeld_pushReport]; rfl
      · intro h
        have hu : s.links.exchange.up = true := hup
        rw [h] at hu
        cases hu
      · unfold State.eventsHeld at hlt ⊢
        rw [State.reportsHeld_pushReport, List.filter_append, List.length_append]
        have : (State.reportsHeld { s with mgmt := { s.mgmt with eventSeq := s.mgmt.eventSeq + 1 } }) = s.reportsHeld := rfl
        rw [this]
        exact hlt
    · exact { Calm.refl s with }
  · exact { Calm.refl s with }

/-- The EVENT composed when the link is UP and a place is free (R187, R190). -/
theorem State.reportsHeld_composeEvent {s : State} (hup : s.links.exchange.up = true)
    (hlt : s.eventsHeld < Config.eventPlaces) (b : EventBody) :
    (s.composeEvent b).reportsHeld = s.reportsHeld ++ [.event { sequence := s.mgmt.eventSeq, body := b }] := by
  unfold State.composeEvent
  dsimp only
  rw [if_pos (show s.linkUp .exchange = true from hup), if_pos hlt, State.reportsHeld_pushReport]
  rfl

/-- An ADVICE: counted, and queued or lost (R138, R139). -/
theorem State.composeAdvice_calm (s : State) (a : Advice) : s.Calm (s.composeAdvice a) := by
  have hc : s.Calm (s.modifyCounters (countVerdict a.verdict)) :=
    { Calm.refl s with bedrock := by cases a.verdict <;> rfl }
  unfold State.composeAdvice
  dsimp only
  split
  · rename_i h
    refine hc.trans { Calm.refl _ with advice := ?_ }
    refine ⟨[a], rfl, fun hd => ?_, fun _ => ?_⟩
    · have : s.links.track.up = true := h.1
      simp [State.modifyCounters, this] at hd
    · simp only [List.length_append, List.length_cons, List.length_nil]
      have := h.2
      simp only [State.modifyCounters_adviceOut]
      omega
  · exact hc.trans { Calm.refl _ with }

/-- The ADVICE composed with the track link UP and a place free joins the tail of the queue (R138). -/
theorem State.adviceQueue_composeAdvice {s : State} {a : Advice} (hup : s.links.track.up = true)
    (hlt : s.adviceOut.queue.length < Config.adviceCapacity) :
    (s.composeAdvice a).adviceOut.queue = s.adviceOut.queue ++ [a] := by
  unfold State.composeAdvice
  dsimp only
  rw [if_pos ⟨hup, hlt⟩]
  rfl

/-! ### Entries changed in place -/

/-- A change of rendition records only. -/
theorem Item.later_renditions (it : Item) (rs : Option (List Rendition)) : ({ it with renditions := rs } : Item).Later it :=
  { Item.Later.refl it with }

theorem Item.later_modifyRendition (it : Item) (i : Nat) (f : Rendition → Rendition) :
    (it.modifyRendition i f).Later it := it.later_renditions _

theorem State.modifyRendition_calm (s : State) (r : RendRef) (f : Rendition → Rendition) :
    s.Calm (s.modifyRendition r f) := Calm.modifyItem fun it _ => it.later_modifyRendition _ f

theorem State.setEngine_calm (s : State) (e : EngineId) (x : Engine) : s.Calm (s.setEngine e x) := Calm.render s _

theorem State.vacateEngine_calm (s : State) (e : EngineId) : s.Calm (s.vacateEngine e) := s.setEngine_calm _ _

/-! ### The render queue and blocks -/

theorem State.rankQueue_calm (s : State) : s.Calm s.rankQueue := Calm.render s _

theorem State.enqueue_calm (s : State) (r : RendRef) : s.Calm (s.enqueue r) :=
  (Calm.render s _).trans (State.rankQueue_calm _)

theorem State.dequeue_calm (s : State) (r : RendRef) : s.Calm (s.dequeue r) := Calm.render s _

/-- The free block list changes. -/
theorem State.blocks_calm (s : State) (l : List Nat) :
    s.Calm { s with frameMemory := { s.frameMemory with freeBlocks := l } } := { Calm.refl s with }

theorem State.dropRendition_calm (s : State) (r : RendRef) (c : DropCause) : s.Calm (s.dropRendition r c) := by
  unfold State.dropRendition
  split
  · exact .refl s
  · split
    · exact .refl s
    · exact (s.modifyRendition_calm r _).trans (State.blocks_calm _ _)

theorem State.serveEngine_calm (s : State) (e : EngineId) : s.Calm (s.serveEngine e) := by
  unfold State.serveEngine
  split
  · split
    · exact .refl s
    · split
      · exact ((s.blocks_calm _).trans (State.modifyRendition_calm _ _ _)).trans (State.setEngine_calm _ _ _)
      · exact .refl s
  · exact .refl s

theorem State.serveBlocked_calm (s : State) : s.Calm s.serveBlocked := Calm.foldl State.serveEngine_calm _ _

theorem State.serveReturned_calm (s before : State) : s.Calm (s.serveReturned before) :=
  .of_ite s.serveBlocked_calm (.refl s)

theorem State.testSummary_calm (s : State) (k : Slot) : s.Calm (s.testSummary k) := by
  unfold State.testSummary
  split
  · exact .refl s
  · exact .of_ite (Calm.emitterLists s _ _ _ _) (.refl s)

/-! ### The end of an entry -/

theorem State.releaseBinding_calm (s : State) (n : SetNo) : s.Calm (s.releaseBinding n) := by
  unfold State.releaseBinding
  dsimp only
  split
  · exact ((Calm.sets s n _).trans (Calm.sets _ n _)).trans (State.composeEvent_calm _ _)
  · exact Calm.sets s n _

theorem State.discardFifo_calm (s : State) (k : Slot) : s.Calm (s.discardFifo k) := by
  have h : ∀ (t : State) (cam : Camera),
      t.Calm (t.modifyChannel cam fun c => { c with fifo := c.fifo.filter fun f => f.slot != k }) := fun t cam =>
    Calm.channel (fun _ => .refl _) (fun _ => List.filter_sublist) fun _ => rfl
  exact (h s .front).trans (h _ .rear)

theorem State.freeItem_calm (s : State) (k : Slot) : s.Calm (s.freeItem k) := by
  unfold State.freeItem
  split
  · exact .refl s
  · rename_i it _
    refine Calm.trans (t := { s with frameMemory := _ }) { Calm.refl s with } ?_
    refine Calm.trans (State.discardFifo_calm _ k) ?_
    refine Calm.trans (t := _) ?_ (State.releaseBinding_calm _ _)
    exact { Calm.refl _ with items := fun _ => From.filter Item.Later.refl _ _ }

/-! ### Cancellation -/

theorem State.completeCancel_calm (s : State) (k : Slot) : s.Calm (s.completeCancel k) := by
  unfold State.completeCancel
  split
  · exact .refl s
  · split
    · split
      · exact .of_ite (.refl s) (Calm.emitterLists s _ _ _ _)
      · exact s.freeItem_calm k
    · exact .refl s

theorem State.dropEmitting_calm (s : State) (r : RendRef) : s.Calm (s.dropEmitting r) :=
  (s.dropRendition_calm r _).trans (Calm.emitterLists _ _ _ _ _)

theorem State.cancelRendition_calm (s : State) (k : Slot) (q : Rendition) : s.Calm (s.cancelRendition k q) := by
  unfold State.cancelRendition
  dsimp only
  split
  · exact (s.dequeue_calm _).trans (State.dropRendition_calm _ _ _)
  · exact (s.dequeue_calm _).trans (State.dropRendition_calm _ _ _)
  · split
    · exact (s.dropRendition_calm _ _).trans (State.vacateEngine_calm _ _)
    · exact s.dropRendition_calm _ _
  · exact (Calm.emitterLists s _ _ _ _).trans (State.dropRendition_calm _ _ _)
  · exact s.modifyRendition_calm _ _
  · exact (s.modifyRendition_calm _ _).trans (.of_ite (.refl _) (State.dropEmitting_calm _ _))
  · exact .refl s
  · exact .refl s

theorem State.stopCapture_calm (s : State) (k : Slot) : s.Calm (s.stopCapture k) := by
  unfold State.stopCapture
  dsimp only
  have h : ∀ (t : State) (cam : Camera), t.Calm (t.modifyChannel cam fun c =>
      if ({ c with pendingList := c.pendingList.filter (· != k) } : Channel).bound = some k then
        { ({ c with pendingList := c.pendingList.filter (· != k) } : Channel) with state := .skip, bound := none }
      else { c with pendingList := c.pendingList.filter (· != k) }) := fun t cam =>
    Calm.channel (fun c => by split <;> exact List.filter_sublist) (fun c => by split <;> exact .refl _)
      (fun c => by split <;> rfl)
  exact ((h s .front).trans (h _ .rear)).trans (State.discardFifo_calm _ _)

/-- The ADVICE owed by a cancel: nothing where the advice is set or the generation is not 0 (R136). -/
theorem State.adviseCancelled_calm {s : State} {it : Item} (c : CancelCause)
    (h : ∀ x, s.item? it.slot = some x → x.advice = it.advice) : s.Calm (s.adviseCancelled it c) := by
  unfold State.adviseCancelled
  split
  · rename_i hc
    refine Calm.trans (Calm.modifyItem fun x hx => ?_) (State.composeAdvice_calm _ _)
    exact { Item.Later.refl x with advice := fun e => absurd ((h x hx).trans hc.1) e }
  · exact .refl s

/-- The entry of a slot after a change of it. -/
theorem State.item?_modifyItem {s : State} {k : Slot} {f : Item → Item} (h : ∀ x, (f x).slot = x.slot) :
    (s.modifyItem k f).item? k = (s.item? k).map f := by
  unfold State.item? State.modifyItem
  dsimp only
  induction s.table.items with
  | nil => rfl
  | cons a l ih =>
    rw [List.map_cons]
    by_cases e : a.slot = k
    · rw [if_pos e, List.find?_cons_of_pos (by simp [h, e]), List.find?_cons_of_pos (by simp [e])]
      rfl
    · rw [if_neg e, List.find?_cons_of_neg (by simpa using e), List.find?_cons_of_neg (by simpa using e)]
      exact ih

/-- The entry of another slot after a change. -/
theorem State.item?_modifyItem_of_ne {s : State} {k j : Slot} {f : Item → Item} (h : ∀ x, (f x).slot = x.slot)
    (hne : j ≠ k) : (s.modifyItem k f).item? j = s.item? j := by
  unfold State.item? State.modifyItem
  dsimp only
  induction s.table.items with
  | nil => rfl
  | cons a l ih =>
    rw [List.map_cons]
    by_cases e : a.slot = k
    · have hj : ¬ a.slot = j := fun c => hne (c.symm.trans e)
      rw [if_pos e, List.find?_cons_of_neg (by simpa [h] using hj), List.find?_cons_of_neg (by simpa using hj)]
      exact ih
    · rw [if_neg e]
      by_cases c : a.slot = j
      · rw [List.find?_cons_of_pos (by simpa using c), List.find?_cons_of_pos (by simpa using c)]
      · rw [List.find?_cons_of_neg (by simpa using c), List.find?_cons_of_neg (by simpa using c)]
        exact ih

/-- A cancel taken on the entry in a slot that is not CANCELLING (R11). -/
theorem State.cancelNow_calm {s : State} {it : Item} (h : s.item? it.slot = some it) (hs : it.state ≠ .cancelling)
    (c : CancelCause) : s.Calm (s.cancelNow it c) := by
  unfold State.cancelNow
  dsimp only
  have h1 : s.Calm (s.modifyItem it.slot (Item.markCancelled c)) := Calm.modifyItem fun x hx => by
    obtain rfl : it = x := Option.some.inj (h.symm.trans hx)
    exact { Item.Later.refl it with state := Or.inr rfl, cause := fun e => absurd e hs }
  refine h1.trans (Calm.trans (State.stopCapture_calm _ it.slot) ?_)
  have hu : ((s.modifyItem it.slot (Item.markCancelled c)).stopCapture it.slot).item? it.slot
      = some (it.markCancelled c) := by
    have : (s.modifyItem it.slot (Item.markCancelled c)).item? it.slot = some (it.markCancelled c) := by
      rw [State.item?_modifyItem (f := Item.markCancelled c) fun _ => rfl, h]; rfl
    exact this
  generalize (s.modifyItem it.slot (Item.markCancelled c)).stopCapture it.slot = u at hu ⊢
  refine Calm.trans (Calm.emitterLists u u.emitter.work u.emitter.queue
    (u.emitter.summaryList.filter (· != it.slot)) u.emitter.discarded) ?_
  refine Calm.trans (State.adviseCancelled_calm c fun x hx => ?_)
    (((Calm.foldl (fun t q => t.cancelRendition_calm it.slot q) _ _).trans
      (State.serveReturned_calm _ _)).trans (State.completeCancel_calm _ _))
  have : some x = some (it.markCancelled c) := hx.symm.trans hu
  rw [Option.some.inj this]
  rfl

/-- A cancel, taken, ignored, or deferred to the end of a SUMMARY (R11, R155). -/
theorem State.cancelItem_calm (s : State) (k : Slot) (c : CancelCause) : s.Calm (s.cancelItem k c) := by
  unfold State.cancelItem
  split
  · exact .refl s
  · rename_i it h
    have hk : it.slot = k := (State.mem_of_item? h).2
    split
    · exact .refl s
    · split
      · exact Calm.modifyItem fun x _ => { Item.Later.refl x with }
      · exact State.cancelNow_calm (by rw [hk]; exact h) (by assumption) c

end Sys2Proof.Machine
end

