-- ==== Sys2Proof/Laws/Render.lean ====
section
/-! SUPPORT. The Quality Unit, the render queue and the engines: every one of their operations is Calm. -/

namespace Sys2Proof.Machine

open State (Calm)

/-! ### The Quality Unit -/

theorem State.earlyRefeed_calm (s : State) (k : Slot) : s.Calm (s.earlyRefeed k) := by
  unfold State.earlyRefeed
  split
  · exact .refl s
  · exact .of_ite (s.cancelItem_calm _ _) (.refl s)

/-- The advice on settling of an entry whose advice is NONE (R132, R133). -/
theorem State.adviseSettled_calm {s : State} {it : Item} (h : s.item? it.slot = some it) (ha : it.advice = none)
    (v : Verdict) (c : AdviceCause) : s.Calm (s.adviseSettled it v c) := by
  unfold State.adviseSettled
  dsimp only
  refine Calm.trans (Calm.modifyItem fun x hx => ?_) ((State.composeAdvice_calm _ _).trans
    (Calm.trans (Calm.emitterLists _ _ _ _ _) (State.testSummary_calm _ _)))
  obtain rfl : it = x := Option.some.inj (h.symm.trans hx)
  exact { Item.Later.refl it with advice := fun e => absurd ha e }

theorem State.adviseOnSettling_calm (s : State) (k : Slot) : s.Calm (s.adviseOnSettling k) := by
  unfold State.adviseOnSettling
  split
  · exact .refl s
  · rename_i it h
    have hk : it.slot = k := (State.mem_of_item? h).2
    split
    · rename_i hd
      have ha : it.advice = none := by
        unfold Item.adviceDue at hd
        simp only [Bool.and_eq_true, decide_eq_true_eq] at hd
        exact hd.1.2
      split
      · exact State.adviseSettled_calm (by rw [hk]; exact h) ha _ _
      · exact State.adviseSettled_calm (by rw [hk]; exact h) ha _ _
      · exact .refl s
    · exact .refl s

theorem State.gradeItem_calm (s : State) (k : Slot) : s.Calm (s.gradeItem k) :=
  (s.earlyRefeed_calm k).trans (State.adviseOnSettling_calm _ k)

theorem Item.later_evaluate (img : Image) (it : Item) : (it.evaluate img).Later it := by
  unfold Item.evaluate
  split
  · exact .refl it
  · exact { Item.Later.refl it with }

theorem State.evaluateItem_calm (s : State) (k : Slot) : s.Calm (s.evaluateItem k) := by
  unfold State.evaluateItem
  split
  · exact .refl s
  · exact .of_ite ((Calm.modifyItem fun it _ => it.later_evaluate _).trans (State.gradeItem_calm _ _)) (.refl s)

/-! ### Settling and dropping -/

theorem State.settleRendered_calm (s : State) (r : RendRef) : s.Calm (s.settleRendered r) := by
  unfold State.settleRendered
  split
  · exact .refl s
  · split
    · exact s.adviseOnSettling_calm _
    · exact (s.modifyRendition_calm _ _).trans (Calm.emitterLists _ _ _ _ _)

theorem State.settleDropped_calm (s : State) (r : RendRef) : s.Calm (s.settleDropped r) := by
  unfold State.settleDropped
  split
  · exact .refl s
  · exact .of_ite (s.gradeItem_calm _) (s.testSummary_calm _)

theorem State.dropFromEngine_calm (s : State) (e : EngineId) (r : RendRef) (c : DropCause) :
    s.Calm (s.dropFromEngine e r c) := by
  have h : s.Calm ((((s.dropRendition r c).vacateEngine e).modifyItem r.slot fun it =>
      { it with flags := it.flags.union (dropFlag c) }).serveReturned s) := by
    refine ((s.dropRendition_calm r c).trans (State.vacateEngine_calm _ e)).trans (Calm.trans ?_
      (State.serveReturned_calm _ _))
    exact Calm.modifyItem fun x _ => { Item.Later.refl x with }
  cases c
  · exact h.trans (State.completeCancel_calm _ _)
  · exact h.trans (State.settleDropped_calm _ _)
  · exact h.trans (State.settleDropped_calm _ _)

/-! ### Writing -/

theorem State.commitWriter_calm {s : State} (e : EngineId) (r : RendRef) (c : Context) {w : Writer}
    (h : Memory.wf s.mem → Memory.wf w.mem) (o : Option HeldOutput) : s.Calm (s.commitWriter e r c w o) := by
  unfold State.commitWriter
  dsimp only
  refine Calm.trans (t := { s with mem := w.mem, frameMemory := { s.frameMemory with freeBlocks := w.freeBlocks } }) ?_
    ((State.modifyRendition_calm _ _ _).trans (State.setEngine_calm _ _ _))
  exact { Calm.refl s with memory := h }

theorem State.blockEngine_calm (s : State) (e : EngineId) (r : RendRef) : s.Calm (s.blockEngine e r) :=
  (s.modifyRendition_calm _ _).trans (State.setEngine_calm _ _ _)

theorem State.finishRendition_calm (s : State) (e : EngineId) (r : RendRef) : s.Calm (s.finishRendition e r) := by
  unfold State.finishRendition
  split
  · split
    · exact s.dropFromEngine_calm _ _ _
    · exact ((s.modifyRendition_calm _ _).trans (State.vacateEngine_calm _ _)).trans (State.settleRendered_calm _ _)
  · exact .refl s

theorem State.endWriting_calm {s : State} (e : EngineId) (r : RendRef) (w : Context × Option HeldOutput) (finishing : Bool)
    {x : Writer × WriteEnd} (h : Memory.wf s.mem → Memory.wf x.1.mem) :
    s.Calm (s.endWriting e r w finishing x).1 := by
  unfold State.endWriting
  dsimp only
  refine Calm.trans (State.commitWriter_calm e r w.1 h w.2) ?_
  split
  · split
    · exact State.finishRendition_calm _ _ _
    · exact .refl _
  · exact .refl _
  · exact State.dropFromEngine_calm _ e r .cancelled
  · exact State.dropFromEngine_calm _ e r .oversize
  · exact State.blockEngine_calm _ _ _

/-- A way of writing that keeps the form of frame memory. -/
theorem State.writeBy_calm {write : WriteRules → Writer → List Byte → Writer × WriteEnd × List Byte}
    (h : ∀ p w bytes, Memory.wf w.mem → Memory.wf (write p w bytes).1.mem) (s : State) (e : EngineId) (r : RendRef)
    (c : Context) (o : HeldOutput) : s.Calm (State.writeBy write s e r c o).1 := by
  unfold State.writeBy
  split
  · rename_i it q _ _
    exact State.endWriting_calm e r _ _ (h _ (s.writer q c) _)
  · exact .refl s

theorem State.writeEngine_calm (s : State) (e : EngineId) (r : RendRef) (c : Context) (o : HeldOutput) :
    s.Calm (s.writeEngine e r c o).1 := State.writeBy_calm (fun _ _ _ w => wf_writeOutput _ _ w _) s e r c o

/-! ### Strip boundaries -/

theorem State.pauseRendition_calm (s : State) (e : EngineId) (r : RendRef) (c : Context) :
    s.Calm (s.pauseRendition e r c) :=
  ((s.modifyRendition_calm _ _).trans (State.vacateEngine_calm _ _)).trans (State.enqueue_calm _ _)

theorem State.startFinish_calm (s : State) (e : EngineId) (r : RendRef) (c : Context) : s.Calm (s.startFinish e r c) :=
  s.writeEngine_calm _ _ _ _

theorem State.boundary_calm (s : State) (e : EngineId) : s.Calm (s.boundary e) := by
  unfold State.boundary
  split
  · split
    · dsimp only
      split
      · exact s.dropFromEngine_calm _ _ _
      · split
        · exact s.startFinish_calm _ _ _
        · split
          · exact .refl s
          · exact s.pauseRendition_calm _ _ _
    · exact .refl s
  · exact .refl s

theorem State.takeRendition_calm (s : State) (e : EngineId) (r : RendRef) : s.Calm (s.takeRendition e r) := by
  unfold State.takeRendition
  split
  · exact s.dequeue_calm r
  · exact (((s.dequeue_calm r).trans (State.modifyRendition_calm _ _ _)).trans (State.setEngine_calm _ _ _)).trans
      (State.boundary_calm _ _)

/-! ### Dispatch and yield requests -/

theorem dispatchFuel_calm (n : Nat) (s : State) : s.Calm (dispatchFuel n s) := by
  induction n generalizing s with
  | zero => exact .refl s
  | succ n ih =>
    unfold dispatchFuel
    split
    · exact (s.takeRendition_calm _ _).trans (ih _)
    · exact .refl s

theorem State.dispatch_calm (s : State) : s.Calm s.dispatch := dispatchFuel_calm _ s

theorem State.requestYield_calm (s : State) (r : RendRef) : s.Calm (s.requestYield r) := by
  unfold State.requestYield
  split
  · exact .refl s
  · split
    · split
      · exact .refl s
      · split
        · exact .refl s
        · exact s.setEngine_calm _ _
    · exact .refl s

theorem State.offerReady_calm (s : State) (r : RendRef) : s.Calm (s.offerReady r) :=
  s.dispatch_calm.trans (State.requestYield_calm _ r)

theorem State.wake_calm (s before : State) : s.Calm (s.wake before) := Calm.foldl State.offerReady_calm _ _

theorem State.boundaryYield_calm (s : State) (e : EngineId) : s.Calm (s.boundaryYield e) := by
  unfold State.boundaryYield
  split
  · split
    · split
      · exact s.boundary_calm e
      · split
        · split
          · exact ((s.pauseRendition_calm _ _ _).trans (State.takeRendition_calm _ _ _)).trans
              (State.offerReady_calm _ _)
          · exact (s.setEngine_calm _ _).trans (State.boundary_calm _ _)
        · exact (s.setEngine_calm _ _).trans (State.boundary_calm _ _)
    · exact .refl s
  · exact s.boundary_calm e

theorem State.endStrip_calm (s : State) (e : EngineId) : s.Calm (s.endStrip e) := by
  unfold State.endStrip
  split
  · exact .refl s
  · exact ((s.setEngine_calm _ _).trans (State.boundaryYield_calm _ _)).trans (State.dispatch_calm _)

theorem State.afterWriting_calm (e : EngineId) (x : State × WriteOutcome) : x.1.Calm (State.afterWriting e x) := by
  unfold State.afterWriting
  split
  · exact x.1.endStrip_calm e
  · exact x.1.dispatch_calm
  · exact .refl _

theorem State.readStrip_calm (s : State) (e : EngineId) (r : RendRef) (q : Rendition) (c : Context)
    (strip : ChainStrip) : s.Calm (s.readStrip e r q c strip) := by
  unfold State.readStrip
  split
  · exact (s.writeEngine_calm _ _ _ _).trans (State.afterWriting_calm _ _)
  · exact (s.dropFromEngine_calm _ _ _).trans (State.dispatch_calm _)

theorem State.stripRead_calm (s : State) (e : EngineId) : s.Calm (s.stripRead e) := by
  unfold State.stripRead
  split
  · split
    · split
      · exact s.readStrip_calm _ _ _ _ _
      · exact .refl s
    · exact .refl s
  · exact .refl s

theorem State.resumeOutput_calm (s : State) (e : EngineId) : s.Calm (s.resumeOutput e) := by
  unfold State.resumeOutput
  split
  · exact (State.writeBy_calm (fun _ _ _ w => wf_writeBurst _ w _) s _ _ _ _).trans (State.afterWriting_calm _ _)
  · exact .refl s

/-! ### Renditions placed, deadlines tested -/

theorem State.placeRenditions_calm (s : State) (k : Slot) (n : Nat) : s.Calm (s.placeRenditions k n) :=
  Calm.foldl (fun t _ => (t.enqueue_calm _).trans (State.offerReady_calm _ _)) _ _

theorem State.cancelDispatch_calm (s : State) (k : Slot) (c : CancelCause) : s.Calm (s.cancelItem k c).dispatch :=
  (s.cancelItem_calm k c).trans (State.dispatch_calm _)

theorem State.testAdvice_calm (s : State) (k : Slot) : s.Calm (s.testAdvice k) := by
  unfold State.testAdvice
  split
  · exact .refl s
  · exact .of_ite (s.cancelDispatch_calm _ _) (.refl s)

end Sys2Proof.Machine
end

