-- ==== Sys2Proof/Laws/Keeps.lean ====
section
/-! SUPPORT. The weaker relation Keeps, for the operations that change what entries are, and the operations of
classification, capture, the line writer and the Emitter that it holds for. -/

namespace Sys2Proof.Machine

open State (Calm)

/-! ### The choice of a frame -/

/-- A frame that is no report begun at a frame boundary: the reports held stay (R146). -/
theorem State.reportsHeld_begin {s : State} {f : ExchangeFrame} {e : Emitter} (h : s.emitter.frame = none)
    (hf : ∀ r, f ≠ .report r) (he : e.frame = some f) :
    ({ s with emitter := e } : State).reportsHeld = s.reportsHeld := by
  unfold State.reportsHeld
  simp only [he, h]
  cases f with
  | report r => exact absurd rfl (hf r)
  | _ => rfl

theorem State.beginCredit_calm {s : State} {f : ExchangeFrame} (h : s.emitter.frame = none) (hf : ∀ r, f ≠ .report r) :
    s.Calm (s.beginCredit f) :=
  { Calm.refl s with
    reports := .of_eq (State.reportsHeld_begin h hf rfl)
    credits := Nat.sub_le _ _ }

theorem State.continueRendition_calm {s : State} (h : s.emitter.frame = none) (r : RendRef) (n : Nat) (d : Bool) :
    s.Calm (s.continueRendition r n d) := by
  unfold State.continueRendition
  split
  · split
    · exact State.beginCredit_calm h fun _ => by simp
    · exact State.beginCredit_calm h fun _ => by simp
  · exact .refl s

theorem State.beginRendition_calm {s : State} (h : s.emitter.frame = none) (r : RendRef) :
    s.Calm (s.beginRendition r) := by
  unfold State.beginRendition
  split
  · dsimp only
    refine Calm.trans (Calm.modifyItem (k := r.slot) fun x _ => ?_)
      (Calm.trans (Calm.emitterLists _ _ _ _ _) (State.beginCredit_calm h fun _ => by simp))
    exact { Item.Later.refl x with emittedAny := fun _ => rfl }
  · exact .refl s

theorem State.beginSummary_calm {s : State} (h : s.emitter.frame = none) (k : Slot) : s.Calm (s.beginSummary k) := by
  unfold State.beginSummary
  split
  · exact .refl s
  · exact Calm.trans (Calm.emitterLists _ _ _ _ _) (State.beginCredit_calm h fun _ => by simp)

theorem State.beginNotice_calm {s : State} (h : s.emitter.frame = none) (k : Slot) : s.Calm (s.beginNotice k) := by
  unfold State.beginNotice
  split
  · exact .refl s
  · exact Calm.trans (Calm.emitterLists _ _ _ _ _) (State.beginCredit_calm h fun _ => by simp)

theorem State.beginFromLists_calm {s : State} (h : s.emitter.frame = none) : s.Calm s.beginFromLists := by
  unfold State.beginFromLists
  split
  · refine Calm.trans (Calm.emitterLists _ _ _ _ _) (State.beginSummary_calm ?_ _)
    exact h
  · refine Calm.trans (Calm.emitterLists _ _ _ _ _) (State.beginRendition_calm ?_ _)
    exact h
  · refine Calm.trans (Calm.emitterLists _ _ _ _ _) (State.beginNotice_calm ?_ _)
    exact h
  · exact .refl s

/-- The choice of the next frame (R146): the reports held stay, one of them beginning at most. -/
theorem State.chooseFrame_calm (s : State) : s.Calm s.chooseFrame := by
  unfold State.chooseFrame
  split
  · rename_i h
    split
    · rename_i r rest hr
      refine { Calm.refl s with reports := .of_eq ?_ }
      unfold State.reportsHeld State.beginFrame
      simp only [h.2, hr]
    · split
      · exact .refl s
      · split
        · exact State.continueRendition_calm h.2 _ _ _
        · exact State.beginFromLists_calm h.2
        · exact .refl s
  · exact .refl s

/-- What is composed is held whether or not it begins at once. -/
theorem State.reportsHeld_chooseFrame (s : State) : s.chooseFrame.reportsHeld = s.reportsHeld := by
  unfold State.chooseFrame
  split
  · rename_i h
    have hb : ∀ {f : ExchangeFrame} {t : State}, (∀ r, f ≠ .report r) → t.emitter.frame = none →
        (t.beginCredit f).reportsHeld = t.reportsHeld := fun hf ht => State.reportsHeld_begin ht hf rfl
    split
    · rename_i r rest hr
      unfold State.reportsHeld State.beginFrame
      simp only [h.2, hr]
    · split
      · rfl
      · split
        · unfold State.continueRendition
          split
          · split
            · exact hb (fun _ => by simp) h.2
            · exact hb (fun _ => by simp) h.2
          · rfl
        · unfold State.beginFromLists
          split
          · unfold State.beginSummary
            split
            · rfl
            · exact hb (fun _ => by simp) h.2
          · unfold State.beginRendition
            split
            · exact hb (fun _ => by simp) h.2
            · rfl
          · unfold State.beginNotice
            split
            · rfl
            · exact hb (fun _ => by simp) h.2
          · rfl
        · rfl
  · rfl

/-! ### Keeps -/

/-- No FIFO gains an entry. -/
def noLines : Camera → Nat := fun _ => 0

/-- The FIFO of one camera gains an entry at most. -/
def oneLine (cam : Camera) : Camera → Nat := fun c => if c = cam then 1 else 0

/-- `t` comes from `s` by an operation that adds no entry to the table, no slot to a pending list, adds at
most `k` entries to each FIFO and answers `d` requests; the links and
the bounds that held stay. -/
structure State.Keeps (k : Camera → Nat) (d : Nat) (s t : State) : Prop where
  pending : t.pending = s.pending
  links : t.links = s.links
  requests : t.mgmt.requests = s.mgmt.requests
  headWait : t.mgmt.headWait = s.mgmt.headWait
  reserved : t.mgmt.reserved = s.mgmt.reserved - d
  responses : d ≤ s.mgmt.reserved → t.responsesHeld ≤ s.responsesHeld
  events : s.eventsHeld ≤ Config.eventPlaces → t.eventsHeld ≤ Config.eventPlaces
  lists : ∀ cam, (t.channel cam).pendingList.length ≤ (s.channel cam).pendingList.length
  fifo : ∀ cam, (t.channel cam).fifo.length ≤ (s.channel cam).fifo.length + k cam
  advice : s.adviceOut.queue.length ≤ Config.adviceCapacity → t.adviceOut.queue.length ≤ Config.adviceCapacity
  credits : s.emitter.credits ≤ Config.creditLimit → t.emitter.credits ≤ Config.creditLimit
  items : (s.table.items.map Item.slot).Nodup → From Item.SameEntry t.table.items s.table.items
  memory : Memory.wf s.mem → Memory.wf t.mem

namespace State.Keeps

theorem refl (s : State) : s.Keeps noLines 0 s :=
  ⟨rfl, rfl, rfl, rfl, rfl, fun _ => le_refl _, id, fun _ => le_refl _, fun _ => le_refl _, id, id,
    fun _ => From.refl Item.SameEntry.refl _, id⟩

theorem trans {k k' : Camera → Nat} {d d' : Nat} {s t u : State} (h : s.Keeps k d t) (g : t.Keeps k' d' u) :
    s.Keeps (fun c => k c + k' c) (d + d') u where
  pending := g.pending.trans h.pending
  links := g.links.trans h.links
  requests := g.requests.trans h.requests
  headWait := g.headWait.trans h.headWait
  reserved := by rw [g.reserved, h.reserved]; omega
  responses := fun b => le_trans (g.responses (by rw [h.reserved]; omega)) (h.responses (by omega))
  events := fun b => g.events (h.events b)
  lists := fun c => le_trans (g.lists c) (h.lists c)
  fifo := fun c => by have := g.fifo c; have := h.fifo c; omega
  advice := fun b => g.advice (h.advice b)
  credits := fun b => g.credits (h.credits b)
  items := fun n =>
    have e := h.items n
    From.trans (R := Item.SameEntry) (fun a b => a.trans b) (g.items (e.slots_sublist.nodup n)) e
  memory := fun w => g.memory (h.memory w)

/-- Nothing added after something. -/
theorem then_ {k : Camera → Nat} {d : Nat} {s t u : State} (h : s.Keeps k d t) (g : t.Keeps noLines 0 u) :
    s.Keeps k d u := h.trans g

/-- Nothing added before something. -/
theorem after {k : Camera → Nat} {d : Nat} {s t u : State} (h : s.Keeps noLines 0 t) (g : t.Keeps k d u) :
    s.Keeps k d u := by
  have := h.trans g
  simpa [noLines] using this

theorem of_calm {s t : State} (h : s.Calm t) : s.Keeps noLines 0 t where
  pending := congrArg Bedrock.pending h.bedrock
  links := h.links
  requests := congrArg Bedrock.requests h.bedrock
  headWait := congrArg Bedrock.headWait h.bedrock
  reserved := congrArg Bedrock.reserved h.bedrock
  responses := fun _ => by
    have e : t.mgmt.reserved = s.mgmt.reserved := congrArg Bedrock.reserved h.bedrock
    obtain ⟨l, hl, he, -⟩ := h.reports
    unfold State.responsesHeld
    rw [e, hl, List.filter_append]
    have : l.filter Report.isResponse = [] := List.filter_eq_nil_iff.2 fun r hr => by
      have := he r hr
      cases r with
      | event e => simp [Report.isResponse]
      | response r => simp [Report.isEvent] at this
    rw [this, List.append_nil]
  events := h.reports.choose_spec.2.2.2
  lists := fun c => by cases c; exacts [h.pendingFront.length_le, h.pendingRear.length_le]
  fifo := fun c => by cases c; exacts [h.fifoFront.length_le, h.fifoRear.length_le]
  advice := h.advice.choose_spec.2.2
  credits := fun b => le_trans h.credits b
  items := fun n => (h.items n).mono fun r => r.sameEntry
  memory := h.memory

theorem more {k k' : Camera → Nat} {d : Nat} {s t : State} (h : s.Keeps k d t) (hk : ∀ c, k c ≤ k' c) :
    s.Keeps k' d t := { h with fifo := fun c => le_trans (h.fifo c) (Nat.add_le_add_left (hk c) _) }

theorem foldl {α : Type} {f : State → α → State} (h : ∀ (s : State) (a : α), s.Keeps noLines 0 (f s a)) (l : List α)
    (s : State) : s.Keeps noLines 0 (l.foldl f s) := by
  induction l generalizing s with
  | nil => exact refl s
  | cons a l ih => exact (h s a).then_ (ih (f s a))

theorem of_ite {k : Camera → Nat} {d : Nat} {s : State} {p : Prop} [Decidable p] {t u : State} (ht : s.Keeps k d t)
    (hu : s.Keeps k d u) : s.Keeps k d (if p then t else u) := by
  split
  · exact ht
  · exact hu

/-! ### The plain updates -/

/-- The entry in a slot changed, and found there as it was, slots being distinct. -/
theorem modifyFound {s : State} {k : Slot} {f : Item → Item}
    (h : (s.table.items.map Item.slot).Nodup → ∀ it, s.item? k = some it → (f it).SameEntry it) :
    s.Keeps noLines 0 (s.modifyItem k f) :=
  { refl s with
    items := fun n => From.map fun x hx => by
      split
      · rename_i e
        exact h n x (e ▸ State.item?_eq_of_mem n hx)
      · exact .refl x }

theorem modifyItem {s : State} {k : Slot} {f : Item → Item} (h : ∀ it, (f it).SameEntry it) :
    s.Keeps noLines 0 (s.modifyItem k f) := modifyFound fun _ it _ => h it

theorem modifySide {s : State} {k : Slot} {cam : Camera} {f : Side → Side} :
    s.Keeps noLines 0 (s.modifySide k cam f) :=
  modifyItem fun it => by cases cam <;> exact { Item.SameEntry.refl it with }

theorem counters (s : State) (f : Counters → Counters) : s.Keeps noLines 0 (s.modifyCounters f) := { refl s with }

/-- A channel changes, its pending list no longer, its FIFO gaining `n` entries at most. -/
theorem channel {s : State} {cam : Camera} {f : Channel → Channel} {n : Nat}
    (hp : ∀ c, (f c).pendingList.length ≤ c.pendingList.length) (hf : ∀ c, (f c).fifo.length ≤ c.fifo.length + n) :
    s.Keeps (fun c => if c = cam then n else 0) 0 (s.modifyChannel cam f) :=
  { refl s with
    lists := fun c => by
      cases cam <;> cases c <;> first | exact hp _ | exact le_refl _
    fifo := fun c => by
      cases cam <;> cases c <;> first | exact hf _ | exact le_refl _ }

/-- A channel changes, its lists no longer. -/
theorem channel0 {s : State} {cam : Camera} {f : Channel → Channel}
    (hp : ∀ c, (f c).pendingList.length ≤ c.pendingList.length) (hf : ∀ c, (f c).fifo.length ≤ c.fifo.length) :
    s.Keeps noLines 0 (s.modifyChannel cam f) :=
  (channel (n := 0) hp hf).more fun c => by split <;> exact le_refl _

theorem settle {k : Camera → Nat} {d : Nat} {s t : State} (h : s.Keeps k d t) : s.Keeps k d t.chooseFrame :=
  h.then_ (of_calm t.chooseFrame_calm)

end State.Keeps

end Sys2Proof.Machine
end

