-- ==== Sys2Proof/Laws/Capture.lean ====
section
/-! SUPPORT. Classification, the Capture Unit and the line writer: what each operation keeps. -/

namespace Sys2Proof.Machine

open State (Calm Keeps)

theorem Item.sameEntry_setSide (it : Item) (cam : Camera) (x : Side) : (it.setSide cam x).SameEntry it := by
  cases cam <;> exact { Item.SameEntry.refl it with }

/-! ### Classification -/

theorem State.classify_keeps (s : State) (it : Item) (p : Nat) (c : Classification) :
    s.Keeps noLines 0 (s.classify it p c) := by
  unfold State.classify
  dsimp only
  refine Keeps.then_ ?_ (Keeps.of_calm ((((State.placeRenditions_calm _ _ _).trans
    (State.evaluateItem_calm _ _)).trans (State.earlyRefeed_calm _ _)).trans (State.dispatch_calm _)))
  exact Keeps.modifyItem fun x => { Item.SameEntry.refl x with }

theorem State.classifyByDefault_keeps (s : State) (it : Item) : s.Keeps noLines 0 (s.classifyByDefault it) :=
  s.classify_keeps _ _ _

theorem State.classifyByCode_keeps (s : State) (it : Item) (c : CodeLine) :
    s.Keeps noLines 0 (s.classifyByCode it c) := by
  unfold State.classifyByCode
  dsimp only
  refine Keeps.then_ ?_ (Keeps.of_ite (State.classifyByDefault_keeps _ _) (State.classify_keeps _ _ _ _))
  exact Keeps.modifyItem fun x => { Item.SameEntry.refl x with }

theorem State.deliverCode_keeps (s : State) (tag : Half) (c : CodeLine) : s.Keeps noLines 0 (s.deliverCode tag c) := by
  unfold State.deliverCode
  split
  · exact Keeps.of_calm (s.composeEvent_calm _)
  · split
    · exact Keeps.of_calm (s.composeEvent_calm _)
    · split
      · exact s.classifyByCode_keeps _ _
      · split
        · exact Keeps.modifyItem fun x => { Item.SameEntry.refl x with }
        · exact Keeps.of_calm (s.composeEvent_calm _)

theorem State.countBadFrame_keeps (s : State) (k : Link) : s.Keeps noLines 0 (s.countBadFrame k) := by
  cases k
  · exact Keeps.counters s fun c => { c with badTrack := saturatingInc c.badTrack }
  · exact Keeps.counters s fun c => { c with badExchange := saturatingInc c.badExchange }

theorem State.codeFrame_keeps (s : State) (tag : Half) (b : CodeBlock) : s.Keeps noLines 0 (s.codeFrame tag b) := by
  unfold State.codeFrame
  split
  · exact s.countBadFrame_keeps _
  · exact s.deliverCode_keeps _ _

theorem State.testClassify_keeps (s : State) (k : Slot) : s.Keeps noLines 0 (s.testClassify k) := by
  unfold State.testClassify
  split
  · exact .refl s
  · exact .of_ite (s.classifyByDefault_keeps _) (.refl s)

/-! ### Windows and the reference position -/

theorem State.removeNotSeen_keeps (s : State) (cam : Camera) (it : Item) :
    s.Keeps noLines 0 (s.removeNotSeen cam it) := by
  unfold State.removeNotSeen
  dsimp only
  refine Keeps.then_ ?_ (Keeps.counters _ _)
  refine Keeps.then_ ?_ (Keeps.of_calm ((State.cancelDispatch_calm _ _ _).trans (State.composeEvent_calm _ _)))
  exact Keeps.channel0 (fun c => by simp) fun c => le_refl _

theorem State.removeOnePassed_keeps (s : State) (q : Position) : s.Keeps noLines 0 (s.removeOnePassed q) := by
  unfold State.removeOnePassed
  split
  · exact s.removeNotSeen_keeps _ _
  · exact .refl s

theorem removePassed_keeps (n : Nat) (s : State) (q : Position) : s.Keeps noLines 0 (removePassed n s q) := by
  induction n generalizing s with
  | zero => exact .refl s
  | succ n ih =>
    unfold removePassed
    split
    · exact (s.removeNotSeen_keeps _ _).then_ (ih _)
    · exact .refl s

theorem removePassedAt_keeps (n : Nat) (s : State) (cam : Camera) (p : Position) :
    s.Keeps noLines 0 (removePassedAt n s cam p) := by
  induction n generalizing s with
  | zero => exact .refl s
  | succ n ih =>
    unfold removePassedAt
    split
    · exact (s.removeNotSeen_keeps _ _).then_ (ih _)
    · exact .refl s

theorem State.advanceTests_keeps (s : State) (q : Position) : s.Keeps noLines 0 (s.advanceTests q) := by
  unfold State.advanceTests
  dsimp only
  exact ((removePassed_keeps _ s q).then_ (Keeps.foldl State.testClassify_keeps _ _)).then_
    (Keeps.foldl (fun t k => Keeps.of_calm (t.testAdvice_calm k)) _ _)

/-! ### Strips -/

/-- An eviction keeps what it leaves (R16). -/
theorem State.evict_keeps {s t : State} (h : s.evict = some t) : s.Keeps noLines 0 t := by
  unfold State.evict at h
  cases ho : s.oldestRetained with
  | none => simp [ho] at h
  | some it =>
    simp only [ho, Option.map_some, Option.some.injEq] at h
    subst h
    exact ((Keeps.counters s _).then_ (Keeps.of_calm (State.composeEvent_calm _ _))).then_
      (Keeps.of_calm (State.freeItem_calm _ _))

theorem State.takeStrip_keeps (s : State) (l : List Nat) :
    s.Keeps noLines 0 { s with frameMemory := { s.frameMemory with freeStrips := l } } := { Keeps.refl s with }

theorem State.grantStrip_keeps {s : State} {g : Nat × State} (h : s.grantStrip = some g) :
    s.Keeps noLines 0 g.2 := by
  unfold State.grantStrip at h
  dsimp only at h
  split at h
  · cases he : s.evict with
    | none => simp [he] at h
    | some t =>
      simp only [he, Option.bind_some] at h
      split at h
      · simp at h
      · simp only [Option.some.injEq] at h
        subst h
        exact (State.evict_keeps he).then_ (t.takeStrip_keeps _)
  · split at h
    · simp at h
    · simp only [Option.some.injEq] at h
      subst h
      exact s.takeStrip_keeps _

theorem State.ensureStrip_keeps {s t : State} {k : Slot} {cam : Camera} (h : s.ensureStrip k cam = some t) :
    s.Keeps noLines 0 t := by
  unfold State.ensureStrip at h
  split at h
  · simp at h
  · split at h
    · cases hg : s.grantStrip with
      | none => simp [hg] at h
      | some g =>
        simp only [hg, Option.map_some, Option.some.injEq] at h
        subst h
        exact (State.grantStrip_keeps hg).then_ Keeps.modifySide
    · simp only [Option.some.injEq] at h
      subst h
      exact .refl s

theorem State.checks_keeps (s : State) (l : List (Nat × Word)) :
    s.Keeps noLines 0 { s with frameMemory := { s.frameMemory with checks := l } } := { Keeps.refl s with }

theorem State.sealNext_keeps (s : State) (k : Slot) (cam : Camera) : s.Keeps noLines 0 (s.sealNext k cam) := by
  unfold State.sealNext
  split
  · exact .refl s
  · split
    · exact .refl s
    · dsimp only
      exact Keeps.then_ (s.checks_keeps _) Keeps.modifySide

/-! ### Taking lines -/

theorem State.recordLine_keeps (s : State) (k : Slot) (cam : Camera) (px : List Byte) :
    s.Keeps noLines 0 (s.recordLine k cam px) := by
  unfold State.recordLine
  dsimp only
  refine Keeps.then_ ?_ (Keeps.of_calm (State.wake_calm _ _))
  refine Keeps.then_ ?_ (Keeps.channel0 (fun c => le_refl _) fun c => le_refl _)
  exact Keeps.modifySide

theorem State.takeContent_keeps (s : State) (k : Slot) (cam : Camera) (px : List Byte) :
    s.Keeps noLines 0 (s.takeContent k cam px).1 := by
  unfold State.takeContent
  split
  · exact Keeps.of_calm (s.cancelDispatch_calm _ _)
  · rename_i t h
    exact (State.ensureStrip_keeps h).then_ (t.recordLine_keeps _ _ _)

theorem fillLines_keeps (n : Nat) (s : State) (k : Slot) (cam : Camera) (d : Nat) :
    s.Keeps noLines 0 (fillLines n s k cam d).1 := by
  induction n generalizing s d with
  | zero => exact .refl s
  | succ n ih =>
    unfold fillLines
    dsimp only
    split
    · exact (s.takeContent_keeps _ _ _).then_ (ih _ _)
    · exact s.takeContent_keeps _ _ _
    · exact s.takeContent_keeps _ _ _

theorem State.pushFifo_keeps (s : State) (cam : Camera) (f : FifoEntry) :
    s.Keeps (oneLine cam) 0 (s.pushFifo cam f) :=
  Keeps.channel (fun c => le_refl _) fun c => by simp

/-! ### The end of a side -/

theorem State.sealAtCompletion_keeps (s : State) (k : Slot) (cam : Camera) :
    s.Keeps noLines 0 (s.sealAtCompletion k cam) := by
  unfold State.sealAtCompletion
  split
  · exact .refl s
  · exact s.sealNext_keeps _ _

theorem State.enterProcessing_keeps (s : State) (k : Slot) : s.Keeps noLines 0 (s.enterProcessing k) := by
  unfold State.enterProcessing
  split
  · exact .refl s
  · split
    · dsimp only
      refine Keeps.then_ ?_ (Keeps.of_calm
        (((State.testAdvice_calm _ _).trans (State.evaluateItem_calm _ _)).trans (State.dispatch_calm _)))
      exact Keeps.modifyItem fun x => { Item.SameEntry.refl x with }
    · exact .refl s

theorem State.offerMoved_calm (s before : State) (k : Slot) : s.Calm (s.offerMoved before k) :=
  .of_ite (.refl s) (Calm.foldl State.requestYield_calm _ _)

theorem Item.sameEntry_setDeadline (v : RunSettings) (cam : Camera) (p : Position) (it : Item) :
    (it.setDeadline v cam p).SameEntry it := by
  cases cam <;> exact { Item.SameEntry.refl it with }

theorem State.completeSide_keeps (s : State) (k : Slot) (cam : Camera) (p : Position) (b : Bool) (n : ChannelState) :
    s.Keeps noLines 0 (s.completeSide k cam p b n) := by
  unfold State.completeSide
  split
  · exact .refl s
  · rename_i it _
    dsimp only
    have h1 : ∀ t : State, t.Keeps noLines 0 (t.modifyItem k fun x =>
        (x.setDeadline s.mgmt.settings cam p).setHeights (s.image it.set) cam) := fun t =>
      Keeps.modifyItem fun x =>
        { slot := (x.sameEntry_setDeadline _ cam p).slot
          announcedTag := (x.sameEntry_setDeadline _ cam p).announcedTag
          sequence := (x.sameEntry_setDeadline _ cam p).sequence
          tag := (x.sameEntry_setDeadline s.mgmt.settings cam p).tag }
    refine Keeps.then_ ?_ (State.enterProcessing_keeps _ _)
    refine Keeps.then_ ?_ (Keeps.of_ite (State.testClassify_keeps _ _) (.refl _))
    refine Keeps.then_ ?_ (Keeps.of_ite (Keeps.of_calm (State.offerMoved_calm _ _ _)) (.refl _))
    refine Keeps.then_ ?_ (Keeps.of_calm ((State.rankQueue_calm _).trans (State.wake_calm _ _)))
    refine Keeps.then_ ?_ (h1 _)
    refine Keeps.then_ ?_ (State.sealAtCompletion_keeps _ _ _)
    refine Keeps.then_ ?_ Keeps.modifySide
    exact Keeps.channel0 (fun c => le_refl _) fun c => le_refl _

/-! ### A line seen -/

theorem State.skipLine_keeps (s : State) (cam : Camera) (f : Bool) : s.Keeps noLines 0 (s.skipLine cam f) := by
  unfold State.skipLine
  split
  · exact .refl s
  · exact Keeps.channel0 (fun c => by split <;> exact le_refl _) fun c => by split <;> exact le_refl _

theorem State.Keeps.one {s t : State} (cam : Camera) (h : s.Keeps noLines 0 t) : s.Keeps (oneLine cam) 0 t :=
  h.more fun _ => Nat.zero_le _

theorem State.takeLine_keeps (s : State) (k : Slot) (cam : Camera) (p : Position) (px : List Byte) (a b : Nat) :
    s.Keeps (oneLine cam) 0 (s.takeLine k cam p px a b) := by
  unfold State.takeLine
  dsimp only
  have h := s.takeContent_keeps k cam px
  split
  · exact h.after (State.pushFifo_keeps _ _ _)
  · exact h.after ((State.pushFifo_keeps _ _ _).then_ (State.completeSide_keeps _ _ _ _ _ _))
  · exact h.one cam

theorem State.orphan_keeps (s : State) (cam : Camera) (p : Position) : s.Keeps noLines 0 (s.orphan cam p) := by
  unfold State.orphan
  dsimp only
  refine Keeps.then_ ?_ (Keeps.counters _ _)
  refine Keeps.then_ ?_ (Keeps.of_calm (State.composeEvent_calm _ _))
  exact Keeps.channel0 (fun c => le_refl _) fun c => le_refl _

theorem State.bindEdge_keeps (s : State) (cam : Camera) (it : Item) (p : Position) (px : List Byte) :
    s.Keeps (oneLine cam) 0 (s.bindEdge cam it p px) := by
  unfold State.bindEdge
  dsimp only
  refine Keeps.after ?_ (State.takeLine_keeps _ _ _ _ _ _ _)
  have h1 : s.Keeps noLines 0 (s.modifyChannel cam fun c =>
      { c with pendingList := c.pendingList.tail, state := .capture, bound := some it.slot }) :=
    Keeps.channel0 (fun c => by simp) fun c => le_refl _
  cases cam
  · refine Keeps.then_ ?_ (Keeps.modifyItem fun x => { Item.SameEntry.refl x with })
    exact h1.then_ Keeps.modifySide
  · exact h1.then_ Keeps.modifySide

theorem State.leadingEdge_keeps (s : State) (cam : Camera) (p : Position) (px : List Byte) :
    s.Keeps (oneLine cam) 0 (s.leadingEdge cam p px) := by
  unfold State.leadingEdge
  dsimp only
  refine Keeps.after (removePassedAt_keeps Config.pendingCapacity s cam p) ?_
  split
  · exact (State.orphan_keeps _ _ _).one cam
  · split
    · exact (State.orphan_keeps _ _ _).one cam
    · split
      · exact (State.orphan_keeps _ _ _).one cam
      · exact State.bindEdge_keeps _ _ _ _ _

theorem State.loseSide_keeps (s : State) (k : Slot) (cam : Camera) : s.Keeps noLines 0 (s.loseSide k cam) :=
  Keeps.modifySide.then_ (Keeps.of_calm (State.cancelDispatch_calm _ _ _))

theorem State.endOfGap_keeps (s : State) (k : Slot) (cam : Camera) (f : Bool) (p : Position) (px : List Byte)
    (a b : Nat) : s.Keeps (oneLine cam) 0 (s.endOfGap k cam f p px a b) := by
  unfold State.endOfGap
  split
  · exact s.takeLine_keeps _ _ _ _ _ _
  · dsimp only
    refine Keeps.then_ ?_ (State.completeSide_keeps _ _ _ _ _ _)
    exact Keeps.of_ite ((Keeps.refl s).one cam) (State.pushFifo_keeps _ _ _)

theorem State.captureLine_keeps (s : State) (k : Slot) (cam : Camera) (l : Position) (f : Bool) (p : Position)
    (px : List Byte) : s.Keeps (oneLine cam) 0 (s.captureLine k cam l f p px) := by
  unfold State.captureLine
  dsimp only
  split
  · exact ((s.loseSide_keeps _ _).then_ (State.skipLine_keeps _ _ _)).one cam
  · have hg : s.Keeps noLines 0 (if (p - l).toNat - 1 = 0 then s
        else s.modifySide k cam fun x => { x with gap := true }) := .of_ite (.refl s) Keeps.modifySide
    have h := hg.then_ (fillLines_keeps ((p - l).toNat - 1) _ k cam 0)
    split
    · exact h.after (State.endOfGap_keeps _ _ _ _ _ _ _ _)
    · exact (h.then_ (State.skipLine_keeps _ _ _)).one cam
    · exact h.after (((State.pushFifo_keeps _ _ _).then_ (State.completeSide_keeps _ _ _ _ _ _)).then_
        (State.skipLine_keeps _ _ _))

/-- A line seen adds at most one entry to its camera's FIFO (R29). -/
theorem State.seeLine_keeps (s : State) (cam : Camera) (f : Bool) (p : Position) (px : List Byte) :
    s.Keeps (oneLine cam) 0 (s.seeLine cam f p px) := by
  unfold State.seeLine
  dsimp only
  refine Keeps.then_ ?_ (Keeps.channel0 (fun c => le_refl _) fun c => le_refl _)
  split
  · exact s.captureLine_keeps _ _ _ _ _ _
  · exact Keeps.of_ite (s.leadingEdge_keeps _ _ _) ((Keeps.refl s).one cam)
  · exact (s.skipLine_keeps _ _).one cam

theorem State.dropLine_keeps (s : State) (cam : Camera) : s.Keeps noLines 0 (s.dropLine cam) := by
  cases cam
  · exact Keeps.counters s fun c => { c with droppedFront := saturatingInc c.droppedFront }
  · exact Keeps.counters s fun c => { c with droppedRear := saturatingInc c.droppedRear }

theorem State.offerLine_keeps (s : State) (cam : Camera) (f : Bool) (p : Position) (px : List Byte) :
    s.Keeps (oneLine cam) 0 (s.offerLine cam f p px) :=
  .of_ite ((s.dropLine_keeps cam).one cam) (s.seeLine_keeps _ _ _ _)

/-- A line offered leaves no FIFO above its capacity (R29). -/
theorem State.fifo_offerLine {s : State} (h : ∀ c, (s.channel c).fifo.length ≤ Config.fifoCapacity) (cam : Camera)
    (f : Bool) (p : Position) (px : List Byte) (c : Camera) :
    ((s.offerLine cam f p px).channel c).fifo.length ≤ Config.fifoCapacity := by
  unfold State.offerLine
  split
  · exact le_trans ((s.dropLine_keeps cam).fifo c) (h c)
  · have := (s.seeLine_keeps cam f p px).fifo c
    have := h c
    unfold oneLine at *
    split at * <;> first | omega | (subst_vars; omega)

/-- A good line as it is before it is offered: the port position, and a FRONT line's tests. -/
theorem State.beforeOffer_keeps (s : State) (cam : Camera) (p : Position) :
    s.Keeps noLines 0 (if cam = .front then
      ((s.modifyChannel cam fun c => { c with portPosition := some p }).rankQueue).advanceTests p
      else s.modifyChannel cam fun c => { c with portPosition := some p }) := by
  have h : s.Keeps noLines 0 (s.modifyChannel cam fun c => { c with portPosition := some p }) :=
    Keeps.channel0 (fun c => le_refl _) fun c => le_refl _
  exact .of_ite ((h.then_ (Keeps.of_calm (State.rankQueue_calm _))).then_ (State.advanceTests_keeps _ _)) h

theorem State.lineFrame_keeps (s : State) (a b : Byte) (p : Position) (px : List Byte) :
    ∃ cam, s.Keeps (oneLine cam) 0 (s.lineFrame a b p px) := by
  unfold State.lineFrame
  split
  · exact ⟨.front, (s.countBadFrame_keeps _).one _⟩
  · rename_i cam _
    refine ⟨cam, ?_⟩
    split
    · exact (s.countBadFrame_keeps _).one _
    · split
      · exact (Keeps.counters s _).one _
      · exact (s.beforeOffer_keeps cam p).after (State.offerLine_keeps _ _ _ _ _)

/-- A LINE frame leaves no FIFO above its capacity (R29). -/
theorem State.fifo_lineFrame {s : State} (h : ∀ c, (s.channel c).fifo.length ≤ Config.fifoCapacity) (a b : Byte)
    (p : Position) (px : List Byte) (c : Camera) :
    ((s.lineFrame a b p px).channel c).fifo.length ≤ Config.fifoCapacity := by
  unfold State.lineFrame
  split
  · exact le_trans ((s.countBadFrame_keeps _).fifo c) (h c)
  · rename_i cam _
    split
    · exact le_trans ((s.countBadFrame_keeps _).fifo c) (h c)
    · split
      · exact h c
      · exact State.fifo_offerLine (fun c => le_trans ((s.beforeOffer_keeps cam p).fifo c) (h c)) _ _ _ _ c

/-! ### The line writer -/

theorem State.writeBytes_keeps (s : State) (a : Nat) (l : List Byte) : s.Keeps noLines 0 (s.writeBytes a l) :=
  { Keeps.refl s with memory := fun w => Memory.wf_writeBytes w _ _ }

theorem State.writeLine_keeps (s : State) (k : Slot) (cam : Camera) (n : Nat) (px : List Byte) :
    s.Keeps noLines 0 (s.writeLine k cam n px) := by
  unfold State.writeLine
  split
  · exact .refl s
  · dsimp only
    split
    · exact .refl s
    · refine Keeps.then_ ?_ (Keeps.of_ite (State.sealNext_keeps _ _ _) (.refl _))
      refine Keeps.then_ ?_ (Keeps.channel0 (fun c => le_refl _) fun c => le_refl _)
      exact s.writeBytes_keeps _ _

theorem writeFills_keeps (n : Nat) (s : State) (k : Slot) (cam : Camera) (i : Nat) :
    s.Keeps noLines 0 (writeFills n s k cam i) := by
  induction n generalizing s i with
  | zero => exact .refl s
  | succ n ih => exact (s.writeLine_keeps _ _ _ _).then_ (ih _ _)

theorem State.writeEntry_keeps (s : State) (f : FifoEntry) : s.Keeps noLines 0 (s.writeEntry f) := by
  unfold State.writeEntry
  dsimp only
  split
  · exact writeFills_keeps _ _ _ _ _
  · exact (writeFills_keeps _ _ _ _ _).then_ (State.writeLine_keeps _ _ _ _ _)

theorem State.writeNext_keeps (s : State) (f : FifoEntry) : s.Keeps noLines 0 (s.writeNext f) := by
  unfold State.writeNext
  split
  · exact .refl s
  · exact s.writeLine_keeps _ _ _ _
  · exact s.writeLine_keeps _ _ _ _

/-- What is left of an entry takes its place at the head, or leaves it. -/
theorem FifoEntry.length_afterNext (f : FifoEntry) : f.afterNext.toList.length ≤ 1 := by
  cases f.afterNext <;> simp

/-- The head of a camera's FIFO gives way to what is left of it, after work that adds no line. -/
theorem State.Keeps.fifoHead {s t : State} (h : s.Keeps noLines 0 t) {cam : Camera} {f : FifoEntry}
    {rest l : List FifoEntry} (hf : (s.channel cam).fifo = f :: rest) (hl : l.length ≤ 1) :
    s.Keeps noLines 0 (t.modifyChannel cam fun c => { c with fifo := l ++ rest }) :=
  { h.then_ (Keeps.refl _) with
    lists := fun c => by
      by_cases e : c = cam
      · subst e; simpa using h.lists c
      · rw [State.channel_modifyChannel_of_ne _ _ e]; exact h.lists c
    fifo := fun c => by
      by_cases e : c = cam
      · subst e; rw [State.channel_modifyChannel, hf]; simp [noLines]; omega
      · rw [State.channel_modifyChannel_of_ne _ _ e]; exact h.fifo c }

/-- One burst of the line writer keeps what it leaves. -/
theorem State.lineBurst_keeps (s : State) (cam : Camera) : s.Keeps noLines 0 (s.lineBurst cam) := by
  unfold State.lineBurst
  split
  · exact .refl s
  · rename_i f rest hf
    exact ((s.writeNext_keeps f).fifoHead hf f.length_afterNext).then_ (Keeps.of_calm (State.wake_calm _ _))

/-- The line writer's work; the FIFO comes to hold what stood behind the entry written. -/
theorem State.lineWrite_keeps (s : State) (cam : Camera) : s.Keeps noLines 0 (s.lineWrite cam) := by
  unfold State.lineWrite
  split
  · exact .refl s
  · rename_i f rest hf
    exact ((s.writeEntry_keeps f).fifoHead (l := []) hf (Nat.zero_le _)).then_ (Keeps.of_calm (State.wake_calm _ _))

end Sys2Proof.Machine
end

