-- ==== Sys2Proof/Laws/Emission.lean ====
section
/-! SUPPORT. The ends of the Emitter's frames, CREDIT and the loss of the exchange link: what each operation keeps. -/

namespace Sys2Proof.Machine

open State (Calm Keeps)

/-! ### The end of a frame -/

theorem State.stopEmission_calm (s : State) (r : RendRef) : s.Calm (s.stopEmission r) :=
  ((s.dropEmitting_calm r).trans (State.serveReturned_calm _ _)).trans (State.completeCancel_calm _ _)

theorem State.endPart_calm (s : State) (r : RendRef) (n : Nat) : s.Calm (s.endPart r n) := by
  unfold State.endPart
  dsimp only
  exact .of_ite (s.stopEmission_calm r) (Calm.emitterLists s _ _ _ _)

/-- Blocks handed back and the work in hand put away. -/
theorem State.handBack_calm (s : State) (l : List Nat) :
    s.Calm { s with frameMemory := { s.frameMemory with freeBlocks := l }, emitter := { s.emitter with work := .idle } } :=
  { Calm.refl s with }

theorem State.endTrailer_calm (s : State) (r : RendRef) : s.Calm (s.endTrailer r) := by
  unfold State.endTrailer
  split
  · exact s.stopEmission_calm r
  · split
    · exact Calm.emitterLists s _ _ _ _
    · dsimp only
      refine Calm.trans ?_ (State.testSummary_calm _ _)
      refine Calm.trans ?_ (State.serveReturned_calm _ _)
      exact Calm.trans (s.modifyRendition_calm r fun q => { q with state := .emitted, chain := [], restart := false })
        (State.handBack_calm _ _)

theorem State.endNotice_calm (s : State) (k : Slot) : s.Calm (s.endNotice k) :=
  (Calm.emitterLists s .idle _ _ _).trans (State.freeItem_calm _ _)

theorem State.endSummary_keeps (s : State) (k : Slot) : s.Keeps noLines 0 (s.endSummary k) := by
  unfold State.endSummary
  dsimp only
  have h : s.Keeps noLines 0 { s with emitter := { s.emitter with work := .idle } } :=
    Keeps.of_calm (Calm.emitterLists s _ _ _ _)
  split
  · exact h
  · have g : ∀ t : State, t.Keeps noLines 0 (t.modifyItem k fun x =>
        { x with state := .retained, deferredCancel := none }) := fun t =>
      Keeps.modifyItem fun x => { Item.SameEntry.refl x with }
    split
    · exact h.then_ (g _)
    · exact (h.then_ (g _)).then_ (Keeps.of_calm (State.cancelDispatch_calm _ _ _))

theorem State.endOf_keeps (s : State) (f : ExchangeFrame) : s.Keeps noLines 0 (s.endOf f) := by
  unfold State.endOf
  split
  · exact Keeps.of_calm (Calm.emitterLists s _ _ _ _)
  · split
    · exact .of_ite (Keeps.of_calm (s.stopEmission_calm _)) (.refl s)
    · exact Keeps.of_calm (s.endPart_calm _ _)
    · exact Keeps.of_calm (s.endPart_calm _ _)
    · exact Keeps.of_calm (s.endTrailer_calm _)
    · exact Keeps.of_calm (s.endNotice_calm _)
    · exact s.endSummary_keeps _
    · exact .refl s

/-- The reports held once no frame is in progress are those that wait. -/
theorem State.reportsHeld_of_none {s : State} (h : s.emitter.frame = none) : s.reportsHeld = s.mgmt.reports := by
  unfold State.reportsHeld; rw [h]

/-- The reports that wait are among those held. -/
theorem State.reports_sublist_held (s : State) : s.mgmt.reports.Sublist s.reportsHeld := by
  unfold State.reportsHeld
  split
  · exact List.sublist_cons_self _ _
  · exact List.Sublist.refl _

/-- Reports held that lose some leave the places of those lost. -/
theorem State.Keeps.fewerReports {s t : State} (h : t.reportsHeld.Sublist s.reportsHeld)
    (hr : t.mgmt.reserved = s.mgmt.reserved) :
    t.responsesHeld ≤ s.responsesHeld ∧ (s.eventsHeld ≤ Config.eventPlaces → t.eventsHeld ≤ Config.eventPlaces) := by
  constructor
  · unfold State.responsesHeld
    rw [hr]
    exact Nat.add_le_add_left (h.filter _).length_le _
  · intro b
    exact le_trans (h.filter _).length_le b

/-- The frame in progress taken off. -/
theorem State.offFrame_keeps (s : State) : s.Keeps noLines 0 { s with emitter := { s.emitter with frame := none } } :=
  have h := State.Keeps.fewerReports (s := s) (t := { s with emitter := { s.emitter with frame := none } })
    (by rw [State.reportsHeld_of_none rfl]; exact s.reports_sublist_held) rfl
  { Keeps.refl s with responses := fun _ => h.1, events := h.2 }

theorem State.endFrame_keeps (s : State) : s.Keeps noLines 0 s.endFrame := by
  unfold State.endFrame
  split
  · exact .refl s
  · exact s.offFrame_keeps.then_ (State.endOf_keeps _ _)

/-! ### CREDIT and the loss of the link -/

theorem State.creditFrame_keeps (s : State) (g : Byte) : s.Keeps noLines 0 (s.creditFrame g) := by
  unfold State.creditFrame
  split
  · exact Keeps.counters s fun c => { c with badExchange := saturatingInc c.badExchange }
  · dsimp only
    have h : s.Keeps noLines 0
        { s with emitter := { s.emitter with credits := min (s.emitter.credits + g.toNat) Config.creditLimit } } :=
      { Keeps.refl s with credits := fun _ => Nat.min_le_right _ _ }
    exact .of_ite (h.then_ (Keeps.of_calm (State.composeEvent_calm _ _))) h

theorem State.loseRendition_calm (s : State) (r : RendRef) : s.Calm (s.loseRendition r) := by
  unfold State.loseRendition
  dsimp only
  exact .of_ite (s.stopEmission_calm r) ((s.modifyRendition_calm r _).trans (Calm.emitterLists _ _ _ _ _))

theorem State.loseWork_keeps (s : State) : s.Keeps noLines 0 s.loseWork := by
  unfold State.loseWork
  split
  · exact Keeps.of_calm (Calm.emitterLists s _ _ _ _)
  · split
    · exact .refl s
    · exact Keeps.of_calm (s.loseRendition_calm _)
    · exact Keeps.of_calm (s.endNotice_calm _)
    · exact s.endSummary_keeps _

/-- The exchange link DOWN in the link state alone. -/
def State.exchangeDown (s : State) : State :=
  { s with links := { s.links with exchange := { s.links.exchange with up := false } } }

theorem State.loseExchange_keeps (s : State) : s.exchangeDown.Keeps noLines 0 s.loseExchange := by
  unfold State.loseExchange
  refine Keeps.then_ ?_ (State.loseWork_keeps _)
  have h := State.Keeps.fewerReports (s := s.exchangeDown) (t := { s.exchangeDown with
      emitter := { s.emitter with credits := 0, frame := none }
      mgmt := { s.mgmt with reports := [] } })
    (by rw [State.reportsHeld_of_none rfl]; exact List.nil_sublist _) rfl
  exact { Keeps.refl s.exchangeDown with
    responses := fun _ => h.1, events := h.2, credits := fun _ => Nat.zero_le _ }

end Sys2Proof.Machine
end

