-- ==== Sys2Proof/Laws/Layouts.lean ====
section
/-! SUPPORT. Fields read back from the bytes that carry them: halves, words, lists of words, code line blocks. -/

namespace Sys2Proof.Machine

theorem halfOf_halfBytes (h : Half) : halfOf ((h >>> 8).setWidth 8) (h.setWidth 8) = h := by
  unfold halfOf
  ext i hi
  simp only [BitVec.getElem_append, BitVec.getElem_setWidth, BitVec.getLsbD_ushiftRight]
  by_cases h8 : i < 8
  · simp [h8, BitVec.getLsbD_eq_getElem hi]
  · have : 8 + (i - 8) = i := by omega
    simp [h8, this, BitVec.getLsbD_eq_getElem hi]

theorem wordOf_wordBytes (w : Word) : wordOf (wordByte w 0) (wordByte w 1) (wordByte w 2) (wordByte w 3) = w := by
  unfold wordOf wordByte
  ext i hi
  simp only [BitVec.getElem_append, BitVec.getElem_setWidth, BitVec.getLsbD_ushiftRight]
  by_cases h1 : i < 8
  · simp [h1, BitVec.getLsbD_eq_getElem hi]
  · by_cases h2 : i - 8 < 8
    · have : 8 + (i - 8) = i := by omega
      simp [h1, h2, this, BitVec.getLsbD_eq_getElem hi]
    · by_cases h3 : i - 8 - 8 < 8
      · have : 16 + (i - 8 - 8) = i := by omega
        simp [h1, h2, h3, this, BitVec.getLsbD_eq_getElem hi]
      · have : 24 + (i - 8 - 8 - 8) = i := by omega
        simp [h1, h2, h3, this, BitVec.getLsbD_eq_getElem hi]

theorem halfAt_halfBytes (h : Half) (rest : List Byte) : halfAt (halfBytes h ++ rest) 0 = h := halfOf_halfBytes h

theorem wordAt_wordBytes (w : Word) (rest : List Byte) : wordAt (wordBytes w ++ rest) 0 = w := wordOf_wordBytes w

@[simp] theorem halfBytes_length (h : Half) : (halfBytes h).length = 2 := rfl

@[simp] theorem wordBytes_length (w : Word) : (wordBytes w).length = 4 := rfl

theorem wordsOf_flatMap (ws : List Word) : wordsOf (ws.flatMap wordBytes) = ws := by
  induction ws with
  | nil => rfl
  | cons w ws ih =>
    rw [List.flatMap_cons]
    change wordsOf (wordByte w 0 :: wordByte w 1 :: wordByte w 2 :: wordByte w 3 :: ws.flatMap wordBytes) = w :: ws
    rw [wordsOf, ih, wordOf_wordBytes]

@[simp] theorem flatMap_wordBytes_length (ws : List Word) : (ws.flatMap wordBytes).length = 4 * ws.length := by
  induction ws with
  | nil => rfl
  | cons w ws ih => rw [List.flatMap_cons, List.length_append, ih, wordBytes_length, List.length_cons]; omega

/-- A count byte of at most 255 reads as the count. -/
theorem toNat_countByte {n : Nat} (h : n ≤ 255) : (BitVec.ofNat 8 n).toNat = n := by
  rw [BitVec.toNat_ofNat]; omega

/-- The counts of a well-formed code line block. -/
theorem CodeBlock.counts_of_wf {b : CodeBlock} (h : b.wf = true) :
    b.routing.length ≤ 255 ∧ b.account.length ≤ 255 ∧ b.serial.length ≤ 255 ∧ b.tcode.length ≤ 255
      ∧ b.amount.length ≤ 255 := by
  unfold CodeBlock.wf at h
  simp only [List.all_cons, List.all_nil, Bool.and_eq_true, decide_eq_true_eq] at h
  exact ⟨h.1.2.1, h.1.2.2.1, h.1.2.2.2.1, h.1.2.2.2.2.1, h.1.2.2.2.2.2.1⟩

/-- A code line block read back from its bytes. -/
theorem codeBlockOf_codeBlockBytes (tag : Half) {b : CodeBlock} (h : b.wf = true) :
    codeBlockOf (halfBytes tag ++ codeBlockBytes b) = b := by
  obtain ⟨h1, h2, h3, h4, h5⟩ := CodeBlock.counts_of_wf h
  unfold codeBlockOf codeBlockBytes halfBytes byteAt
  simp only [List.cons_append, List.nil_append, List.drop_succ_cons, List.drop_zero, List.getD_cons_succ,
    List.getD_cons_zero, Nat.add_zero, Nat.reduceAdd, toNat_countByte h1, toNat_countByte h2, toNat_countByte h3,
    toNat_countByte h4, toNat_countByte h5, List.drop_left, List.take_left, List.take_length]

end Sys2Proof.Machine
end

