-- ==== Sys2Proof/Laws/Modes.lean ====
section
/-! SUPPORT. Mode changes, activation, the steps of an ANNOUNCE, halts, the loss of the track link and the engine reset:
what each operation keeps. -/

namespace Sys2Proof.Machine

open State (Calm Keeps)

/-! ### Modes and sets -/

theorem State.changeMode_keeps (s : State) (m : Mode) (c : ModeCause) : s.Keeps noLines 0 (s.changeMode m c) := by
  unfold State.changeMode
  refine Keeps.then_ ?_ (Keeps.of_calm (State.composeEvent_calm _ _))
  exact { Keeps.refl s with }

/-- The Table Set Store replaced. -/
theorem State.store_keeps (s : State) (t : TableStore) : s.Keeps noLines 0 { s with sets := t } :=
  { Keeps.refl s with }

theorem State.modifyDir_keeps (s : State) (n : SetNo) (f : DirEntry → DirEntry) : s.Keeps noLines 0 (s.modifyDir n f) :=
  { Keeps.refl s with }

theorem State.applyActivation_keeps (s : State) (n : SetNo) : s.Keeps noLines 0 (s.applyActivation n) := by
  unfold State.applyActivation
  dsimp only
  refine Keeps.then_ ?_ (Keeps.of_calm (State.composeEvent_calm _ _))
  refine Keeps.then_ ?_ (State.store_keeps _ _)
  refine Keeps.then_ ?_ (State.modifyDir_keeps _ _ _)
  split
  · exact State.modifyDir_keeps _ _ _
  · exact .refl s

theorem State.applyPending_keeps (s : State) : s.Keeps noLines 0 s.applyPending := by
  unfold State.applyPending
  split
  · exact s.applyActivation_keeps _
  · exact .refl s

theorem State.batchFrame_keeps (s : State) (n : Half) : s.Keeps noLines 0 (s.batchFrame n) :=
  (s.store_keeps _).then_ (State.applyPending_keeps _)

/-! ### The steps of an ANNOUNCE -/

theorem State.refuseAnnounce_calm (s : State) (tag : Half) (c : AdviceCause) : s.Calm (s.refuseAnnounce tag c) :=
  s.composeAdvice_calm _

theorem State.supersede_keeps (s : State) (tag : Half) : s.Keeps noLines 0 (s.supersede tag) := by
  unfold State.supersede
  split
  · exact .refl s
  · refine Keeps.then_ ?_ (Keeps.of_calm (State.cancelDispatch_calm _ _ _))
    exact Keeps.modifyItem fun x => { Item.SameEntry.refl x with tag := Or.inr rfl }

/-! ### Halts -/

theorem State.jam_calm (s : State) (k : Slot) : s.Calm (s.jam k) := by
  unfold State.jam
  split
  · exact .refl s
  · exact .of_ite (s.cancelDispatch_calm _ _) (.refl s)

theorem Channel.halted_lists (c : Channel) :
    c.halted.pendingList.length ≤ c.pendingList.length ∧ c.halted.fifo.length ≤ c.fifo.length :=
  ⟨Nat.zero_le _, le_refl _⟩

theorem State.enterHalted_keeps (s : State) (c : ModeCause) : s.Keeps noLines 0 (s.enterHalted c) := by
  unfold State.enterHalted
  dsimp only
  have h : ∀ (t : State) (cam : Camera), t.Keeps noLines 0 (t.modifyChannel cam Channel.halted) := fun t cam =>
    Keeps.channel0 (fun c => c.halted_lists.1) fun c => c.halted_lists.2
  refine Keeps.then_ ?_ (h _ _)
  refine Keeps.then_ ?_ (h _ _)
  refine Keeps.then_ ?_ (Keeps.of_calm (Calm.foldl State.jam_calm _ _))
  exact s.changeMode_keeps _ _

theorem State.haltFrame_keeps (s : State) : s.Keeps noLines 0 s.haltFrame :=
  .of_ite (s.enterHalted_keeps _) (.refl s)

theorem State.resumeFrame_keeps (s : State) : s.Keeps noLines 0 s.resumeFrame :=
  .of_ite (s.changeMode_keeps _ _) (.refl s)

/-- The track link DOWN in the link state alone. -/
def State.trackDown (s : State) : State :=
  { s with links := { s.links with track := { s.links.track with up := false } } }

theorem State.loseTrack_keeps (s : State) : s.trackDown.Keeps noLines 0 s.loseTrack := by
  unfold State.loseTrack
  dsimp only
  have h : ∀ c : Counters, s.trackDown.Keeps noLines 0
      { s.trackDown with mgmt := { s.mgmt with counters := c }, adviceOut := { queue := [], leftover := none } } :=
    fun c => { Keeps.refl s.trackDown with advice := fun _ => Nat.zero_le _ }
  exact .of_ite ((h _).then_ (State.enterHalted_keeps _ _)) (h _)

/-! ### Engine reset -/

theorem State.engineReset_keeps (s : State) : s.Keeps noLines 0 s.engineReset := by
  unfold State.engineReset
  dsimp only
  have h : s.Keeps noLines 0 { s with
      table := { items := [], announceSeq := 0, rerenderSeq := 0 }
      capture := { front := s.capture.front.engineReset .front, rear := s.capture.rear.engineReset .rear }
      sets := s.sets.engineReset
      render := { queue := [], re0 := State.idleEngine, re1 := State.idleEngine, re2 := State.idleEngine }
      adviceOut := s.adviceOut.engineReset s.links.track.up
      emitter := s.emitter.engineReset
      frameMemory := s.frameMemory.engineReset } :=
    { Keeps.refl s with
      lists := fun c => by cases c <;> exact Nat.zero_le _
      fifo := fun c => by cases c <;> exact Nat.zero_le _
      advice := fun _ => Nat.zero_le _
      items := fun _ => .nil }
  exact (Keeps.of_ite h (h.then_ (State.changeMode_keeps _ _ _))).then_ (Keeps.counters _ _)

end Sys2Proof.Machine
end

