-- ==== Sys2Proof/Laws/Management.lean ====
section
/-! SUPPORT. The requests: what each keeps as it is taken, answered or left waiting. -/

namespace Sys2Proof.Machine

open State (Calm Keeps)

/-! ### Answers -/

/-- A RESPONSE to a request that holds a place keeps the places taken: the one reserved is filled or given up (R187). -/
theorem State.respond_keeps (s : State) (r : Response) : s.Keeps noLines 1 (s.respond r) := by
  have hh : (s.respond r).reportsHeld = s.reportsHeld ++ [.response r] ∨ (s.respond r).reportsHeld = s.reportsHeld := by
    unfold State.respond
    dsimp only
    split
    · exact Or.inl (State.reportsHeld_pushReport _ (.response r))
    · exact Or.inr rfl
  have hr : (s.respond r).mgmt.reserved = s.mgmt.reserved - 1 := by
    unfold State.respond; dsimp only; split <;> rfl
  exact {
    pending := State.respond_pending s r
    links := State.respond_links s r
    requests := by unfold State.respond; dsimp only; split <;> rfl
    headWait := by unfold State.respond; dsimp only; split <;> rfl
    reserved := hr
    responses := fun b => by
      unfold State.responsesHeld
      rw [hr]
      rcases hh with e | e
      · rw [e, List.filter_append, List.length_append]
        simp only [List.filter_cons, Report.isResponse, List.filter_nil, ite_true, List.length_singleton]
        omega
      · rw [e]; omega
    events := fun b => by
      unfold State.eventsHeld at *
      rcases hh with e | e
      · rw [e, List.filter_append]; simpa [List.filter_cons, Report.isEvent] using b
      · rw [e]; exact b
    lists := fun c => by rw [State.channel, State.respond_capture]; exact le_refl _
    fifo := fun c => by rw [State.channel, State.respond_capture]; exact Nat.le_add_right _ _
    advice := fun b => by rw [State.respond_adviceOut]; exact b
    credits := fun b => by rw [State.respond_emitter]; exact b
    items := fun _ => by rw [State.respond_table]; exact From.refl Item.SameEntry.refl _
    memory := fun w => by rw [State.respond_mem]; exact w }

theorem State.answer_keeps (s : State) (q : QueuedRequest) (c : ResponseCode) : s.Keeps noLines 1 (s.answer q c) :=
  s.respond_keeps _

theorem State.answerDone_keeps (s : State) (q : QueuedRequest) (l : List Byte) : s.Keeps noLines 1 (s.answerDone q l) :=
  s.respond_keeps _

theorem State.answerDetail_keeps (s : State) (q : QueuedRequest) (c : ResponseCode) (d : Byte) (l : Byte × Byte × Byte) :
    s.Keeps noLines 1 (s.answerDetail q c d l) := s.respond_keeps _

/-! ### Requests answered as they are taken -/

theorem State.takeRun_keeps (s : State) (q : QueuedRequest) : s.Keeps noLines 1 (s.takeRun q) :=
  .of_ite (s.answer_keeps q _) (.of_ite (s.answer_keeps q _) (.of_ite (s.answer_keeps q _)
    ((s.changeMode_keeps _ _).after (State.answer_keeps _ _ _))))

theorem State.takePark_keeps (s : State) (q : QueuedRequest) : s.Keeps noLines 1 (s.takePark q) :=
  .of_ite (s.answer_keeps q _) (.of_ite (s.answer_keeps q _)
    ((s.applyPending_keeps.then_ (State.changeMode_keeps _ _ _)).after (State.answer_keeps _ _ _)))

theorem State.takeSettings_keeps (s : State) (q : QueuedRequest) (v : RunSettings) :
    s.Keeps noLines 1 (s.takeSettings q v) := by
  unfold State.takeSettings
  split
  · exact s.answer_keeps q _
  · split
    · exact s.answerDetail_keeps q _ _ _
    · have h : s.Keeps noLines 0 { s with mgmt := { s.mgmt with settings := v } } := { Keeps.refl s with }
      exact .of_ite (s.answerDetail_keeps q _ _ _) (.of_ite (s.answer_keeps q _) (h.after (State.answer_keeps _ _ _)))

theorem State.takeRegions_keeps (s : State) (q : QueuedRequest) (v : RegionFields) :
    s.Keeps noLines 1 (s.takeRegions q v) := by
  unfold State.takeRegions
  split
  · exact s.answer_keeps q _
  · split
    · exact s.answer_keeps q _
    · dsimp only
      split
      · exact s.answerDetail_keeps q _ _ _
      · have h : s.Keeps noLines 0 (s.replaceMap (regionMapOf v)) := { Keeps.refl s with }
        exact h.after (State.answerDone_keeps _ _ _)

theorem State.takeLoadOpen_keeps (s : State) (q : QueuedRequest) (n : Byte) (d : Half) :
    s.Keeps noLines 1 (s.takeLoadOpen q n d) := by
  unfold State.takeLoadOpen
  split
  · exact s.answer_keeps q _
  · refine .of_ite (s.answer_keeps q _) (.of_ite (s.answer_keeps q _) (.of_ite (s.answer_keeps q _) ?_))
    dsimp only
    exact ((State.modifyDir_keeps _ _ _).then_ (State.store_keeps _ _)).after (State.answer_keeps _ _ _)

theorem State.failLoad_keeps (s : State) (q : QueuedRequest) (l : OpenLoad) (f : LoadFailure) :
    s.Keeps noLines 1 (s.failLoad q l f) :=
  ((State.modifyDir_keeps _ _ _).then_ (State.store_keeps _ _)).after (State.answerDetail_keeps _ _ _ _ _)

theorem State.writeLoad_keeps (s : State) (q : QueuedRequest) (o : Half) (w : List Word) :
    s.Keeps noLines 1 (s.writeLoad q o w) := by
  unfold State.writeLoad
  split
  · exact s.answer_keeps q _
  · dsimp only
    refine Keeps.after ?_ (State.answerDone_keeps _ _ _)
    refine Keeps.then_ ?_ (State.store_keeps _ _)
    exact { Keeps.refl s with memory := fun w => Memory.wf_writeBytes w _ _ }

theorem State.endValidation_keeps (s : State) (q : QueuedRequest) (c : Word) :
    s.Keeps noLines 1 (s.endValidation q c) := by
  unfold State.endValidation
  split
  · exact s.answer_keeps q _
  · split
    · exact s.failLoad_keeps q _ _
    · dsimp only
      refine Keeps.after ?_ (State.answerDone_keeps _ _ _)
      exact (State.modifyDir_keeps _ _ _).then_ (State.store_keeps _ _)

theorem State.takeLoadAbandon_keeps (s : State) (q : QueuedRequest) : s.Keeps noLines 1 (s.takeLoadAbandon q) := by
  unfold State.takeLoadAbandon
  split
  · exact s.answer_keeps q _
  · exact ((State.modifyDir_keeps _ _ _).then_ (State.store_keeps _ _)).after (State.answer_keeps _ _ _)

theorem State.takeActivate_keeps (s : State) (q : QueuedRequest) (n : Byte) :
    s.Keeps noLines 1 (s.takeActivate q n) := by
  unfold State.takeActivate
  split
  · exact s.answer_keeps q _
  · split
    · exact (s.store_keeps _).after (State.answer_keeps _ _ _)
    · exact .of_ite ((s.applyActivation_keeps _).after (State.answer_keeps _ _ _))
        ((s.store_keeps _).after (State.answer_keeps _ _ _))
    · exact s.answer_keeps q _

theorem State.takeErase_keeps (s : State) (q : QueuedRequest) (n : Byte) : s.Keeps noLines 1 (s.takeErase q n) := by
  unfold State.takeErase
  split
  · exact s.answer_keeps q _
  · exact .of_ite (s.answer_keeps q _) ((s.modifyDir_keeps _ _).after (State.answer_keeps _ _ _))

theorem State.takeRelease_keeps (s : State) (q : QueuedRequest) (tag : Half) (form : Byte) :
    s.Keeps noLines 1 (s.takeRelease q tag form) := by
  unfold State.takeRelease
  split
  · exact s.answer_keeps q _
  · split
    · exact s.answer_keeps q _
    · refine .of_ite (s.answer_keeps q _) ?_
      dsimp only
      exact (Keeps.of_calm (Calm.foldl State.freeItem_calm _ s)).after (State.answerDone_keeps _ _ _)

theorem State.takeWithdraw_keeps (s : State) (q : QueuedRequest) (tag : Half) :
    s.Keeps noLines 1 (s.takeWithdraw q tag) := by
  unfold State.takeWithdraw
  split
  · exact s.answer_keeps q _
  · exact (Keeps.of_calm (s.cancelDispatch_calm _ _)).after (State.answer_keeps _ _ _)

theorem State.mem_of_itemByTag? {s : State} {tag : Half} {it : Item} (h : s.itemByTag? tag = some it) :
    it ∈ s.table.items ∧ it.tag = some tag :=
  ⟨List.mem_of_find?_eq_some h, by simpa using List.find?_some h⟩

theorem State.sameEntry_rerendered (s : State) (it : Item) (n : SetNo) (p : Nat) :
    (s.rerenderedItem it n p).SameEntry it := by
  unfold State.rerenderedItem
  exact (Item.later_evaluate _ _).sameEntry.trans { Item.SameEntry.refl it with }

theorem State.rerender_keeps {s : State} {it : Item} (h : it ∈ s.table.items) (n : SetNo) (p : Nat) :
    s.Keeps noLines 0 (s.rerender it n p) := by
  unfold State.rerender
  dsimp only
  refine Keeps.then_ ?_ (Keeps.of_calm ((State.releaseBinding_calm _ _).trans (State.placeRenditions_calm _ _ _)))
  refine Keeps.then_ ?_ (State.modifyDir_keeps _ _ _)
  have h1 : s.Keeps noLines 0 (s.modifyItem it.slot fun _ => s.rerenderedItem it n p) :=
    Keeps.modifyFound fun nd x hx => by
      have := State.item?_eq_of_mem nd h
      rw [this] at hx
      obtain rfl := Option.some.inj hx
      exact s.sameEntry_rerendered _ n p
  exact h1.then_ { Keeps.refl _ with }

theorem State.takeRerender_keeps (s : State) (q : QueuedRequest) (tag : Half) (p : Byte) :
    s.Keeps noLines 1 (s.takeRerender q tag p) := by
  unfold State.takeRerender
  split
  · exact s.answer_keeps q _
  · split
    · exact s.answer_keeps q _
    · rename_i it h
      refine .of_ite (s.answer_keeps q _) (.of_ite (s.answer_keeps q _) ?_)
      split
      · exact s.answer_keeps q _
      · exact .of_ite ((State.rerender_keeps (State.mem_of_itemByTag? h).1 _ _).after (State.answerDone_keeps _ _ _))
          (s.answer_keeps q _)

/-! ### The head of the queue -/

/-- A request taken: answered, or left waiting with nothing answered (R186). -/
def State.Takes (s : State) (x : State × HeadWait) : Prop := s.Keeps noLines (if x.2 = .nothing then 1 else 0) x.1

theorem State.Takes.answered {s t : State} (h : s.Keeps noLines 1 t) : s.Takes (t, .nothing) := h

theorem State.Takes.waiting {s t : State} {w : HeadWait} (h : s.Keeps noLines 0 t) (hw : w ≠ .nothing) :
    s.Takes (t, w) := by
  unfold State.Takes; rw [if_neg hw]; exact h

theorem State.takeRequest_takes (s : State) (q : QueuedRequest) : s.Takes (s.takeRequest q) := by
  unfold State.takeRequest
  split
  · exact .answered (s.takeRun_keeps q)
  · exact .answered (s.takePark_keeps q)
  · exact .answered (s.takeSettings_keeps q _)
  · exact .answered (s.takeRegions_keeps q _)
  · exact .answered (s.takeLoadOpen_keeps q _ _)
  · unfold State.takeLoadData
    split
    · exact .answered (s.answer_keeps q _)
    · split
      · exact .answered (s.answer_keeps q _)
      · split
        · exact .answered (s.failLoad_keeps q _ _)
        · split
          · exact .answered (s.failLoad_keeps q _ _)
          · exact .waiting (.refl s) (by decide)
  · unfold State.takeLoadClose
    split
    · exact .answered (s.answer_keeps q _)
    · split
      · exact .answered (s.failLoad_keeps q _ _)
      · split
        · exact .answered (s.failLoad_keeps q _ _)
        · exact .waiting (.refl s) (by decide)
  · exact .answered (s.takeLoadAbandon_keeps q)
  · exact .answered (s.takeActivate_keeps q _)
  · exact .answered (s.takeErase_keeps q _)
  · exact .answered (s.takeRelease_keeps q _ _)
  · exact .answered (s.takeWithdraw_keeps q _)
  · exact .answered (s.takeRerender_keeps q _ _)
  · unfold State.takePeek
    split
    · exact .answered (s.answer_keeps q _)
    · split
      · exact .answered (s.answer_keeps q _)
      · exact .waiting (.refl s) (by decide)
  · unfold State.takePoke
    split
    · exact .answered (s.answer_keeps q _)
    · split
      · exact .answered (s.answer_keeps q _)
      · exact .waiting (.refl s) (by decide)
  · unfold State.takeResetEngine
    dsimp only
    split
    · exact .waiting s.engineReset_keeps (by decide)
    · exact .answered (s.engineReset_keeps.after (State.answer_keeps _ _ _))

/-- Requests taken leave the links as they are. -/
theorem takeRequests_links (n : Nat) (s : State) : (takeRequests n s).links = s.links := by
  induction n generalizing s with
  | zero => rfl
  | succ n ih =>
    unfold takeRequests
    split
    · rename_i q _ _ _
      dsimp only
      have h := (s.takeRequest_takes q).links
      split
      · rw [ih]; exact h
      · exact h
    · rfl

theorem State.headAnswered_links (s : State) : s.headAnswered.links = s.links := takeRequests_links _ _

theorem State.finishReset_links (s : State) : s.finishReset.links = s.links := by
  unfold State.finishReset
  split
  · rename_i q _ _ _
    split
    · rfl
    · rw [State.headAnswered_links]; exact (s.answer_keeps q _).links
  · rfl

end Sys2Proof.Machine
end

