-- ==== Sys2Proof/Laws/Queue.lean ====
section
/-! SUPPORT. Looking up entries, renditions and engines after a change, the urgency order, and when the operations of the
render queue do nothing. -/

namespace Sys2Proof.Machine

/-! ### Renditions looked up after a change -/

theorem Item.rendition?_modifyRendition (it : Item) (i : Nat) {f : Rendition → Rendition} (hf : ∀ q, (f q).index = q.index) :
    (it.modifyRendition i f).rendition? i = (it.rendition? i).map f := by
  unfold Item.rendition? Item.modifyRendition
  cases it.renditions with
  | none => rfl
  | some l =>
    change List.find? _ (l.map _) = Option.map f (List.find? _ l)
    induction l with
    | nil => rfl
    | cons a l ih =>
      rw [List.map_cons]
      by_cases e : a.index = i
      · rw [if_pos e, List.find?_cons_of_pos (by simp [hf, e]), List.find?_cons_of_pos (by simp [e])]; rfl
      · rw [if_neg e, List.find?_cons_of_neg (by simpa using e), List.find?_cons_of_neg (by simpa using e)]; exact ih

theorem Item.rendition?_modifyRendition_of_ne (it : Item) {i j : Nat} {f : Rendition → Rendition}
    (hf : ∀ q, (f q).index = q.index) (h : j ≠ i) : (it.modifyRendition i f).rendition? j = it.rendition? j := by
  unfold Item.rendition? Item.modifyRendition
  cases it.renditions with
  | none => rfl
  | some l =>
    change List.find? _ (l.map _) = List.find? _ l
    induction l with
    | nil => rfl
    | cons a l ih =>
      rw [List.map_cons]
      by_cases e : a.index = i
      · have hj : ¬ a.index = j := fun c => h (c.symm.trans e)
        rw [if_pos e, List.find?_cons_of_neg (by simpa [hf] using hj), List.find?_cons_of_neg (by simpa using hj)]; exact ih
      · rw [if_neg e]
        by_cases c : a.index = j
        · rw [List.find?_cons_of_pos (by simpa using c), List.find?_cons_of_pos (by simpa using c)]
        · rw [List.find?_cons_of_neg (by simpa using c), List.find?_cons_of_neg (by simpa using c)]; exact ih

theorem State.item?_modifyRendition (s : State) (r : RendRef) (f : Rendition → Rendition) :
    (s.modifyRendition r f).item? r.slot = (s.item? r.slot).map fun it => it.modifyRendition r.index f :=
  State.item?_modifyItem (f := fun it => it.modifyRendition r.index f) fun _ => rfl

theorem State.item?_modifyRendition_of_ne (s : State) {r : RendRef} {k : Slot} (f : Rendition → Rendition) (h : k ≠ r.slot) :
    (s.modifyRendition r f).item? k = s.item? k :=
  State.item?_modifyItem_of_ne (f := fun it => it.modifyRendition r.index f) (fun _ => rfl) h

theorem State.rendition?_modifyRendition (s : State) (r : RendRef) {f : Rendition → Rendition}
    (hf : ∀ q, (f q).index = q.index) : (s.modifyRendition r f).rendition? r = (s.rendition? r).map f := by
  unfold State.rendition?
  rw [State.item?_modifyRendition]
  cases s.item? r.slot with
  | none => rfl
  | some it => exact it.rendition?_modifyRendition r.index hf

theorem State.rendition?_modifyRendition_of_ne (s : State) {r u : RendRef} {f : Rendition → Rendition}
    (hf : ∀ q, (f q).index = q.index) (h : u ≠ r) : (s.modifyRendition r f).rendition? u = s.rendition? u := by
  unfold State.rendition?
  by_cases e : u.slot = r.slot
  · have hi : u.index ≠ r.index := fun c => h (by cases u; cases r; cases e; cases c; rfl)
    rw [e, State.item?_modifyRendition]
    cases s.item? r.slot with
    | none => rfl
    | some it => exact it.rendition?_modifyRendition_of_ne hf hi
  · rw [State.item?_modifyRendition_of_ne s f e]

/-! ### Engines -/

theorem State.engine_setEngine_of_ne (s : State) {e e' : EngineId} (x : Engine) (h : e' ≠ e) :
    (s.setEngine e x).engine e' = s.engine e' := by
  cases e <;> cases e' <;> first | rfl | exact absurd rfl h

theorem State.mem_engineIds (e : EngineId) : e ∈ engineIds := by cases e <;> decide

/-- No engine is IDLE. -/
theorem State.idleEngine?_none {s : State} (h : ∀ e, (s.engine e).state ≠ .idle) : s.idleEngine? = none :=
  List.find?_eq_none.2 fun e _ => by simpa using h e

/-- The engine that holds a rendition no other engine holds. -/
theorem State.engineOf?_of_unique {s : State} {e : EngineId} {r : RendRef}
    (h : ∀ e', (s.engine e').rendition = some r ↔ e' = e) : s.engineOf? r = some e := by
  unfold State.engineOf?
  cases hf : engineIds.find? fun e => (s.engine e).rendition == some r with
  | none => exact absurd ((h e).2 rfl) (by simpa using List.find?_eq_none.1 hf e (State.mem_engineIds e))
  | some e' => exact congrArg some ((h e').1 (by simpa using List.find?_some hf))

/-! ### The urgency order -/

theorem keyBefore_congr {p : Position} {a a' b b' : Item} (ha : a'.key = a.key) (ha' : a'.rerenderOrder = a.rerenderOrder)
    (hb : b'.key = b.key) (hb' : b'.rerenderOrder = b.rerenderOrder) : keyBefore p a' b' = keyBefore p a b := by
  unfold keyBefore; rw [ha, ha', hb, hb']

theorem keyEqual_congr {a a' b b' : Item} (ha : a'.key = a.key) (ha' : a'.rerenderOrder = a.rerenderOrder)
    (hb : b'.key = b.key) (hb' : b'.rerenderOrder = b.rerenderOrder) : keyEqual a' b' = keyEqual a b := by
  unfold keyEqual; rw [ha, ha', hb, hb']

/-- A change that keeps what the urgency order is measured by keeps the order (R88). -/
theorem State.moreUrgent_modifyItem {s : State} {k : Slot} {f : Item → Item}
    (h : ∀ x, (f x).slot = x.slot ∧ (f x).key = x.key ∧ (f x).rerenderOrder = x.rerenderOrder
      ∧ (f x).sequence = x.sequence) : (s.modifyItem k f).moreUrgent = s.moreUrgent := by
  have hi : ∀ j, (s.modifyItem k f).item? j = s.item? j
      ∨ ∃ x, s.item? j = some x ∧ (s.modifyItem k f).item? j = some (f x) := fun j => by
    by_cases e : j = k
    · subst e
      rw [State.item?_modifyItem fun x => (h x).1]
      cases s.item? j with
      | none => exact Or.inl rfl
      | some x => exact Or.inr ⟨x, rfl, rfl⟩
    · exact Or.inl (State.item?_modifyItem_of_ne (fun x => (h x).1) e)
  have hr : (s.modifyItem k f).reference = s.reference := rfl
  funext x y
  unfold State.moreUrgent
  rw [hr]
  rcases hi x.slot with e | ⟨a, e, e'⟩ <;> rcases hi y.slot with g | ⟨b, g, g'⟩
  · rw [e, g]
  · rw [e, g, g']
    cases s.item? x.slot with
    | none => rfl
    | some a =>
      dsimp only
      rw [keyBefore_congr rfl rfl (h b).2.1 (h b).2.2.1, keyEqual_congr rfl rfl (h b).2.1 (h b).2.2.1, (h b).2.2.2]
  · rw [e, e', g]
    cases s.item? y.slot with
    | none => rfl
    | some b =>
      dsimp only
      rw [keyBefore_congr (h a).2.1 (h a).2.2.1 rfl rfl, keyEqual_congr (h a).2.1 (h a).2.2.1 rfl rfl, (h a).2.2.2]
  · rw [e, e', g, g']
    dsimp only
    rw [keyBefore_congr (h a).2.1 (h a).2.2.1 (h b).2.1 (h b).2.2.1,
      keyEqual_congr (h a).2.1 (h a).2.2.1 (h b).2.1 (h b).2.2.1, (h a).2.2.2, (h b).2.2.2]

/-- Two states with the same entries and the same reference position order renditions alike. -/
theorem State.moreUrgent_congr {s t : State} (h : t.table.items = s.table.items) (hr : t.reference = s.reference) :
    t.moreUrgent = s.moreUrgent := by
  funext x y
  unfold State.moreUrgent State.item?
  rw [h, hr]

theorem insertUrgent_perm (b : RendRef → RendRef → Bool) (x : RendRef) (l : List RendRef) :
    (insertUrgent b x l).Perm (x :: l) := by
  induction l with
  | nil => exact .refl _
  | cons y l ih =>
    unfold insertUrgent
    split
    · exact .refl _
    · exact (ih.cons y).trans (.swap x y l)

/-- The order changes places only. -/
theorem sortUrgent_perm (b : RendRef → RendRef → Bool) (l : List RendRef) : (sortUrgent b l).Perm l := by
  induction l with
  | nil => exact .refl _
  | cons x l ih => exact (insertUrgent_perm b x _).trans (ih.cons x)

theorem mem_sortUrgent {b : RendRef → RendRef → Bool} {l : List RendRef} {x : RendRef} : x ∈ sortUrgent b l ↔ x ∈ l :=
  (sortUrgent_perm b l).mem_iff

/-- A rendition that ranks before all others stands first. -/
theorem sortUrgent_first {b : RendRef → RendRef → Bool} {l : List RendRef} {r : RendRef} (hr : r ∈ l)
    (h : ∀ x ∈ l, x ≠ r → b r x = true ∧ b x r = false) : (sortUrgent b l).head? = some r := by
  induction l with
  | nil => cases hr
  | cons a l ih =>
    change (insertUrgent b a (sortUrgent b l)).head? = some r
    by_cases e : a = r
    · subst e
      cases hs : sortUrgent b l with
      | nil => rfl
      | cons y ys =>
        unfold insertUrgent
        by_cases c : y = a
        · subst c
          split <;> rfl
        · have hy : y ∈ l := mem_sortUrgent.1 (by rw [hs]; exact List.mem_cons_self)
          rw [if_pos (h y (List.mem_cons_of_mem _ hy) c).1]; rfl
    · have hl : r ∈ l := (List.mem_cons.1 hr).resolve_left fun c => e c.symm
      have := ih hl fun x hx => h x (List.mem_cons_of_mem _ hx)
      cases hs : sortUrgent b l with
      | nil => rw [hs] at this; cases this
      | cons y ys =>
        rw [hs] at this
        obtain rfl : y = r := Option.some.inj this
        unfold insertUrgent
        rw [if_neg (by rw [(h a List.mem_cons_self e).2]; exact Bool.false_ne_true)]; rfl

/-- A rendition that ranks after all others stands last. -/
theorem sortUrgent_last {b : RendRef → RendRef → Bool} {l : List RendRef} {r : RendRef} (hr : r ∈ l)
    (h : ∀ x ∈ l, x ≠ r → b x r = true ∧ b r x = false) : (sortUrgent b l).getLast? = some r := by
  have put : ∀ (m : List RendRef), (∀ x ∈ m, x ≠ r → b r x = false) → (m.getLast? = some r ∨ r ∉ m) →
      (insertUrgent b r m).getLast? = some r := fun m hm hl => by
    induction m with
    | nil => rfl
    | cons y m ih =>
      unfold insertUrgent
      split
      · rename_i hb
        have hy : y = r := by
          by_contra c
          rw [hm y List.mem_cons_self c] at hb
          cases hb
        rcases hl with hl | hl
        · rw [List.getLast?_cons_cons]; exact hl
        · exact absurd (by rw [hy]; exact List.mem_cons_self) hl
      · have : insertUrgent b r m ≠ [] := fun c => by
          have := (insertUrgent_perm b r m).length_eq
          rw [c] at this; cases this
        rw [List.getLast?_cons]
        rw [ih (fun x hx => hm x (List.mem_cons_of_mem _ hx)) ?_]; rfl
        rcases hl with hl | hl
        · cases m with
          | nil => exact Or.inr (by simp)
          | cons z m => rw [List.getLast?_cons_cons] at hl; exact Or.inl hl
        · exact Or.inr fun c => hl (List.mem_cons_of_mem _ c)
  have pass : ∀ (m : List RendRef) (a : RendRef), b a r = true → m.getLast? = some r →
      (insertUrgent b a m).getLast? = some r := fun m a ha hl => by
    induction m with
    | nil => cases hl
    | cons y m ih =>
      unfold insertUrgent
      split
      · rw [List.getLast?_cons_cons]; exact hl
      · cases m with
        | nil =>
          obtain rfl : y = r := by simpa using hl
          rename_i c
          exact absurd ha c
        | cons z m =>
          rw [List.getLast?_cons_cons] at hl
          rw [List.getLast?_cons, ih hl]; rfl
  induction l with
  | nil => cases hr
  | cons a l ih =>
    change (insertUrgent b a (sortUrgent b l)).getLast? = some r
    have hl : r ∈ l → (sortUrgent b l).getLast? = some r := fun m => ih m fun x hx => h x (List.mem_cons_of_mem _ hx)
    by_cases e : a = r
    · subst e
      refine put _ (fun x hx c => (h x (List.mem_cons_of_mem _ (mem_sortUrgent.1 hx)) c).2) ?_
      by_cases m : a ∈ l
      · exact Or.inl (hl m)
      · exact Or.inr fun c => m (mem_sortUrgent.1 c)
    · exact pass _ a (h a List.mem_cons_self e).1 (hl ((List.mem_cons.1 hr).resolve_left fun c => e c.symm))

/-! ### When the operations of the queue do nothing -/

theorem State.rankQueue_of_nil {s : State} (h : s.render.queue = []) : s.rankQueue = s := by
  unfold State.rankQueue
  rw [h]
  change ({ s with render := { s.render with queue := [] } } : State) = s
  rw [← h]

/-- With no ready rendition there is no dispatch (R92). -/
theorem State.dispatch_of_unready {s : State} (h : s.readyQueue = []) : s.dispatch = s := by
  unfold State.dispatch
  cases s.render.queue.length with
  | zero => rfl
  | succ n =>
    unfold dispatchFuel
    rw [h]
    split
    · rename_i hc; cases hc
    · rfl

theorem State.dispatch_of_nil {s : State} (h : s.render.queue = []) : s.dispatch = s :=
  State.dispatch_of_unready (by unfold State.readyQueue; rw [h]; rfl)

/-- With no engine IDLE there is no dispatch (R92). -/
theorem State.dispatch_of_busy {s : State} (h : ∀ e, (s.engine e).state ≠ .idle) : s.dispatch = s := by
  unfold State.dispatch
  cases s.render.queue.length with
  | zero => rfl
  | succ n =>
    unfold dispatchFuel
    rw [State.idleEngine?_none h]

/-- A rendition that does not wait in the queue asks no engine to yield (R99). -/
theorem State.requestYield_of_absent {s : State} {r : RendRef} (h : r ∉ s.render.queue) : s.requestYield r = s := by
  unfold State.requestYield
  split
  · rfl
  · rw [if_neg fun c => h c.2.2.1]

theorem State.wake_of_nil {s : State} (before : State) (h : s.render.queue = []) : s.wake before = s := by
  unfold State.wake State.readyQueue
  rw [h]; rfl

theorem State.offerMoved_of_nil {s : State} (before : State) (k : Slot) (h : s.render.queue = []) :
    s.offerMoved before k = s := by
  unfold State.offerMoved State.readyQueue
  rw [h]
  split <;> rfl

/-- Where no engine is BLOCKED there is none to serve (R103). -/
theorem State.serveReturned_of_unblocked {s : State} (before : State) (h : ∀ e, (s.engine e).state ≠ .blocked) :
    s.serveReturned before = s := by
  have hb : s.blockedEngines = [] := by
    unfold State.blockedEngines
    have : (engineIds.filterMap fun e => if (s.engine e).state = .blocked then (s.engine e).rendition else none) = [] :=
      List.filterMap_eq_nil_iff.2 fun e _ => if_neg (h e)
    dsimp only
    rw [this]; rfl
  unfold State.serveReturned State.serveBlocked
  rw [hb]
  split <;> rfl

/-- Where no block has come back no engine is served (R103). -/
theorem State.serveReturned_of_le {s before : State}
    (h : s.frameMemory.freeBlocks.length ≤ before.frameMemory.freeBlocks.length) : s.serveReturned before = s :=
  if_neg (Nat.not_lt.2 h)

/-! ### Renditions placed while every engine is busy -/

/-- The engines as they were, but for their yield requests. -/
def SameWork (r t : Render) : Prop :=
  ∀ e, (t.engine e).state = (r.engine e).state ∧ (t.engine e).rendition = (r.engine e).rendition
    ∧ (t.engine e).work = (r.engine e).work

theorem SameWork.refl (r : Render) : SameWork r r := fun _ => ⟨rfl, rfl, rfl⟩

theorem SameWork.trans {r t u : Render} (h : SameWork r t) (g : SameWork t u) : SameWork r u := fun e =>
  ⟨(g e).1.trans (h e).1, (g e).2.1.trans (h e).2.1, (g e).2.2.trans (h e).2.2⟩

/-- A yield request sets one engine's mark and nothing else (R99). -/
theorem State.requestYield_shape (s : State) (r : RendRef) :
    ∃ d : Render, s.requestYield r = { s with render := d } ∧ d.queue = s.render.queue ∧ SameWork s.render d := by
  have same : ∃ d : Render, s = { s with render := d } ∧ d.queue = s.render.queue ∧ SameWork s.render d :=
    ⟨s.render, rfl, rfl, .refl _⟩
  unfold State.requestYield
  split
  · exact same
  · split
    · split
      · exact same
      · split
        · exact same
        · rename_i e _
          refine ⟨_, rfl, by cases e <;> rfl, fun e' => ?_⟩
          by_cases c : e' = e
          · subst c
            rw [Render.engine_setEngine]
            exact ⟨rfl, rfl, rfl⟩
          · have := State.engine_setEngine_of_ne s { s.engine e with yieldRequest := true } c
            exact ⟨congrArg Engine.state this, congrArg Engine.rendition this, congrArg Engine.work this⟩
    · exact same

/-- With no engine IDLE, records placed in the queue only wait there (R61, R62, R99). -/
theorem State.placeRenditions_busy {s : State} (h : ∀ e, (s.engine e).state ≠ .idle) (k : Slot) (n : Nat) :
    ∃ d : Render, s.placeRenditions k n = { s with render := d } ∧ SameWork s.render d
      ∧ ∀ r, r ∈ d.queue ↔ r ∈ s.render.queue ∨ r.slot = k ∧ r.index < n := by
  unfold State.placeRenditions
  induction n with
  | zero => exact ⟨s.render, rfl, .refl _, fun r => by simp⟩
  | succ n ih =>
    obtain ⟨d, hd, hw, hm⟩ := ih
    rw [List.range_succ, List.foldl_append, List.foldl_cons, List.foldl_nil, hd]
    have hb : ∀ e, ((State.enqueue { s with render := d } { slot := k, index := n }).engine e).state ≠ .idle := fun e => by
      have : ((State.enqueue { s with render := d } { slot := k, index := n }).engine e) = d.engine e := by cases e <;> rfl
      rw [this, (hw e).1]; exact h e
    unfold State.offerReady
    rw [State.dispatch_of_busy hb]
    obtain ⟨d', hd', hq', hw'⟩ := State.requestYield_shape (State.enqueue { s with render := d } { slot := k, index := n })
      { slot := k, index := n }
    rw [hd']
    refine ⟨d', rfl, hw.trans (SameWork.trans (fun e => ?_) hw'), fun r => ?_⟩
    · cases e <;> exact ⟨rfl, rfl, rfl⟩
    · rw [hq']
      change r ∈ sortUrgent _ (d.queue ++ [{ slot := k, index := n }]) ↔ _
      rw [mem_sortUrgent, List.mem_append, hm, List.mem_singleton]
      constructor
      · rintro ((c | c) | c)
        · exact Or.inl c
        · exact Or.inr ⟨c.1, by omega⟩
        · subst c; exact Or.inr ⟨rfl, by dsimp only; omega⟩
      · rintro (c | ⟨c, c'⟩)
        · exact Or.inl (Or.inl c)
        · by_cases e : r.index = n
          · right; cases r; cases c; cases e; rfl
          · exact Or.inl (Or.inr ⟨c, by omega⟩)
end Sys2Proof.Machine
end

