-- ==== Sys2Proof/Laws/Requests.lean ====
section
/-! SUPPORT. A request that finds the request queue empty: it is taken at once, and is answered or waits. -/

namespace Sys2Proof.Machine

open State (Keeps)

/-- The state in which a request that found the queue empty is taken. -/
def State.taking (s : State) (q : QueuedRequest) : State :=
  { s with mgmt := { s.mgmt with reserved := s.mgmt.reserved + 1, requests := [q] } }

theorem State.receive_up {s : State} {k : Link} (h : (s.links.link k).up = true) (f : State → State) :
    s.receive k f = (f s).chooseFrame := by
  unfold State.receive State.linkUp; rw [h]; rfl

theorem State.receive_down {s : State} {k : Link} (h : (s.links.link k).up = false) (f : State → State) :
    s.receive k f = s := by
  unfold State.receive State.linkUp; rw [h]; rfl

theorem State.request_eq {s : State} (h : s.Admits) (corr : Byte) {r : Request} (hf : requestFits r = true) :
    s.request corr r = (takeRequests 4 (s.taking { corr := corr, request := r })).chooseFrame := by
  unfold State.request
  rw [State.receive_up (k := .exchange) h.up]
  have hp : s.responsesHeld < Config.responsePlaces := h.place
  unfold State.admitRequest State.reservePlace
  rw [if_pos hp]
  simp only [hf, Bool.not_true, Bool.false_eq_true, if_false, h.requests, List.length_nil]
  rfl

/-- A request answered as it is taken: it leaves the queue, which is empty again. -/
theorem State.request_answered {s : State} (h : s.Admits) (corr : Byte) {r : Request} (hf : requestFits r = true)
    {u : State} (ht : (s.taking { corr := corr, request := r }).takeRequest { corr := corr, request := r } = (u, .nothing)) :
    s.request corr r = u.popRequest.chooseFrame := by
  have hk := State.takeRequest_takes (s.taking { corr := corr, request := r }) { corr := corr, request := r }
  rw [ht] at hk
  have hr : u.mgmt.requests = [{ corr := corr, request := r }] := hk.requests
  rw [State.request_eq h corr hf]
  congr 1
  unfold takeRequests
  have hw : (s.taking { corr := corr, request := r }).mgmt.headWait = .nothing := h.headWait
  have hq : (s.taking { corr := corr, request := r }).mgmt.requests = [{ corr := corr, request := r }] := rfl
  rw [hw, hq]
  simp only [ht, if_true]
  unfold takeRequests
  have : u.popRequest.mgmt.requests = [] := by
    change u.mgmt.requests.tail = []
    rw [hr]; rfl
  rw [this]
  have hn : u.popRequest.mgmt.headWait = .nothing := rfl
  rw [hn]

/-- A request left waiting at the head of the queue. -/
theorem State.request_waits {s : State} (h : s.Admits) (corr : Byte) {r : Request} (hf : requestFits r = true)
    {w : HeadWait} (hw : w ≠ .nothing)
    (ht : (s.taking { corr := corr, request := r }).takeRequest { corr := corr, request := r }
      = (s.taking { corr := corr, request := r }, w)) :
    s.request corr r = (s.withWaiting { corr := corr, request := r } w).chooseFrame := by
  rw [State.request_eq h corr hf]
  congr 1
  unfold takeRequests
  have hn : (s.taking { corr := corr, request := r }).mgmt.headWait = .nothing := h.headWait
  have hq : (s.taking { corr := corr, request := r }).mgmt.requests = [{ corr := corr, request := r }] := rfl
  rw [hn, hq]
  simp only [ht, if_neg hw]
  rfl

/-- The RESPONSE to the request being taken, once the request has left the queue. -/
theorem State.respond_taking {s u : State} (h : s.Admits) (r : Response) (hl : u.links = s.links)
    (hm : u.mgmt.reserved = s.mgmt.reserved + 1) (hq : u.mgmt.requests.length = 1) :
    (u.respond r).popRequest = State.withResponse { u with mgmt := { u.mgmt with
      reserved := s.mgmt.reserved, requests := [], headWait := .nothing } } r := by
  have hup : u.linkUp .exchange = true := by
    change (u.links.link .exchange).up = true
    rw [hl]; exact h.up
  unfold State.respond
  dsimp only
  have : ({ u with mgmt := { u.mgmt with reserved := u.mgmt.reserved - 1 } } : State).linkUp .exchange = true := hup
  rw [hup, if_pos rfl]
  unfold State.popRequest State.pushReport State.withResponse
  obtain ⟨q, e⟩ := List.length_eq_one_iff.1 hq
  simp [hm, e]

/-- A request that finds the queue empty and is answered as it is taken, after an effect that left the queue alone. -/
theorem State.request_respond {s u : State} (h : s.Admits) (corr : Byte) {r : Request} (hf : requestFits r = true)
    {x : Response}
    (ht : (s.taking { corr := corr, request := r }).takeRequest { corr := corr, request := r } = (u.respond x, .nothing))
    (hl : u.links = s.links) (hm : u.mgmt.reserved = s.mgmt.reserved + 1) (hq : u.mgmt.requests.length = 1) :
    s.request corr r = (State.withResponse { u with mgmt := { u.mgmt with
      reserved := s.mgmt.reserved, requests := [], headWait := .nothing } } x).chooseFrame := by
  rw [State.request_answered h corr hf ht, State.respond_taking h x hl hm hq]

/-- A request that finds the queue empty and is answered without an effect. -/
theorem State.request_refused {s : State} (h : s.Admits) (corr : Byte) {r : Request} (hf : requestFits r = true)
    {x : Response}
    (ht : (s.taking { corr := corr, request := r }).takeRequest { corr := corr, request := r }
      = ((s.taking { corr := corr, request := r }).respond x, .nothing)) :
    s.request corr r = (s.withResponse x).chooseFrame := by
  rw [State.request_respond h corr hf ht rfl rfl rfl]
  have h1 : ({ (s.taking { corr := corr, request := r }) with mgmt := { (s.taking { corr := corr, request := r }).mgmt with
      reserved := s.mgmt.reserved, requests := [], headWait := .nothing } } : State) = s := by
    change ({ s with mgmt := { s.mgmt with requests := [], headWait := .nothing } } : State) = s
    rw [← h.requests, ← h.headWait]
  rw [h1]

end Sys2Proof.Machine
end

