-- ==== Sys2Proof/Laws/Outcomes.lean ====
section
/-! SUPPORT. Outcomes the statements speak of: a good line with nothing due is handed to its channel as it is, a cancel
brings about what Cancels says, and an entry that becomes FREE leaves the table. -/

namespace Sys2Proof.Machine

open State (Calm Keeps)

/-! ### The choice of a frame -/

/-- What a choice can change: the Emitter, the reports waiting, and the renditions and emitted any of one entry
(R146). -/
theorem State.chooseFrame_shape (s : State) : ∃ (e : Emitter) (l : List Item) (m : List Report),
    s.chooseFrame = { s with emitter := e, table := { s.table with items := l }, mgmt := { s.mgmt with reports := m } } := by
  unfold State.chooseFrame
  split
  · split
    · exact ⟨_, _, _, rfl⟩
    · rename_i hr
      split
      · exact ⟨_, _, _, rfl⟩
      · split
        · unfold State.continueRendition
          split
          · split <;> exact ⟨_, _, _, rfl⟩
          · exact ⟨_, _, _, rfl⟩
        · unfold State.beginFromLists
          split
          · unfold State.beginSummary
            split <;> exact ⟨_, _, _, rfl⟩
          · unfold State.beginRendition
            split <;> exact ⟨_, _, _, rfl⟩
          · unfold State.beginNotice
            split <;> exact ⟨_, _, _, rfl⟩
          · exact ⟨_, _, _, rfl⟩
        · exact ⟨_, _, _, rfl⟩
  · exact ⟨_, _, _, rfl⟩

@[simp] theorem State.chooseFrame_links (s : State) : s.chooseFrame.links = s.links := by
  obtain ⟨_, _, _, h⟩ := s.chooseFrame_shape; rw [h]

@[simp] theorem State.chooseFrame_capture (s : State) : s.chooseFrame.capture = s.capture := by
  obtain ⟨_, _, _, h⟩ := s.chooseFrame_shape; rw [h]

@[simp] theorem State.chooseFrame_sets (s : State) : s.chooseFrame.sets = s.sets := by
  obtain ⟨_, _, _, h⟩ := s.chooseFrame_shape; rw [h]

@[simp] theorem State.chooseFrame_render (s : State) : s.chooseFrame.render = s.render := by
  obtain ⟨_, _, _, h⟩ := s.chooseFrame_shape; rw [h]

@[simp] theorem State.chooseFrame_adviceOut (s : State) : s.chooseFrame.adviceOut = s.adviceOut := by
  obtain ⟨_, _, _, h⟩ := s.chooseFrame_shape; rw [h]

@[simp] theorem State.chooseFrame_frameMemory (s : State) : s.chooseFrame.frameMemory = s.frameMemory := by
  obtain ⟨_, _, _, h⟩ := s.chooseFrame_shape; rw [h]

@[simp] theorem State.chooseFrame_mem (s : State) : s.chooseFrame.mem = s.mem := by
  obtain ⟨_, _, _, h⟩ := s.chooseFrame_shape; rw [h]

@[simp] theorem State.chooseFrame_mode (s : State) : s.chooseFrame.mgmt.mode = s.mgmt.mode := by
  obtain ⟨_, _, _, h⟩ := s.chooseFrame_shape; rw [h]

@[simp] theorem State.chooseFrame_settings (s : State) : s.chooseFrame.mgmt.settings = s.mgmt.settings := by
  obtain ⟨_, _, _, h⟩ := s.chooseFrame_shape; rw [h]

@[simp] theorem State.chooseFrame_requests (s : State) : s.chooseFrame.mgmt.requests = s.mgmt.requests := by
  obtain ⟨_, _, _, h⟩ := s.chooseFrame_shape; rw [h]

@[simp] theorem State.chooseFrame_headWait (s : State) : s.chooseFrame.mgmt.headWait = s.mgmt.headWait := by
  obtain ⟨_, _, _, h⟩ := s.chooseFrame_shape; rw [h]

@[simp] theorem State.chooseFrame_counters (s : State) : s.chooseFrame.mgmt.counters = s.mgmt.counters := by
  obtain ⟨_, _, _, h⟩ := s.chooseFrame_shape; rw [h]

/-- With a frame in progress there is no choice. -/
theorem State.chooseFrame_of_frame {s : State} (h : s.emitter.frame ≠ none) : s.chooseFrame = s := by
  unfold State.chooseFrame
  rw [if_neg fun x => h x.2]

/-- A waiting report is chosen first, and the table stays. -/
theorem State.chooseFrame_table_of_reports {s : State} (h : s.mgmt.reports ≠ []) : s.chooseFrame.table = s.table := by
  unfold State.chooseFrame
  split
  · split
    · rfl
    · exact absurd (by assumption) h
  · rfl

/-- An entry whose rendition becomes EMITTING (R148). -/
def Item.begun (i : Nat) (x : Item) : Item :=
  { x.modifyRendition i (fun q => { q with state := .emitting }) with emittedAny := true }

/-- What a choice makes of an entry: nothing, or the mark of a rendition begun (R146, R148). -/
theorem State.item?_chooseFrame {s : State} {k : Slot} {x : Item} (h : s.item? k = some x) :
    s.chooseFrame.item? k = some x ∨ ∃ i, s.chooseFrame.item? k = some (x.begun i) := by
  unfold State.chooseFrame
  split
  · split
    · exact Or.inl h
    · split
      · exact Or.inl h
      · split
        · unfold State.continueRendition
          split
          · split <;> exact Or.inl h
          · exact Or.inl h
        · unfold State.beginFromLists
          split
          · unfold State.beginSummary
            split <;> exact Or.inl h
          · rename_i r rest _ _
            unfold State.beginRendition
            split
            · change (s.modifyItem r.slot (Item.begun r.index)).item? k = _ ∨ ∃ i, (s.modifyItem r.slot (Item.begun r.index)).item? k = _
              by_cases e : k = r.slot
              · subst e
                rw [State.item?_modifyItem (f := Item.begun r.index) (fun _ => rfl), h]
                exact Or.inr ⟨r.index, rfl⟩
              · rw [State.item?_modifyItem_of_ne (f := Item.begun r.index) (fun _ => rfl) e]
                exact Or.inl h
            · exact Or.inl h
          · unfold State.beginNotice
            split <;> exact Or.inl h
          · exact Or.inl h
        · exact Or.inl h
  · exact Or.inl h

/-! ### Entries -/

/-- A change that keeps slots keeps their list. -/
theorem State.slots_modifyItem {s : State} {k : Slot} {f : Item → Item} (hf : ∀ x, (f x).slot = x.slot) :
    (s.modifyItem k f).table.items.map Item.slot = s.table.items.map Item.slot := by
  unfold State.modifyItem
  dsimp only
  rw [List.map_map]
  refine List.map_congr_left fun x _ => ?_
  rw [Function.comp_apply]
  split
  · exact hf x
  · rfl

/-- The entry in the changed slot comes from the one that stood there. -/
theorem State.mem_of_modifyItem {s : State} {k : Slot} {f : Item → Item} {x : Item}
    (h : x ∈ (s.modifyItem k f).table.items) (hs : x.slot = k) :
    ∃ y ∈ s.table.items, y.slot = k ∧ x = f y := by
  unfold State.modifyItem at h
  obtain ⟨y, hy, rfl⟩ := List.mem_map.1 h
  by_cases e : y.slot = k
  · exact ⟨y, hy, e, by rw [if_pos e]⟩
  · rw [if_neg e] at hs
    exact absurd hs e

/-- Two entries in one slot are one entry, slots being distinct. -/
theorem State.eq_of_slot {s : State} (hn : (s.table.items.map Item.slot).Nodup) {x y : Item} (hx : x ∈ s.table.items)
    (hy : y ∈ s.table.items) (h : x.slot = y.slot) : x = y := by
  have h1 := State.item?_eq_of_mem hn hx
  rw [h] at h1
  exact Option.some.inj (h1.symm.trans (State.item?_eq_of_mem hn hy))

/-- An entry that becomes FREE leaves the table (R14). -/
theorem State.table_freeItem {s : State} {k : Slot} {it : Item} (h : s.item? k = some it) :
    (s.freeItem k).table = { s.table with items := s.table.items.filter fun x => x.slot != k } := by
  unfold State.freeItem State.releaseBinding
  rw [h]
  dsimp only
  split
  · rw [composeEvent_table]; rfl
  · rfl

/-- Its strips join the tail of the free strip list, front chain first (R14). -/
theorem State.frameMemory_freeItem {s : State} {k : Slot} {it : Item} (h : s.item? k = some it) :
    (s.freeItem k).frameMemory = { s.frameMemory with freeStrips := s.frameMemory.freeStrips ++ it.strips } := by
  unfold State.freeItem State.releaseBinding
  rw [h]
  dsimp only
  split
  · rw [composeEvent_frameMemory]; rfl
  · rfl

/-- The entry a classification leaves, by the time the command has ended (R50, R54). -/
theorem State.entry_classify {s : State} {it x : Item} {p : Nat} {c : Classification}
    (hn : (s.table.items.map Item.slot).Nodup) (hx : x ∈ (s.classify it p c).chooseFrame.table.items)
    (hs : x.slot = it.slot) :
    ∃ y ∈ s.table.items, y.slot = it.slot ∧ x.classification = c ∧ x.profile = some p ∧ x.codeLine = y.codeLine
      ∧ x.lateCode = y.lateCode := by
  unfold State.classify at hx
  dsimp only at hx
  have hc := fun u : State => (((State.placeRenditions_calm u it.slot (newRenditions (s.image it.set) s.lineWidth it p).length).trans
    (State.evaluateItem_calm _ it.slot)).trans (State.earlyRefeed_calm _ it.slot)).trans
    ((State.dispatch_calm _).trans (State.chooseFrame_calm _))
  obtain ⟨y, hy, hl⟩ := ((hc _).items (Eq.mpr (congrArg List.Nodup (State.slots_modifyItem (by intro; rfl))) hn)).mem hx
  obtain ⟨z, hz, hzs, rfl⟩ := State.mem_of_modifyItem hy ((congrArg ItemName.slot hl.name).symm.trans hs)
  exact ⟨z, hz, hzs, congrArg ItemName.classification hl.name, congrArg ItemName.profile hl.name,
    congrArg ItemName.codeLine hl.name, congrArg ItemName.lateCode hl.name⟩

/-- The flags after an evaluation are those the statements speak of (R127, R128). -/
theorem State.gradedBy_union (img : Image) (p : Nat) (front rear : Side) (before : QualityFlags) :
    State.GradedBy img p front rear before (before.union (evaluationFlags img p front rear)) := by
  constructor <;> simp [QualityFlags.union, evaluationFlags, QualityFlags.empty]
  cases before.mismatch <;> simp; omega

/-! ### Lines -/

theorem cameraOf_cameraCode (cam : Camera) : cameraOf (cameraCode cam) = some cam := by cases cam <;> rfl

theorem State.passedHead_of_due {s : State} {p : Position} (h : s.NothingDue p) (cam : Camera) :
    s.passedHead? cam p = none := by
  unfold State.passedHead? State.headItem?
  cases hk : (s.channel cam).pendingList.head? with
  | none => rfl
  | some k =>
    cases hi : s.item? k with
    | none => simp [hi]
    | some it =>
      have := h.windows cam k it hk hi
      simp [hi, State.windowPassed, this]

/-- No test of an advance of the reference position falls due (R27). -/
theorem State.advanceTests_of_due {s : State} {p : Position} (h : s.NothingDue p) (hr : s.reference = some p) :
    s.advanceTests p = s := by
  have h1 : ∀ n, removePassed n s p = s := fun n => by
    cases n with
    | zero => rfl
    | succ n =>
      unfold removePassed State.firstPassed?
      rw [State.passedHead_of_due h, State.passedHead_of_due h]
  have h2 : ∀ k, s.testClassify k = s := fun k => by
    unfold State.testClassify
    split
    · rfl
    · rename_i it hi
      have hm := (State.mem_of_item? hi).1
      rw [if_neg]
      unfold State.classifyDeadlineReached
      rw [hr]
      cases hd : it.classifyDeadline with
      | none => simp
      | some d =>
        by_cases hc : it.classification = .unclassified
        · by_cases hs : it.state = .cancelling
          · simp [hs]
          · simp [h.classify it hm hc hs d hd]
        · simp [hc]
  have h3 : ∀ k, s.testAdvice k = s := fun k => by
    unfold State.testAdvice
    split
    · rfl
    · rename_i it hi
      have hm := (State.mem_of_item? hi).1
      rw [if_neg]
      unfold State.adviceDeadlineReached
      rw [hr]
      cases hd : it.adviceDeadline with
      | none => simp
      | some d =>
        by_cases hg : it.generation = 0
        · by_cases hs : it.state = .processing
          · by_cases ha : it.advice = none
            · simp [h.advice it hm hg hs ha d hd]
            · simp [ha]
          · simp [hs]
        · simp [hg]
  have hfold : ∀ (f : State → Slot → State), (∀ k, f s k = s) → ∀ l : List Slot, l.foldl f s = s := fun f hf l => by
    induction l with
    | nil => rfl
    | cons a l ih => rw [List.foldl_cons, hf, ih]
  unfold State.advanceTests
  dsimp only
  rw [h1, hfold _ h2, hfold _ h3]

/-- A good line with nothing due, offered to its channel (R26, R27, R29). -/
theorem State.goodLine_due {s : State} {cam : Camera} {p : Position} {px : List Byte} (h : s.GoodLine cam p px)
    (flag : Bool) :
    s.goodLine cam flag p px
      = (s.modifyChannel cam fun c => { c with portPosition := some p }).offerLine cam flag p px := by
  unfold State.goodLine
  dsimp only
  split
  · rename_i hc
    subst hc
    have hd : (s.modifyChannel .front fun c => { c with portPosition := some p }).NothingDue p :=
      { queue := h.due.queue
        windows := fun c k it hk hi => h.due.windows c k it (by cases c <;> exact hk) hi
        classify := h.due.classify
        advice := h.due.advice }
    rw [State.rankQueue_of_nil (s := s.modifyChannel .front _) h.due.queue, State.advanceTests_of_due hd rfl]
  · rfl

/-- The LINE command of a good line with nothing due and room in its FIFO (R26 to R29). -/
theorem State.exec_line {s : State} {cam : Camera} {p : Position} {px : List Byte} (h : s.GoodLine cam p px)
    (hf : (s.channel cam).fifo.length < 16) (doc : Byte) :
    s.lineFrame (cameraCode cam) doc p px
      = (s.modifyChannel cam fun c => { c with portPosition := some p }).seeLine cam (doc != 0) p px := by
  have hw : ¬ px.length ≠ s.lineWidth := fun hn => hn h.width
  have hp : ((s.channel cam).portPosition.any fun q => !Machine.past p q) = false := by
    cases hq : (s.channel cam).portPosition with
    | none => rfl
    | some q => simp [h.past q hq]
  have hfull : ¬ Config.fifoCapacity ≤ ((s.modifyChannel cam fun c => { c with portPosition := some p }).channel cam).fifo.length := by
    rw [State.channel_modifyChannel]
    exact Nat.not_le.2 hf
  unfold State.lineFrame
  rw [cameraOf_cameraCode]
  dsimp only
  rw [if_neg hw, hp, if_neg Bool.false_ne_true, State.goodLine_due h]
  unfold State.offerLine
  rw [if_neg hfull]

/-! ### Cancels -/

/-- Internal work after a cancel leaves what the cancel brought about. -/
theorem State.Cancels.calm {s t u : State} {it : Item} {c : CancelCause} {a : AdviceCause} (h : s.Cancels t it c a)
    (hn : (t.table.items.map Item.slot).Nodup) (g : t.Calm u) : s.Cancels u it c a where
  entry := fun x hx hs => by
    obtain ⟨y, hy, hl⟩ := (g.items hn).mem hx
    have e := h.entry y hy ((congrArg ItemName.slot hl.name).symm.trans hs)
    have := hl.cause e.1
    exact ⟨this.1, this.2.trans e.2⟩
  lists := fun cam hm => h.lists cam (by cases cam; exacts [g.pendingFront.subset hm, g.pendingRear.subset hm])
  lines := fun cam f hf => h.lines cam f (by cases cam; exacts [g.fifoFront.subset hf, g.fifoRear.subset hf])
  advice := fun hg ha hr => by
    obtain ⟨l, hl⟩ := h.advice hg ha hr
    obtain ⟨m, hm, -⟩ := g.advice
    exact ⟨l ++ m, by rw [hm, hl]; simp⟩

/-- A later change that touches none of what a cancel brings about. -/
theorem State.Cancels.congr {s t u : State} {it : Item} {c : CancelCause} {a : AdviceCause} (h : s.Cancels t it c a)
    (ht : u.table.items = t.table.items) (hc : u.capture = t.capture) (ha : u.adviceOut = t.adviceOut) :
    s.Cancels u it c a where
  entry := fun x hx hs => h.entry x (ht ▸ hx) hs
  lists := fun cam hm => h.lists cam (by unfold State.channel at hm ⊢; rwa [hc] at hm)
  lines := fun cam f hf => h.lines cam f (by unfold State.channel at hf ⊢; rwa [hc] at hf)
  advice := fun hg hn hr => by rw [ha]; exact h.advice hg hn hr

/-- What a cancelled item's capture leaves of a channel's lists (R44). -/
theorem State.pendingList_stopCapture (s : State) (k : Slot) (cam : Camera) :
    ((s.stopCapture k).channel cam).pendingList = (s.channel cam).pendingList.filter (· != k) := by
  have h : ∀ c : Channel, (if ({ c with pendingList := c.pendingList.filter (· != k) } : Channel).bound = some k then
      { ({ c with pendingList := c.pendingList.filter (· != k) } : Channel) with state := .skip, bound := none }
      else { c with pendingList := c.pendingList.filter (· != k) }).pendingList = c.pendingList.filter (· != k) := fun c => by
    split <;> rfl
  cases cam
  · exact h s.capture.front
  · exact h s.capture.rear

theorem State.fifo_stopCapture (s : State) (k : Slot) (cam : Camera) :
    ((s.stopCapture k).channel cam).fifo = (s.channel cam).fifo.filter fun f => f.slot != k := by
  have h : ∀ c : Channel, (if ({ c with pendingList := c.pendingList.filter (· != k) } : Channel).bound = some k then
      { ({ c with pendingList := c.pendingList.filter (· != k) } : Channel) with state := .skip, bound := none }
      else { c with pendingList := c.pendingList.filter (· != k) }).fifo = c.fifo := fun c => by
    split <;> rfl
  cases cam
  · exact congrArg (List.filter fun f => f.slot != k) (h s.capture.front)
  · exact congrArg (List.filter fun f => f.slot != k) (h s.capture.rear)

/-- The cancel of an item that can be cancelled at once (R11). -/
theorem State.cancelItem_cancels {s : State} {it : Item} (h : s.Cancellable it) (c : CancelCause) :
    s.Cancels (s.cancelItem it.slot c) it c (adviceCauseOf c)
      ∧ ((s.cancelItem it.slot c).table.items.map Item.slot).Nodup := by
  have hcalm : s.Calm (s.cancelItem it.slot c) := State.cancelItem_calm s it.slot c
  refine ⟨?_, (((hcalm.items h.distinct).mono fun r => r.sameEntry).slots_sublist).nodup h.distinct⟩
  unfold State.cancelItem
  rw [h.found]
  dsimp only
  rw [if_neg h.state, if_neg (fun x => h.summary x.1)]
  unfold State.cancelNow
  dsimp only
  have hslots : ((s.modifyItem it.slot (Item.markCancelled c)).table.items.map Item.slot) = s.table.items.map Item.slot := by
    unfold State.modifyItem
    dsimp only
    rw [List.map_map]
    refine List.map_congr_left fun x _ => ?_
    rw [Function.comp_apply]
    split <;> rfl
  have hfound : (s.modifyItem it.slot (Item.markCancelled c)).item? it.slot = some (it.markCancelled c) := by
    rw [State.item?_modifyItem (f := Item.markCancelled c) fun _ => rfl, h.found]; rfl
  have hentry : ∀ x ∈ (s.modifyItem it.slot (Item.markCancelled c)).table.items, x.slot = it.slot →
      x.state = .cancelling ∧ x.cancelCause = some c := by
    intro x hx hs
    unfold State.modifyItem at hx
    dsimp only at hx
    obtain ⟨y, -, rfl⟩ := List.mem_map.1 hx
    split at hs
    · rename_i e; rw [if_pos e]; exact ⟨rfl, rfl⟩
    · exact absurd hs (by assumption)
  have hmark : (s.modifyItem it.slot (Item.markCancelled c)).adviceOut = s.adviceOut := rfl
  have hlinks : (s.modifyItem it.slot (Item.markCancelled c)).links = s.links := rfl
  generalize s.modifyItem it.slot (Item.markCancelled c) = u at hslots hfound hentry hmark hlinks
  have hstop : ∀ cam, it.slot ∉ ((u.stopCapture it.slot).channel cam).pendingList
      ∧ ∀ f ∈ ((u.stopCapture it.slot).channel cam).fifo, f.slot ≠ it.slot := by
    intro cam
    constructor
    · rw [State.pendingList_stopCapture]; simp
    · intro f hf
      rw [State.fifo_stopCapture, List.mem_filter] at hf
      simpa using hf.2
  have hitem : (u.stopCapture it.slot).item? it.slot = some (it.markCancelled c) := hfound
  have hitems : (u.stopCapture it.slot).table.items = u.table.items := rfl
  have hadv : (u.stopCapture it.slot).adviceOut = s.adviceOut := hmark
  have hlk : (u.stopCapture it.slot).links = s.links := hlinks
  generalize u.stopCapture it.slot = v at hstop hitem hitems hadv hlk
  refine State.Cancels.calm (t := State.adviseCancelled { v with emitter := { v.emitter with
    summaryList := v.emitter.summaryList.filter (· != it.slot) } } it c) ?_ ?_
    (((Calm.foldl (fun t q => t.cancelRendition_calm it.slot q) _ _).trans
      (State.serveReturned_calm _ _)).trans (State.completeCancel_calm _ _))
  · have hc : ({ v with emitter := { v.emitter with
        summaryList := v.emitter.summaryList.filter (· != it.slot) } } : State).Calm
        (State.adviseCancelled { v with emitter := { v.emitter with
          summaryList := v.emitter.summaryList.filter (· != it.slot) } } it c) :=
      State.adviseCancelled_calm c fun x hx => by
        obtain rfl : it.markCancelled c = x := Option.some.inj (hitem.symm.trans hx)
        rfl
    have hb : State.Cancels { s with adviceOut := s.adviceOut } { v with emitter := { v.emitter with
        summaryList := v.emitter.summaryList.filter (· != it.slot) } } { it with generation := 1 } c (adviceCauseOf c) :=
      { entry := fun x hx hs => hentry x (hitems ▸ hx) hs
        lists := fun cam => (hstop cam).1
        lines := fun cam => (hstop cam).2
        advice := fun hg => absurd hg (by simp) }
    have hd := hb.calm (by change (v.table.items.map Item.slot).Nodup; rw [hitems, hslots]; exact h.distinct) hc
    refine ⟨hd.entry, hd.lists, hd.lines, fun hg ha hr => ⟨[], ?_⟩⟩
    unfold State.adviseCancelled
    rw [if_pos ⟨ha, hg⟩]
    dsimp only
    rw [State.adviceQueue_composeAdvice]
    · change v.adviceOut.queue ++ _ = _
      rw [hadv]
    · change v.links.track.up = true
      rw [hlk]; exact hr.1
    · change v.adviceOut.queue.length < _
      rw [hadv]; exact hr.2
  · have hc : ({ v with emitter := { v.emitter with
        summaryList := v.emitter.summaryList.filter (· != it.slot) } } : State).Calm
        (State.adviseCancelled { v with emitter := { v.emitter with
          summaryList := v.emitter.summaryList.filter (· != it.slot) } } it c) :=
      State.adviseCancelled_calm c fun x hx => by
        obtain rfl : it.markCancelled c = x := Option.some.inj (hitem.symm.trans hx)
        rfl
    have hn : (v.table.items.map Item.slot).Nodup := by rw [hitems, hslots]; exact h.distinct
    exact (((hc.items hn).mono fun r => r.sameEntry).slots_sublist).nodup hn

/-- The cancel and the dispatch that follows it. -/
theorem State.cancelDispatch_cancels {s : State} {it : Item} (h : s.Cancellable it) (c : CancelCause) :
    s.Cancels (s.cancelItem it.slot c).dispatch it c (adviceCauseOf c)
      ∧ ((s.cancelItem it.slot c).dispatch.table.items.map Item.slot).Nodup := by
  have hc := State.cancelItem_cancels h c
  have hd := State.dispatch_calm (s.cancelItem it.slot c)
  exact ⟨hc.1.calm hc.2 hd, (((hd.items hc.2).mono fun r => r.sameEntry).slots_sublist).nodup hc.2⟩

end Sys2Proof.Machine
end

