-- ==== Sys2Proof/Laws/Reduction.lean ====
section
/-! SUPPORT. A reduction stopped in the middle of a strip goes on from its place exactly as if it had not stopped (R94,
R101, R123). -/

namespace Sys2Proof.Machine

/-! ### Bits cut into bytes -/

theorem cutBytes_length : ∀ (n : Nat) (bits : List Bool), bits.length ≤ 8 * n + 7 → (cutBytes n bits).2.length < 8
  | 0, bits, h => by simp only [cutBytes]; omega
  | n + 1, bits, h => by
    unfold cutBytes
    split
    · assumption
    · exact cutBytes_length n _ (by rw [List.length_drop]; omega)

/-- More fuel than bytes changes nothing. -/
theorem cutBytes_fuel : ∀ (n m : Nat) (bits : List Bool), bits.length ≤ 8 * n + 7 → bits.length ≤ 8 * m + 7 →
    cutBytes n bits = cutBytes m bits
  | 0, 0, _, _, _ => rfl
  | 0, m + 1, bits, h, _ => by simp only [cutBytes, if_pos (show bits.length < 8 by omega)]
  | n + 1, 0, bits, _, h => by simp only [cutBytes, if_pos (show bits.length < 8 by omega)]
  | n + 1, m + 1, bits, h, h' => by
    unfold cutBytes
    split
    · rfl
    · rw [cutBytes_fuel n m _ (by rw [List.length_drop]; omega) (by rw [List.length_drop]; omega)]

theorem wholeBytes_short {bits : List Bool} (h : bits.length < 8) : wholeBytes bits = ([], bits) := by
  unfold wholeBytes
  cases hn : bits.length with
  | zero => rfl
  | succ n => rw [cutBytes, if_pos h]

theorem wholeBytes_byte {bits : List Bool} (h : 8 ≤ bits.length) :
    wholeBytes bits = (bitsByte (bits.take 8) :: (wholeBytes (bits.drop 8)).1, (wholeBytes (bits.drop 8)).2) := by
  unfold wholeBytes
  rw [cutBytes_fuel bits.length (bits.length - 1 + 1) bits (by omega) (by omega), cutBytes, if_neg (by omega),
    cutBytes_fuel (bits.length - 1) (bits.drop 8).length (bits.drop 8) (by rw [List.length_drop]; omega) (by omega)]

/-- Bits cut in two steps. -/
theorem wholeBytes_append (a b : List Bool) :
    wholeBytes (a ++ b) = ((wholeBytes a).1 ++ (wholeBytes ((wholeBytes a).2 ++ b)).1, (wholeBytes ((wholeBytes a).2 ++ b)).2) := by
  induction hn : a.length using Nat.strongRecOn generalizing a with
  | ind n ih =>
    by_cases h : a.length < 8
    · rw [wholeBytes_short h]; rfl
    · rw [wholeBytes_byte (bits := a ++ b) (by rw [List.length_append]; omega), wholeBytes_byte (bits := a) (by omega),
        List.take_append_of_le_length (by omega), List.drop_append_of_le_length (by omega),
        ih _ (by rw [List.length_drop]; omega) (a.drop 8) rfl]
      rfl

theorem endLine_append (d : Descriptor) (a b : List Bool) :
    endLine d (a ++ b)
      = ((wholeBytes a).1 ++ (endLine d ((wholeBytes a).2 ++ b)).1, (endLine d ((wholeBytes a).2 ++ b)).2) := by
  unfold endLine packBits
  split
  · rw [wholeBytes_append]; simp only [List.append_assoc]
  · exact wholeBytes_append a b

/-! ### Values coded one by one -/

theorem runsFrom_cons (colour : Bool) (n : Nat) (b : Bool) (bits : List Bool) :
    runsFrom colour n (b :: bits) = (runsFrom colour n [b]).dropLast
      ++ runsFrom ((runsFrom colour n [b]).getLastD (colour, n)).1 ((runsFrom colour n [b]).getLastD (colour, n)).2 bits := by
  by_cases h : b = colour
  · subst h; simp [runsFrom]
  · simp [runsFrom, h]

theorem bitonalFrom_cons (t : Threshold) (level : Option Nat) (v : Nat) (vs : List Nat) :
    ∃ b, bitonalFrom t level [v] = [b] ∧ bitonalFrom t level (v :: vs) = b :: bitonalFrom t (levelAfter t level v) vs := by
  cases t <;> exact ⟨_, rfl, rfl⟩

/-- The bits of a line are those known after its first value, then those of the rest. -/
theorem bitsFrom_cons (img : Image) (d : Descriptor) (c : LineCoding) (v : Nat) (vs : List Nat) :
    bitsFrom img d c (v :: vs) = (c.take img d v).1 ++ bitsFrom img d (c.take img d v).2 vs := by
  obtain ⟨b, h1, h2⟩ := bitonalFrom_cons d.threshold c.level v vs
  unfold LineCoding.take bitsFrom
  cases hd : d.depth with
  | gray8 => simp [runTable?, hd]
  | gray4 => simp [runTable?, hd]
  | bitonal =>
    cases ht : runTable? d with
    | none => simp [h1, h2]
    | some table =>
      simp only [h1, h2, if_pos]
      rw [runsFrom_cons, List.flatMap_append]

theorem LineCoding.take_pixels (img : Image) (d : Descriptor) (c : LineCoding) (v : Nat) :
    (c.take img d v).2.pixels = c.pixels + 1 := by
  unfold LineCoding.take
  dsimp only
  split <;> rfl

/-- Coding that stops at a place in the line and goes on from there is coding without a stop: byte `n` is the first of those
in hand, and those in hand come before those of the rest of the line. -/
theorem codeUntil_endLine (img : Image) (d : Descriptor) : ∀ (vs : List Nat) (n : Nat) (coder : List Bool) (c : LineCoding)
    {bytes : List Byte} {coder' : List Bool} {c' : LineCoding}, codeUntil img d n coder c vs = some (bytes, coder', c') →
    let whole := endLine d (coder ++ bitsFrom img d c vs)
    let rest := endLine d (coder' ++ bitsFrom img d c' (vs.drop (c'.pixels - c.pixels)))
    bytes ≠ [] ∧ c.pixels ≤ c'.pixels ∧ whole.1.drop n = bytes ++ rest.1 ∧ whole.2 = rest.2
  | [], _, _, _, _, _, _, h => nomatch h
  | v :: vs, n, coder, c, bytes, coder', c', h => by
    have hp := c.take_pixels img d v
    rw [bitsFrom_cons, ← List.append_assoc, endLine_append]
    unfold codeUntil at h
    dsimp only at h ⊢
    split at h
    · rename_i hn
      obtain ⟨rfl, rfl, rfl⟩ : _ ∧ _ ∧ _ := by simpa using h
      have hdrop : (v :: vs).drop ((c.take img d v).2.pixels - c.pixels) = vs := by rw [hp]; simp
      refine ⟨fun e => ?_, by omega, ?_, ?_⟩
      · have := congrArg List.length e
        rw [List.length_drop, List.length_nil] at this
        omega
      · rw [hdrop, List.drop_append_of_le_length (by omega)]
      · rw [hdrop]
    · obtain ⟨h1, h2, h3, h4⟩ := codeUntil_endLine img d vs _ _ _ h
      have hdrop : (v :: vs).drop (c'.pixels - c.pixels) = vs.drop (c'.pixels - (c.take img d v).2.pixels) := by
        rw [show c'.pixels - c.pixels = c'.pixels - (c.take img d v).2.pixels + 1 by omega]; rfl
      rw [hdrop, List.drop_append, List.drop_of_length_le (by omega), List.nil_append]
      exact ⟨h1, by omega, h3, h4⟩

/-! ### Bytes collected -/

theorem ReduceRules.takeLine_bytes (p : ReduceRules) (n : Nat) (pixels : List Byte) (r : Reduced) (b : List Byte) :
    p.takeLine n pixels { r with bytes := b }
      = { p.takeLine n pixels { r with bytes := [] } with bytes := b ++ (p.takeLine n pixels { r with bytes := [] }).bytes } := by
  unfold takeLine addLine finishLine
  dsimp only
  split
  · split
    · rfl
    · simp
  · simp

/-- The bytes in hand before a stretch of lines stand before those it completes. -/
theorem ReduceRules.takeLines_bytes (p : ReduceRules) : ∀ (lines : List (List Byte)) (n : Nat) (r : Reduced) (b : List Byte),
    p.takeLines n lines { r with bytes := b ++ r.bytes }
      = { p.takeLines n lines r with bytes := b ++ (p.takeLines n lines r).bytes }
  | [], _, _, _ => rfl
  | pixels :: rest, n, r, b => by
    have h := p.takeLine_bytes n pixels r
    have e : p.takeLine n pixels { r with bytes := b ++ r.bytes }
        = { p.takeLine n pixels r with bytes := b ++ (p.takeLine n pixels r).bytes } := by
      rw [h, show p.takeLine n pixels r = _ from h r.bytes, List.append_assoc]
    unfold takeLines
    rw [e]
    exact p.takeLines_bytes rest (n + 1) (p.takeLine n pixels r) b

theorem ReduceRules.takeLines_length (p : ReduceRules) (n : Nat) (lines : List (List Byte)) (r : Reduced) :
    r.bytes.length ≤ (p.takeLines n lines r).bytes.length := by
  have h := p.takeLines_bytes lines n { r with bytes := [] } r.bytes
  rw [List.append_nil] at h
  rw [show p.takeLines n lines r = _ from h]
  simp

/-- Bytes at the front dropped before a stretch of lines, or after it. -/
theorem ReduceRules.takeLines_drop (p : ReduceRules) (n : Nat) (lines : List (List Byte)) (r : Reduced) {k : Nat}
    (hk : k ≤ r.bytes.length) :
    p.takeLines n lines { r with bytes := r.bytes.drop k }
      = { p.takeLines n lines r with bytes := (p.takeLines n lines r).bytes.drop k } := by
  have h := p.takeLines_bytes lines n { r with bytes := r.bytes.drop k } (r.bytes.take k)
  rw [List.take_append_drop] at h
  rw [show p.takeLines n lines r = _ from h]
  simp only
  rw [List.drop_left' (by rw [List.length_take]; omega)]

/-! ### A place in a strip -/

theorem ReduceRules.finishLine_length (p : ReduceRules) (n : Nat) (scaled : List Nat) (c : LineCoding) (r : Reduced) :
    r.bytes.length ≤ (p.finishLine n scaled c r).bytes.length := by
  unfold finishLine
  simp

/-- A line that completes bytes is an input line that completes an output line. -/
theorem ReduceRules.takeLine_finishes (p : ReduceRules) (n : Nat) (pixels : List Byte) (r : Reduced)
    (h : r.bytes.length < (p.takeLine n pixels r).bytes.length) :
    p.takeLine n pixels r = p.finishLine n (p.scaled pixels)
      (startCoding p.descriptor (p.outputLine (p.addLine n pixels r).vertical)) (p.addLine n pixels r) := by
  unfold takeLine at h ⊢
  dsimp only at h ⊢
  split
  · rename_i hi
    rw [if_pos hi] at h
    split
    · rfl
    · rename_i hc
      rw [if_neg hc] at h
      exact absurd h (Nat.lt_irrefl _)
  · rename_i hi
    rw [if_neg hi] at h
    exact absurd h (Nat.lt_irrefl _)

/-- What an engine does from a place, given what it has done there. -/
def ReduceRules.goOn (p : ReduceRules) (r : Reduced) (place : StripPlace) : Reduced :=
  p.takeLines place.next place.lines
    (match place.coding with
      | none => r
      | some coding => p.finishLine (place.next - 1) place.scaled coding r)

theorem ReduceRules.stopInLine_goOn (p : ReduceRules) {n next : Nat} (scaled : List Nat) (c : LineCoding)
    (lines : List (List Byte)) {r : Reduced} (h1 : r.bytes.length ≤ n)
    (h2 : n < (p.finishLine (next - 1) scaled c r).bytes.length) :
    let x := p.stopInLine n next scaled c lines r
    let whole := p.takeLines next lines (p.finishLine (next - 1) scaled c r)
    x.1.bytes ≠ [] ∧ p.goOn x.1 x.2 = { whole with bytes := whole.bytes.drop n } := by
  unfold stopInLine goOn
  dsimp only
  split
  · rename_i bytes coder coding hu
    have hv : p.outputLine r.vertical ≠ [] := fun e => by
      rw [e, List.drop_nil] at hu
      cases hu
    obtain ⟨hb, hle, hd, he⟩ := codeUntil_endLine _ _ _ _ _ _ hu
    rw [List.drop_drop, show c.pixels + (coding.pixels - c.pixels) = coding.pixels by omega] at hd he
    refine ⟨hb, ?_⟩
    rw [← p.takeLines_drop _ _ _ (by omega)]
    congr 1
    unfold finishLine codeLine
    simp only [if_neg hv]
    rw [List.drop_append, List.drop_of_length_le h1, List.nil_append, hd, he]
  · refine ⟨fun e => ?_, p.takeLines_drop _ _ _ (by omega)⟩
    have := congrArg List.length e
    rw [List.length_drop, List.length_nil] at this
    omega

theorem ReduceRules.stopInLines_goOn (p : ReduceRules) {n : Nat} : ∀ (lines : List (List Byte)) (line : Nat) {r : Reduced},
    r.bytes.length ≤ n → n < (p.takeLines line lines r).bytes.length →
    let x := p.stopInLines n line lines r
    x.1.bytes ≠ [] ∧ p.goOn x.1 x.2
      = { p.takeLines line lines r with bytes := (p.takeLines line lines r).bytes.drop n }
  | [], _, _, h1, h2 => absurd h2 (Nat.not_lt.mpr h1)
  | pixels :: rest, line, r, h1, h2 => by
    unfold stopInLines takeLines
    unfold takeLines at h2
    dsimp only
    split
    · rename_i h
      have hf := p.takeLine_finishes line pixels r (by omega)
      rw [hf] at h ⊢
      exact p.stopInLine_goOn (next := line + 1) _ _ rest h1 h
    · rename_i h
      exact p.stopInLines_goOn rest (line + 1) (by omega) h2

theorem ReduceRules.goOn_drop (p : ReduceRules) {r : Reduced} (place : StripPlace) {k : Nat} (hk : k ≤ r.bytes.length) :
    p.goOn { r with bytes := r.bytes.drop k } place = { p.goOn r place with bytes := (p.goOn r place).bytes.drop k } := by
  unfold goOn
  split
  · exact p.takeLines_drop _ _ _ hk
  · rename_i coding _
    rw [← p.takeLines_drop _ _ _ (Nat.le_trans hk (p.finishLine_length _ _ coding r))]
    congr 1
    unfold finishLine
    simp only [List.drop_append_of_le_length hk]

/-- An engine that stops just before a byte of those it has left, and goes on from there, ends the strip as it would have
without the stop, with that byte and those after it left; it has the byte in hand (R94, R101). -/
theorem ReduceRules.resume_stopAt (p : ReduceRules) {n : Nat} (c : Context) (out : HeldOutput)
    (h : n < (p.resume c out).bytes.length) :
    let x := p.stopAt n c out
    x.1.bytes ≠ []
      ∧ p.resume (c.reached x.1) { bytes := x.1.bytes, place := x.2 }
        = { p.resume c out with bytes := (p.resume c out).bytes.drop n } := by
  have go : ∀ (x : Reduced) (place : StripPlace),
      p.resume (c.reached x) { bytes := x.bytes, place := some place } = p.goOn x place := fun x place => rfl
  have kept : ∀ l : List Byte, n < l.length → l.drop n ≠ [] := fun l hl e => by
    have := congrArg List.length e
    rw [List.length_drop, List.length_nil] at this
    omega
  obtain ⟨bytes, place⟩ := out
  cases place with
  | none => exact ⟨kept _ h, rfl⟩
  | some place =>
    unfold stopAt
    dsimp only
    rw [show p.resume c { bytes := bytes, place := some place }
      = p.goOn { vertical := { sums := c.sums, linesDone := c.linesDone }, coder := c.coder, bytes := bytes } place from rfl]
      at h ⊢
    split
    · rename_i hn
      exact ⟨kept _ hn, (go _ place).trans (p.goOn_drop
        (r := { vertical := { sums := c.sums, linesDone := c.linesDone }, coder := c.coder, bytes := bytes }) place
        (Nat.le_of_lt hn))⟩
    · rename_i hn
      rw [go]
      unfold goOn at h ⊢
      cases hc : place.coding with
      | none =>
        rw [hc] at h
        exact p.stopInLines_goOn _ _ (Nat.le_of_not_lt hn) h
      | some coding =>
        rw [hc] at h
        dsimp only at h ⊢
        split
        · rename_i hl
          exact p.stopInLine_goOn _ _ _ (Nat.le_of_not_lt hn) hl
        · rename_i hl
          exact p.stopInLines_goOn _ _ (Nat.le_of_not_lt hl) h

theorem ReduceRules.stopAt_place (p : ReduceRules) (n : Nat) (c : Context) (out : HeldOutput) :
    (p.stopAt n c out).2.isNone = out.place.isNone := by
  unfold stopAt
  cases out.place with
  | none => rfl
  | some place => dsimp only; split <;> rfl

/-- The same, as the working state after a stretch of writing that leaves bytes unwritten. -/
theorem ReduceRules.workAfter_holding (p : ReduceRules) {left : Nat} (c : Context) (out : HeldOutput) (h0 : 0 < left)
    (h : left ≤ (p.resume c out).bytes.length) :
    ∃ held, (p.workAfter c out left).2 = some held ∧ held.bytes ≠ [] ∧ held.place.isNone = out.place.isNone
      ∧ p.resume (p.workAfter c out left).1 held
        = { p.resume c out with bytes := (p.resume c out).bytes.drop ((p.resume c out).bytes.length - left) } := by
  unfold workAfter
  simp only [if_neg (Nat.ne_of_gt h0)]
  obtain ⟨h1, h2⟩ := p.resume_stopAt c out (n := (p.resume c out).bytes.length - left) (by omega)
  exact ⟨_, rfl, h1, p.stopAt_place _ c out, h2⟩

/-- The bytes written and the running check take no part in the reduction. -/
@[simp] theorem ReduceRules.resume_progress (p : ReduceRules) (c : Context) (n : Nat) (check : Word) (out : HeldOutput) :
    p.resume { c with bytesWritten := n, runningCheck := check } out = p.resume c out := rfl

@[simp] theorem ReduceRules.workAfter_nextStrip (p : ReduceRules) (c : Context) (out : HeldOutput) (left : Nat) :
    (p.workAfter c out left).1.nextStrip = c.nextStrip := by
  unfold workAfter
  split <;> rfl

/-- With no byte left the engine stands where the strip, or the rendition, ends. -/
theorem ReduceRules.workAfter_done (p : ReduceRules) (c : Context) (out : HeldOutput) :
    p.workAfter c out 0 = (c.reached (p.resume c out), none) := rfl

end Sys2Proof.Machine
end

