-- ==== Sys2Proof/Laws/Sound.lean ====
section
/-! SUPPORT. The invariant Sound under the shared operations: whatever keeps, an ANNOUNCE, the admission of a request,
the working of the request queue, and the completions of its head. -/

namespace Sys2Proof.Machine

open State (Calm Keeps Sound)

namespace State.Sound

/-- What keeps the rest keeps the invariant where the FIFOs stay within their capacity. -/
theorem lines {s t : State} {k : Camera → Nat} (w : s.Sound) (h : s.Keeps k 0 t)
    (hf : ∀ c, (t.channel c).fifo.length ≤ Config.fifoCapacity) : t.Sound where
  memory := h.memory w.memory
  credits := h.credits w.credits
  slots := fun _ hx =>
    let ⟨y, hy, r⟩ := (h.items w.slotsDistinct).mem hx
    r.slot ▸ w.slots y hy
  slotsDistinct := (h.items w.slotsDistinct).slots_sublist.nodup w.slotsDistinct
  tagsDistinct := (h.items w.slotsDistinct).tags_sublist.nodup w.tagsDistinct
  requests := by rw [h.requests]; exact w.requests
  reserved := by rw [h.reserved, h.requests]; exact w.reserved
  responses := le_trans (h.responses (Nat.zero_le _)) w.responses
  events := h.events w.events
  advice := h.advice w.advice
  lists := fun c => le_trans (h.lists c) (w.lists c)
  fifo := hf

/-- What adds no line keeps the invariant. -/
theorem keeps {s t : State} (w : s.Sound) (h : s.Keeps noLines 0 t) : t.Sound :=
  w.lines h fun c => le_trans (h.fifo c) (w.fifo c)

theorem calm {s t : State} (w : s.Sound) (h : s.Calm t) : t.Sound := w.keeps (.of_calm h)

/-- The links have no part in it. -/
theorem withLinks {s : State} (w : s.Sound) (l : Links) : ({ s with links := l } : State).Sound :=
  { w with
    requests := w.requests, reserved := w.reserved, responses := w.responses, events := w.events, lists := w.lists,
    fifo := w.fifo }

theorem loseTrack {s : State} (w : s.Sound) : s.loseTrack.Sound := (w.withLinks _).keeps s.loseTrack_keeps

theorem loseExchange {s : State} (w : s.Sound) : s.loseExchange.Sound := (w.withLinks _).keeps s.loseExchange_keeps

theorem settle {s : State} (w : s.Sound) : s.chooseFrame.Sound := w.calm s.chooseFrame_calm

theorem lineFrame {s : State} (w : s.Sound) (a b : Byte) (p : Position) (px : List Byte) :
    (s.lineFrame a b p px).Sound :=
  let ⟨_, h⟩ := s.lineFrame_keeps a b p px
  w.lines h (State.fifo_lineFrame w.fifo a b p px)

/-! ### ANNOUNCE -/

/-- The free slot found is one, and it is free. -/
theorem freeSlot {s : State} {n : Slot} (h : s.freeSlot? = some n) :
    n < Config.itemSlots ∧ n ∉ s.table.items.map Item.slot := by
  unfold State.freeSlot? at h
  refine ⟨List.mem_range.1 (List.mem_of_find?_eq_some h), fun hm => ?_⟩
  have := List.find?_some h
  rw [Option.isNone_iff_eq_none] at this
  obtain ⟨x, hx, hs⟩ := List.mem_map.1 hm
  unfold State.item? at this
  have := List.find?_eq_none.1 this x hx
  simp [hs] at this

/-- An entry made in a free slot under a tag no entry carries, with room in both pending lists (R10). -/
theorem addItem {s : State} (w : s.Sound) {it : Item} (hs : it.slot < Config.itemSlots)
    (hn : it.slot ∉ s.table.items.map Item.slot) {tag : Half} (ht : it.tag = some tag)
    (htag : tag ∉ s.table.items.filterMap Item.tag)
    (hl : ∀ cam, (s.channel cam).pendingList.length < Config.pendingCapacity) : (s.addItem it).Sound where
  memory := w.memory
  credits := w.credits
  slots := fun x hx => by
    rcases List.mem_append.1 hx with hx | hx
    · exact w.slots x hx
    · rw [List.mem_singleton.1 hx]; exact hs
  slotsDistinct := by
    change ((s.table.items ++ [it]).map Item.slot).Nodup
    rw [List.map_append, List.map_singleton, List.nodup_append]
    refine ⟨w.slotsDistinct, List.nodup_singleton _, fun a ha b hb => ?_⟩
    rw [List.mem_singleton.1 hb]
    exact fun e => hn (e ▸ ha)
  tagsDistinct := by
    change ((s.table.items ++ [it]).filterMap Item.tag).Nodup
    rw [List.filterMap_append, List.filterMap_cons, ht, List.filterMap_nil, List.nodup_append]
    refine ⟨w.tagsDistinct, List.nodup_singleton _, fun a ha b hb => ?_⟩
    rw [List.mem_singleton.1 hb]
    exact fun e => htag (e ▸ ha)
  requests := w.requests
  reserved := w.reserved
  responses := w.responses
  events := w.events
  advice := w.advice
  lists := fun c => by
    have := hl c
    cases c
    · change (s.capture.front.pendingList ++ [it.slot]).length ≤ _
      rw [List.length_append]; exact this
    · change (s.capture.rear.pendingList ++ [it.slot]).length ≤ _
      rw [List.length_append]; exact this
  fifo := fun c => by
    cases c
    · exact w.fifo .front
    · exact w.fifo .rear

theorem acceptAnnounce {s : State} (w : s.Sound) {tag : Half} (htag : tag ∉ s.table.items.filterMap Item.tag)
    (hc : s.crowded = false) (lead : Position) (length : Half) : (s.acceptAnnounce tag lead length).Sound := by
  unfold State.acceptAnnounce
  split
  · rename_i n set h _
    have hn := freeSlot h
    refine w.addItem hn.1 hn.2 rfl htag fun c => ?_
    unfold State.crowded at hc
    simp only [Bool.or_eq_false_iff, decide_eq_false_iff_not, not_le] at hc
    cases c
    · exact hc.1
    · exact hc.2
  · exact w

theorem admitAnnounce {s : State} (w : s.Sound) {tag : Half} (htag : tag ∉ s.table.items.filterMap Item.tag)
    (lead : Position) (length : Half) : (s.admitAnnounce tag lead length).Sound := by
  unfold State.admitAnnounce
  split
  · exact w.calm (s.refuseAnnounce_calm _ _)
  · rename_i h
    exact w.acceptAnnounce htag (by simpa using h) lead length

theorem placeAnnounce {s : State} (w : s.Sound) {tag : Half} (htag : tag ∉ s.table.items.filterMap Item.tag)
    (lead : Position) (length : Half) : (s.placeAnnounce tag lead length).Sound := by
  unfold State.placeAnnounce
  split
  · exact w.admitAnnounce htag _ _
  · split
    · rename_i t h
      have k := State.evict_keeps h
      exact (w.keeps k).admitAnnounce
        (fun m => htag ((k.items w.slotsDistinct).tags_sublist.subset m)) _ _
    · exact w.calm (s.refuseAnnounce_calm _ _)

/-- After the supersession of a tag no entry carries it (R7). -/
theorem tag_supersede {s : State} (w : s.Sound) (tag : Half) :
    tag ∉ (s.supersede tag).table.items.filterMap Item.tag := by
  unfold State.supersede
  split
  · rename_i h
    intro hm
    obtain ⟨x, hx, ht⟩ := List.mem_filterMap.1 hm
    have := List.find?_eq_none.1 h x hx
    simp [ht] at this
  · rename_i it h
    obtain ⟨hmem, ht⟩ := State.mem_of_itemByTag? h
    have k1 : s.Keeps noLines 0 (s.modifyItem it.slot fun x => { x with tag := none }) :=
      Keeps.modifyItem fun x => { Item.SameEntry.refl x with tag := Or.inr rfl }
    have k2 := (State.cancelDispatch_calm (s.modifyItem it.slot fun x => { x with tag := none }) it.slot .tagReuse)
    intro hm
    have n1 : ((s.modifyItem it.slot fun x => { x with tag := none }).table.items.map Item.slot).Nodup :=
      (k1.items w.slotsDistinct).slots_sublist.nodup w.slotsDistinct
    have hm' := ((k2.items n1).mono fun r => r.sameEntry).tags_sublist.subset hm
    obtain ⟨x, hx, hxt⟩ := List.mem_filterMap.1 hm'
    obtain ⟨y, hy, rfl⟩ := List.mem_map.1 hx
    split at hxt
    · simp at hxt
    · rename_i hne
      have := w.tagsDistinct
      have hyit : y = it := by
        clear k1 k2 hm n1 hm' hx
        generalize s.table.items = l at hmem hy this
        induction l with
        | nil => cases hy
        | cons a l ih =>
          rw [List.filterMap_cons] at this
          rcases List.mem_cons.1 hmem with e | e <;> rcases List.mem_cons.1 hy with e' | e'
          · rw [e, e']
          · subst e; rw [ht] at this
            exact absurd (List.mem_filterMap.2 ⟨y, e', hxt⟩) (List.nodup_cons.1 this).1
          · subst e'; rw [hxt] at this
            exact absurd (List.mem_filterMap.2 ⟨it, e, ht⟩) (List.nodup_cons.1 this).1
          · refine ih e e' ?_
            split at this
            · exact this
            · exact (List.nodup_cons.1 this).2
      exact hne (hyit ▸ rfl)

theorem announceFrame {s : State} (w : s.Sound) (tag : Half) (lead : Position) (length : Half) :
    (s.announceFrame tag lead length).Sound := by
  unfold State.announceFrame
  split
  · exact w.keeps (s.countBadFrame_keeps _)
  · split
    · exact w.calm (s.refuseAnnounce_calm _ _)
    · exact (w.keeps (s.supersede_keeps tag)).placeAnnounce (w.tag_supersede tag) _ _

/-! ### Requests -/

/-- The head answered and taken off the queue. -/
theorem popAnswered {s t : State} (w : s.Sound) (h : s.Keeps noLines 1 t) (hr : s.mgmt.requests ≠ []) :
    t.popRequest.Sound where
  memory := h.memory w.memory
  credits := h.credits w.credits
  slots := fun _ hx =>
    let ⟨y, hy, r⟩ := (h.items w.slotsDistinct).mem hx
    r.slot ▸ w.slots y hy
  slotsDistinct := (h.items w.slotsDistinct).slots_sublist.nodup w.slotsDistinct
  tagsDistinct := (h.items w.slotsDistinct).tags_sublist.nodup w.tagsDistinct
  requests := by
    change t.mgmt.requests.tail.length ≤ _
    have := w.requests
    rw [h.requests, List.length_tail]; omega
  reserved := by
    change t.mgmt.reserved = t.mgmt.requests.tail.length
    rw [h.reserved, h.requests, List.length_tail, w.reserved]
  responses := le_trans (h.responses (by
    rw [w.reserved]; exact List.length_pos_iff.2 hr)) w.responses
  events := h.events w.events
  advice := h.advice w.advice
  lists := fun c => le_trans (h.lists c) (w.lists c)
  fifo := fun c => le_trans (h.fifo c) (w.fifo c)

theorem headWait {s : State} (w : s.Sound) (x : HeadWait) : { s with mgmt := { s.mgmt with headWait := x } }.Sound :=
  { w with
    requests := w.requests, reserved := w.reserved, responses := w.responses, events := w.events, lists := w.lists,
    fifo := w.fifo }

theorem takeRequests {s : State} (w : s.Sound) (n : Nat) : (takeRequests n s).Sound := by
  induction n generalizing s with
  | zero => exact w
  | succ n ih =>
    unfold Machine.takeRequests
    split
    · rename_i q rest _ hq
      dsimp only
      have h := s.takeRequest_takes q
      unfold State.Takes at h
      split
      · rename_i e
        rw [if_pos e] at h
        exact ih (w.popAnswered h (by rw [hq]; simp))
      · rename_i e
        rw [if_neg e] at h
        exact (w.keeps h).headWait _
    · exact w

theorem headAnswered {s t : State} (w : s.Sound) (h : s.Keeps noLines 1 t) (hr : s.mgmt.requests ≠ []) :
    t.headAnswered.Sound := (w.popAnswered h hr).takeRequests _

/-- A place reserved (R185). -/
theorem reservePlace {s t : State} (h : s.reservePlace = some t) :
    t = { s with mgmt := { s.mgmt with reserved := s.mgmt.reserved + 1 } }
      ∧ s.responsesHeld < Config.responsePlaces := by
  unfold State.reservePlace at h
  split at h
  · rename_i hl
    exact ⟨(Option.some.inj h).symm, hl⟩
  · simp at h

/-- A request answered as soon as its place is reserved. -/
theorem answeredAtOnce {s u : State} (w : s.Sound) (hl : s.responsesHeld < Config.responsePlaces)
    (h : ({ s with mgmt := { s.mgmt with reserved := s.mgmt.reserved + 1 } } : State).Keeps noLines 1 u) :
    u.Sound where
  memory := h.memory w.memory
  credits := h.credits w.credits
  slots := fun _ hx =>
    let ⟨y, hy, r⟩ := (h.items w.slotsDistinct).mem hx
    r.slot ▸ w.slots y hy
  slotsDistinct := (h.items w.slotsDistinct).slots_sublist.nodup w.slotsDistinct
  tagsDistinct := (h.items w.slotsDistinct).tags_sublist.nodup w.tagsDistinct
  requests := by rw [h.requests]; exact w.requests
  reserved := by rw [h.reserved, h.requests]; exact w.reserved
  responses := le_trans (h.responses (Nat.le_add_left _ _)) (by
    have e : ({ s with mgmt := { s.mgmt with reserved := s.mgmt.reserved + 1 } } : State).responsesHeld
        = s.responsesHeld + 1 := by
      unfold State.responsesHeld
      change s.mgmt.reserved + 1 + (s.reportsHeld.filter Report.isResponse).length = _
      omega
    rw [e]; exact hl)
  events := h.events w.events
  advice := h.advice w.advice
  lists := fun c => le_trans (h.lists c) (w.lists c)
  fifo := fun c => le_trans (h.fifo c) (w.fifo c)

theorem admitAtOnce {s : State} (w : s.Sound) (f : State → Response) : (s.admitAtOnce f).Sound := by
  unfold State.admitAtOnce
  split
  · exact w.keeps (s.countBadFrame_keeps _)
  · rename_i t h
    obtain ⟨rfl, hl⟩ := reservePlace h
    exact w.answeredAtOnce hl (State.respond_keeps _ _)

theorem admitRequest {s : State} (w : s.Sound) (q : QueuedRequest) : (s.admitRequest q).Sound := by
  unfold State.admitRequest
  split
  · exact w.keeps (s.countBadFrame_keeps _)
  · rename_i t h
    obtain ⟨rfl, hl⟩ := reservePlace h
    split
    · exact w.answeredAtOnce hl (State.answer_keeps _ _ _)
    · split
      · exact w.answeredAtOnce hl (State.answer_keeps _ _ _)
      · rename_i hq
        refine takeRequests ?_ _
        exact { w with
          requests := by
            change (s.mgmt.requests ++ [q]).length ≤ _
            rw [List.length_append, List.length_singleton]
            simp only [not_le] at hq
            exact hq
          reserved := by
            change s.mgmt.reserved + 1 = (s.mgmt.requests ++ [q]).length
            rw [List.length_append, List.length_singleton, w.reserved]
          responses := by
            change s.mgmt.reserved + 1 + (s.reportsHeld.filter Report.isResponse).length ≤ _
            unfold State.responsesHeld at hl
            omega
          events := w.events, lists := w.lists, fifo := w.fifo }

/-! ### Completions of the head -/

theorem endLoaderBurst {s : State} (w : s.Sound) : s.endLoaderBurst.Sound := by
  unfold State.endLoaderBurst
  split
  · rename_i q rest _ hq
    split
    · exact w.headAnswered (s.writeLoad_keeps q _ _) (by rw [hq]; simp)
    · exact w
  · exact w

theorem endManagementBurst {s : State} (w : s.Sound) : s.endManagementBurst.Sound := by
  unfold State.endManagementBurst
  split
  · rename_i q rest _ hq
    split
    · exact w.headAnswered (s.answerDone_keeps q _) (by rw [hq]; simp)
    · exact w.headAnswered ((s.writeBytes_keeps _ _).after (State.answer_keeps _ q _)) (by rw [hq]; simp)
    · exact w
  · exact w

theorem finishValidation {s : State} (w : s.Sound) : s.finishValidation.Sound := by
  unfold State.finishValidation
  split
  · rename_i q rest _ hq
    split
    · exact w.headAnswered (s.endValidation_keeps q _) (by rw [hq]; simp)
    · exact w
  · exact w

theorem finishReset {s : State} (w : s.Sound) : s.finishReset.Sound := by
  unfold State.finishReset
  split
  · rename_i q rest _ hq
    split
    · exact w
    · exact w.headAnswered (s.answer_keeps q _) (by rw [hq]; simp)
  · exact w

theorem burst {s : State} (w : s.Sound) (l : List MemoryClient) : (s.burst l).Sound := by
  unfold State.burst
  split
  · unfold State.endBurst
    split
    · exact w.keeps (s.lineBurst_keeps _)
    · exact w
    · exact w.calm (s.resumeOutput_calm _)
    · exact w.endLoaderBurst
    · exact w.endManagementBurst
  · exact w

end State.Sound

end Sys2Proof.Machine
end

