-- ==== Sys2Proof/Tests/Slice0.lean ====
section
/-! SUPPORT. Tests: ill-formed commands that the check refuses, the worked values of the spec, and for each statement
with hypotheses a state and operands that meet them, at the boundaries of their ranges. -/

namespace Sys2Proof.Tests

open Sys2Proof Sys2Proof.Machine

set_option Elab.async false

/-! ### Small states -/

/-- The state after a command. -/
def after (i : Instr) (s : State) : State :=
  match exec i s with
  | .next t => t
  | _ => s

/-- A line of 64 light pixels. -/
def light : List Byte := List.replicate 64 200#8

/-- Both links UP, RUNNING, set 0 active, lines of 64 pixels, two free strips and two free blocks. -/
def live : State :=
  let s := State.powerOn 1#4 0
  { s with
    links := { track := { locked := true, up := true }, exchange := { locked := true, up := true } }
    sets := { s.sets with
      set0 := { state := .active, imageLength := 1228, imageCheck := some 0, loadCount := 1, boundCount := 0 }
      set1 := { state := .ready, imageLength := 1228, imageCheck := some 0, loadCount := 2, boundCount := 0 }
      active := some 0 }
    frameMemory := { s.frameMemory with freeStrips := [0, 1], freeBlocks := [0, 1] }
    mgmt := { s.mgmt with mode := .running, settings := { State.resetSettings with lineWidth := 64 } } }

def parked : State := { live with mgmt := { live.mgmt with mode := .parked } }

def halted : State := { live with mgmt := { live.mgmt with mode := .halted } }

/-- An item of tag 7 in slot 0, as an ANNOUNCE makes it: FRONT expected lead 1480, REAR 2200. -/
def fresh : Item := live.newItem 0 0 7 1000 1500

def withItems (l : List Item) : State := { live with table := { items := l, announceSeq := 40, rerenderSeq := 3 } }

/-- The fresh item announced: in both pending lists. -/
def announced : State :=
  let s := withItems [fresh]
  { s with capture := { front := { s.capture.front with pendingList := [0], previousFlag := false }
                        rear := { s.capture.rear with pendingList := [0], previousFlag := false } } }

/-- The fresh item with one side being captured, `n` lines taken. -/
def taken (cam : Camera) (n : Nat) : Item :=
  let x := (fresh.side cam)
  let y : Side := { x with capture := .active, leading := some 4990, lines := n, chain := [{ strip := 9, lines := n }] }
  { (fresh.setSide cam y) with state := .capturing }

/-- The same, the last line at position 5000. -/
def capturing (cam : Camera) (n : Nat) : State :=
  (withItems [taken cam n]).modifyChannel cam fun c =>
    { c with state := .capture, bound := some 0, previousFlag := true, lastPosition := some 5000 }

/-- A rendition of a 1-pixel wide line, ratio from scale entry 0. -/
def strip1 : Descriptor :=
  { side := .front, scale := 0, tone := 0, depth := .gray8, threshold := .fixed 0, coding := .packed, lead := 0, tail := 0
    top := 0, bottom := 63, sizeLimit := 8 }

def rend (state : RenditionState) : Rendition :=
  { index := 0, state := state, descriptor := strip1, dropCause := none, chain := [5], length := some 600, check := some 9
    width := 1, height := none, context := none, stopping := false, eligible := false, restart := false }

def ref0 : RendRef := { slot := 0, index := 0 }

/-- The fresh item in PROCESSING with one rendition in a state. -/
def rendering (x : RenditionState) : Item := { fresh with state := .processing, renditions := some [rend x] }

/-- The fresh item with one side being captured as `capturing` has it, changed by `f`. -/
def capturingAs (cam : Camera) (n : Nat) (f : Item → Item) : State :=
  let s := capturing cam n
  { s with table := { s.table with items := s.table.items.map f } }

/-! ### Engines, renditions and set images -/

def idle : Engine := State.idleEngine

/-- An engine busy with a rendition that the states below do not hold. -/
def busy : Engine := { state := .running, rendition := some { slot := 9, index := 0 }, yieldRequest := false, work := none }

def engineOn (r : RendRef) (y : Bool) (c : Context) (o : Option HeldOutput) : Engine :=
  { state := .running, rendition := some r, yieldRequest := y, work := some { context := c, output := o } }

def readCtx : Context :=
  { nextStrip := 0, sums := [0], linesDone := 0, bytesWritten := 0, coder := [], runningCheck := checkInit }

/-- 600 bytes in hand at the end of a strip. -/
def longOutput : HeldOutput :=
  { bytes := List.replicate 600 1, place := some { next := 1, scaled := [], coding := none, lines := [] } }

/-- A rendition being rendered, of lines of two pixels. -/
def readQ : Rendition := { rend .running with descriptor := { strip1 with bottom := 1 } }

/-- An item whose FRONT side has two sealed strips of which the first holds one line. -/
def readItem (gen : Nat) : Item :=
  let x : Side := { fresh.front with
    capture := .active, lines := 64, sealedCount := 2, chain := [{ strip := 0, lines := 1 }, { strip := 1, lines := 32 }] }
  { fresh with front := x, state := .capturing, generation := gen, renditions := some [readQ] }

/-- A more urgent item in slot 1, its one rendition waiting. -/
def urgentItem : Item :=
  { readItem 0 with slot := 1, tag := some 8, announcedTag := 8, key := .pos 3000, renditions := some [{ readQ with state := .queued }] }

/-- Items, a render queue and the three engines; lines of two pixels, one line written, ratio 1/2 along the track. -/
def rendered (items : List Item) (queue : List RendRef) (e0 e1 e2 : Engine) (checks : List (Nat × Word)) : State :=
  let s := withItems items
  { s with
    mem := [(3612, 1), (3613, 1), (3614, 1), (3615, 2), (33554432, 200), (33554433, 100)]
    mgmt := { s.mgmt with settings := { s.mgmt.settings with lineWidth := 2 } }
    frameMemory := { s.frameMemory with checks := checks }
    render := { queue := queue, re0 := e0, re1 := e1, re2 := e2 } }

/-- The check word of the line written. -/
def goodCheck : List (Nat × Word) := [(0, checkOf [200, 100])]

/-- An engine reading a strip of one line of two pixels, the rendition at 1/2 along the track: it produces nothing. -/
def reading (checks : List (Nat × Word)) (gen : Nat) : State :=
  rendered [readItem gen] [] (engineOn ref0 false readCtx none) idle idle checks

/-- Profile 0 defined with one rendition and every limit 0, the policy FLAG for NO_CODE; the default profile. -/
def profileMem (base : Nat) : Memory :=
  (base + 5, 0) :: (List.range 32).map fun i => (base + 2072 + i, if i < 2 then 1 else if i = 17 then 4 else 0)

theorem unique_holder {s : State} {e : EngineId} {r : RendRef}
    (h : ∀ e' ∈ engineIds, decide ((s.engine e').rendition = some r) = decide (e' = e)) :
    ∀ e', (s.engine e').rendition = some r ↔ e' = e := fun e' => by
  have := h e' (State.mem_engineIds e')
  simpa using this

theorem all_engines {P : EngineId → Prop} (h : P .re0 ∧ P .re1 ∧ P .re2) : ∀ e, P e := fun e => by
  cases e; exacts [h.1, h.2.1, h.2.2]

/-- The Emitter sending a frame of work in hand, with no credit left. -/
def sending (it : Item) (f : ExchangeFrame) (w : EmitterWork) : State :=
  let s := withItems [it]
  { s with emitter := { s.emitter with frame := some f, work := w } }

def retained : Item := { fresh with state := .retained }

/-- A set image of one profile with one rendition, scale entry 0 at 1/1, tone map 0 of zeros, nothing else defined. -/
def plainImage (i : Nat) : Byte :=
  if i = 0 then 158 else if i = 1 then 7 else if i = 2 then 64 else if i = 3 then 49 else if i = 4 then 1
  else if i = 2072 ∨ i = 2073 ∨ i = 2111 ∨ i = 3608 ∨ i = 3672 then 1
  else if 3612 ≤ i ∧ i ≤ 3615 then 1 else 0

def imageMem (n : Nat) : Memory := (List.range' 0 n).map fun i => (i, plainImage i)

theorem read_range (f : Nat → Byte) (k n i : Nat) :
    Memory.read? ((List.range' k n).map fun j => (j, f j)) i = if k ≤ i ∧ i < k + n then some (f i) else none := by
  induction n generalizing k with
  | zero => simp [Memory.read?]
  | succ n ih =>
    rw [List.range'_succ, List.map_cons]
    unfold Memory.read?
    by_cases h : k = i
    · rw [if_pos h, if_pos (by omega), h]
    · rw [if_neg h]
      by_cases h' : i < k
      · rw [if_pos h', if_neg (by omega)]
      · rw [if_neg h', ih]
        by_cases c : i < k + (n + 1)
        · rw [if_pos (by omega), if_pos (by omega)]
        · rw [if_neg (by omega), if_neg (by omega)]

/-- A LOAD CLOSE in validation, set 1, the image standing in the slot for its first `n` bytes. -/
def validating (n : Nat) : State :=
  { parked with
    mem := imageMem n
    sets := { parked.sets with load := some { set := 0, declared := 1228, nextOffset := 1228, runningCheck := 0 } }
    mgmt := { parked.mgmt with
      reserved := 1, headWait := .validation, requests := [{ corr := 1, request := .loadClose 0 }] } }

/-! ### Checks that give the structured hypotheses -/

theorem dueOf {s : State} {p : Position} (hq : s.render.queue = []) (hf : (s.passedHead? .front p).isNone = true)
    (hr : (s.passedHead? .rear p).isNone = true)
    (hd : ∀ it ∈ s.table.items, it.classifyDeadline = none ∧ it.adviceDeadline = none) : s.NothingDue p where
  queue := hq
  windows := fun cam k it hk hi => by
    have h : (s.passedHead? cam p).isNone = true := by cases cam; exacts [hf, hr]
    unfold State.passedHead? State.headItem? at h
    rw [hk, Option.bind_some, hi] at h
    unfold State.windowPassed at h
    cases e : past p ((it.side cam).expectedLead + s.tolerance) with
    | false => rfl
    | true => simp [e] at h
  classify := fun it hi _ _ d h => absurd ((hd it hi).1.symm.trans h) (by simp)
  advice := fun it hi _ _ _ d h => absurd ((hd it hi).2.symm.trans h) (by simp)

theorem goodOf {s : State} {cam : Camera} {p : Position} {px : List Byte} (hu : s.links.track.up = true)
    (hw : px.length = s.mgmt.settings.lineWidth.toNat) (hp : ((s.channel cam).portPosition.all (past p ·)) = true)
    (hd : s.NothingDue p) : s.GoodLine cam p px :=
  { up := hu, width := hw, due := hd, past := fun q h => by rw [h] at hp; simpa using hp }

theorem liveGood (cam : Camera) : live.GoodLine cam 1000 light :=
  goodOf rfl (by decide) (by cases cam <;> rfl) (dueOf rfl rfl rfl (by decide))

theorem announcedGood (cam : Camera) (p : Position) (hf : (announced.passedHead? .front p).isNone = true)
    (hr : (announced.passedHead? .rear p).isNone = true) : announced.GoodLine cam p light :=
  goodOf rfl (by decide) (by cases cam <;> rfl) (dueOf rfl hf hr (by decide +kernel))

theorem capturingGood (cam : Camera) (n : Nat) (p : Position) : (capturing cam n).GoodLine cam p light :=
  goodOf (by cases cam <;> rfl) (by cases cam <;> rfl) (by cases cam <;> rfl)
    (dueOf (by cases cam <;> rfl) (by cases cam <;> rfl) (by cases cam <;> rfl)
      (by intro it h; cases cam <;> (obtain rfl := List.mem_singleton.1 h; exact ⟨rfl, rfl⟩)))

/-- A good line at an item whose deadlines cannot fall due. -/
theorem capturingAsGood (cam : Camera) (n : Nat) (f : Item → Item) (p : Position) (s : State)
    (hs : s = capturingAs cam n f) (hq : s.render.queue = []) (hu : s.links.track.up = true)
    (hw : light.length = s.mgmt.settings.lineWidth.toNat) (hp : ((s.channel cam).portPosition.all (past p ·)) = true)
    (hl : ∀ c, (s.channel c).pendingList = [])
    (hd : ∀ it ∈ s.table.items, it.classifyDeadline = none ∧ (it.adviceDeadline = none ∨ it.state ≠ .processing)) :
    s.GoodLine cam p light := by
  subst hs
  refine goodOf hu hw hp { queue := hq, windows := ?_, classify := ?_, advice := ?_ }
  · intro c k it hk
    rw [hl c] at hk
    cases hk
  · intro it hi _ _ d h
    exact absurd ((hd it hi).1.symm.trans h) (by simp)
  · intro it hi _ hst _ d h
    rcases (hd it hi).2 with c | c
    · exact absurd (c.symm.trans h) (by simp)
    · exact absurd hst c

/-! ### WellFormed refuses -/

theorem test_wf_refuses_lock : (Instr.receiverLock .track (List.replicate 31 .idle)).wf = false := by decide
theorem test_wf_refuses_unlock :
    (Instr.receiverUnlock .track [.codeError, .codeError, .codeError, .idle] false).wf = false := by decide
theorem test_wf_refuses_link_up :
    (Instr.linkUp .track [.ready] 15).wf = false ∧ (Instr.linkUp .track [.idle] 16).wf = false := by decide
theorem test_wf_refuses_bad_frame : (Instr.badFrame .track [.data 1, .abort]).wf = false := by decide
theorem test_wf_refuses_kind : (Instr.frameKindRefused .track 5 []).wf = false
    ∧ (Instr.frameKindRefused .track 0 (List.replicate 1036 0)).wf = false := by decide +kernel
theorem test_wf_refuses_line : (Instr.line 0 0 0 (List.replicate 1030 0)).wf = false := by decide +kernel
theorem test_wf_refuses_code :
    (Instr.code 1 ⟨3, [], [], [], [], []⟩).wf = false
      ∧ (Instr.code 1 ⟨0, List.replicate 256 0, [], [], [], []⟩).wf = false
      ∧ (Instr.code 1 ⟨0, List.replicate 255 0, List.replicate 255 0, List.replicate 255 0, List.replicate 255 0,
          List.replicate 8 0⟩).wf = false := by decide +kernel
theorem test_wf_refuses_burst : (Instr.burstEnd [.emitter, .emitter]).wf = false := by decide
theorem test_wf_refuses_unknown_kind : (Instr.requestUnknownKind 1 3 []).wf = false
    ∧ (Instr.requestUnknownKind 1 0 (List.replicate 1034 0)).wf = false := by decide +kernel
theorem test_wf_refuses_load_data : (Instr.loadData 1 0 (List.replicate 258 0)).wf = false := by decide +kernel
theorem test_wf_refuses_release : (Instr.release 1 2 1).wf = false := by decide
theorem test_wf_refuses_poke : (Instr.poke 1 0 4 [1, 2, 3]).wf = false
    ∧ (Instr.poke 1 0 1028 (List.replicate 1028 0)).wf = false := by decide +kernel

/-! ### Worked values of the spec -/

/-- The line of chapter 6's second example after the across-track step. -/
theorem test_scaled_line :
    scaleLine 2 3 8 [200, 210, 60, 40, 50, 220, 230, 240, 90, 30, 180, 190] = [203, 110, 43, 163, 233, 140, 80, 187] := by
  decide

/-- A descriptor that only its depth, threshold and coding matter of. -/
def coded (depth : Depth) (threshold : Threshold) (coding : Coding) : Descriptor :=
  { strip1 with depth := depth, threshold := threshold, coding := coding }

def exampleLine : List Nat := [203, 110, 43, 163, 233, 140, 80, 187]

theorem test_grey_lines :
    (let d := coded .gray4 (.fixed 0) .packed
     codeLine (fun _ => 0) d [] (startCoding d exampleLine) exampleLine = ([198, 42, 232, 91], [])
       ∧ codeLine (fun _ => 0) d [] (startCoding d [203]) [203] = ([192], []))
      ∧ (let d := coded .gray8 (.fixed 0) .packed
         codeLine (fun _ => 0) d [] (startCoding d exampleLine) exampleLine
           = ([203, 110, 43, 163, 233, 140, 80, 187], [])) := by decide

/-- The place before the line's byte: all eight values coded, the running level 163. -/
theorem test_running_place :
    let d := coded .bitonal (.running 20) .packed
    codeUntil (fun _ => 0) d 0 [] (startCoding d exampleLine) exampleLine
      = some ([102], [], { pixels := 8, level := some 163, run := (false, 0) }) := by decide

theorem test_fixed_packed :
    packBits (bitonalLine (.fixed 128) [203, 110, 43, 163, 233, 140, 80, 187]) = [98] := by decide

theorem test_running_packed :
    packBits (bitonalLine (.running 20) [203, 110, 43, 163, 233, 140, 80, 187]) = [102] := by decide

theorem test_runs_of_line :
    (runsFrom false 0 (bitonalLine (.fixed 128) exampleLine)).map Prod.snd = [1, 2, 3, 1, 1] := by decide

/-- Output lines 19, 20 and 21 of chapter 6's first example, at 133, 110 and 70. -/
theorem test_partial_sums :
    (let v := VerticalState.add 2 3 29 ⟨[100], 19⟩ [150]
     v.completes 2 3 29 = true ∧ v.values 3 = [133] ∧ (v.nextLine 2 3 none 29 [150]) = ⟨[0], 20⟩)
      ∧ (VerticalState.add 2 3 30 ⟨[0], 20⟩ [120] = ⟨[240], 20⟩ ∧ VerticalState.completes 2 3 30 ⟨[240], 20⟩ = false)
      ∧ (let v := VerticalState.add 2 3 31 ⟨[240], 20⟩ [90]
         v.completes 2 3 31 = true ∧ v.values 3 = [110] ∧ v.nextLine 2 3 none 31 [90] = ⟨[90], 21⟩)
      ∧ (VerticalState.add 2 3 32 ⟨[90], 21⟩ [60]).values 3 = [70] := by decide

/-- The check of no byte is 0 (the register's initial value inverted). -/
theorem test_check_of_nothing : checkOf [] = 0 := by decide

/-- Step 4 of the binding example of chapter 2: the window 12,686 to 12,734. -/
theorem test_window_bounds :
    atOrPast (12685 : Position) (12710 - 24) = false ∧ atOrPast (12686 : Position) (12710 - 24) = true
      ∧ past (12734 : Position) (12710 + 24) = false ∧ past (12735 : Position) (12710 + 24) = true := by decide

theorem test_status_length : live.statusResult.length = 191 := by decide +kernel

/-! ### One step of a command -/

theorem test_receiver_lock : (after (.receiverLock .track (List.replicate 32 .idle)) State.reset).links.track
    = { locked := true, up := false } := by decide +kernel

theorem test_power_on : (after (.powerOnReset 8#4) live).frameMemory.installedMiB = 512
    ∧ (after (.powerOnReset 3#4) live).frameMemory.installedMiB = 64 := by decide +kernel

theorem test_announce_takes_slot :
    ((after (.announce 9 1000 1500) announced).table.items.map fun it => (it.slot, it.announcedTag, it.state))
      = [(0, 7, .announced), (1, 9, .announced)] := by decide +kernel

theorem test_announce_reuses_tag :
    ((after (.announce 7 1000 1500) announced).table.items.map fun it => (it.slot, it.tag)) = [(0, some 7)]
      ∧ (after (.announce 7 1000 1500) announced).adviceOut.queue
          = [{ tag := 7, verdict := .refeed, cause := .tagReuse }] := by decide +kernel

theorem test_line_binds :
    (after (.line 0 1 1490 light) announced).capture.front.bound = some 0
      ∧ ((after (.line 0 1 1490 light) announced).table.items.map fun it => (it.state, it.front.lines, it.rear.expectedLead))
          = [(.capturing, 1, 2210)] := by decide +kernel

theorem test_line_gap_fills :
    ((after (.line 0 1 5004 light) (capturing .front 3)).table.items.map fun it => (it.front.lines, it.front.gap))
      = [(7, true)] := by decide +kernel

theorem test_credit_overflow :
    (after (.credit 255) (after (.credit 1) live)).emitter.credits = 255
      ∧ (after (.credit 255) (after (.credit 1) live)).reportsHeld
          = [.event { sequence := 0, body := .creditOverflow 255 1 }] := by decide +kernel

theorem test_unknown_kind_answered :
    (after (.requestUnknownKind 5 99 []) live).reportsHeld
      = [.response { corr := 5, kind := 99, code := .badValue, detail := 0, location := (0, 0, 0), result := [] }] := by
  decide +kernel

theorem test_park_busy :
    (after (.park 5) announced).reportsHeld
      = [.response { corr := 5, kind := 4, code := .busy, detail := 0, location := (0, 0, 0), result := [] }] := by
  decide +kernel

theorem test_batch_activates :
    (after (.batch 12) { live with sets := { live.sets with pendingActivation := some 1 } }).sets.active = some 1
      ∧ (after (.batch 12) { live with sets := { live.sets with pendingActivation := some 1 } }).reportsHeld
          = [.event { sequence := 0, body := .setActivated 1 2 (some 0) 12 }] := by decide +kernel

theorem test_poke_then_peek :
    (after (.burstEnd [.management]) (after (.poke 3 1048576 4 [9, 8, 7, 6]) live)).mem
      = [(1048576, 9), (1048577, 8), (1048578, 7), (1048579, 6)] := by decide +kernel

theorem test_release_frees :
    (after (.release 3 7 0) (withItems [retained])).table.items = []
      ∧ ((after (.rerender 3 7 16) (withItems [retained])).reportsHeld.map fun r => r.isResponse) = [true] := by
  decide +kernel

/-- Four code errors in a row take the link DOWN: the frame is discarded and not counted; a lone one spoils it. -/
theorem test_code_errors :
    (after (.badFrame .track [.data 1, .codeError, .codeError, .codeError, .codeError, .endOfFrame]) live).mgmt.counters.badTrack
      = 0
      ∧ (after (.badFrame .track [.data 1, .codeError, .data 2, .endOfFrame]) live).mgmt.counters.badTrack = 1 := by
  decide +kernel

/-- One burst of a served engine: 512 bytes of 600. -/
theorem test_output_burst :
    ((after (.burstEnd [.engine .re0])
        (rendered [readItem 0] [] (engineOn ref0 false readCtx (some longOutput))
          idle idle [])).engine .re0).work.map (fun w => (w.context.bytesWritten, w.output.map fun o => o.bytes.length))
      = some (512, some 88) := by decide +kernel

/-- A strip whose one line completes an output line of one byte, the block in hand full and none free: the engine is BLOCKED
in the middle of that line, the sums and the scaled line of it in hand, the byte not written. -/
theorem test_blocked_place :
    let s : State := rendered [readItem 0] [] (engineOn ref0 false { readCtx with bytesWritten := 4096 } none) idle idle goodCheck
    let t := after (.stripRead .re0) { s with
      mem := [(3612, 1), (3613, 1), (3614, 1), (3615, 1), (3876, 77), (33554432, 200), (33554433, 100)]
      frameMemory := { s.frameMemory with freeBlocks := [] } }
    (t.engine .re0).state = .blocked
      ∧ (t.engine .re0).work = some
          { context := { readCtx with bytesWritten := 4096, sums := [200] }
            output := some { bytes := [77]
                             place := some { next := 1, scaled := [200], lines := []
                                             coding := some { pixels := 1, level := none, run := (false, 0) } } } } := by
  decide +kernel

/-- A WITHDRAW of the item whose rendition is EMITTING, no frame in progress: the rendition is marked and dropped. -/
theorem test_emission_stops :
    (((after (.withdraw 1 7) (let s := withItems [{ rendering .emitting with emittedAny := true }]
        { s with emitter := { s.emitter with work := .rendition ref0 1 false } })).rendition? ref0).map
      fun q => (q.state, q.dropCause, q.stopping, q.chain)) = some (.dropped, some .cancelled, true, []) := by
  decide +kernel

/-- The frame of an ADVICE: kind 9, tag, verdict, cause, check. -/
theorem test_advice_frame :
    (State.laneOut { live with adviceOut := { queue := [{ tag := 0x0102, verdict := .refeed, cause := .late }], leftover := none } }
      .track).take 6 = [.start, .data 9, .data 1, .data 2, .data 2, .data 2] := by decide +kernel

/-- With no event place free the EVENT MODE of an engine reset is lost, and leaves no count. -/
theorem test_reset_counters :
    (after (.resetEngine 1) { live with mgmt := { live.mgmt with
      reports := List.replicate 32 (.event { sequence := 0, body := .dupCode 7 }) } }).mgmt.counters.eventsLost = 0 := by
  decide +kernel

/-! ### The statements' hypotheses -/

section Hypotheses

/-- The whole of a state's bounds. -/
theorem test_StepKeepsBounds : State.Sound { live with pending := [.credit 1] }
    ∧ ∃ t, step { live with pending := [.credit 1] } = .next t := by
  refine ⟨⟨List.Pairwise.nil, by decide, ?_, List.nodup_nil, List.nodup_nil, by decide, rfl, by decide, by decide, by decide,
    ?_, ?_⟩, ⟨_, rfl⟩⟩
  · intro it h; cases h
  · intro cam; cases cam <;> decide
  · intro cam; cases cam <;> decide

theorem test_StepRunsFront : ({ live with pending := [.halt, .resume] } : State).pending = .halt :: [.resume] := rfl

theorem test_FrameRoundTrip : (Instr.credit 5).wf = true ∧ frameOf (.credit 5) = some (.exchange, 16, [5])
    ∧ (Instr.halt).wf = true ∧ frameOf .halt = some (.track, 5, []) := by decide

theorem test_PowerOnReset : (3 : BitVec 4) ≠ 0b0001#4 ∧ (3 : BitVec 4) ≠ 0b0010#4 ∧ (3 : BitVec 4) ≠ 0b0100#4
    ∧ (3 : BitVec 4) ≠ 0b1000#4 := by decide

theorem test_ReceiverLockAndUnlock :
    (State.reset.links.link .track).locked = false ∧ 32 ≤ (List.replicate 32 LaneChar.idle).length
      ∧ (∀ c ∈ (List.replicate 32 LaneChar.idle).drop 0, c ≠ LaneChar.codeError)
      ∧ (live.links.link .exchange).locked = true
      ∧ (∀ c ∈ (LaneChar.idle :: List.replicate 4 LaneChar.codeError).drop 1, c = LaneChar.codeError) := by decide

theorem test_LinkComesUp :
    let s := State.reset.setLink .track { locked := true, up := false }
    (s.links.link .track).locked = true ∧ (s.links.link .track).up = false ∧ LaneChar.ready ∈ [LaneChar.ready]
      ∧ 16 ≤ 16 ∧ (State.reset.links.link .track).locked = false ∧ LaneChar.ready ∉ [LaneChar.idle] ∧ 15 < 16 := by
  decide

theorem test_TrackLinkLost : parked.links.track.up = true ∧ parked.mgmt.mode ≠ .running
    ∧ parked.mgmt.counters.adviceLost.toNat + parked.adviceOut.held < 2 ^ 32
    ∧ announced.links.track.up = true ∧ announced.mgmt.mode = .running ∧ announced.EventRoom :=
  ⟨rfl, by decide, by decide, rfl, rfl, rfl, by decide⟩

theorem test_ExchangeLinkLost :
    live.links.exchange.up = true ∧ live.emitter.discarded = false ∧ live.mgmt.headWait ≠ .engineReset
      ∧ live.emitter.work = .idle
      ∧ (let s := sending (rendering .emitting) (.segment ⟨7, 0, 0, 1, []⟩) (.rendition ref0 1 false)
         s.links.exchange.up = true ∧ s.emitter.discarded = false ∧ s.mgmt.headWait ≠ .engineReset
           ∧ s.emitter.work = .rendition ref0 1 false ∧ s.isStopping ref0 = false)
      ∧ (let s := sending (rendering .emitted) (.summary (live.summaryOf fresh)) (.summary 0)
         s.links.exchange.up = true ∧ s.emitter.discarded = false ∧ s.mgmt.headWait ≠ .engineReset
           ∧ s.emitter.work = .summary 0 ∧ s.item? 0 = some (rendering .emitted)
           ∧ (rendering .emitted).deferredCancel = none) := by decide +kernel

theorem test_FramesNeedLinkUp :
    (State.reset.links.link .track).up = false ∧ (State.reset.links.link .exchange).up = false
      ∧ frameOf .halt = some (.track, 5, []) ∧ frameOf (.status 3) = some (.exchange, 17, [3, 1])
      ∧ frameOf (.frameKindRefused .track 9 [1]) = some (.track, 9, [1]) := by decide

theorem test_BadFrames :
    live.links.track.up = true ∧ live.links.exchange.up = true ∧ [1, 2, 3, (4 : Byte)].length < 5
      ∧ 1040 < (List.replicate 1041 (0 : Byte)).length
      ∧ [1, 2, 3, 4, (5 : Byte)].drop (5 - 4) ≠ wordBytes (checkOf ([1, 2, 3, 4, (5 : Byte)].take (5 - 4)))
      ∧ 6 < (7 : Byte).toNat ∧ [1, 2, 3, 4, (5 : Byte)].length < 6 ∧ [1, (2 : Byte)].length ≠ 1 := by decide +kernel

theorem test_LineNotTaken :
    live.links.track.up = true ∧ 2 ≤ (2 : Byte).toNat ∧ [(1 : Byte)].length ≠ live.mgmt.settings.lineWidth.toNat
      ∧ (let s := live.modifyChannel .front fun c => { c with portPosition := some 50 }
         (s.channel .front).portPosition = some 50 ∧ past 50 50 = false)
      ∧ (let s := live.modifyChannel .rear fun c =>
           { c with fifo := List.replicate 16 { slot := 0, camera := .rear, firstIndex := 0, fills := 0, pixels := none } }
         s.GoodLine .rear 1000 light ∧ 16 ≤ (s.channel .rear).fifo.length) :=
  ⟨rfl, by decide, by decide, ⟨rfl, by decide⟩, goodOf rfl (by decide) rfl (dueOf rfl rfl rfl (by decide)), by decide⟩

theorem test_LineOutsideCapture :
    live.GoodLine .front 1000 light ∧ (live.channel .front).fifo.length < 16 ∧ (live.channel .front).state = .idle
      ∧ (live.channel .front).previousFlag = true
      ∧ (let s := live.modifyChannel .rear fun c => { c with state := .skip }
         s.GoodLine .rear 1000 light ∧ (s.channel .rear).fifo.length < 16 ∧ (s.channel .rear).state = .skip)
      ∧ (let s := live.modifyChannel .rear fun c => { c with previousFlag := false }
         s.GoodLine .rear 1000 light ∧ (s.channel .rear).state = .idle ∧ (s.channel .rear).previousFlag = false
           ∧ s.mgmt.mode = .running ∧ s.EventRoom ∧ (s.channel .rear).pendingList = [])
      ∧ announced.GoodLine .front 1455 light ∧ (announced.channel .front).pendingList.head? = some 0
      ∧ announced.item? 0 = some fresh ∧ past 1455 ((fresh.side .front).expectedLead + announced.tolerance) = false
      ∧ atOrPast 1455 ((fresh.side .front).expectedLead - announced.tolerance) = false :=
  ⟨liveGood _, by decide, rfl, rfl,
    ⟨goodOf rfl (by decide) rfl (dueOf rfl rfl rfl (by decide)), by decide, rfl⟩,
    ⟨goodOf rfl (by decide) rfl (dueOf rfl rfl rfl (by decide)), rfl, rfl, rfl, ⟨rfl, by decide⟩, rfl⟩,
    announcedGood _ _ (by decide +kernel) (by decide +kernel), rfl, by decide +kernel, by decide +kernel, by decide +kernel⟩

theorem test_EdgeIsBound :
    announced.GoodLine .front 1456 light ∧ announced.GoodLine .front 1504 light
      ∧ (announced.channel .front).fifo.length < 16 ∧ (announced.channel .front).state = .idle
      ∧ (announced.channel .front).previousFlag = false ∧ announced.mgmt.mode = .running
      ∧ (announced.channel .front).pendingList = [0] ∧ announced.item? 0 = some fresh
      ∧ past 1504 ((fresh.side .front).expectedLead + announced.tolerance) = false
      ∧ atOrPast 1456 ((fresh.side .front).expectedLead - announced.tolerance) = true
      ∧ (fresh.side .front).lines = 0 ∧ (fresh.side .front).chain = [] ∧ announced.frameMemory.freeStrips = 0 :: [1]
      ∧ announced.mgmt.settings.maxSideLength.toNat ≠ 1 :=
  ⟨announcedGood _ _ (by decide +kernel) (by decide +kernel), announcedGood _ _ (by decide +kernel) (by decide +kernel),
    by decide, rfl, rfl, rfl, rfl, by decide +kernel, by decide +kernel, by decide +kernel, rfl, rfl, rfl, by decide⟩

/-- The REAR side of a slot whose FRONT side is captured already is bound likewise. -/
theorem test_EdgeIsBound_rear :
    let it : Item := { fresh with state := .capturing, front := { fresh.front with capture := .active } }
    let s := (withItems [it]).modifyChannel .rear fun c => { c with pendingList := [0], previousFlag := false }
    s.GoodLine .rear 2200 light ∧ (s.channel .rear).pendingList = [0] ∧ s.item? 0 = some it
      ∧ it.front.capture ≠ .pending ∧ atOrPast 2200 ((it.side .rear).expectedLead - s.tolerance) = true := by
  refine ⟨goodOf rfl (by decide) rfl (dueOf rfl (by decide +kernel) (by decide +kernel) (by decide +kernel)), rfl, ?_, ?_, ?_⟩
  all_goals decide +kernel

theorem test_LineInCapture :
    (capturing .front 31).GoodLine .front 5001 light ∧ ((capturing .front 31).channel .front).fifo.length < 16
      ∧ ((capturing .front 31).channel .front).state = .capture
      ∧ ((capturing .front 31).channel .front).bound = some 0
      ∧ ((capturing .front 31).channel .front).lastPosition = some (5001 - 1)
      ∧ (∃ it, (capturing .front 31).item? 0 = some it ∧ (it.side .front).lines % 32 ≠ 0
          ∧ (it.side .front).lines + 1 ≠ (capturing .front 31).mgmt.settings.maxSideLength.toNat
          ∧ ∃ a, (it.side .front).accumulators = some a)
      ∧ (capturing .rear 40).GoodLine .rear 5001 light
      ∧ (∃ it, (capturing .rear 40).item? 0 = some it ∧ it.front.capture ≠ .complete) :=
  ⟨capturingGood _ _ _, by decide, rfl, rfl, rfl, ⟨_, rfl, by decide, by decide, _, rfl⟩, capturingGood _ _ _,
    ⟨_, rfl, by decide⟩⟩

/-- One missing line, and eight that reach the last place of a strip. -/
theorem test_LineInCapture_gap :
    (capturing .front 1).GoodLine .front 5002 light
      ∧ ((capturing .front 1).channel .front).lastPosition = some (5002 - 1 - BitVec.ofNat 32 1)
      ∧ (∃ it, (capturing .front 1).item? 0 = some it ∧ (it.side .front).lines % 32 + 1 < 32)
      ∧ (capturing .rear 23).GoodLine .rear 5009 light
      ∧ ((capturing .rear 23).channel .rear).lastPosition = some (5009 - 1 - BitVec.ofNat 32 8)
      ∧ (∃ it, (capturing .rear 23).item? 0 = some it ∧ (it.side .rear).lines % 32 + 8 < 32
          ∧ (it.side .rear).lines + 8 + 1 < (capturing .rear 23).mgmt.settings.maxSideLength.toNat
          ∧ ∃ a, (it.side .rear).accumulators = some a) :=
  ⟨capturingGood _ _ _, by decide, ⟨_, rfl, by decide⟩, capturingGood _ _ _, by decide, ⟨_, rfl, by decide, by decide, _, rfl⟩⟩

theorem test_LineInCapture_truncates :
    (capturing .rear 2303).GoodLine .rear 5001 light
      ∧ (∃ it, (capturing .rear 2303).item? 0 = some it ∧ (it.side .rear).lines % 32 ≠ 0
          ∧ (it.side .rear).lines + 1 = (capturing .rear 2303).mgmt.settings.maxSideLength.toNat
          ∧ (it.side (otherCamera .rear)).capture ≠ .complete) :=
  ⟨capturingGood _ _ _, ⟨_, rfl, by decide, by decide, by decide⟩⟩

/-- The REAR side completes after the FRONT side, with a reference position before the deadline. -/
theorem test_LineInCapture_second :
    let s := (capturingAs .rear 40 fun it => { it with front := { it.front with capture := .complete } }).modifyChannel .front
      fun c => { c with portPosition := some 5000 }
    s.GoodLine .rear 5001 light
      ∧ (∃ it, s.item? 0 = some it ∧ it.front.capture = .complete ∧ it.state = .capturing ∧ it.profile = none)
      ∧ s.reference = some 5000 ∧ atOrPast 5000 (5001 + s.mgmt.settings.adviceMargin.setWidth 32) = false :=
  ⟨goodOf rfl rfl rfl (dueOf rfl rfl rfl (by intro it h; obtain rfl := List.mem_singleton.1 h; exact ⟨rfl, rfl⟩)),
    ⟨_, rfl, rfl, rfl, rfl⟩, rfl, by decide⟩

/-- The FRONT side completes: with a classify margin, without one, and as the second side with the advice deadline
reached. -/
theorem test_LineInCapture_front :
    let it := taken .front 40
    let f : Item → Item := fun it => { it with rear := { it.rear with capture := .complete }, adviceDeadline := some 5001 }
    let bare : State := { capturing .front 40 with mgmt := { live.mgmt with
      settings := { live.mgmt.settings with classifyMargin := 0 } } }
    ((capturing .front 40).item? it.slot = some it ∧ ((capturing .front 40).channel .front).bound = some it.slot
        ∧ ((capturing .front 40).table.items.map Item.slot).Nodup ∧ it.rear.capture ≠ .complete
        ∧ 1 ≤ (capturing .front 40).mgmt.settings.classifyMargin.toNat)
      ∧ (bare.GoodLine .front 5001 light ∧ bare.mgmt.settings.classifyMargin = 0 ∧ bare.item? it.slot = some it
        ∧ it.classification = .unclassified ∧ it.state ≠ .cancelling)
      ∧ ((capturingAs .front 40 f).GoodLine .front 5001 light ∧ (capturingAs .front 40 f).Cancellable (f it)
        ∧ (f it).rear.capture = .complete ∧ (f it).state = .capturing ∧ (f it).generation = 0
        ∧ (f it).advice = none ∧ (f it).adviceDeadline = some 5001 ∧ atOrPast 5001 5001 = true) := by
  refine ⟨⟨?_, rfl, ?_, ?_, ?_⟩, ⟨?_, rfl, ?_, rfl, ?_⟩, ?_, ⟨?_, ?_, ?_, ?_⟩, rfl, rfl, rfl, rfl, rfl, ?_⟩
  case refine_5 =>
    exact goodOf rfl rfl rfl (dueOf rfl rfl rfl (by intro it h; obtain rfl := List.mem_singleton.1 h; exact ⟨rfl, rfl⟩))
  case refine_8 =>
    refine capturingAsGood .front 40 _ 5001 _ rfl rfl rfl rfl rfl (fun c => by cases c <;> rfl) ?_
    intro it h
    obtain rfl := List.mem_singleton.1 h
    exact ⟨rfl, Or.inr (by decide)⟩
  all_goals decide +kernel

theorem test_LongGapLosesItem :
    let x : Side := { fresh.front with capture := .active, leading := some 4990, lines := 3, chain := [{ strip := 9, lines := 3 }] }
    let it : Item := { fresh with front := x, state := .capturing }
    (capturing .front 3).GoodLine .front 5010 light ∧ ((capturing .front 3).channel .front).bound = some it.slot
      ∧ ((capturing .front 3).channel .front).lastPosition = some 5000 ∧ 10 ≤ ((5010 : Position) - 5000).toNat
      ∧ (capturing .front 3).Cancellable it :=
  ⟨capturingGood _ _ _, rfl, rfl, by decide, ⟨by decide +kernel, by decide, by decide, by decide⟩⟩

/-- A line that needs a strip with none free: nothing RETAINED, and one item RETAINED with two strips. -/
theorem test_LongGapLosesItem_strips :
    let x : Side := { fresh.front with capture := .active, leading := some 4990, lines := 32, chain := [{ strip := 9, lines := 32 }] }
    let it : Item := { fresh with front := x, state := .capturing }
    let v : Item := { fresh with slot := 1, tag := some 8, state := .retained, front := { fresh.front with
      chain := [{ strip := 7, lines := 32 }, { strip := 5, lines := 2 }] } }
    let bare (s : State) : State := { s with frameMemory := { s.frameMemory with freeStrips := [] } }
    let s := bare (capturing .front 32)
    let u := bare { capturing .front 32 with table := { (capturing .front 32).table with items := [v, it] } }
    (s.GoodLine .front 5001 light ∧ s.Cancellable it ∧ (it.side .front).lines % 32 = 0 ∧ s.frameMemory.freeStrips = []
        ∧ (∀ y ∈ s.table.items, y.state ≠ .retained))
      ∧ (u.GoodLine .front 5001 light ∧ u.Cancellable it ∧ u.table.items = [] ++ v :: [it] ∧ v.state = .retained
        ∧ it.state ≠ .retained ∧ (v.front.chain ++ v.rear.chain).map ChainStrip.strip = 7 :: [5] ∧ u.EventRoom
        ∧ (it.side .front).lines + 1 ≠ u.mgmt.settings.maxSideLength.toNat) := by
  refine ⟨⟨goodOf rfl rfl rfl (dueOf rfl rfl rfl ?_), ⟨by decide +kernel, by decide, by decide, by decide⟩, by decide, rfl,
    by decide +kernel⟩, ⟨goodOf rfl rfl rfl (dueOf rfl rfl rfl ?_), ⟨by decide +kernel, by decide, by decide, by decide⟩, rfl,
    rfl, by decide, by decide, ⟨rfl, by decide⟩, by decide⟩⟩
  all_goals decide +kernel

theorem test_WindowPassed :
    let s := announced.modifyChannel .front fun c => { c with portPosition := some 1505 }
    s.reference = some 1505 ∧ s.Cancellable fresh ∧ s.capture.front.pendingList = [fresh.slot]
      ∧ past 1505 (fresh.front.expectedLead + s.tolerance) = true
      ∧ s.capture.rear.pendingList.head? = some 0 ∧ past 1505 (fresh.rear.expectedLead + s.tolerance) = false
      ∧ State.reset.reference = none :=
  ⟨rfl, ⟨by decide +kernel, by decide, by decide, by decide⟩, rfl, by decide +kernel, rfl, by decide +kernel, rfl⟩

theorem test_ClassifyDeadline :
    let it : Item := { fresh with classifyDeadline := some 900 }
    let s := (withItems [{ fresh with slot := 1 }, it]).modifyChannel .front fun c => { c with portPosition := some 900 }
    s.reference = some 900 ∧ s.table.items = [{ fresh with slot := 1 }] ++ it :: [] ∧ (s.table.items.map Item.slot).Nodup
      ∧ (∀ x ∈ [{ fresh with slot := 1 }], x.classifyDeadline = none) ∧ it.classification = .unclassified
      ∧ it.state ≠ .cancelling ∧ it.classifyDeadline = some 900 ∧ atOrPast 900 900 = true := by decide +kernel

theorem test_AdviceDeadline :
    let it : Item := { fresh with adviceDeadline := some 900, state := .processing }
    let s := (withItems [it]).modifyChannel .front fun c => { c with portPosition := some 900 }
    s.reference = some 900 ∧ s.table.items = [] ++ it :: [] ∧ s.Cancellable it ∧ it.generation = 0
      ∧ it.state = .processing ∧ it.advice = none ∧ it.adviceDeadline = some 900 ∧ atOrPast 900 900 = true :=
  ⟨rfl, rfl, ⟨by decide +kernel, by decide, by decide, by decide⟩, rfl, rfl, rfl, rfl, by decide⟩

theorem test_LineIsWritten :
    (live.channel .front).fifo = []
      ∧ (∃ it c, ((after (.line 0 1 5001 light) (capturing .front 30)).channel .front).fifo
            = { slot := 0, camera := .front, firstIndex := 30, fills := 0, pixels := some light } :: []
          ∧ (after (.line 0 1 5001 light) (capturing .front 30)).item? 0 = some it
          ∧ (it.side .front).chain[30 / 32]? = some c ∧ 30 % 32 ≠ 31 ∧ (it.side .front).capture ≠ .complete
          ∧ (after (.line 0 1 5001 light) (capturing .front 30)).render.queue = []) :=
  ⟨rfl, _, _, by decide +kernel, rfl, rfl, by decide, by decide +kernel, by decide +kernel⟩

/-- One line of two pixels waits in the FRONT FIFO: line `n` of the item, its strip `c`, with the engines and queue. -/
def writing (it : Item) (n fills : Nat) (queue : List RendRef) (e0 e1 e2 : Engine) : State :=
  (rendered [it] queue e0 e1 e2 []).modifyChannel .front fun ch =>
    { ch with fifo := [{ slot := 0, camera := .front, firstIndex := n, fills := fills, pixels := some [1, 2] }]
              lastLine := some [3, 4] }

/-- An item with one strip sealed and the second full, its rendition waiting for the second. -/
def sealing (key : Key) (complete : Bool) : Item :=
  let x : Side := { fresh.front with
    capture := if complete then .complete else .active, lines := 64, sealedCount := 1
    chain := [{ strip := 0, lines := 32 }, { strip := 1, lines := 32 }] }
  { fresh with front := x, state := .capturing, key := key
               renditions := some [{ readQ with state := .paused, context := some { readCtx with nextStrip := 1 } }] }

/-- The 32nd line of a strip, and the last line of a COMPLETE side, with nothing waiting. -/
theorem test_LineIsWritten_seals :
    (let s := writing (sealing (.pos 9000) false) 63 0 [] idle idle idle
     (s.channel .front).fifo = { slot := 0, camera := .front, firstIndex := 63, fills := 0, pixels := some [1, 2] } :: []
       ∧ s.item? 0 = some (sealing (.pos 9000) false)
       ∧ ((sealing (.pos 9000) false).side .front).chain[63 / 32]? = some { strip := 1, lines := 32 } ∧ 63 % 32 = 31
       ∧ ((sealing (.pos 9000) false).side .front).chain[((sealing (.pos 9000) false).side .front).sealedCount]?
           = some { strip := 1, lines := 32 })
      ∧ (((sealing (.pos 9000) true).side .front).capture = .complete
          ∧ 63 + 1 = ((sealing (.pos 9000) true).side .front).lines) := by decide +kernel

/-- A rendition waits for the strip being sealed: an engine IDLE; all busy with a less urgent one RUNNING; all busy and a
key of NONE. -/
theorem test_LineIsWritten_wakes :
    let consumes (key : Key) (e0 e1 e2 : Engine) : Prop :=
      let s := writing (sealing key false) 63 0 [ref0] e0 e1 e2
      s.Consumes ref0 (sealing key false) { readQ with state := .paused, context := some { readCtx with nextStrip := 1 } }
        (((sealing key false).side .front).sealedCount + 1)
      ∧ (State.startContext { readQ with state := .paused, context := some { readCtx with nextStrip := 1 } }).nextStrip
          = ((sealing key false).side .front).sealedCount
    let held : RendRef := { slot := 1, index := 0 }
    let two : State := { writing (sealing (.pos 2000) false) 63 0 [ref0] (engineOn held false readCtx none) busy busy with
      table := { items := [sealing (.pos 2000) false, urgentItem], announceSeq := 2, rerenderSeq := 0 } }
    (consumes (.pos 9000) idle busy busy
        ∧ (writing (sealing (.pos 9000) false) 63 0 [ref0] idle busy busy).idleEngine? = some .re0)
      ∧ ((∀ e', (two.engine e').state ≠ .idle) ∧ (sealing (.pos 2000) false).key = .pos 2000
        ∧ (two.engine .re0).state = .running ∧ (two.engine .re0).yieldRequest = false
        ∧ (∀ e', (two.engine e').rendition = some held ↔ e' = .re0) ∧ two.moreUrgent ref0 held = true
        ∧ (∀ e', e' ≠ .re0 → (two.engine e').rendition = some { slot := 9, index := 0 })
        ∧ two.moreUrgent ref0 { slot := 9, index := 0 } = false)
      ∧ consumes .none busy busy busy := by
  refine ⟨⟨⟨⟨?_, ?_, rfl, by decide, by decide, by decide⟩, rfl⟩, by decide +kernel⟩,
    ⟨all_engines ?_, rfl, rfl, rfl, unique_holder ?_, ?_, ?_, ?_⟩, ⟨⟨?_, ?_, rfl, by decide, by decide, by decide⟩, rfl⟩⟩
  case refine_6 => intro e' h; cases e' <;> first | rfl | exact absurd rfl h
  all_goals decide +kernel

/-- Fill lines before a line: none of them reaches the end of the strip. -/
theorem test_LineIsWritten_fills :
    let s := writing (sealing (.pos 9000) false) 60 1 [] idle idle idle
    (s.channel .front).fifo = { slot := 0, camera := .front, firstIndex := 60, fills := 0 + 1, pixels := some [1, 2] } :: []
      ∧ s.item? 0 = some (sealing (.pos 9000) false)
      ∧ ((sealing (.pos 9000) false).side .front).chain[60 / 32]? = some { strip := 1, lines := 32 }
      ∧ (s.channel .front).lastLine = some [3, 4] ∧ ((sealing (.pos 9000) false).side .front).capture ≠ .complete
      ∧ s.render.queue = [] ∧ 60 % 32 + 0 + 1 < 31 := by decide +kernel

/-- One burst of the line writer writes one fill line, and the rest of the entry waits. -/
theorem test_line_burst :
    ((after (.burstEnd [.lineWriter .front]) (writing (sealing (.pos 9000) false) 60 2 [] idle idle idle)).channel
      .front).fifo.map (fun f => (f.firstIndex, f.fills)) = [(61, 1)] := by decide +kernel

theorem test_FrameMemoryHoldsBytes : Memory.wf live.mem ∧ 10 = 8 + 2 ∧ [1, 2, (3 : Byte)][2]? = some 3
    ∧ 8 + [1, 2, (3 : Byte)].length ≤ 11 ∧ 7 < 8 := by decide

theorem test_AnnounceRefused :
    live.AdviceRoom ∧ (1 : Half) ≠ 0 ∧ halted.AdviceRoom ∧ halted.mgmt.mode ≠ .running
      ∧ (let s := live.modifyChannel .front fun c => { c with pendingList := List.replicate 8 0 }
         s.AdviceRoom ∧ s.mgmt.mode = .running ∧ (∀ it ∈ s.table.items, it.tag ≠ some 7) ∧ s.table.items.length < 32
           ∧ 8 ≤ (s.channel .front).pendingList.length)
      ∧ (let s := withItems (List.replicate 32 fresh)
         s.AdviceRoom ∧ s.mgmt.mode = .running ∧ (∀ it ∈ s.table.items, it.tag ≠ some 8) ∧ 32 ≤ s.table.items.length
           ∧ (∀ it ∈ s.table.items, it.state ≠ .retained)) := by
  refine ⟨⟨rfl, by decide⟩, by decide, ⟨rfl, by decide⟩, by decide, ⟨⟨rfl, by decide⟩, ?_⟩, ⟨⟨rfl, by decide⟩, ?_⟩⟩
  all_goals decide +kernel

theorem test_AnnounceAccepted :
    announced.links.track.up = true ∧ (1 : Half) ≠ 0 ∧ announced.mgmt.mode = .running
      ∧ (∀ it ∈ announced.table.items, it.tag ≠ some 8) ∧ announced.table.items.length < 32
      ∧ (announced.channel .front).pendingList.length < 8 ∧ (announced.channel .rear).pendingList.length < 8
      ∧ announced.sets.active = some 0 ∧ 1 < 32 ∧ (∀ it ∈ announced.table.items, it.slot ≠ 1)
      ∧ (∀ j < 1, ∃ it ∈ announced.table.items, it.slot = j) := by decide +kernel

/-- A tag in use: by an item of which something was emitted, and by one just announced. -/
theorem test_AnnounceAccepted_supersedes :
    let old : Item := { rendering .emitted with emittedAny := true }
    let s := withItems [old]
    (s.itemByTag? 7 = some old ∧ s.Cancellable old ∧ (s.channel .front).pendingList.length < 8
        ∧ (s.channel .rear).pendingList.length < 8 ∧ s.sets.active = some 0 ∧ s.table.items.length < 32
        ∧ s.render.queue = [] ∧ old.emittedAny = true
        ∧ (∀ q ∈ old.renditions.getD [], q.state = .emitted ∨ q.state = .dropped) ∧ (∀ it ∈ s.table.items, it.slot < 32))
      ∧ (announced.itemByTag? 7 = some fresh ∧ announced.Cancellable fresh ∧ fresh.emittedAny = false
        ∧ fresh.renditions = none ∧ fresh.generation = 0 ∧ fresh.advice = none ∧ announced.AdviceRoom) := by
  refine ⟨⟨?_, ⟨?_, ?_, ?_, ?_⟩, ?_⟩, ?_, ⟨?_, ?_, ?_, ?_⟩, rfl, rfl, rfl, rfl, ⟨rfl, by decide⟩⟩
  all_goals decide +kernel

/-- Every slot taken, the item in slot 1 the oldest RETAINED one. -/
theorem test_AnnounceAccepted_evicts :
    let item (i : Nat) : Item := { fresh with slot := i, tag := some (BitVec.ofNat 16 (100 + i)),
                                              state := if i = 0 then .processing else .retained }
    let s := withItems ((List.range 32).map item)
    (∀ it ∈ s.table.items, it.tag ≠ some 7) ∧ s.table.items.length = 32 ∧ (s.table.items.map Item.slot).Nodup
      ∧ (∀ it ∈ s.table.items, it.slot < 32) ∧ s.EventRoom
      ∧ s.table.items = [item 0] ++ item 1 :: (List.range' 2 30).map item ∧ (∀ x ∈ [item 0], x.state ≠ .retained)
      ∧ (item 1).state = .retained := by
  refine ⟨?_, ?_, ?_, ?_, ⟨rfl, ?_⟩, ?_, ?_, ?_⟩
  all_goals decide +kernel

/-- A code line block of nine routing symbols. -/
def goodBlock : CodeBlock := { status := 0, routing := List.replicate 9 1, account := [], serial := [], tcode := [], amount := [] }

theorem test_CodeMalformed :
    live.links.track.up = true ∧ (2 : Byte).toNat ≤ 2
      ∧ ({ goodBlock with routing := List.replicate 8 1 } : CodeBlock).routing.length ≠ 9
      ∧ 17 < (List.replicate 18 (1 : Byte)).length ∧ 10 < (List.replicate 11 (1 : Byte)).length
      ∧ 6 < (List.replicate 7 (1 : Byte)).length ∧ (List.replicate 9 (1 : Byte)).length ≠ 0
      ∧ (List.replicate 9 (1 : Byte)).length ≠ 10 ∧ 10 ≤ (14 : Byte).toNat ∧ (14 : Byte) ≠ 15 := by decide

theorem test_CodeUnknownTag :
    live.links.track.up = true ∧ live.EventRoom ∧ (codeLineOf goodBlock).isSome = true
      ∧ (∀ it ∈ live.table.items, it.tag ≠ some 7)
      ∧ (let s := withItems [{ fresh with state := .cancelling }]
         s.EventRoom ∧ s.itemByTag? 7 = some { fresh with state := .cancelling }) :=
  ⟨rfl, ⟨rfl, by decide⟩, by decide, by decide, ⟨rfl, by decide +kernel⟩, by decide +kernel⟩

theorem test_CodeDuplicate :
    ∃ c, codeLineOf goodBlock = some c ∧
      (let it : Item := { fresh with classification := .byCode, codeLine := some c }
       let s := withItems [it]
       s.links.track.up = true ∧ s.EventRoom ∧ s.itemByTag? 7 = some it ∧ it.state ≠ .cancelling
         ∧ it.classification ≠ .unclassified ∧ it.codeLine = some c) :=
  ⟨_, rfl, rfl, ⟨rfl, by decide +kernel⟩, rfl, by decide +kernel, by decide +kernel, rfl⟩

theorem test_CodeStored :
    (codeLineOf goodBlock).isSome = true ∧ (withItems [fresh]).itemByTag? 7 = some fresh ∧ fresh.state ≠ .cancelling
      ∧ fresh.classification = .unclassified ∧ ((withItems [fresh]).table.items.map Item.slot).Nodup
      ∧ (let it : Item := { fresh with classification := .byDefault }
         (withItems [it]).itemByTag? 7 = some it ∧ it.classification ≠ .unclassified ∧ it.codeLine = none)
      ∧ (codeLineOf { status := 2, routing := [], account := [], serial := [], tcode := [], amount := [] }).isSome = true := by
  decide +kernel

/-- An item of generation 0 in PROCESSING takes a code line of status NONE: with MEMCHECK held it is cancelled, without it
is FLAGGED. -/
theorem test_CodeStored_evaluates :
    let it (m : Bool) : Item := { fresh with state := .processing, flags := { fresh.flags with memcheck := m } }
    let s (m : Bool) : State := { rendered [it m] [] busy busy busy [] with mem := profileMem 0 }
    let coded (m : Bool) : QualityFlags := { fresh.flags with memcheck := m, noCode := true }
    let graded (m : Bool) : QualityFlags := (coded m).union (evaluationFlags ((s m).image 0) 0 fresh.front fresh.rear)
    (codeLineOf { status := 2, routing := [], account := [], serial := [], tcode := [], amount := [] }).map CodeLine.status
        = some .notFound
      ∧ ((s true).image 0).defaultProfile = 0 ∧ ((s true).image 0).renditionCount 0 = 1
      ∧ (∀ m, State.GradedBy ((s m).image 0) 0 fresh.front fresh.rear (coded m) (graded m))
      ∧ (s true).Cancellable (it true) ∧ (s false).Cancellable (it false)
      ∧ (s true).itemByTag? 7 = some (it true) ∧ (s false).itemByTag? 7 = some (it false)
      ∧ (∀ m e, ((s m).engine e).state ≠ .idle)
      ∧ verdictOf ((s true).image 0) 0 (graded true) = .refeed
      ∧ verdictOf ((s false).image 0) 0 (graded false) = .flagged := by
  refine ⟨?_, ?_, ?_, fun m => State.gradedBy_union _ _ _ _ _, ⟨?_, ?_, ?_, ?_⟩, ⟨?_, ?_, ?_, ?_⟩, ?_, ?_, ?_, ?_, ?_⟩
  case refine_14 => intro m e; cases e <;> simp [State.engine, Render.engine, rendered, busy]
  all_goals decide +kernel

/-- Rule 1 enabled with the selector ANY_UNREADABLE, no other rule. -/
def oneRule (i : Nat) : Byte := if i = 56 then 1 else if i = 57 then 5 else 0

theorem test_FirstRuleRoutes :
    (let c : CodeLine := { status := .partlyRead, routing := some [.unreadable], account := [], serial := [], tcode := [], amount := [] }
     1 < 64 ∧ Image.ruleEnabled oneRule 1 = true ∧ ruleMatches oneRule 1 c = true
       ∧ (∀ k < 1, Image.ruleEnabled oneRule k = false ∨ ruleMatches oneRule k c = false))
      ∧ (∀ e < 64, Image.ruleEnabled (fun _ => 0) e = false) := by decide +kernel

theorem test_BatchTaken :
    live.sets.pendingActivation = none
      ∧ (let s := { live with sets := { live.sets with pendingActivation := some 1 } }
         s.links.track.up = true ∧ s.sets.pendingActivation = some 1 ∧ s.sets.active = some 0
           ∧ (1 : SetNo) ≠ 0 ∧ s.EventRoom) :=
  ⟨rfl, rfl, rfl, rfl, by decide, rfl, by decide⟩

theorem test_HaltAndResume :
    parked.links.track.up = true ∧ parked.mgmt.mode ≠ .running ∧ live.mgmt.mode = .running ∧ live.EventRoom
      ∧ parked.mgmt.mode ≠ .halted ∧ halted.mgmt.mode = .halted ∧ halted.EventRoom :=
  ⟨rfl, by decide, rfl, ⟨rfl, by decide⟩, by decide, rfl, rfl, by decide⟩

theorem test_AdviceSent :
    live.links.track.up = true ∧ live.adviceOut.leftover = none ∧ live.links.track.locked = true
      ∧ live.adviceOut = { queue := [], leftover := none }
      ∧ (let s : State := { live with adviceOut := { queue := [], leftover := some ⟨7, .refeed, .jam⟩ } }
         s.links.track.up = true ∧ s.adviceOut.leftover = some ⟨7, .refeed, .jam⟩)
      ∧ (let s : State := { live with adviceOut := { queue := [⟨7, .refeed, .jam⟩], leftover := none } }
         s.adviceOut.leftover = none ∧ s.adviceOut.queue.head? = some ⟨7, .refeed, .jam⟩) :=
  ⟨rfl, rfl, rfl, rfl, ⟨rfl, rfl⟩, rfl, rfl⟩

/-- NO_CODE held, nothing else. -/
def noCodeHeld : QualityFlags := { fresh.flags with noCode := true }

/-- An item of a COMPLETE side whose rendition stands at its last strip, with bits left in the coder. -/
def lastItem (gen : Nat) (f : QualityFlags) : Item :=
  let it := readItem gen
  { it with front := { it.front with capture := .complete }, flags := f, profile := some 0, evaluated := true
            renditions := some [{ readQ with height := some 0 }, { rend .dropped with index := 1 }] }

/-- The same at the engine. -/
def finishing (gen : Nat) (f : QualityFlags) : State :=
  let s := rendered [lastItem gen f] [] (engineOn ref0 false { readCtx with coder := [true] } none) idle idle goodCheck
  { s with mem := profileMem 0 ++ s.mem }

theorem finishing_reads (gen : Nat) (f : QualityFlags) (hg : gen = 0 ∨ gen = 1)
    (hf : f = fresh.flags ∨ f = noCodeHeld) :
    (finishing gen f).Reads .re0 ref0 (lastItem gen f) { readQ with height := some 0 } { readCtx with coder := [true] }
        { strip := 0, lines := 1 }
      ∧ (finishing gen f).Matches { strip := 0, lines := 1 }
      ∧ (finishing gen f).ReadsLast (lastItem gen f) { readQ with height := some 0 } { readCtx with coder := [true] }
          { strip := 0, lines := 1 } := by
  unfold State.Matches
  rcases hg with rfl | rfl <;> rcases hf with rfl | rfl <;>
  · refine ⟨⟨rfl, rfl, rfl, ?_, ?_, rfl, rfl⟩, ?_, ⟨?_, Or.inl rfl, ⟨?_, ?_⟩⟩⟩
    all_goals decide +kernel

/-- Advice on settling: ACCEPT with no flag held, FLAGGED with NO_CODE held. -/
theorem test_AdviceSent_settles :
    (∀ f, f = fresh.flags ∨ f = noCodeHeld →
        (finishing 0 f).render.queue = [] ∧ ((finishing 0 f).table.items.map Item.slot).Nodup
          ∧ (lastItem 0 f).generation = 0 ∧ (lastItem 0 f).evaluated = true ∧ (lastItem 0 f).advice = none
          ∧ (lastItem 0 f).state ≠ .cancelling ∧ (lastItem 0 f).profile = some 0 ∧ (finishing 0 f).AdviceRoom
          ∧ (∀ y ∈ (lastItem 0 f).renditions.getD [], y.index ≠ 0 → y.state = .rendered ∨ y.state = .dropped))
      ∧ (let m (f : QualityFlags) : State := { finishing 0 f with
           mem := (finishing 0 f).memAfter { readQ with height := some 0 } { readCtx with coder := [true] }
             ((finishing 0 f).lastBytes (lastItem 0 f) { readQ with height := some 0 } { readCtx with coder := [true] }
               { strip := 0, lines := 1 }) }
         verdictOf ((m fresh.flags).image 0) 0 fresh.flags = .accept
           ∧ verdictOf ((m noCodeHeld).image 0) 0 noCodeHeld = .flagged) := by
  refine ⟨fun f hf => ?_, ?_⟩
  · rcases hf with rfl | rfl <;>
    · refine ⟨rfl, ?_, rfl, rfl, rfl, ?_, rfl, ⟨rfl, ?_⟩, ?_⟩
      all_goals decide +kernel
  · decide +kernel

theorem reading_reads (checks : List (Nat × Word)) (hc : checks = goodCheck ∨ checks = []) (gen : Nat) (hg : gen = 0 ∨ gen = 1) :
    (reading checks gen).Reads .re0 ref0 (readItem gen) readQ readCtx { strip := 0, lines := 1 } := by
  rcases hc with rfl | rfl <;> rcases hg with rfl | rfl <;>
  · refine ⟨rfl, rfl, rfl, ?_, ?_, rfl, rfl⟩
    all_goals decide +kernel

/-- A strip that matches and completes no output byte; the next strip is consumable to its last line. -/
theorem test_StripRead :
    (live.engine .re0).state ≠ .running
      ∧ (reading goodCheck 0).Reads .re0 ref0 (readItem 0) readQ readCtx { strip := 0, lines := 1 }
      ∧ (reading goodCheck 0).Matches { strip := 0, lines := 1 }
      ∧ State.Fits readQ readCtx ((reading goodCheck 0).reduceStrip (readItem 0) readQ readCtx { strip := 0, lines := 1 }).bytes
      ∧ (reading goodCheck 0).render.queue = [] ∧ ((readItem 0).side .front).capture ≠ .complete
      ∧ readCtx.nextStrip + 1 < ((readItem 0).side .front).sealedCount
      ∧ 32 * (readCtx.nextStrip + 2) + readQ.descriptor.tail ≤ ((readItem 0).side .front).lines := by
  unfold State.Matches State.Fits
  refine ⟨by decide, reading_reads _ (Or.inl rfl) _ (Or.inl rfl), ?_, ?_, rfl, ?_, ?_, ?_⟩
  all_goals decide +kernel

/-- The same at 1/1, where the line completes one output byte, the last that the block takes. -/
theorem test_StripRead_writes :
    let s : State := { reading goodCheck 0 with mem := [(3612, 1), (3613, 1), (3614, 1), (3615, 1), (3876, 77), (33554432, 200), (33554433, 100)] }
    let c : Context := { readCtx with bytesWritten := 4095 }
    (s.reduceStrip (readItem 0) readQ c { strip := 0, lines := 1 }).bytes = [77] ∧ State.Fits readQ c [77] := by
  unfold State.Fits; decide +kernel

/-- The same with the next strip not sealed, and asked to yield with a more urgent rendition waiting. -/
theorem test_StripRead_leaves :
    (let it : Item := { readItem 0 with front := { (readItem 0).front with sealedCount := 1 } }
     let s := rendered [it] [] (engineOn ref0 false readCtx none) idle idle goodCheck
     s.Reads .re0 ref0 it readQ readCtx { strip := 0, lines := 1 } ∧ s.Matches { strip := 0, lines := 1 }
       ∧ State.Fits readQ readCtx (s.reduceStrip it readQ readCtx { strip := 0, lines := 1 }).bytes
       ∧ (it.side .front).sealedCount ≤ readCtx.nextStrip + 1)
      ∧ (let u : RendRef := { slot := 1, index := 0 }
         let s := rendered [readItem 0, urgentItem] [u] (engineOn ref0 true readCtx none) busy busy goodCheck
         s.Reads .re0 ref0 (readItem 0) readQ readCtx { strip := 0, lines := 1 } ∧ s.Matches { strip := 0, lines := 1 }
           ∧ State.Fits readQ readCtx (s.reduceStrip (readItem 0) readQ readCtx { strip := 0, lines := 1 }).bytes
           ∧ s.render.queue = [u] ∧ u ≠ ref0 ∧ (s.engine .re0).yieldRequest = true ∧ (∀ e', (s.engine e').state ≠ .idle)
           ∧ s.Consumes u urgentItem { readQ with state := .queued } (urgentItem.side .front).sealedCount
           ∧ s.moreUrgent u ref0 = true ∧ s.moreUrgent ref0 u = false) := by
  unfold State.Matches State.Fits
  refine ⟨⟨⟨rfl, rfl, rfl, ?_, ?_, rfl, rfl⟩, ?_, ?_, ?_⟩, ⟨rfl, rfl, rfl, ?_, ?_, rfl, rfl⟩, ?_, ?_, rfl, ?_, rfl,
    all_engines ?_, ⟨?_, ?_, rfl, ?_, ?_, ?_⟩, ?_, ?_⟩
  all_goals decide +kernel

/-- The last strip of a rendition of a later generation; a strip that does not match, of both kinds of generation. -/
theorem test_StripRead_ends :
    (1 ≤ (lastItem 1 fresh.flags).generation ∧ (finishing 1 fresh.flags).render.queue = []
        ∧ (finishing 1 fresh.flags).Matches { strip := 0, lines := 1 })
      ∧ ((reading [] 1).Reads .re0 ref0 (readItem 1) readQ readCtx { strip := 0, lines := 1 }
        ∧ ¬ (reading [] 1).Matches { strip := 0, lines := 1 } ∧ (∀ e', ((reading [] 1).engine e').state ≠ .blocked)
        ∧ readQ.state = .running)
      ∧ (let it : Item := { readItem 0 with profile := some 0 }
         let s := rendered [it] [] (engineOn ref0 false readCtx none) idle idle []
         s.Reads .re0 ref0 it readQ readCtx { strip := 0, lines := 1 } ∧ ¬ s.Matches { strip := 0, lines := 1 }
           ∧ it.profile = some 0 ∧ it.advice = none ∧ s.Cancellable it) := by
  have none_matches : ∀ s : State, s.frameMemory.checks = [] → ¬ s.Matches { strip := 0, lines := 1 } := fun s h c => by
    unfold State.Matches at c
    rw [h] at c
    cases c
  refine ⟨⟨by decide, rfl, (finishing_reads 1 _ (Or.inr rfl) (Or.inl rfl)).2.1⟩,
    ⟨reading_reads _ (Or.inr rfl) _ (Or.inr rfl), none_matches _ rfl, all_engines ?_, rfl⟩,
    ⟨rfl, rfl, rfl, ?_, ?_, rfl, rfl⟩, none_matches _ rfl, rfl, rfl, ⟨?_, ?_, ?_, ?_⟩⟩
  all_goals decide +kernel

theorem test_ReductionSteps : [5, (6 : Nat)][1]? = some 6 := rfl

theorem test_OverlapsAddUp : 0 < 1 ∧ 1 ≤ 16 ∧ 16 ≤ 16 ∧ (1 + 1) * 16 ≤ 32 * 1
    ∧ (∀ v ∈ [0, 255], v ≤ 255) := by decide

theorem test_CreditTaken :
    live.links.exchange.up = true ∧ live.emitter.credits + (255 : Byte).toNat ≤ 255
      ∧ (let s : State := { live with emitter := { live.emitter with credits := 255 } }
         s.links.exchange.up = true ∧ (1 : Byte) ≠ 0 ∧ 255 < s.emitter.credits + (1 : Byte).toNat ∧ s.eventsHeld < 32) := by
  decide +kernel

/-- The Emitter at a frame boundary with one credit. -/
def choosing (it : Item) (w : EmitterWork) (l : List Slot) (q : List EmissionEntry) : State :=
  let s := withItems [it]
  { s with emitter := { s.emitter with work := w, credits := 1, summaryList := l, queue := q } }

theorem test_FrameChoice :
    State.reset.links.exchange.up = false ∧ live.links.exchange.up = true ∧ live.emitter.frame = none
      ∧ live.mgmt.reports = [] ∧ live.emitter.credits = 0
      ∧ (let s := choosing (rendering .emitting) (.rendition ref0 1 false) [] []
         s.links.exchange.up = true ∧ s.emitter.frame = none ∧ s.mgmt.reports = [] ∧ 0 < s.emitter.credits
           ∧ s.item? ref0.slot = some (rendering .emitting) ∧ s.rendition? ref0 = some (rend .emitting))
      ∧ (choosing (rendering .emitting) (.rendition ref0 2 true) [] []).rendition? ref0 = some (rend .emitting)
      ∧ (let s := choosing (rendering .emitted) .idle [0] []
         s.emitter.work = .idle ∧ s.emitter.summaryList = 0 :: [] ∧ s.item? 0 = some (rendering .emitted))
      ∧ (let s := choosing (rendering .rendered) .idle [] [.rendition ref0]
         s.emitter.work = .idle ∧ s.emitter.queue = .rendition ref0 :: [] ∧ s.item? ref0.slot = some (rendering .rendered)
           ∧ s.rendition? ref0 = some (rend .rendered))
      ∧ (let s := choosing { fresh with state := .cancelling } .idle [] [.notice 0]
         s.emitter.work = .idle ∧ s.emitter.queue = .notice 0 :: [] ∧ s.item? 0 = some { fresh with state := .cancelling }) := by
  decide +kernel

theorem test_FramePartsEnd :
    live.emitter.discarded = false ∧ live.mgmt.headWait ≠ .engineReset ∧ live.emitter.frame = none
      ∧ (let f : ExchangeFrame := .segment ⟨7, 0, 0, 1, []⟩
         let s := sending (rendering .emitting) f (.rendition ref0 1 false)
         s.emitter.discarded = false ∧ s.mgmt.headWait ≠ .engineReset ∧ s.emitter.frame = some f
           ∧ s.emitter.work = .rendition ref0 1 false ∧ s.rendition? ref0 = some (rend .emitting)
           ∧ (rend .emitting).stopping = false)
      ∧ (let f : ExchangeFrame := .header (live.headerOf fresh (rend .emitting))
         let s := sending (rendering .emitting) f (.rendition ref0 0 false)
         s.emitter.frame = some f ∧ s.rendition? ref0 = some (rend .emitting))
      ∧ (let f : ExchangeFrame := .report (.event ⟨0, .dupCode 7⟩)
         (sending fresh f .idle).emitter.frame = some f ∧ (sending fresh f .idle).emitter.work = .idle
           ∧ (sending (rendering .emitting) f (.rendition ref0 1 false)).rendition? ref0 = some (rend .emitting)) := by
  decide +kernel

/-- A stopping rendition of a CANCELLING item, in hand as a SEGMENT ends and as a report ends. -/
theorem test_FramePartsEnd_stops :
    let q : Rendition := { rend .emitting with stopping := true }
    let it : Item := { fresh with state := .cancelling, renditions := some [q], emittedAny := true }
    let f : ExchangeFrame := .segment ⟨7, 0, 0, 1, []⟩
    let s := sending it f (.rendition ref0 1 false)
    s.emitter.frame = some f ∧ (∀ x, f ≠ .cancel x) ∧ (∀ x, f ≠ .summary x) ∧ s.emitter.work = .rendition ref0 1 false
      ∧ s.item? ref0.slot = some it ∧ s.rendition? ref0 = some q ∧ q.stopping = true ∧ q.state = .emitting
      ∧ it.emittedAny = true ∧ (∀ e, (s.engine e).state ≠ .blocked) ∧ s.mgmt.reports = [] ∧ s.emitter.credits = 0
      ∧ it.state = .cancelling ∧ EmissionEntry.notice ref0.slot ∉ s.emitter.queue
      ∧ (∀ z ∈ it.renditions.getD [], z.index ≠ ref0.index → z.state ≠ .running ∧ z.state ≠ .emitting) := by
  refine ⟨rfl, fun x => nofun, fun x => nofun, rfl, ?_, ?_, rfl, rfl, rfl, all_engines ?_, rfl, rfl, rfl, ?_, ?_⟩
  all_goals decide +kernel

theorem test_TrailerEnds :
    let m : Trailer := ⟨7, 0, 0, 2, 9⟩
    let s := sending (rendering .emitting) (.trailer m) (.rendition ref0 2 true)
    s.emitter.discarded = false ∧ s.mgmt.headWait ≠ .engineReset ∧ s.emitter.frame = some (.trailer m)
      ∧ s.emitter.work = .rendition ref0 2 true ∧ s.item? ref0.slot = some (rendering .emitting)
      ∧ s.rendition? ref0 = some (rend .emitting) ∧ (rend .emitting).stopping = false
      ∧ (∀ e, (s.engine e).state ≠ .blocked) ∧ s.mgmt.reports = [] ∧ s.emitter.credits = 0 := by
  refine ⟨rfl, by decide, rfl, rfl, ?_, ?_, rfl, all_engines ?_, rfl, rfl⟩
  all_goals decide +kernel

/-- A TRAILER in progress with engine RE1 BLOCKED on rendition 1/0, and RE2 as given. -/
def trailing (gen : Nat) (e2 : Engine) (free : List Nat) : State :=
  let blocked : Item := { urgentItem with generation := gen, renditions := some [{ readQ with state := .blocked }] }
  let second : Item := { urgentItem with slot := 2, tag := some 9, key := .pos 3500, renditions := some [{ readQ with state := .blocked }] }
  let s := rendered [rendering .emitting, blocked, second] [] idle
    { state := .blocked, rendition := some { slot := 1, index := 0 }, yieldRequest := false, work := none } e2 []
  { s with
    emitter := { s.emitter with frame := some (.trailer ⟨7, 0, 0, 2, 9⟩), work := .rendition ref0 2 true }
    frameMemory := { s.frameMemory with freeBlocks := free } }

def blockedTwo : Engine := { state := .blocked, rendition := some { slot := 2, index := 0 }, yieldRequest := false, work := none }

/-- One BLOCKED engine and two, with one block returned and with two free; a later generation at the reserve. -/
theorem test_TrailerEnds_serves :
    let u : RendRef := { slot := 1, index := 0 }
    let w : RendRef := { slot := 2, index := 0 }
    let s := trailing 0 blockedTwo []
    (u ≠ ref0 ∧ (s.engine .re1).state = .blocked ∧ (∀ e', (s.engine e').rendition = some u ↔ e' = .re1)
        ∧ (∃ v, s.item? u.slot = some v ∧ v.generation = 0) ∧ s.rendition? u = some { readQ with state := .blocked }
        ∧ (rend .emitting).chain ≠ [] ∧ s.frameMemory.freeBlocks ++ (rend .emitting).chain = 5 :: [])
      ∧ (s.moreUrgent u w = true ∧ s.moreUrgent w u = false ∧ (s.engine .re2).rendition = some w)
      ∧ (let s2 := trailing 0 blockedTwo [3]
         w ≠ ref0 ∧ (s2.engine .re2).state = .blocked ∧ (∀ e', (s2.engine e').rendition = some w ↔ e' = .re2)
           ∧ (∀ e', e' ≠ .re1 → e' ≠ .re2 → (s2.engine e').state ≠ .blocked)
           ∧ (∃ v, s2.item? w.slot = some v ∧ v.generation = 0)
           ∧ s2.frameMemory.freeBlocks ++ (rend .emitting).chain = 3 :: 5 :: [])
      ∧ (let s1 := trailing 1 idle []
         (∃ v, s1.item? u.slot = some v ∧ 1 ≤ v.generation)
           ∧ [5].length ≤ s1.mgmt.settings.rerenderReserve.toNat
           ∧ (∀ e', e' ≠ .re1 → (s1.engine e').state ≠ .blocked)) := by
  refine ⟨⟨?_, rfl, unique_holder ?_, ⟨_, rfl, rfl⟩, ?_, ?_, rfl⟩, ⟨?_, ?_, rfl⟩,
    ⟨?_, rfl, unique_holder ?_, ?_, ⟨_, rfl, rfl⟩, rfl⟩, ⟨⟨_, rfl, by decide⟩, ?_, ?_⟩⟩
  case refine_9 => intro e' h1 h2; cases e' <;> first | decide | exact absurd rfl h1 | exact absurd rfl h2
  case refine_11 => intro e' h; cases e' <;> first | decide | exact absurd rfl h
  all_goals decide +kernel

theorem test_CancelNoticeEnds :
    let m : CancelNotice := ⟨7, 0, 0⟩
    let s := sending { fresh with state := .cancelling } (.cancel m) (.notice 0)
    s.emitter.discarded = false ∧ s.mgmt.headWait ≠ .engineReset ∧ s.emitter.frame = some (.cancel m)
      ∧ s.emitter.work = .notice 0 ∧ s.item? 0 = some { fresh with state := .cancelling } ∧ s.mgmt.reports = []
      ∧ s.emitter.credits = 0 ∧ (s.dir fresh.set).state ≠ .retiring := by decide +kernel

theorem test_SummaryEnds :
    (let m := live.summaryOf (rendering .emitted)
     let s := sending (rendering .emitted) (.summary m) (.summary 0)
     s.emitter.discarded = false ∧ s.mgmt.headWait ≠ .engineReset ∧ s.emitter.frame = some (.summary m)
       ∧ s.emitter.work = .summary 0 ∧ s.item? 0 = some (rendering .emitted) ∧ (rendering .emitted).deferredCancel = none)
      ∧ (let it : Item := { rendering .emitted with deferredCancel := some .withdrawn }
         let s := sending it (.summary (live.summaryOf it)) (.summary 0)
         s.item? 0 = some it ∧ it.deferredCancel = some .withdrawn ∧ (s.table.items.map Item.slot).Nodup) := by
  decide +kernel

theorem test_BurstPriority :
    let f : FifoEntry := { slot := 0, camera := .front, firstIndex := 0, fills := 0, pixels := none }
    let s := (live.modifyChannel .front fun c => { c with fifo := [f] }).modifyChannel .rear fun c => { c with fifo := [f] }
    (s.channel .front).fifo ≠ [] ∧ MemoryClient.lineWriter .front ∈ [MemoryClient.lineWriter .rear, .lineWriter .front]
      ∧ (s.channel .rear).fifo ≠ [] ∧ MemoryClient.lineWriter .front ∉ [MemoryClient.emitter, .lineWriter .rear]
      ∧ s.grant [.lineWriter .front] = some (.lineWriter .front) ∧ live.grant [.lineWriter .front] = none := by decide +kernel

/-- The Emitter with a SEGMENT due; two engines waiting; the Loader; management. -/
theorem test_BurstPriority_classes :
    (let s := choosing (rendering .emitting) (.rendition ref0 0 false) [] []
     MemoryClient.emitter ∈ [MemoryClient.loader, .emitter] ∧ s.emitter.work = .rendition ref0 0 false)
      ∧ (let u : RendRef := { slot := 1, index := 0 }
         let s := rendered [readItem 0, urgentItem] [] (engineOn ref0 false readCtx none) (engineOn u false readCtx none) idle []
         (s.engine .re1).state = .running ∧ (∀ e', (s.engine e').rendition = some u ↔ e' = .re1)
           ∧ (s.engine .re0).rendition = some ref0 ∧ s.moreUrgent u ref0 = true ∧ s.moreUrgent ref0 u = false)
      ∧ (∀ e, MemoryClient.engine e ∉ [MemoryClient.loader, .management])
      ∧ (live.mgmt.headWait ≠ .loaderWrite)
      ∧ (let s : State := { live with mgmt := { live.mgmt with headWait := .validation } }; s.mgmt.headWait = .validation)
      ∧ (let s : State := { live with mgmt := { live.mgmt with headWait := .managementBurst } }
         s.mgmt.headWait = .managementBurst ∧ MemoryClient.loader ∉ [MemoryClient.management]) := by
  refine ⟨?_, ⟨rfl, unique_holder ?_, rfl, ?_, ?_⟩, ?_, ?_, rfl, rfl, ?_⟩
  case refine_5 => intro e; cases e <;> decide
  all_goals decide +kernel

/-- An engine with 600 bytes to write, `done` bytes written before, in one block; `free` blocks left. -/
def spilling (gen done : Nat) (d : Descriptor) (free : List Nat) : State :=
  let it : Item := { readItem gen with renditions := some [{ readQ with descriptor := d }] }
  let s := rendered [it] []
    (engineOn ref0 false { readCtx with bytesWritten := done } (some longOutput)) idle
    idle []
  { s with frameMemory := { s.frameMemory with freeBlocks := free } }

theorem spilling_writes (gen done : Nat) (d : Descriptor) (free : List Nat) (hg : gen = 0 ∨ gen = 1)
    (hd : d = readQ.descriptor ∨ d = { readQ.descriptor with sizeLimit := 1 }) :
    (spilling gen done d free).Writes .re0 ref0
      { readItem gen with renditions := some [{ readQ with descriptor := d }] } { readQ with descriptor := d }
      { readCtx with bytesWritten := done } longOutput := by
  rcases hg with rfl | rfl <;> rcases hd with rfl | rfl <;> exact ⟨rfl, rfl, rfl, rfl, rfl, rfl⟩

/-- More room than a burst takes, just a burst's, and none; a block granted, none free, the reserve reached, the limit. -/
theorem test_BurstPriority_bursts :
    (∀ e', ((spilling 0 0 readQ.descriptor [0]).engine e').rendition = some ref0 ↔ e' = .re0)
      ∧ (512 < 4096 * readQ.chain.length - 0 ∧ min 512 (4096 * readQ.chain.length - 0) < 600)
      ∧ (((spilling 0 0 readQ.descriptor [0]).reduceRules (readItem 0) readQ).resume readCtx longOutput).bytes.length = 600
      ∧ (4096 * readQ.chain.length - 3584 ≤ 512 ∧ min 512 (4096 * readQ.chain.length - 3584) < 600
        ∧ 4096 * readQ.chain.length - 4096 ≤ 512)
      ∧ ((spilling 0 3584 readQ.descriptor [0]).frameMemory.freeBlocks = 0 :: []
        ∧ readQ.chain.length < readQ.descriptor.sizeLimit)
      ∧ (spilling 0 3584 readQ.descriptor []).frameMemory.freeBlocks = []
      ∧ (spilling 1 3584 readQ.descriptor [0]).frameMemory.freeBlocks.length
          ≤ (spilling 1 3584 readQ.descriptor [0]).mgmt.settings.rerenderReserve.toNat
      ∧ ({ readQ.descriptor with sizeLimit := 1 } : Descriptor).sizeLimit ≤ readQ.chain.length
      ∧ (∀ e', ((spilling 1 3584 { readQ.descriptor with sizeLimit := 1 } [0]).engine e').state ≠ .blocked) := by
  refine ⟨unique_holder ?_, ?_, ?_, ?_, ?_, rfl, ?_, ?_, all_engines ?_⟩
  all_goals decide +kernel

/-- A request at the head of the queue, waiting. -/
def waitingFor (r : Request) (w : HeadWait) (l : Option OpenLoad) : State :=
  { live with
    sets := { live.sets with load := l }
    mgmt := { live.mgmt with reserved := 1, headWait := w, requests := [{ corr := 1, request := r }] } }

theorem test_RequestBurstEnds :
    let l : OpenLoad := { set := 2, declared := 20, nextOffset := 4, runningCheck := 0 }
    let s := waitingFor (.loadData 4 [1]) .loaderWrite (some l)
    s.links.exchange.up = true ∧ s.mgmt.reserved = 1 ∧ s.mgmt.requests = [{ corr := 1, request := .loadData 4 [1] }]
      ∧ s.mgmt.headWait = .loaderWrite ∧ s.sets.load = some l
      ∧ (waitingFor (.peek 8 4) .managementBurst none).mgmt.requests = [{ corr := 1, request := .peek 8 4 }]
      ∧ (waitingFor (.peek 8 4) .managementBurst none).mgmt.headWait = .managementBurst
      ∧ (waitingFor (.poke 8 4 [1, 2, 3, 4]) .managementBurst none).mgmt.requests
          = [{ corr := 1, request := .poke 8 4 [1, 2, 3, 4] }] := by decide +kernel

/-- `n` response places taken by requests not yet answered. -/
def reserved (n : Nat) : State := { live with mgmt := { live.mgmt with reserved := n } }

theorem test_AnsweredAtOnce :
    (reserved 15).links.exchange.up = true ∧ (reserved 15).responsesHeld < 16
      ∧ (withItems [fresh]).responsesHeld < 16 ∧ (withItems [fresh]).itemByTag? 7 = some fresh
      ∧ (∀ it ∈ live.table.items, it.tag ≠ some 7) ∧ 18 < (19 : Byte).toNat ∧ [(1 : Byte)] ≠ [] := by decide +kernel

theorem test_RequestNotQueued :
    (reserved 16).links.exchange.up = true ∧ 16 ≤ (reserved 16).responsesHeld
      ∧ (Instr.requestUnknownKind 5 99 [1]).wf = true ∧ requestBytes (.requestUnknownKind 5 99 [1]) = some (5, 99, [1])
      ∧ (Instr.run 5).wf = true ∧ requestBytes (.run 5) = some (5, 3, []) ∧ fieldsFit 3 [] = true
      ∧ (Instr.poke 5 8 4 [1, 2, 3, 4]).wf = true
      ∧ requestBytes (.poke 5 8 4 [1, 2, 3, 4]) = some (5, 17, [0, 0, 0, 8, 0, 4, 1, 2, 3, 4])
      ∧ fieldsFit 17 [0, 0, 0, 8, 0, 4, 1, 2, 3, 4] = true
      ∧ (let s : State := { live with mgmt := { live.mgmt with
           reserved := 4, headWait := .validation, requests := List.replicate 4 { corr := 1, request := .run } } }
         s.links.exchange.up = true ∧ s.responsesHeld < 16 ∧ 4 ≤ s.mgmt.requests.length) := by decide +kernel

theorem admitsOf {s : State} (h : s.links.exchange.up = true ∧ s.responsesHeld < 16 ∧ s.mgmt.requests = []
    ∧ s.mgmt.headWait = .nothing) : s.Admits := ⟨h.1, h.2.1, h.2.2.1, h.2.2.2⟩

theorem test_Admits : live.Admits ∧ parked.Admits ∧ halted.Admits ∧ (withItems [fresh]).Admits
    ∧ (reserved 15).Admits := by
  refine ⟨admitsOf ?_, admitsOf ?_, admitsOf ?_, admitsOf ?_, admitsOf ?_⟩ <;> decide +kernel

theorem test_RunAndPark :
    live.eventsHeld < 32 ∧ live.mgmt.mode ≠ .parked ∧ parked.mgmt.mode = .parked ∧ parked.links.track.up = true
      ∧ parked.sets.active = some 0
      ∧ (let s : State := { parked with sets := { parked.sets with active := none } }
         s.links.exchange.up = true ∧ s.responsesHeld < 16 ∧ s.mgmt.requests = [] ∧ s.mgmt.headWait = .nothing
           ∧ s.eventsHeld < 32 ∧ s.sets.active = none)
      ∧ (∃ it ∈ (withItems [fresh]).table.items, (withItems [fresh]).mgmt.mode ≠ .parked ∧ it.state ≠ .retained)
      ∧ (∀ it ∈ (withItems [retained]).table.items, it.state = .retained)
      ∧ (withItems [retained]).sets.pendingActivation = none := by decide +kernel

/-- The settings after reset with one field replaced at a time. -/
def settings0 : RunSettings := State.resetSettings

/-- The ranges and steps of the settings, with the reserve below the parked state's block count. -/
def inRange (v : RunSettings) : Bool :=
  decide (64 ≤ v.lineWidth.toNat ∧ v.lineWidth.toNat ≤ 1024 ∧ v.lineWidth.toNat % 16 = 0
    ∧ 1 ≤ v.rearOffset.toNat ∧ 4 ≤ v.windowTolerance.toNat ∧ v.windowTolerance.toNat ≤ 255
    ∧ 256 ≤ v.maxSideLength.toNat ∧ v.maxSideLength.toNat ≤ 2560 ∧ v.maxSideLength.toNat % 32 = 0
    ∧ 1 ≤ v.adviceMargin.toNat ∧ v.rerenderReserve.toNat ≤ 4095 ∧ 1 ≤ v.darkLevel.toNat
    ∧ v.streakSpread.toNat ≤ 31 ∧ v.rerenderReserve.toNat < parked.frameMemory.map.output.size / 4096)

theorem test_SettingsTaken :
    (63 : Half).toNat < 64 ∧ 1024 < (1025 : Half).toNat ∧ (72 : Half).toNat % 16 ≠ 0
      ∧ inRange { settings0 with lineWidth := 64, windowTolerance := 4, maxSideLength := 256, rearOffset := 1 } = true
      ∧ inRange { settings0 with lineWidth := 1024, windowTolerance := 255, maxSideLength := 2560, rerenderReserve := 4095 }
          = true
      ∧ (let s : State := { parked with frameMemory := { parked.frameMemory with
           map := { State.defaultMap with output := { State.defaultMap.output with size := 1048576 } } } }
         s.frameMemory.map.output.size / 4096 ≤ settings0.rerenderReserve.toNat)
      ∧ (let s : State := { withItems [fresh] with mgmt := parked.mgmt }
         s.mgmt.mode = .parked ∧ s.table.items ≠ [] ∧ settings0.lineWidth ≠ s.mgmt.settings.lineWidth)
      ∧ parked.table.items = [] := by decide +kernel

/-- The default map as a REGIONS request carries it, with a TABLES base. -/
def regions0 (base : Word) : RegionFields :=
  { tablesBase := base, tablesFlags := 1, strips := ⟨33554432, 33554432, 1⟩, output := ⟨16777216, 16777216, 1⟩
    spare := ⟨1048576, 1048576, 3⟩ }

theorem test_RegionsTaken :
    live.mgmt.mode ≠ .parked ∧ parked.table.items = []
      ∧ (let s : State := { withItems [fresh] with mgmt := parked.mgmt }
         s.mgmt.mode = .parked ∧ s.table.items ≠ [])
      ∧ mapFailure (regionMapOf (regions0 0)) (parked.frameMemory.installedMiB * 1048576)
          parked.mgmt.settings.rerenderReserve.toNat = none
      ∧ mapFailure (regionMapOf (regions0 262144)) (parked.frameMemory.installedMiB * 1048576)
          parked.mgmt.settings.rerenderReserve.toNat = none := by decide +kernel

theorem test_RegionChecks : State.defaultMap.tables.size = 262144 := rfl

theorem test_LoadOpened :
    4 ≤ (4 : Byte).toNat ∧ (15 : Half).toNat < 16 ∧ 16384 < (16385 : Half).toNat ∧ 16 ≤ (16 : Half).toNat
      ∧ (16384 : Half).toNat ≤ 16384 ∧ (2 : Byte).toNat = (2 : SetNo).val ∧ live.sets.load = none
      ∧ (live.dir 2).state ≠ .active ∧ (live.dir 2).state ≠ .retiring ∧ live.sets.pendingActivation ≠ some 2
      ∧ (live.dir 0).state = .active
      ∧ (let s : State := { live with sets := { live.sets with load := some ⟨2, 16, 0, 0⟩ } }
         s.sets.load ≠ none ∧ s.links.exchange.up = true ∧ s.responsesHeld < 16 ∧ s.mgmt.requests = []
           ∧ s.mgmt.headWait = .nothing) := by decide +kernel

theorem test_LoadDataAndClose :
    live.mgmt.reserved = 0 ∧ [(1 : Word)] ≠ [] ∧ [(1 : Word)].length ≤ 64 ∧ (List.replicate 64 (1 : Word)).length ≤ 64
      ∧ (let l : OpenLoad := ⟨2, 20, 19, 0⟩
         let s : State := { live with sets := { live.sets with load := some l } }
         s.sets.load = some l ∧ (18 : Half).toNat ≠ l.nextOffset ∧ (19 : Half).toNat = l.nextOffset
           ∧ l.declared < l.nextOffset + [(1 : Word), 2].length ∧ l.nextOffset + [(1 : Word)].length ≤ l.declared
           ∧ l.nextOffset < l.declared)
      ∧ (let l : OpenLoad := ⟨2, 20, 20, 0⟩
         l.declared ≤ l.nextOffset ∧ ~~~l.runningCheck ≠ 0 ∧ ~~~l.runningCheck = 0xFFFFFFFF#32) := by decide +kernel

theorem test_ValidationEnds_waits :
    (validating 4912).links.exchange.up = true ∧ (validating 4912).mgmt.reserved = 1
      ∧ (validating 4912).mgmt.headWait = .validation
      ∧ (validating 4912).mgmt.requests = [{ corr := 1, request := .loadClose 0 }] ∧ live.mgmt.headWait ≠ .validation :=
  ⟨rfl, rfl, rfl, rfl, by decide⟩

/-- The image in the slot, as validation sees it. -/
theorem image_validating (n : Nat) : (validating n).image 0
    = fun i => if i < n then plainImage i else Config.undefinedByte 0 i := by
  funext i
  have ha : (validating n).setAddress 0 i = i := by
    change 0 + 0 * Config.setSlotBytes + i = i
    omega
  unfold State.image State.byteAt
  rw [ha]
  change (Memory.read? ((List.range' 0 n).map fun i => (i, plainImage i)) i).getD (Config.undefinedByte 0 i) = _
  rw [read_range]
  by_cases h : i < n
  · rw [if_pos ⟨Nat.zero_le i, by omega⟩, if_pos h]; rfl
  · rw [if_neg (by omega), if_neg h]; rfl

theorem test_ValidationEnds_passes :
    validationFailure ((validating 4912).image 0) 1228 = none := by
  rw [image_validating]
  decide +kernel

theorem test_ValidationEnds_fails :
    validationFailure ((validating 4912).image 0) 1227 = some ⟨5, 0, 0, 0⟩ := by
  rw [image_validating]
  decide +kernel

theorem test_LoadAbandoned :
    live.sets.load = none
      ∧ (let s : State := { live with sets := { live.sets with load := some ⟨2, 16, 0, 0⟩ } }
         s.links.exchange.up = true ∧ s.responsesHeld < 16 ∧ s.mgmt.requests = [] ∧ s.mgmt.headWait = .nothing
           ∧ s.sets.load = some ⟨2, 16, 0, 0⟩) := by decide +kernel

theorem test_ActivateTaken :
    live.eventsHeld < 32 ∧ parked.eventsHeld < 32 ∧ 4 ≤ (4 : Byte).toNat ∧ (1 : Byte).toNat = (1 : SetNo).val
      ∧ (live.dir 0).state = .active ∧ (live.dir 1).state = .ready ∧ live.mgmt.mode ≠ .parked
      ∧ (let s : State := { parked with sets := { parked.sets with active := none } }
         (s.dir 1).state = .ready ∧ s.mgmt.mode = .parked ∧ s.sets.active = none)
      ∧ (live.dir 3).state ≠ .active ∧ (live.dir 3).state ≠ .ready := by decide +kernel

theorem test_EraseTaken :
    4 ≤ (4 : Byte).toNat ∧ (0 : Byte).toNat = (0 : SetNo).val ∧ (live.dir 0).state = .active
      ∧ (live.dir 1).state ≠ .active ∧ (live.dir 1).state ≠ .retiring ∧ (live.dir 1).state ≠ .loading
      ∧ live.sets.pendingActivation ≠ some 1 := by decide +kernel

theorem test_ReleaseTaken :
    (2 : Byte) ≠ 0 ∧ (2 : Byte) ≠ 1 ∧ (∀ it ∈ live.table.items, it.tag ≠ some 7)
      ∧ (withItems [fresh]).itemByTag? 7 = some fresh ∧ fresh.state ≠ .retained
      ∧ (withItems [retained]).itemByTag? 7 = some retained ∧ retained.state = .retained
      ∧ ((withItems [retained]).table.items.map Item.slot).Nodup ∧ (withItems [retained]).responsesHeld < 16 := by
  decide +kernel

theorem test_WithdrawTaken :
    (∀ it ∈ live.table.items, it.tag ≠ some 7)
      ∧ (let it : Item := { fresh with state := .cancelling }
         (withItems [it]).itemByTag? 7 = some it ∧ (withItems [it]).item? it.slot = some it
           ∧ (withItems [it]).render.queue = [])
      ∧ (withItems [fresh]).itemByTag? 7 = some fresh ∧ (withItems [fresh]).Cancellable fresh :=
  ⟨by decide, by decide +kernel, by decide +kernel, ⟨by decide +kernel, by decide, by decide, by decide⟩⟩

theorem test_RerenderTaken :
    15 < (16 : Byte).toNat ∧ (15 : Byte).toNat ≤ 15 ∧ (withItems [retained]).itemByTag? 7 = some retained
      ∧ retained.state = .retained ∧ retained.generation < 15 ∧ (withItems [retained]).sets.active = some 0
      ∧ (let it : Item := { retained with generation := 15 }
         (withItems [it]).itemByTag? 7 = some it ∧ it.generation = 15)
      ∧ (let s : State := { withItems [retained] with mem := [(2072, 1), (2168, 0)] }
         (s.image 0).profileDefined 0 = true ∧ (s.image 0).profileDefined 1 = false
           ∧ (s.table.items.map Item.slot).Nodup) := by decide +kernel

/-- Every engine busy, the named profile defined in a set other than the item's, which is RETIRING with this binding. -/
theorem test_RerenderTaken_moves :
    let s : State := { rendered [retained] [] busy busy busy [] with
      mem := profileMem 65536
      sets := { live.sets with set0 := { live.sets.set0 with state := .retiring, boundCount := 1 }, active := some 1 } }
    s.Admits ∧ s.itemByTag? 7 = some retained ∧ s.sets.active = some 1 ∧ (s.image 1).profileDefined 0 = true
      ∧ (∀ e, (s.engine e).state ≠ .idle) ∧ (1 : SetNo) ≠ retained.set ∧ (s.dir retained.set).state = .retiring
      ∧ (s.dir retained.set).boundCount = 1 := by
  refine ⟨admitsOf ?_, ?_, rfl, ?_, all_engines ?_, ?_, rfl, rfl⟩
  all_goals decide +kernel

theorem test_PeekAndPoke :
    live.Admits ∧ live.mgmt.reserved = 0 ∧ [(1 : Byte), 2, 3, 4].length = (4 : Half).toNat ∧ (3 : Half).toNat < 4
      ∧ 256 < (260 : Half).toNat ∧ (6 : Half).toNat % 4 ≠ 0 ∧ (2 : Word).toNat % 4 ≠ 0
      ∧ live.regionAt (262144 + 0) = none ∧ live.regionAt (262140 + 3) = some .tables
      ∧ live.regionAt (1048576 + 3) = some .spare ∧ live.regionAt (67108864 + 0) = none
      ∧ (live.frameMemory.map.region .strips).pokeAllowed = false
      ∧ (∀ i < 4, live.regionAt (1048576 + i) = some .spare)
      ∧ (live.frameMemory.map.region .spare).peekAllowed = true
      ∧ (live.frameMemory.map.region .spare).pokeAllowed = true
      ∧ (let s : State := { live with frameMemory := { live.frameMemory with
           map := { State.defaultMap with spare := { State.defaultMap.spare with peekAllowed := false } } } }
         s.regionAt 1048576 = some .spare ∧ (s.frameMemory.map.region .spare).peekAllowed = false) := by
  refine ⟨admitsOf ?_, ?_⟩ <;> decide +kernel

theorem test_EngineReset :
    live.Admits ∧ live.mgmt.reserved = 0 ∧ live.eventsHeld < 32 ∧ parked.mgmt.mode = .parked ∧ parked.emitter.frame = none
      ∧ live.mgmt.mode ≠ .parked ∧ halted.mgmt.mode ≠ .parked ∧ live.emitter.frame = none
      ∧ (let s : State := { live with sets := { live.sets with
           set2 := { live.sets.set2 with state := .loading }, set3 := { live.sets.set3 with state := .retiring } } }
         s.Admits ∧ (s.dir 2).state = .loading ∧ (s.dir 3).state = .retiring
           ∧ (s.dir 1).state ≠ .loading ∧ (s.dir 1).state ≠ .retiring)
      ∧ (let s := sending fresh (.cancel ⟨7, 0, 0⟩) (.notice 0)
         s.Admits ∧ s.emitter.frame ≠ none ∧ s.mgmt.mode ≠ .parked ∧ s.eventsHeld < 32)
      ∧ (let w := waitingFor .resetEngine .engineReset none
         let f : ExchangeFrame := .cancel ⟨7, 0, 0⟩
         let s : State := { w with emitter := { w.emitter with frame := some f, discarded := true } }
         s.links.exchange.up = true ∧ s.mgmt.reserved = 1 ∧ s.emitter.frame = some f ∧ s.emitter.discarded = true
           ∧ s.mgmt.headWait = .engineReset ∧ s.mgmt.requests = [{ corr := 1, request := .resetEngine }]) :=
  ⟨admitsOf (by decide), rfl, by decide, rfl, rfl, by decide, by decide, rfl,
    ⟨admitsOf (by decide), rfl, rfl, by decide, by decide⟩,
    ⟨admitsOf (by decide), by decide, by decide, by decide⟩, by decide +kernel⟩

end Hypotheses

end Sys2Proof.Tests
end

section
/-! The invariant Sound holds at power-on and is kept by every step (O2, O3), and the values POWER_ON_RESET leaves (O5). -/

namespace Sys2Proof.Machine

open State (Keeps)

namespace State.Sound

/-- The queue of commands has no part in the invariant. -/
theorem withPending {s : State} (w : s.Sound) (l : List Instr) : ({ s with pending := l } : State).Sound :=
  { w with
    requests := w.requests, reserved := w.reserved, responses := w.responses, events := w.events, lists := w.lists,
    fifo := w.fifo }

/-- Nothing is held, queued or written at power-on. -/
theorem powerOn (m : BitVec 4) (n : Nat) : (State.powerOn m n).Sound where
  memory := List.Pairwise.nil
  credits := Nat.zero_le _
  slots := fun _ hx => nomatch hx
  slotsDistinct := List.nodup_nil
  tagsDistinct := List.nodup_nil
  requests := Nat.zero_le _
  reserved := rfl
  responses := Nat.zero_le _
  events := Nat.zero_le _
  advice := Nat.zero_le _
  lists := fun cam => by cases cam <;> exact Nat.zero_le _
  fifo := fun cam => by cases cam <;> exact Nat.zero_le _

/-- An ADVICE that goes out frees its place (R138). -/
theorem adviceSent {s : State} (w : s.Sound) : ({ s with adviceOut := s.adviceOut.sent } : State).Sound :=
  { w with
    advice := by
      have h := w.advice
      unfold AdviceOut.sent
      split
      · exact h
      · exact le_trans (by simp) h
    requests := w.requests, reserved := w.reserved, responses := w.responses, events := w.events, lists := w.lists,
    fifo := w.fifo }

theorem of_ite {p : Prop} [Decidable p] {t u : State} (ht : t.Sound) (hu : u.Sound) :
    (if p then t else u).Sound := by
  split
  · exact ht
  · exact hu

/-! ### Frames received -/

/-- A frame has an effect only while its link is UP (R197). -/
theorem receive {s : State} (w : s.Sound) {k : Link} {f : State → State} (h : (f s).Sound) : (s.receive k f).Sound :=
  of_ite h.settle w

theorem receiveKeeps {s : State} (w : s.Sound) {k : Link} {f : State → State} (h : s.Keeps noLines 0 (f s)) :
    (s.receive k f).Sound := w.receive (w.keeps h)

theorem request {s : State} (w : s.Sound) (corr : Byte) (r : Request) : (s.request corr r).Sound :=
  w.receive (w.admitRequest _)

/-! ### Links and the end of a frame -/

theorem dropLink {s : State} (w : s.Sound) (k : Link) : (s.dropLink k).Sound := by
  cases k with
  | track => exact of_ite w.loseTrack w
  | exchange => exact of_ite w.loseExchange.finishReset w

theorem frameEnded {s : State} (w : s.Sound) : s.frameEnded.Sound := (w.keeps s.endFrame_keeps).finishReset.settle

/-- What a command answers is the state its meaning names. -/
theorem of_next {u t : State} (w : u.Sound) (h : (.next u : Host.Outcome State Fault Refusal) = .next t) : t.Sound := by
  cases h
  exact w

/-! ### Every command -/

/-- Every command keeps the invariant. -/
theorem exec {s t : State} (w : s.Sound) {i : Instr} (h : Machine.exec i s = .next t) : t.Sound := by
  cases i with
  | powerOnReset msz => exact ((powerOn msz (s.powerOns + 1)).withPending s.pending).of_next h
  | receiverLock k received => exact (of_ite (w.withLinks _) w).of_next h
  | receiverUnlock k received lost => exact (of_ite ((w.withLinks _).dropLink k).settle w).of_next h
  | linkUp k received sent => exact (of_ite (w.withLinks _).settle w).of_next h
  | trackLinkDown => exact (w.dropLink .track).settle.of_next h
  | exchangeLinkDown => exact (w.dropLink .exchange).settle.of_next h
  | badFrame k received =>
    refine of_next (w.receive ?_) h
    exact of_ite (w.keeps (s.countBadFrame_keeps k)) w
  | frameKindRefused k kind payload =>
    refine of_next (w.receive ?_) h
    exact of_ite w (w.keeps (s.countBadFrame_keeps k))
  | line camera flag p px => exact (w.receive (w.lineFrame camera flag p px)).of_next h
  | windowPassed =>
    refine of_next ?_ h
    split
    · exact (w.keeps (s.removeOnePassed_keeps _)).settle
    · exact w
  | classifyDeadline =>
    refine of_next ?_ h
    split
    · exact (w.keeps (s.classifyByDefault_keeps _)).settle
    · exact w
  | adviceDeadline =>
    refine of_next ?_ h
    split
    · exact (w.calm (s.cancelDispatch_calm _ _)).settle
    · exact w
  | lineWrite cam => exact (w.keeps (s.lineWrite_keeps cam)).settle.of_next h
  | announce tag lead n => exact (w.receive (w.announceFrame tag lead n)).of_next h
  | code tag block => exact (w.receiveKeeps (s.codeFrame_keeps tag block)).of_next h
  | batch number => exact (w.receiveKeeps (s.batchFrame_keeps number)).of_next h
  | halt => exact (w.receiveKeeps s.haltFrame_keeps).of_next h
  | resume => exact (w.receiveKeeps s.resumeFrame_keeps).of_next h
  | adviceSent => exact (of_ite w.adviceSent w).of_next h
  | stripRead e => exact (w.calm (s.stripRead_calm e)).settle.of_next h
  | credit grant => exact (w.receiveKeeps (s.creditFrame_keeps grant)).of_next h
  | frameEnd => exact w.frameEnded.of_next h
  | trailerEnd =>
    refine of_next ?_ h
    split
    · exact w.frameEnded
    · exact w
  | cancelNoticeEnd =>
    refine of_next ?_ h
    split
    · exact w.frameEnded
    · exact w
  | summaryEnd =>
    refine of_next ?_ h
    split
    · exact w.frameEnded
    · exact w
  | burstEnd waiting => exact (w.burst waiting).settle.of_next h
  | validationEnd => exact w.finishValidation.settle.of_next h
  | status corr => exact (w.receive (w.admitAtOnce _)).of_next h
  | item corr tag => exact (w.receive (w.admitAtOnce _)).of_next h
  | requestUnknownKind corr kind fields =>
    refine of_next (w.receive ?_) h
    exact of_ite w (w.admitAtOnce _)
  | run corr => exact (w.request corr .run).of_next h
  | park corr => exact (w.request corr .park).of_next h
  | settings corr v => exact (w.request corr (.settings v)).of_next h
  | regions corr v => exact (w.request corr (.regions v)).of_next h
  | loadOpen corr set declared => exact (w.request corr (.loadOpen set declared)).of_next h
  | loadData corr offset words => exact (w.request corr (.loadData offset words)).of_next h
  | loadClose corr check => exact (w.request corr (.loadClose check)).of_next h
  | loadAbandon corr => exact (w.request corr .loadAbandon).of_next h
  | activate corr set => exact (w.request corr (.activate set)).of_next h
  | erase corr set => exact (w.request corr (.erase set)).of_next h
  | release corr tag form => exact (w.request corr (.release tag form)).of_next h
  | releaseThrough corr tag => exact (w.request corr (.release tag 1)).of_next h
  | withdraw corr tag => exact (w.request corr (.withdraw tag)).of_next h
  | rerender corr tag profile => exact (w.request corr (.rerender tag profile)).of_next h
  | peek corr address length => exact (w.request corr (.peek address length)).of_next h
  | poke corr address length bytes => exact (w.request corr (.poke address length bytes)).of_next h
  | resetEngine corr => exact (w.request corr .resetEngine).of_next h

end State.Sound

/-- Settles O2: the command at the front of the queue keeps the invariant, and an idle step changes nothing. -/
theorem stepKeepsBounds : Obligations.StepKeepsBounds := by
  unfold Obligations.StepKeepsBounds
  intro s t w h
  unfold step at h
  split at h
  · exact w.of_next h
  · exact (w.withPending _).exec h

/-- Settles O3: the state right after reset is a state at power-on. -/
theorem boundsHoldAtReset : Obligations.BoundsHoldAtReset := .powerOn _ _

/-- The four patterns with one pin high, and any other, name the installed size (R161, R201). -/
theorem State.installedMiBOf_spec (m : BitVec 4) :
    (m = 0b0001#4 → State.installedMiBOf m = 64) ∧ (m = 0b0010#4 → State.installedMiBOf m = 128)
      ∧ (m = 0b0100#4 → State.installedMiBOf m = 256) ∧ (m = 0b1000#4 → State.installedMiBOf m = 512)
      ∧ (m ≠ 0b0001#4 → m ≠ 0b0010#4 → m ≠ 0b0100#4 → m ≠ 0b1000#4 → State.installedMiBOf m = 64) := by
  revert m
  decide

/-- Every camera channel is at its power-on values. -/
theorem State.channel_powerOn (m : BitVec 4) (n : Nat) (cam : Camera) :
    (State.powerOn m n).channel cam = State.resetChannel := by
  cases cam <;> rfl

/-- Every directory entry is at its power-on values. -/
theorem State.dir_powerOn (m : BitVec 4) (k : Nat) (n : SetNo) : (State.powerOn m k).dir n = State.resetDirEntry := by
  match n with
  | 0 => rfl
  | 1 => rfl
  | 2 => rfl
  | 3 => rfl

/-- Every engine is IDLE at power-on. -/
theorem State.engine_powerOn (m : BitVec 4) (n : Nat) (e : EngineId) :
    (State.powerOn m n).engine e = State.idleEngine := by
  cases e <;> rfl

/-- Both pools are full at power-on. -/
theorem State.freeStrips_powerOn (m : BitVec 4) (n : Nat) :
    (State.powerOn m n).frameMemory.freeStrips = List.range 1024 := by
  simp only [State.powerOn]

theorem State.freeBlocks_powerOn (m : BitVec 4) (n : Nat) :
    (State.powerOn m n).frameMemory.freeBlocks = List.range 4096 := by
  simp only [State.powerOn]

/-- Settles O5: the next state is the power-on state with the queue of commands kept, read block by block. -/
theorem powerOnReset : Obligations.PowerOnReset := by
  unfold Obligations.PowerOnReset
  constructor
  · intro m s
    refine ⟨_, rfl, rfl, rfl, rfl, rfl, rfl, rfl, rfl, rfl, fun cam => ?_,
      State.dir_powerOn m (s.powerOns + 1), rfl, rfl, rfl, rfl, rfl, State.engine_powerOn m (s.powerOns + 1),
      rfl, rfl, rfl, State.freeStrips_powerOn m (s.powerOns + 1),
      State.freeBlocks_powerOn m (s.powerOns + 1), rfl, rfl, rfl, rfl, rfl, rfl, rfl, rfl, rfl⟩
    change let c := (State.powerOn m (s.powerOns + 1)).channel cam
      c.state = .idle ∧ c.bound = none ∧ c.previousFlag = true ∧ c.lastPosition = none ∧ c.portPosition = none
        ∧ c.pendingList = [] ∧ c.fifo = [] ∧ c.lastLine = none ∧ c.runningCheck = none
    rw [State.channel_powerOn]
    exact ⟨rfl, rfl, rfl, rfl, rfl, rfl, rfl, rfl, rfl⟩
  · intro m s
    exact ⟨_, rfl, State.installedMiBOf_spec m⟩

end Sys2Proof.Machine
end

section
/-! Requests: those answered at once (O43), and those that find the request queue empty and are answered as they are taken:
RELEASE (O56) and WITHDRAW (O57). -/

namespace Sys2Proof.Machine

open State (Calm Keeps)

/-! ### Lookups that find nothing -/

/-- A tag that no entry carries finds no entry (R2). -/
theorem State.itemByTag?_eq_none {s : State} {tag : Half} (h : ∀ it ∈ s.table.items, it.tag ≠ some tag) :
    s.itemByTag? tag = none :=
  List.find?_eq_none.2 fun it hit => by simpa using h it hit

/-- Entries are looked up in the table alone. -/
theorem State.item?_congr {s t : State} (h : t.table = s.table) (k : Slot) : t.item? k = s.item? k := by
  unfold State.item?
  rw [h]

/-! ### Answers -/

/-- A RESPONSE at the tail is the last of the reports held. -/
theorem State.reportsHeld_withResponse (s : State) (r : Response) :
    (s.withResponse r).reportsHeld = s.reportsHeld ++ [.response r] := s.reportsHeld_pushReport (.response r)

/-- With a free place a request of a kind answered at once takes the place and gives it to its answer (R185, R187). -/
theorem State.admitAtOnce_of_place {s : State} (hup : s.links.exchange.up = true) (hp : s.responsesHeld < 16)
    (reply : State → Response) : s.admitAtOnce reply = s.withResponse (reply s) := by
  have hplace : s.reservePlace = some { s with mgmt := { s.mgmt with reserved := s.mgmt.reserved + 1 } } := if_pos hp
  unfold State.admitAtOnce
  rw [hplace]
  exact if_pos hup

/-- The field bytes of a request that is none, or of a RUN with fields, fit no kind (R185, R202). -/
theorem fieldsFit_eq_false {kind : Byte} {fields : List Byte}
    (h : kind = 0 ∨ 18 < kind.toNat ∨ (kind = 3 ∧ fields ≠ [])) : fieldsFit kind fields = false := by
  rcases h with rfl | h | ⟨rfl, h⟩
  · rfl
  · unfold fieldsFit
    split <;> grind
  · simpa [fieldsFit] using h

/-- Settles O43: each of the four commands is admitted with its place and answered without an effect. -/
theorem answeredAtOnce : Obligations.AnsweredAtOnce := by
  unfold Obligations.AnsweredAtOnce
  intro s corr hup hp reply
  have received : ∀ f : State → State, s.receive .exchange f = (f s).chooseFrame := State.receive_up hup
  refine ⟨?_, fun tag it hit => ?_, fun tag hnone => ?_, fun kind fields hk => ?_⟩
  · change Host.Outcome.next _ = _
    rw [received, State.admitAtOnce_of_place hup hp]
    rfl
  · change Host.Outcome.next _ = _
    rw [received, State.admitAtOnce_of_place hup hp]
    unfold State.itemReply
    rw [hit]
    rfl
  · change Host.Outcome.next _ = _
    rw [received, State.admitAtOnce_of_place hup hp]
    unfold State.itemReply
    rw [State.itemByTag?_eq_none hnone]
    rfl
  · change Host.Outcome.next _ = _
    rw [received, fieldsFit_eq_false hk, if_neg Bool.false_ne_true, State.admitAtOnce_of_place hup hp]
    rfl

/-! ### A request taken and answered -/

/-- A RESPONSE DONE with result fields (R188). -/
def doneResponse (corr kind : Byte) (result : List Byte) : Response :=
  { plainResponse corr kind .done with result := result }

/-- The effect `u` of a request that found the queue empty, the request gone from the queue and its RESPONSE at the tail of
the reports. -/
def State.answered (s u : State) (x : Response) : State :=
  State.withResponse { u with mgmt := { u.mgmt with reserved := s.mgmt.reserved, requests := [], headWait := .nothing } } x

/-- A request that finds the queue empty and is answered after an effect that keeps the queue (R186). -/
theorem State.request_answers {s u : State} (h : s.Admits) (corr : Byte) {r : Request} (hf : requestFits r = true)
    {x : Response}
    (ht : (s.taking { corr := corr, request := r }).takeRequest { corr := corr, request := r } = (u.respond x, .nothing))
    (hk : (s.taking { corr := corr, request := r }).Keeps noLines 0 u) :
    s.request corr r = (s.answered u x).chooseFrame :=
  State.request_respond h corr hf ht hk.links hk.reserved (by rw [hk.requests]; rfl)

theorem State.reportsHeld_answered (s u : State) (x : Response) :
    (s.answered u x).chooseFrame.reportsHeld = u.reportsHeld ++ [.response x] := by
  rw [State.reportsHeld_chooseFrame]
  exact State.reportsHeld_withResponse _ x

/-- The RESPONSE waits, so the choice of a frame leaves the table (R146). -/
theorem State.table_answered (s u : State) (x : Response) : (s.answered u x).chooseFrame.table = u.table :=
  State.chooseFrame_table_of_reports (s := s.answered u x) (List.append_ne_nil_of_right_ne_nil _ (List.cons_ne_nil _ _))

theorem State.frameMemory_answered (s u : State) (x : Response) :
    (s.answered u x).chooseFrame.frameMemory = u.frameMemory := State.chooseFrame_frameMemory _

/-! ### Entries that become FREE -/

/-- Whatever stood in a slot made FREE has left the table (R14). -/
theorem State.items_freeItem (s : State) (k : Slot) :
    (s.freeItem k).table.items = s.table.items.filter fun x => x.slot != k := by
  cases h : s.item? k with
  | some it => rw [State.table_freeItem h]
  | none =>
    have hs : s.freeItem k = s := by unfold State.freeItem; rw [h]
    rw [hs]
    exact (List.filter_eq_self.2 fun x hx => by simpa using List.find?_eq_none.1 h x hx).symm

/-- Several slots made FREE in turn. -/
theorem State.items_foldl_freeItem (l : List Slot) (s : State) :
    (l.foldl State.freeItem s).table.items = s.table.items.filter fun x => !decide (x.slot ∈ l) := by
  induction l generalizing s with
  | nil => simp
  | cons k l ih =>
    rw [List.foldl_cons, ih, State.items_freeItem, List.filter_filter]
    refine List.filter_congr fun x _ => ?_
    by_cases hx : x.slot = k <;> simp [hx]

/-- An item released in the through form (R18). -/
def Item.releasedBy (it x : Item) : Bool := decide (x.state = .retained) && seqAtOrBefore x.sequence it.sequence

/-- The slots that the through form names hold exactly the items that it releases. -/
theorem State.mem_retainedThrough {s : State} (hn : (s.table.items.map Item.slot).Nodup) (it : Item) {x : Item}
    (hx : x ∈ s.table.items) : x.slot ∈ s.retainedThrough it ↔ it.releasedBy x = true := by
  unfold State.retainedThrough
  rw [List.mem_map]
  constructor
  · rintro ⟨y, hy, hslot⟩
    obtain ⟨hmem, hpred⟩ := List.mem_filter.1 hy
    obtain rfl := State.eq_of_slot hn hmem hx hslot
    exact hpred
  · exact fun hpred => ⟨x, List.mem_filter.2 ⟨hx, hpred⟩, rfl⟩

/-- The through form takes exactly those items out of the table. -/
theorem State.items_releaseThrough {s : State} (hn : (s.table.items.map Item.slot).Nodup) (it : Item) :
    ((s.retainedThrough it).foldl State.freeItem s).table.items = s.table.items.filter fun x => !it.releasedBy x := by
  rw [State.items_foldl_freeItem]
  refine List.filter_congr fun x hx => ?_
  rw [show decide (x.slot ∈ s.retainedThrough it) = it.releasedBy x from
    Bool.eq_iff_iff.2 (decide_eq_true_iff.trans (s.mem_retainedThrough hn it hx))]

/-! ### RELEASE -/

/-- RELEASE in either form as one request, form byte 1 the through form. -/
theorem exec_release (corr : Byte) (tag : Half) (form : Byte) (s : State) :
    exec (.release corr tag form) s = .next (s.request corr (.release tag form)) := rfl

theorem exec_releaseThrough (corr : Byte) (tag : Half) (s : State) :
    exec (.releaseThrough corr tag) s = .next (s.request corr (.release tag 1)) := rfl

/-- A form byte that is 0 or 1 passes the form check. -/
theorem State.takeRelease_of_form {form : Byte} (hform : form = 0 ∨ form = 1) (s : State) (q : QueuedRequest) (tag : Half) :
    s.takeRelease q tag form = match s.itemByTag? tag with
      | none => s.answer q .noItem
      | some it =>
        if it.state ≠ .retained then s.answer q .wrongState
        else
          ((if form = 0 then [it.slot] else s.retainedThrough it).foldl State.freeItem s).answerDone q
            (u8 (if form = 0 then [it.slot] else s.retainedThrough it).length) :=
  if_neg fun ⟨h0, h1⟩ => hform.elim h0 h1

/-- RELEASE of a tag that no entry carries (R17). -/
theorem State.release_noItem {s : State} (h : s.Admits) (corr : Byte) {tag : Half} {form : Byte}
    (hform : form = 0 ∨ form = 1) (hnone : ∀ it ∈ s.table.items, it.tag ≠ some tag) :
    s.request corr (.release tag form) = (s.withResponse (plainResponse corr 13 .noItem)).chooseFrame := by
  refine State.request_refused h corr rfl (Prod.ext ?_ rfl)
  refine (State.takeRelease_of_form hform _ _ _).trans ?_
  rw [State.itemByTag?_eq_none (s := s.taking _) hnone]
  rfl

/-- RELEASE of an item that is not RETAINED (R17). -/
theorem State.release_wrongState {s : State} (h : s.Admits) (corr : Byte) {tag : Half} {form : Byte}
    (hform : form = 0 ∨ form = 1) {it : Item} (hit : s.itemByTag? tag = some it) (hs : it.state ≠ .retained) :
    s.request corr (.release tag form) = (s.withResponse (plainResponse corr 13 .wrongState)).chooseFrame := by
  refine State.request_refused h corr rfl (Prod.ext ?_ rfl)
  refine (State.takeRelease_of_form hform _ _ _).trans ?_
  rw [show (s.taking _).itemByTag? tag = some it from hit]
  exact if_pos hs

/-- RELEASE accepted: the slots it names become FREE and the answer carries their number (R17, R18). -/
theorem State.release_done {s : State} (h : s.Admits) (corr : Byte) {tag : Half} {form : Byte}
    (hform : form = 0 ∨ form = 1) {it : Item} (hit : s.itemByTag? tag = some it) (hs : it.state = .retained)
    {slots : List Slot} (hslots : (if form = 0 then [it.slot] else s.retainedThrough it) = slots) :
    s.request corr (.release tag form) = (s.answered
      (slots.foldl State.freeItem (s.taking { corr := corr, request := .release tag form }))
      (doneResponse corr 13 (u8 slots.length))).chooseFrame := by
  refine State.request_answers h corr rfl (Prod.ext ?_ rfl) (Keeps.of_calm (Calm.foldl State.freeItem_calm _ _))
  refine (State.takeRelease_of_form hform _ _ _).trans ?_
  rw [show (s.taking _).itemByTag? tag = some it from hit]
  subst hslots
  exact if_neg (not_not_intro hs)

/-- The reports held after entries have become FREE and the request has been answered. -/
theorem State.reportsHeld_released (s u : State) (q : QueuedRequest) (hc : (s.taking q).Calm u) (x : Response) :
    ∃ l, (s.answered u x).chooseFrame.reportsHeld = s.reportsHeld ++ l ++ [.response x]
      ∧ ∀ r ∈ l, Report.isEvent r = true := by
  obtain ⟨l, hl, hev, -⟩ := hc.reports
  exact ⟨l, by rw [State.reportsHeld_answered, hl]; rfl, hev⟩

/-- Settles O56: the refusals in their order, then the slots named by either form become FREE. -/
theorem releaseTaken : Obligations.ReleaseTaken := by
  unfold Obligations.ReleaseTaken
  intro s corr tag form h reply
  have zero : (0 : Byte) = 0 ∨ (0 : Byte) = 1 := Or.inl rfl
  have one : (1 : Byte) = 0 ∨ (1 : Byte) = 1 := Or.inr rfl
  refine ⟨fun h0 h1 => ?_, fun hnone => ?_, fun it hit hs => ?_, fun it hit hs hn => ⟨?_, ?_⟩⟩
  · rw [exec_release]
    congr 1
    exact State.request_refused h corr rfl (Prod.ext (if_pos ⟨h0, h1⟩) rfl)
  · rw [exec_release, exec_releaseThrough, State.release_noItem h corr zero hnone, State.release_noItem h corr one hnone]
    exact ⟨rfl, rfl⟩
  · rw [exec_release, exec_releaseThrough, State.release_wrongState h corr zero hit hs,
      State.release_wrongState h corr one hit hs]
    exact ⟨rfl, rfl⟩
  · have hfound := State.item?_eq_of_mem hn (State.mem_of_itemByTag? hit).1
    obtain ⟨l, hl, -⟩ := s.reportsHeld_released _ { corr := corr, request := .release tag 0 } (State.freeItem_calm _ it.slot)
      (doneResponse corr 13 (u8 1))
    refine ⟨_, l, congrArg Host.Outcome.next (State.release_done h corr zero hit hs (slots := [it.slot]) rfl), ?_, ?_, hl⟩
    · rw [State.table_answered]
      exact State.items_freeItem _ _
    · rw [State.frameMemory_answered]
      exact congrArg FrameMemory.freeStrips (State.frameMemory_freeItem (s := s.taking _) hfound)
  · obtain ⟨l, hl, -⟩ := s.reportsHeld_released _ { corr := corr, request := .release tag 1 }
      (Calm.foldl State.freeItem_calm (s.retainedThrough it) _)
      (doneResponse corr 13 (u8 (s.retainedThrough it).length))
    refine ⟨_, l, congrArg Host.Outcome.next (State.release_done h corr one hit hs (slots := s.retainedThrough it) rfl), ?_, ?_⟩
    · rw [State.table_answered]
      exact State.items_releaseThrough (s := s.taking _) hn it
    · rw [← show (s.retainedThrough it).length = _ from List.length_map _]
      exact hl

/-! ### WITHDRAW -/

theorem exec_withdraw (corr : Byte) (tag : Half) (s : State) :
    exec (.withdraw corr tag) s = .next (s.request corr (.withdraw tag)) := rfl

/-- The cancel of an item already CANCELLING does nothing (R11). -/
theorem State.cancelItem_of_cancelling {s : State} {k : Slot} {it : Item} (h : s.item? k = some it)
    (hs : it.state = .cancelling) (c : CancelCause) : s.cancelItem k c = s := by
  unfold State.cancelItem
  rw [h]
  exact if_pos hs

/-- Settles O57: no item, an item already CANCELLING, and the cancel with its events before the answer. -/
theorem withdrawTaken : Obligations.WithdrawTaken := by
  unfold Obligations.WithdrawTaken
  intro s corr tag h reply
  refine ⟨fun hnone => ?_, fun it hit hs hfound hq => ?_, fun it hit hc => ?_⟩
  · rw [exec_withdraw]
    congr 1
    refine State.request_refused h corr rfl (Prod.ext ?_ rfl)
    change State.takeWithdraw _ _ _ = _
    unfold State.takeWithdraw
    rw [State.itemByTag?_eq_none (s := s.taking _) hnone]
    rfl
  · rw [exec_withdraw]
    congr 1
    refine State.request_refused h corr rfl (Prod.ext ?_ rfl)
    change State.takeWithdraw _ _ _ = _
    unfold State.takeWithdraw
    rw [show (s.taking _).itemByTag? tag = some it from hit]
    dsimp only
    rw [State.cancelItem_of_cancelling (s := s.taking _) hfound hs, State.dispatch_of_nil (s := s.taking _) hq]
    rfl
  · let q : QueuedRequest := { corr := corr, request := .withdraw tag }
    have hc' : (s.taking q).Cancellable it := ⟨hc.found, hc.distinct, hc.state, hc.summary⟩
    have hcalm := (s.taking q).cancelDispatch_calm it.slot .withdrawn
    obtain ⟨hcancel, -⟩ := State.cancelDispatch_cancels hc' .withdrawn
    obtain ⟨l, hl, hev⟩ := s.reportsHeld_released _ q hcalm (plainResponse corr 14 .done)
    refine ⟨_, l, ?_, ?_, hev, hl⟩
    · rw [exec_withdraw]
      congr 1
      refine State.request_answers h corr rfl (Prod.ext ?_ rfl) (Keeps.of_calm hcalm)
      change State.takeWithdraw _ _ _ = _
      unfold State.takeWithdraw
      rw [show (s.taking _).itemByTag? tag = some it from hit]
      rfl
    · have hs : s.Cancels ((s.taking q).cancelItem it.slot .withdrawn).dispatch it .withdrawn .withdrawn :=
        ⟨hcancel.entry, hcancel.lists, hcancel.lines, hcancel.advice⟩
      exact hs.congr (congrArg ItemTable.items (State.table_answered s _ _)) (State.chooseFrame_capture _)
        (State.chooseFrame_adviceOut _)

end Sys2Proof.Machine
end

section
/-! RERENDER (O58): its checks in order, the entry of the next generation, and the binding counts of both sets. -/

namespace Sys2Proof.Machine

open State (Calm Keeps)

/-! ### Directory entries -/

theorem TableStore.entry_setEntry_of_ne (t : TableStore) {m n : SetNo} (e : DirEntry) (h : m ≠ n) :
    (t.setEntry n e).entry m = t.entry m := by
  fin_cases n <;> fin_cases m <;> first | rfl | exact absurd rfl h

theorem State.dir_modifyDir_of_ne (s : State) {m n : SetNo} (f : DirEntry → DirEntry) (h : m ≠ n) :
    (s.modifyDir n f).dir m = s.dir m := TableStore.entry_setEntry_of_ne _ _ h

theorem State.dir_composeEvent (s : State) (b : EventBody) (n : SetNo) : (s.composeEvent b).dir n = s.dir n :=
  congrArg (fun t => TableStore.entry t n) (State.composeEvent_sets s b)

/-! ### The release of a binding (R81, R82) -/

/-- The state with the bound count of a set one less, and the set READY if it was RETIRING and the count has reached 0. -/
def State.unbound (s : State) (n : SetNo) : State :=
  s.modifyDir n fun e =>
    { e with boundCount := e.boundCount - 1
             state := if e.state = .retiring ∧ e.boundCount - 1 = 0 then .ready else e.state }

theorem State.modifyDir_modifyDir (s : State) (n : SetNo) (f g : DirEntry → DirEntry) :
    (s.modifyDir n f).modifyDir n g = s.modifyDir n (g ∘ f) := by
  unfold State.modifyDir
  dsimp only
  rw [TableStore.entry_setEntry]
  fin_cases n <;> rfl

/-- A release unbinds, and EVENT SET_RETIRED follows where the set retires (R82). -/
theorem State.releaseBinding_eq (s : State) (n : SetNo) : s.releaseBinding n = s.unbound n
    ∨ s.releaseBinding n = (s.unbound n).composeEvent (.setRetired n (s.dir n).loadCount) := by
  unfold State.releaseBinding State.unbound
  dsimp only
  split
  · rename_i hr
    right
    rw [State.modifyDir_modifyDir]
    congr 1
    unfold State.modifyDir
    have : s.sets.entry n = s.dir n := rfl
    simp only [Function.comp_apply, this, if_pos hr]
  · rename_i hr
    left
    unfold State.modifyDir
    have : s.sets.entry n = s.dir n := rfl
    simp only [this, if_neg hr]

theorem State.dir_releaseBinding (s : State) (n m : SetNo) : (s.releaseBinding n).dir m = (s.unbound n).dir m := by
  rcases s.releaseBinding_eq n with h | h
  · rw [h]
  · rw [h, State.dir_composeEvent]

@[simp] theorem State.releaseBinding_table (s : State) (n : SetNo) : (s.releaseBinding n).table = s.table := by
  rcases s.releaseBinding_eq n with h | h
  · rw [h]; rfl
  · rw [h, State.composeEvent_table]; rfl

@[simp] theorem State.releaseBinding_render (s : State) (n : SetNo) : (s.releaseBinding n).render = s.render := by
  rcases s.releaseBinding_eq n with h | h
  · rw [h]; rfl
  · rw [h, State.composeEvent_render]; rfl

/-- The count of a set released is one less (R81). -/
theorem State.boundCount_releaseBinding (s : State) (n : SetNo) :
    ((s.releaseBinding n).dir n).boundCount = (s.dir n).boundCount - 1 := by
  rw [State.dir_releaseBinding]
  exact congrArg DirEntry.boundCount (State.dir_modifyDir s n _)

theorem State.dir_releaseBinding_of_ne (s : State) {m n : SetNo} (h : m ≠ n) : (s.releaseBinding n).dir m = s.dir m := by
  rw [State.dir_releaseBinding]
  exact s.dir_modifyDir_of_ne _ h

/-- A RETIRING set whose last binding goes is READY (R82). -/
theorem State.state_releaseBinding_of_last {s : State} {n : SetNo} (hs : (s.dir n).state = .retiring)
    (hc : (s.dir n).boundCount = 1) : ((s.releaseBinding n).dir n).state = .ready := by
  rw [State.dir_releaseBinding]
  refine (congrArg DirEntry.state (State.dir_modifyDir s n _)).trans (if_pos ⟨hs, ?_⟩)
  rw [hc]

/-! ### The entry of the next generation (R21, R140) -/

/-- Only what a change does to the entries of its slot counts. -/
theorem State.modifyItem_congr {s : State} {k : Slot} {f g : Item → Item} (h : ∀ x, x.slot = k → f x = g x) :
    s.modifyItem k f = s.modifyItem k g := by
  unfold State.modifyItem
  have hm : (s.table.items.map fun it => if it.slot = k then f it else it)
      = s.table.items.map fun it => if it.slot = k then g it else it := by
    refine List.map_congr_left fun x _ => ?_
    split
    · exact h x (by assumption)
    · rfl
  rw [hm]

/-- The state with the new entry in its slot, the re-render counter advanced, and the new set bound, before the old binding
is released. -/
def State.entered (s : State) (it : Item) (n : SetNo) (p : Nat) : State :=
  State.modifyDir
    { s.modifyItem it.slot (fun x => { s.rerenderedItem it n p with slot := x.slot }) with
      table := { (s.modifyItem it.slot fun x => { s.rerenderedItem it n p with slot := x.slot }).table with
        rerenderSeq := s.table.rerenderSeq + 1 } }
    n fun e => { e with boundCount := e.boundCount + 1 }

/-- A re-render enters the new entry, releases the old binding, and places the new renditions (R21). -/
theorem State.rerender_eq (s : State) (it : Item) (n : SetNo) (p : Nat) :
    s.rerender it n p = ((s.entered it n p).releaseBinding it.set).placeRenditions it.slot
      ((s.image n).renditionCount p) := by
  have hlen : ((s.rerenderedItem it n p).renditions.getD []).length = (s.image n).renditionCount p :=
    (List.length_map _).trans List.length_range
  have hm : (s.modifyItem it.slot fun _ => s.rerenderedItem it n p)
      = s.modifyItem it.slot fun x => { s.rerenderedItem it n p with slot := x.slot } :=
    State.modifyItem_congr fun x hx => by
      rw [hx]
      rfl
  unfold State.rerender
  dsimp only
  rw [hlen, hm]
  rfl

/-- What follows the entry is internal work (R82, R92). -/
theorem State.entered_calm (s : State) (it : Item) (n : SetNo) (p : Nat) : (s.entered it n p).Calm (s.rerender it n p) := by
  rw [State.rerender_eq]
  exact (State.releaseBinding_calm _ _).trans (State.placeRenditions_calm _ _ _)

theorem State.slots_entered (s : State) (it : Item) (n : SetNo) (p : Nat) :
    (s.entered it n p).table.items.map Item.slot = s.table.items.map Item.slot :=
  State.slots_modifyItem (f := fun x => { s.rerenderedItem it n p with slot := x.slot }) fun _ => rfl

/-- The entry found in its slot is the new one. -/
theorem State.item?_entered {s : State} {it : Item} (h : s.item? it.slot = some it) (n : SetNo) (p : Nat) :
    (s.entered it n p).item? it.slot = some (s.rerenderedItem it n p) :=
  (State.item?_modifyItem (f := fun x => { s.rerenderedItem it n p with slot := x.slot }) fun _ => rfl).trans
    (congrArg (Option.map _) h)

/-- The entry in the slot after a re-render is the new one after internal work. -/
theorem State.later_rerender {s : State} (hn : (s.table.items.map Item.slot).Nodup) {it x : Item} {n : SetNo} {p : Nat}
    (hx : x ∈ (s.rerender it n p).table.items) (hs : x.slot = it.slot) : x.Later (s.rerenderedItem it n p) := by
  obtain ⟨y, hy, hl⟩ := ((s.entered_calm it n p).items (by rw [State.slots_entered]; exact hn)).mem hx
  have hslot : y.slot = it.slot := hl.sameEntry.slot.symm.trans hs
  obtain ⟨z, -, hz, rfl⟩ := State.mem_of_modifyItem hy hslot
  rw [hz] at hl
  exact hl

/-- Captured sides later keep their chains. -/
theorem Item.Later.frontChain {x y : Item} (h : x.Later y) : x.front.chain = y.front.chain :=
  have e := congrArg Side.chain h.front
  e

theorem Item.Later.rearChain {x y : Item} (h : x.Later y) : x.rear.chain = y.rear.chain :=
  have e := congrArg Side.chain h.rear
  e

/-! ### RERENDER -/

theorem exec_rerender (corr : Byte) (tag : Half) (profile : Byte) (s : State) :
    exec (.rerender corr tag profile) s = .next (s.request corr (.rerender tag profile)) := rfl

/-- A RERENDER that meets a check is refused with its code (R20). -/
theorem State.rerender_refused {s : State} (h : s.Admits) {corr : Byte} {tag : Half} {profile : Byte} {code : ResponseCode}
    (ht : (s.taking { corr := corr, request := .rerender tag profile }).takeRerender
        { corr := corr, request := .rerender tag profile } tag profile
      = (s.taking { corr := corr, request := .rerender tag profile }).answer
        { corr := corr, request := .rerender tag profile } code) :
    exec (.rerender corr tag profile) s = .next (s.withResponse (plainResponse corr 15 code)).chooseFrame :=
  congrArg Host.Outcome.next (State.request_refused h corr rfl (Prod.ext ht rfl))

/-- RERENDER of an item that is not RETAINED, or of the last generation (R20). -/
theorem State.takeRerender_wrongState {s : State} {tag : Half} {profile : Byte} {it : Item} (hp : profile.toNat ≤ 15)
    (hit : s.itemByTag? tag = some it) (hs : it.state ≠ .retained ∨ it.generation = 15) (q : QueuedRequest) :
    s.takeRerender q tag profile = s.answer q .wrongState := by
  unfold State.takeRerender
  rw [if_neg (Nat.not_lt.2 hp), hit]
  dsimp only
  rcases hs with hs | hg
  · exact if_pos hs
  · rw [if_pos hg, ite_self]

/-- RERENDER of a RETAINED item with an active set (R20). -/
theorem State.takeRerender_active {s : State} {tag : Half} {profile : Byte} {it : Item} {n : SetNo}
    (hp : profile.toNat ≤ 15) (hit : s.itemByTag? tag = some it) (hs : it.state = .retained) (hg : it.generation < 15)
    (ha : s.sets.active = some n) (q : QueuedRequest) :
    s.takeRerender q tag profile =
      if (s.image n).profileDefined profile.toNat then
        (s.rerender it n profile.toNat).answerDone q (u8 (it.generation + 1))
      else s.answer q .badValue := by
  unfold State.takeRerender
  rw [if_neg (Nat.not_lt.2 hp), hit]
  dsimp only
  rw [if_neg (not_not_intro hs), if_neg (Nat.ne_of_lt hg), ha]

/-- The state a RERENDER accepted leaves before the choice of a frame: the request is answered DONE with the new
generation. -/
def State.rerenderAnswered (s : State) (corr : Byte) (tag : Half) (profile : Byte) (it : Item) (n : SetNo) : State :=
  s.answered ((s.taking { corr := corr, request := .rerender tag profile }).rerender it n profile.toNat)
    (doneResponse corr 15 (u8 (it.generation + 1)))

/-- RERENDER accepted (R21). -/
theorem State.rerender_done {s : State} (h : s.Admits) (corr : Byte) {tag : Half} {profile : Byte} {it : Item} {n : SetNo}
    (hp : profile.toNat ≤ 15) (hit : s.itemByTag? tag = some it) (hs : it.state = .retained) (hg : it.generation < 15)
    (ha : s.sets.active = some n) (hd : (s.image n).profileDefined profile.toNat = true) :
    exec (.rerender corr tag profile) s = .next (s.rerenderAnswered corr tag profile it n).chooseFrame := by
  refine congrArg Host.Outcome.next (State.request_answers h corr rfl (Prod.ext ?_ rfl)
    (State.rerender_keeps (s := s.taking _) (State.mem_of_itemByTag? hit).1 n profile.toNat))
  exact (State.takeRerender_active (s := s.taking _) hp hit hs hg ha _).trans (if_pos hd)

/-- The answer follows the EVENTs of the released binding and of the work on the new renditions. -/
theorem State.reportsHeld_rerender (s : State) (corr : Byte) (tag : Half) (profile : Byte) (it : Item) (n : SetNo) :
    ∃ l, (s.rerenderAnswered corr tag profile it n).chooseFrame.reportsHeld
      = s.reportsHeld ++ l ++ [.response (doneResponse corr 15 (u8 (it.generation + 1)))] := by
  obtain ⟨l, hl, -⟩ := (State.entered_calm (s.taking { corr := corr, request := .rerender tag profile }) it n
    profile.toNat).reports
  refine ⟨l, ?_⟩
  unfold State.rerenderAnswered
  rw [State.reportsHeld_answered, hl]
  rfl

/-- The entry of the next generation, field by field (R21, R140). -/
theorem State.rerenderedItem_eq (s : State) (it : Item) (n : SetNo) (p : Nat) :
    s.rerenderedItem it n p = { it with
      state := .processing, generation := it.generation + 1, set := n, profile := some p
      renditions := some (newRenditions (s.image n) s.lineWidth it p), key := .none
      rerenderOrder := some s.table.rerenderSeq, classifyDeadline := none, adviceDeadline := none
      flags := (keptByRerender it.flags).union (evaluationFlags (s.image n) p it.front it.rear), evaluated := true } := rfl

/-- A new record as it is created (R61). -/
theorem newRenditions_get? (img : Image) (w : Nat) (it : Item) {p i : Nat} (h : i < img.renditionCount p) :
    (newRenditions img w it p)[i]? = some (newRendition img w it p i) := by
  unfold newRenditions
  rw [List.getElem?_map, List.getElem?_range h]
  rfl

/-- With every engine busy the new renditions only wait, and the entry is as it was made (R61, R62). -/
theorem State.busy_rerender {s : State} (hb : ∀ e, (s.engine e).state ≠ .idle) {it : Item}
    (h : s.item? it.slot = some it) (n : SetNo) (p : Nat) :
    (s.rerender it n p).item? it.slot = some (s.rerenderedItem it n p)
      ∧ (∀ r, r ∈ (s.rerender it n p).render.queue ↔ r ∈ s.render.queue
          ∨ r.slot = it.slot ∧ r.index < (s.image n).renditionCount p)
      ∧ ∀ m, (s.rerender it n p).dir m = ((s.entered it n p).releaseBinding it.set).dir m := by
  obtain ⟨d, hd, -, hq⟩ := State.placeRenditions_busy (s := (s.entered it n p).releaseBinding it.set)
    (fun e => by
      unfold State.engine
      rw [State.releaseBinding_render]
      exact hb e) it.slot ((s.image n).renditionCount p)
  rw [State.rerender_eq, hd]
  refine ⟨?_, fun r => ?_, fun m => rfl⟩
  · exact (State.item?_congr (State.releaseBinding_table _ _) _).trans (State.item?_entered h n p)
  · rw [State.releaseBinding_render] at hq
    exact hq r

/-- Settles O58: the checks of R20 in order, then the entry of the next generation under the answer DONE; with every engine
busy, the entry, the queue and the two binding counts in full. -/
theorem rerenderTaken : Obligations.RerenderTaken := by
  unfold Obligations.RerenderTaken
  intro s corr tag profile h reply
  refine ⟨fun hp => ?_, fun hp hnone => ?_, fun it hp hit => ⟨fun hs => ?_, fun n hs hg ha => ⟨fun hd => ?_, fun hd hn =>
    ⟨?_, fun hb => ?_⟩⟩⟩⟩
  · exact State.rerender_refused h (if_pos hp)
  · refine State.rerender_refused h ((if_neg (Nat.not_lt.2 hp)).trans ?_)
    rw [State.itemByTag?_eq_none (s := s.taking _) hnone]
  · exact State.rerender_refused h (State.takeRerender_wrongState (s := s.taking _) hp hit hs _)
  · refine State.rerender_refused h ((State.takeRerender_active (s := s.taking _) hp hit hs hg ha _).trans (if_neg ?_))
    exact fun e => Bool.false_ne_true (hd.symm.trans e)
  · obtain ⟨l, hl⟩ := s.reportsHeld_rerender corr tag profile it n
    refine ⟨_, l, State.rerender_done h corr hp hit hs hg ha hd, ?_, fun x hx hslot => ?_, hl⟩
    · unfold State.rerenderAnswered
      rw [State.table_answered]
      exact congrArg Bedrock.rerenderSeq (State.entered_calm (s.taking _) it n profile.toNat).bedrock
    · unfold State.rerenderAnswered at hx
      rw [State.table_answered] at hx
      have hl := State.later_rerender (s := s.taking _) hn hx hslot
      exact ⟨congrArg ItemName.generation hl.name, congrArg ItemName.set hl.name, congrArg ItemName.profile hl.name,
        congrArg ItemName.key hl.name, congrArg ItemName.rerenderOrder hl.name, congrArg ItemName.classifyDeadline hl.name,
        congrArg ItemName.adviceDeadline hl.name, congrArg ItemName.classification hl.name,
        congrArg ItemName.codeLine hl.name, congrArg ItemName.lateCode hl.name, hl.frontChain, hl.rearChain⟩
  · let u := s.taking { corr := corr, request := .rerender tag profile }
    obtain ⟨hitem, hqueue, hdir⟩ := State.busy_rerender (s := u) hb
      (State.item?_eq_of_mem hn (State.mem_of_itemByTag? hit).1) n profile.toNat
    have hdirs : ∀ m, (s.rerenderAnswered corr tag profile it n).chooseFrame.dir m
        = ((u.entered it n profile.toNat).releaseBinding it.set).dir m := fun m =>
      (congrArg (fun t => TableStore.entry t m) (State.chooseFrame_sets _)).trans (hdir m)
    have hnew : (u.entered it n profile.toNat).dir n = { s.dir n with boundCount := (s.dir n).boundCount + 1 } :=
      State.dir_modifyDir _ n _
    have hold : ∀ m, m ≠ n → (u.entered it n profile.toNat).dir m = s.dir m := fun m hm =>
      State.dir_modifyDir_of_ne _ _ hm
    refine ⟨_, u.rerenderedItem it n profile.toNat, State.rerender_done h corr hp hit hs hg ha hd, ?_, rfl, rfl, rfl,
      State.gradedBy_union _ _ _ _ _, (List.length_map _).trans List.length_range, fun i hi => ?_, fun r => ?_,
      fun hne => ⟨?_, ?_⟩, fun he => ?_, fun hr hne hc => ?_⟩
    · exact (State.item?_congr (State.table_answered _ _ _) _).trans hitem
    · exact ⟨_, newRenditions_get? (s.image n) s.lineWidth it hi, rfl, rfl, rfl, rfl, rfl, rfl, rfl, rfl, rfl, rfl⟩
    · rw [State.chooseFrame_render]
      exact hqueue r
    · rw [hdirs, State.dir_releaseBinding_of_ne _ hne, hnew]
    · rw [hdirs, State.boundCount_releaseBinding, hold _ hne.symm]
    · rw [hdirs]
      subst he
      rw [State.boundCount_releaseBinding, hnew]
      rfl
    · rw [hdirs]
      exact State.state_releaseBinding_of_last (by rw [hold _ hne.symm]; exact hr) (by rw [hold _ hne.symm]; exact hc)

end Sys2Proof.Machine
end

section
/-! RESET ENGINE (O60): the step that resets every block, and the answer once no frame is in progress. -/

namespace Sys2Proof.Machine

open State (Calm Keeps)

/-! ### The blocks after the step (R192) -/

/-- Every block at its engine reset values, before the mode and the counters (R47, R86, R109, R141, R160, R176). -/
def State.blocksReset (s : State) : State :=
  { s with
    table := { items := [], announceSeq := 0, rerenderSeq := 0 }
    capture := { front := s.capture.front.engineReset .front, rear := s.capture.rear.engineReset .rear }
    sets := s.sets.engineReset
    render := { queue := [], re0 := State.idleEngine, re1 := State.idleEngine, re2 := State.idleEngine }
    adviceOut := s.adviceOut.engineReset s.links.track.up
    emitter := s.emitter.engineReset
    frameMemory := s.frameMemory.engineReset }

/-- A frame in progress at the reset still holds its place. -/
theorem State.reportsHeld_blocksReset (s : State) : s.blocksReset.reportsHeld = s.reportsHeld := rfl

/-- In PARKED the step composes no EVENT (R192). -/
theorem State.engineReset_of_parked {s : State} (h : s.mgmt.mode = .parked) :
    s.engineReset = s.blocksReset.modifyCounters fun _ => State.zeroCounters := by
  unfold State.engineReset
  dsimp only
  rw [if_pos h]
  rfl

/-- From RUNNING or HALTED the step composes EVENT MODE (R177, R192). -/
theorem State.engineReset_of_unparked {s : State} (h : s.mgmt.mode ≠ .parked) :
    s.engineReset = (s.blocksReset.changeMode .parked .reset).modifyCounters fun _ => State.zeroCounters := by
  unfold State.engineReset
  dsimp only
  rw [if_neg h]
  rfl

/-- An EVENT changes the number, the reports and the count of EVENTs lost only (R187, R190). -/
theorem State.composeEvent_shape (s : State) (b : EventBody) : ∃ n l c, s.composeEvent b
    = { s with mgmt := { s.mgmt with eventSeq := n, reports := l, counters := c } } := by
  unfold State.composeEvent
  dsimp only
  split
  · split <;> exact ⟨_, _, _, rfl⟩
  · exact ⟨_, _, _, rfl⟩

/-- What the step leaves: the blocks reset, the mode PARKED, the counters 0; EVENT MODE may have joined the reports. -/
theorem State.engineReset_shape (s : State) : ∃ n l, s.engineReset = { s.blocksReset with mgmt := { s.mgmt with
    mode := .parked, eventSeq := n, reports := l, counters := State.zeroCounters } } := by
  by_cases h : s.mgmt.mode = .parked
  · rw [State.engineReset_of_parked h, ← h]
    exact ⟨_, _, rfl⟩
  · rw [State.engineReset_of_unparked h]
    unfold State.changeMode
    obtain ⟨n, l, c, hc⟩ := State.composeEvent_shape { s.blocksReset with mgmt := { s.blocksReset.mgmt with mode := .parked } }
      (.modeChange s.blocksReset.mgmt.mode .parked .reset)
    rw [hc]
    exact ⟨_, _, rfl⟩

/-- The reports held after the step in PARKED. -/
theorem State.reportsHeld_engineReset_of_parked {s : State} (h : s.mgmt.mode = .parked) :
    s.engineReset.reportsHeld = s.reportsHeld := by
  rw [State.engineReset_of_parked h]
  rfl

/-- From another mode EVENT MODE follows those held before, given a place for it. -/
theorem State.reportsHeld_engineReset_of_unparked {s : State} (h : s.mgmt.mode ≠ .parked)
    (hup : s.links.exchange.up = true) (hroom : s.eventsHeld < 32) :
    s.engineReset.reportsHeld
      = s.reportsHeld ++ [.event ⟨s.mgmt.eventSeq, .modeChange s.mgmt.mode .parked .reset⟩] := by
  rw [State.engineReset_of_unparked h]
  exact State.reportsHeld_composeEvent (s := { s.blocksReset with mgmt := { s.blocksReset.mgmt with mode := .parked } })
    hup hroom _

/-- A channel after the step (R47). -/
theorem State.channel_blocksReset (s : State) (cam : Camera) :
    s.blocksReset.channel cam = (s.channel cam).engineReset cam := by
  cases cam <;> rfl

/-- A directory entry after the step (R86). -/
theorem State.dir_blocksReset (s : State) (n : SetNo) : s.blocksReset.dir n = (s.dir n).engineReset := by
  match n with
  | 0 => rfl
  | 1 => rfl
  | 2 => rfl
  | 3 => rfl

theorem State.engine_blocksReset (s : State) (e : EngineId) : s.blocksReset.engine e = State.idleEngine := by
  cases e <;> rfl

/-- An entry keeps its load count and loses its bindings; LOADING ends EMPTY, RETIRING ends READY, any other state stays
(R86). -/
theorem DirEntry.engineReset_spec (e : DirEntry) :
    e.engineReset.boundCount = 0 ∧ e.engineReset.loadCount = e.loadCount
      ∧ (e.state = .loading →
          e.engineReset.state = .empty ∧ e.engineReset.imageLength = 0 ∧ e.engineReset.imageCheck = none)
      ∧ (e.state ≠ .loading →
          e.engineReset.imageLength = e.imageLength ∧ e.engineReset.imageCheck = e.imageCheck)
      ∧ (e.state = .retiring → e.engineReset.state = .ready)
      ∧ (e.state ≠ .loading → e.state ≠ .retiring → e.engineReset.state = e.state) := by
  unfold DirEntry.engineReset
  cases h : e.state <;> simp

/-! ### RESET ENGINE -/

theorem exec_resetEngine (corr : Byte) (s : State) :
    exec (.resetEngine corr) s = .next (s.request corr .resetEngine) := rfl

/-- With no frame in progress the reset is complete at once (R193). -/
theorem State.request_resetEngine_of_none {s : State} (h : s.Admits) (corr : Byte) (hf : s.emitter.frame = none) :
    s.request corr .resetEngine = (s.answered (s.taking { corr := corr, request := .resetEngine }).engineReset
      (plainResponse corr 18 .done)).chooseFrame := by
  refine State.request_answers h corr rfl ?_ (State.engineReset_keeps _)
  obtain ⟨n, l, he⟩ := (s.taking { corr := corr, request := .resetEngine }).engineReset_shape
  change State.takeResetEngine _ _ = _
  unfold State.takeResetEngine
  refine if_neg ?_
  rw [he]
  change ¬ s.emitter.frame.isSome = true
  rw [hf]
  exact Bool.false_ne_true

/-- With a frame in progress the request waits at the head of the queue, and there is no choice (R193). -/
theorem State.request_resetEngine_of_some {s : State} (h : s.Admits) (corr : Byte) (hf : s.emitter.frame ≠ none) :
    s.request corr .resetEngine =
      { (s.taking { corr := corr, request := .resetEngine }).engineReset with
        mgmt := { (s.taking { corr := corr, request := .resetEngine }).engineReset.mgmt with headWait := .engineReset } } := by
  have hframe : (s.taking { corr := corr, request := .resetEngine }).engineReset.emitter.frame = s.emitter.frame := by
    obtain ⟨n, l, he⟩ := (s.taking { corr := corr, request := .resetEngine }).engineReset_shape
    rw [he]
    rfl
  have htake : (s.taking { corr := corr, request := .resetEngine }).takeRequest { corr := corr, request := .resetEngine }
      = ((s.taking { corr := corr, request := .resetEngine }).engineReset, .engineReset) := by
    change State.takeResetEngine _ _ = _
    unfold State.takeResetEngine
    refine if_pos ?_
    rw [hframe, Option.isSome_iff_ne_none]
    exact hf
  rw [State.request_eq h corr rfl]
  unfold takeRequests
  rw [show (s.taking { corr := corr, request := .resetEngine }).mgmt.headWait = .nothing from h.headWait,
    show (s.taking { corr := corr, request := .resetEngine }).mgmt.requests
      = [{ corr := corr, request := .resetEngine }] from rfl]
  simp only [htake, reduceCtorEq, if_false]
  exact State.chooseFrame_of_frame (by
    change (s.taking { corr := corr, request := .resetEngine }).engineReset.emitter.frame ≠ none
    rw [hframe]
    exact hf)

/-- What a RESET ENGINE leaves in either case: the blocks reset, the mode PARKED, the counters 0, the rest of the
management and the choice of a frame apart. -/
structure State.HasReset (s t : State) : Prop where
  mode : t.mgmt.mode = .parked
  counters : t.mgmt.counters = State.zeroCounters
  settings : t.mgmt.settings = s.mgmt.settings
  links : t.links = s.links
  mem : t.mem = s.mem
  table : t.table = s.blocksReset.table
  capture : t.capture = s.blocksReset.capture
  sets : t.sets = s.blocksReset.sets
  render : t.render = s.blocksReset.render
  advice : t.adviceOut.queue = []
  queue : t.emitter.queue = []
  summaryList : t.emitter.summaryList = []
  credits : t.emitter.credits = s.emitter.credits
  frameMemory : t.frameMemory = s.blocksReset.frameMemory

theorem State.HasReset.channel {s t : State} (h : s.HasReset t) (cam : Camera) :
    t.channel cam = (s.channel cam).engineReset cam := by
  rw [← State.channel_blocksReset]
  unfold State.channel
  rw [h.capture]

theorem State.HasReset.dir {s t : State} (h : s.HasReset t) (n : SetNo) : t.dir n = (s.dir n).engineReset := by
  rw [← State.dir_blocksReset]
  unfold State.dir
  rw [h.sets]

theorem State.HasReset.engine {s t : State} (h : s.HasReset t) (e : EngineId) : t.engine e = State.idleEngine := by
  rw [← State.engine_blocksReset s]
  unfold State.engine
  rw [h.render]

/-- With a report waiting the choice begins it, or nothing (R146). -/
theorem State.emitter_chooseFrame_of_reports {s : State} (h : s.mgmt.reports ≠ []) :
    ∃ f, s.chooseFrame.emitter = { s.emitter with frame := f } := by
  unfold State.chooseFrame
  split
  · split
    · exact ⟨_, rfl⟩
    · exact absurd (by assumption) h
  · exact ⟨_, rfl⟩

/-- RESET ENGINE has reset every block, whether or not a frame is in progress. -/
theorem State.hasReset_request {s : State} (h : s.Admits) (corr : Byte) : s.HasReset (s.request corr .resetEngine) := by
  obtain ⟨n, l, he⟩ := (s.taking { corr := corr, request := .resetEngine }).engineReset_shape
  by_cases hf : s.emitter.frame = none
  · rw [State.request_resetEngine_of_none h corr hf, he]
    obtain ⟨f, hem⟩ := State.emitter_chooseFrame_of_reports
      (s := s.answered (s.taking { corr := corr, request := .resetEngine }).engineReset (plainResponse corr 18 .done))
      (List.append_ne_nil_of_right_ne_nil _ (List.cons_ne_nil _ _))
    rw [he] at hem
    exact {
      mode := State.chooseFrame_mode _, counters := State.chooseFrame_counters _, settings := State.chooseFrame_settings _
      links := State.chooseFrame_links _, mem := State.chooseFrame_mem _, table := State.table_answered _ _ _
      capture := State.chooseFrame_capture _, sets := State.chooseFrame_sets _, render := State.chooseFrame_render _
      advice := by rw [State.chooseFrame_adviceOut]; rfl
      queue := by rw [hem]; rfl
      summaryList := by rw [hem]; rfl
      credits := by rw [hem]; rfl
      frameMemory := State.chooseFrame_frameMemory _ }
  · rw [State.request_resetEngine_of_some h corr hf, he]
    exact ⟨rfl, rfl, rfl, rfl, rfl, rfl, rfl, rfl, rfl, rfl, rfl, rfl, rfl, rfl⟩

/-- The head of the queue answered when nothing stands behind it (R186). -/
theorem State.headAnswered_of_single {s : State} {q : QueuedRequest} (h : s.mgmt.requests = [q]) :
    s.headAnswered = s.popRequest := by
  unfold State.headAnswered State.workQueue
  change takeRequests 4 s.popRequest = s.popRequest
  unfold takeRequests
  have hnil : s.popRequest.mgmt.requests = [] := by
    change s.mgmt.requests.tail = []
    rw [h]
    rfl
  rw [hnil]
  rfl

/-- The Emitter as the end of a frame that a reset discarded leaves it (R160). -/
def State.resetEnded (s : State) : State :=
  { s with emitter := { s.emitter with frame := none, work := .idle, discarded := false } }

/-- The reset is complete at the end of the frame that was in progress: the DONE, and an empty queue (R160, R193). -/
theorem State.frameEnded_of_reset {s : State} {q : QueuedRequest} (hup : s.links.exchange.up = true)
    (hr : s.mgmt.reserved = 1) {f : ExchangeFrame} (hf : s.emitter.frame = some f) (hd : s.emitter.discarded = true)
    (hw : s.mgmt.headWait = .engineReset) (hq : s.mgmt.requests = [q]) :
    s.frameEnded = (State.withResponse
      { s with
        emitter := { s.emitter with frame := none, work := .idle, discarded := false }
        mgmt := { s.mgmt with reserved := 0, requests := [], headWait := .nothing } }
      (plainResponse q.corr (requestKindCode q.request) .done)).chooseFrame := by
  have hend : s.endFrame = s.resetEnded := by
    unfold State.endFrame
    rw [hf]
    exact if_pos hd
  have hanswer : s.resetEnded.answer q .done = { s.resetEnded with mgmt := { s.resetEnded.mgmt with
      reserved := 0, reports := s.resetEnded.mgmt.reports ++ [.response (plainResponse q.corr (requestKindCode q.request) .done)] } } := by
    unfold State.answer State.respond
    dsimp only
    rw [if_pos (show s.resetEnded.linkUp .exchange = true from hup)]
    unfold State.pushReport
    rw [show s.resetEnded.mgmt.reserved = 1 from hr]
  have hfinish : s.resetEnded.finishReset = (s.resetEnded.answer q .done).popRequest := by
    unfold State.finishReset
    rw [show s.resetEnded.mgmt.headWait = .engineReset from hw, show s.resetEnded.mgmt.requests = [q] from hq]
    refine Eq.trans (if_neg Bool.false_ne_true) (State.headAnswered_of_single (q := q) ?_)
    rw [hanswer]
    exact hq
  unfold State.frameEnded State.settle
  rw [hend, hfinish, hanswer]
  unfold State.popRequest State.withResponse
  dsimp only
  rw [show s.resetEnded.mgmt.requests = [q] from hq]
  rfl

/-- Settles O60: one step has reset every block; the DONE follows at once, or at the end of the frame in progress. -/
theorem engineReset : Obligations.EngineReset := by
  unfold Obligations.EngineReset
  refine ⟨fun s corr h hres => ?_, fun s corr f hup hr hf hd hw hq => ?_⟩
  · have ht := State.hasReset_request h corr
    refine ⟨_, exec_resetEngine corr s, ht.mode, ht.counters, ht.settings, ht.links, ht.mem, ?_, ?_, ?_, fun cam => ?_, ?_, ?_,
      ?_, ?_, ?_, ?_, fun n => ?_, ?_, fun e => ht.engine e, ht.advice, ht.queue, ht.summaryList, ht.credits, ?_, ?_, ?_, ?_,
      fun hp hn => ?_, fun hp hn hroom => ?_, fun hp hn hroom => ?_, fun hn => ?_⟩
    · rw [ht.table]; rfl
    · rw [ht.table]; rfl
    · rw [ht.table]; rfl
    · rw [ht.channel]
      exact ⟨rfl, rfl, rfl, rfl, rfl, rfl, rfl, rfl⟩
    · have hport := congrArg Channel.portPosition (ht.channel .front)
      exact hport
    · exact congrArg Channel.portPosition (ht.channel .rear)
    · rw [ht.sets]; rfl
    · rw [ht.sets]; rfl
    · rw [ht.sets]; rfl
    · rw [ht.sets]; rfl
    · rw [ht.dir]
      exact (s.dir n).engineReset_spec
    · rw [ht.render]; rfl
    · rw [ht.frameMemory]; rfl
    · rw [ht.frameMemory]; rfl
    · rw [ht.frameMemory]; rfl
    · rw [ht.frameMemory]; rfl
    · rw [State.request_resetEngine_of_none h corr hn]
      refine ⟨State.chooseFrame_requests _, ?_⟩
      rw [State.reportsHeld_answered, State.reportsHeld_engineReset_of_parked (s := s.taking _) hp]
      rfl
    · rw [State.request_resetEngine_of_none h corr hn]
      refine ⟨State.chooseFrame_requests _, ?_⟩
      rw [State.reportsHeld_answered, State.reportsHeld_engineReset_of_unparked (s := s.taking _) hp h.up hroom,
        List.append_assoc]
      rfl
    · rw [State.request_resetEngine_of_some h corr hn]
      exact State.reportsHeld_engineReset_of_unparked (s := s.taking _) hp h.up hroom
    · rw [State.request_resetEngine_of_some h corr hn]
      obtain ⟨n, l, he⟩ := (s.taking { corr := corr, request := .resetEngine }).engineReset_shape
      rw [he]
      exact ⟨rfl, rfl⟩
  · exact congrArg Host.Outcome.next (State.frameEnded_of_reset hup hr hf hd hw hq)

end Sys2Proof.Machine
end

section
/-! The ends of the Emitter's frames: reports, HEADER and SEGMENT, a stopping rendition (O37), the CANCEL notice (O39) and
the SUMMARY (O40). -/

namespace Sys2Proof.Machine

open State (Calm Keeps)

/-! ### The frame in progress taken off (R146) -/

/-- The frame in progress has ended; the work in hand stands. -/
def State.offFrame (s : State) : State := { s with emitter := { s.emitter with frame := none } }

/-- The frame in progress has ended, and with it the work in hand. -/
def State.offWork (s : State) : State := { s.offFrame with emitter := { s.offFrame.emitter with work := .idle } }

/-- Without an engine reset that waits nothing is completed with the frame (R193). -/
theorem State.finishReset_of_ne {s : State} (h : s.mgmt.headWait ≠ .engineReset) : s.finishReset = s := by
  unfold State.finishReset
  split
  · exact absurd (by assumption) h
  · rfl

/-- The end of a frame, without an engine reset that waits: its effect, then the next choice. -/
theorem State.frameEnded_eq {s : State} (h : s.mgmt.headWait ≠ .engineReset) : s.frameEnded = s.endFrame.chooseFrame := by
  unfold State.frameEnded State.settle
  rw [State.finishReset_of_ne (by rw [s.endFrame_keeps.headWait]; exact h)]

theorem State.endFrame_of_none {s : State} (h : s.emitter.frame = none) : s.endFrame = s := by
  unfold State.endFrame
  rw [h]

theorem State.endFrame_of_some {s : State} {f : ExchangeFrame} (h : s.emitter.frame = some f) :
    s.endFrame = s.offFrame.endOf f := by
  unfold State.endFrame
  rw [h]
  rfl

/-- With no report waiting and no credit the Emitter begins nothing (R145, R146). -/
theorem State.chooseFrame_of_nothing {s : State} (hr : s.mgmt.reports = []) (hc : s.emitter.credits = 0) :
    s.chooseFrame = s := by
  unfold State.chooseFrame
  rw [hr]
  dsimp only
  rw [if_pos hc, ite_self]

theorem State.isStopping_of_found {s : State} {r : RendRef} {q : Rendition} (h : s.rendition? r = some q) :
    s.isStopping r = q.stopping := by
  unfold State.isStopping
  rw [h]
  rfl

/-! ### Parts of a rendition that is not stopping (R147 to R149) -/

/-- The end of a report leaves the work in hand. -/
theorem State.endOf_report {s : State} (hd : s.emitter.discarded = false) (m : Report)
    (h : s.emitter.work = .idle ∨ ∃ r n d q, s.emitter.work = .rendition r n d ∧ s.rendition? r = some q
      ∧ q.stopping = false) : s.endOf (.report m) = s := by
  unfold State.endOf
  rw [hd, if_neg Bool.false_ne_true]
  rcases h with h | ⟨r, n, d, q, h, hq, hs⟩
  · rw [h]
  · rw [h]
    dsimp only
    rw [State.isStopping_of_found hq, hs, if_neg Bool.false_ne_true]

/-- After a HEADER or SEGMENT the next SEGMENT is due, or the TRAILER. -/
theorem State.endPart_of_found {s : State} {r : RendRef} {q : Rendition} (hq : s.rendition? r = some q)
    (hs : q.stopping = false) (n : Nat) :
    s.endPart r n = { s with emitter := { s.emitter with
      work := .rendition r n (decide ((q.length.getD 0 + 511) / 512 ≤ n)) } } := by
  unfold State.endPart
  rw [State.isStopping_of_found hq, hs, if_neg Bool.false_ne_true, hq]
  rfl

/-! ### A stopping rendition dropped (R12, R152) -/

/-- A rendition as a drop leaves it (R87). -/
def Rendition.droppedFor (cause : DropCause) (q : Rendition) : Rendition :=
  { q with state := .dropped, dropCause := some cause, chain := [], context := none, restart := false }

/-- A drop: the record, and its blocks at the tail of the free list (R87, R168). -/
theorem State.dropRendition_eq {s : State} {r : RendRef} {q : Rendition} (hq : s.rendition? r = some q)
    (hs : q.state ≠ .dropped) (c : DropCause) :
    s.dropRendition r c = { s.modifyRendition r (Rendition.droppedFor c) with
      frameMemory := { s.frameMemory with freeBlocks := s.frameMemory.freeBlocks ++ q.chain } } := by
  unfold State.dropRendition
  rw [hq]
  exact if_neg hs

/-- With something emitted a completed cancel keeps the entry: its CANCEL notice joins the emission queue, once (R13). -/
theorem State.completeCancel_of_emitted {s : State} {k : Slot} {it : Item} (h : s.item? k = some it)
    (he : it.emittedAny = true) : ∃ l, s.completeCancel k
        = { s with emitter := { s.emitter with queue := s.emitter.queue ++ l } }
      ∧ (it.state = .cancelling → it.inHand = false → EmissionEntry.notice k ∉ s.emitter.queue →
          s.emitter.work ≠ .notice k → l = [.notice k]) := by
  unfold State.completeCancel
  rw [h]
  dsimp only
  split
  · split
    · rename_i hin
      exact ⟨[], by simp, fun _ _ h1 h2 => absurd hin (not_or_intro h1 h2)⟩
    · exact ⟨_, rfl, fun _ _ _ _ => rfl⟩
  · rename_i hc
    exact ⟨[], by simp, fun h1 h2 => absurd ⟨h1, by rw [h2]; rfl⟩ hc⟩

/-- No rendition is in hand once the one of an index has been dropped and no other was. -/
theorem Item.inHand_modifyRendition_dropped {it : Item} {i : Nat} (c : DropCause)
    (h : ∀ z ∈ it.renditions.getD [], z.index ≠ i → z.state ≠ .running ∧ z.state ≠ .emitting) :
    (it.modifyRendition i (Rendition.droppedFor c)).inHand = false := by
  unfold Item.inHand Item.modifyRendition
  cases hr : it.renditions with
  | none => rfl
  | some l =>
    rw [hr] at h
    refine List.any_eq_false.2 fun x hx => ?_
    obtain ⟨z, hz, rfl⟩ := List.mem_map.1 hx
    split
    · simp [Rendition.droppedFor]
    · simpa using h z hz (by assumption)

/-- A frame of a rendition, or a report, ends with a stopping rendition in hand: the rendition is dropped (R152). -/
theorem State.endOf_stopping {s : State} {f : ExchangeFrame} {r : RendRef} {n : Nat} {d : Bool}
    (hd : s.emitter.discarded = false) (hc : ∀ x, f ≠ .cancel x) (hy : ∀ x, f ≠ .summary x)
    (hw : s.emitter.work = .rendition r n d) (hs : s.isStopping r = true) : s.endOf f = s.stopEmission r := by
  unfold State.endOf
  rw [hd, if_neg Bool.false_ne_true, hw]
  cases f with
  | header x => exact if_pos hs
  | segment x => exact if_pos hs
  | trailer x => exact if_pos hs
  | report x => exact if_pos hs
  | cancel x => exact absurd rfl (hc x)
  | summary x => exact absurd rfl (hy x)

/-- The EMITTING rendition in hand dropped, before the completion of its cancel is tested (R152). -/
def State.emissionDropped (s : State) (r : RendRef) (q : Rendition) : State :=
  { s.modifyRendition r (Rendition.droppedFor .cancelled) with
    frameMemory := { s.frameMemory with freeBlocks := s.frameMemory.freeBlocks ++ q.chain }
    emitter := { s.emitter with work := .idle } }

/-- The drop of the EMITTING rendition in hand where no engine is BLOCKED: only the completion of the cancel follows
(R13, R103, R152). -/
theorem State.stopEmission_eq {s : State} {r : RendRef} {q : Rendition} (hq : s.rendition? r = some q)
    (hs : q.state = .emitting) (hb : ∀ e, (s.engine e).state ≠ .blocked) :
    s.stopEmission r = (s.emissionDropped r q).completeCancel r.slot := by
  unfold State.stopEmission State.dropEmitting
  dsimp only
  rw [State.dropRendition_eq hq (by rw [hs]; decide), State.serveReturned_of_unblocked]
  · rfl
  · exact hb

theorem exec_frameEnd (s : State) : exec .frameEnd s = .next s.frameEnded := rfl

/-- FRAME_END of a frame in progress, without an engine reset that waits. -/
theorem exec_frameEnd_of_some {s : State} (hw : s.mgmt.headWait ≠ .engineReset) {f : ExchangeFrame}
    (hf : s.emitter.frame = some f) : exec .frameEnd s = .next (s.offFrame.endOf f).chooseFrame := by
  rw [exec_frameEnd, State.frameEnded_eq hw, State.endFrame_of_some hf]

/-- Settles O37: no frame, a report, a HEADER, a SEGMENT, and the drop of a stopping rendition. -/
theorem framePartsEnd : Obligations.FramePartsEnd := by
  unfold Obligations.FramePartsEnd
  intro s hd hw off
  refine ⟨fun hf => ?_, fun m hf hwork => ?_, fun h r n d q hf hwork hq hs => ?_, fun g r n d q hf hwork hq hs => ?_,
    fun f r n d it q hf hc hy hwork hit hq hs hst he hb hr hcr => ?_⟩
  · rw [exec_frameEnd, State.frameEnded_eq hw, State.endFrame_of_none hf]
  · rw [exec_frameEnd_of_some hw hf, State.endOf_report (s := s.offFrame) hd m hwork]
    rfl
  · have hend : s.offFrame.endOf (.header h) = s.offFrame.endPart r 0 := by
      unfold State.endOf
      rw [show s.offFrame.emitter.discarded = false from hd, show s.offFrame.emitter.work = _ from hwork]
      exact if_neg Bool.false_ne_true
    rw [exec_frameEnd_of_some hw hf, hend, State.endPart_of_found (s := s.offFrame) hq hs]
    simp only [Nat.le_zero]
    rfl
  · have hend : s.offFrame.endOf (.segment g) = s.offFrame.endPart r (g.number + 1) := by
      unfold State.endOf
      rw [show s.offFrame.emitter.discarded = false from hd, show s.offFrame.emitter.work = _ from hwork]
      exact if_neg Bool.false_ne_true
    rw [exec_frameEnd_of_some hw hf, hend, State.endPart_of_found (s := s.offFrame) hq hs]
    rfl
  · have hstop : s.offFrame.isStopping r = true := (State.isStopping_of_found (s := s.offFrame) hq).trans hs
    have hitem : (s.offFrame.emissionDropped r q).item? r.slot = some (it.modifyRendition r.index (Rendition.droppedFor .cancelled)) :=
      (State.item?_modifyRendition s r _).trans (congrArg (Option.map _) hit)
    have hrec : it.rendition? r.index = some q := by
      unfold State.rendition? at hq
      rw [hit] at hq
      exact hq
    obtain ⟨l, hl, hnotice⟩ := State.completeCancel_of_emitted hitem he
    refine ⟨(s.offFrame.emissionDropped r q).completeCancel r.slot, _, q.droppedFor .cancelled, ?_, ?_, ?_, ?_,
      (State.item?_congr ?_ _).trans hitem, ?_, rfl, rfl, rfl, fun hcan hnot hz => ?_⟩
    · rw [exec_frameEnd_of_some hw hf, State.endOf_stopping (s := s.offFrame) hd hc hy hwork hstop,
        State.stopEmission_eq (s := s.offFrame) hq hst hb]
      refine congrArg Host.Outcome.next (State.chooseFrame_of_nothing ?_ ?_)
      · rw [hl]; exact hr
      · rw [hl]; exact hcr
    · rw [hl]; rfl
    · rw [hl]; rfl
    · rw [hl]; rfl
    · rw [hl]
    · exact (it.rendition?_modifyRendition r.index (f := Rendition.droppedFor .cancelled) fun _ => rfl).trans
        (congrArg (Option.map _) hrec)
    · rw [hl, hnotice hcan (Item.inHand_modifyRendition_dropped _ hz) hnot (by simp [State.emissionDropped])]
      rfl

/-! ### The CANCEL notice (R153) -/

/-- A set that is not RETIRING only counts the release (R81). -/
theorem State.releaseBinding_of_ne {s : State} {n : SetNo} (h : (s.dir n).state ≠ .retiring) :
    s.releaseBinding n = s.modifyDir n fun e => { e with boundCount := (s.dir n).boundCount - 1 } := by
  unfold State.releaseBinding
  exact if_neg fun c => h c.1

theorem State.releaseBinding_emitter (s : State) (n : SetNo) : (s.releaseBinding n).emitter = s.emitter := by
  rcases s.releaseBinding_eq n with h | h
  · rw [h]; rfl
  · rw [h, State.composeEvent_emitter]; rfl

/-- The state without an entry, its strips returned and its lines discarded, before its binding is released (R14, R169). -/
def State.withoutItem (s : State) (k : Slot) (it : Item) : State :=
  { State.discardFifo { s with frameMemory := { s.frameMemory with
      freeStrips := s.frameMemory.freeStrips ++ it.strips } } k with
    table := { s.table with items := s.table.items.filter fun x => x.slot != k } }

/-- The end of an entry: it leaves the table, and then its binding is released (R14, R82). -/
theorem State.freeItem_eq {s : State} {k : Slot} {it : Item} (h : s.item? k = some it) :
    s.freeItem k = (s.withoutItem k it).releaseBinding it.set := by
  unfold State.freeItem
  rw [h]
  rfl

theorem State.freeItem_emitter {s : State} {k : Slot} {it : Item} (h : s.item? k = some it) :
    (s.freeItem k).emitter = s.emitter := by
  rw [State.freeItem_eq h, State.releaseBinding_emitter]
  rfl

/-- A slot made FREE whose set is not RETIRING composes no EVENT (R14, R82). -/
theorem State.freeItem_mgmt {s : State} {k : Slot} {it : Item} (h : s.item? k = some it)
    (hs : (s.dir it.set).state ≠ .retiring) : (s.freeItem k).mgmt = s.mgmt := by
  rw [State.freeItem_eq h, State.releaseBinding_of_ne (s := s.withoutItem k it) hs]
  rfl

/-- The set of an entry made FREE is bound once less (R14, R81). -/
theorem State.boundCount_freeItem {s : State} {k : Slot} {it : Item} (h : s.item? k = some it) :
    ((s.freeItem k).dir it.set).boundCount = (s.dir it.set).boundCount - 1 := by
  rw [State.freeItem_eq h]
  exact State.boundCount_releaseBinding _ _

/-- Settles O39: the item of the notice becomes FREE, and with nothing to send the Emitter stays IDLE. -/
theorem cancelNoticeEnds : Obligations.CancelNoticeEnds := by
  unfold Obligations.CancelNoticeEnds
  intro s m it hd hw hf hwork hit hr hc hret
  have hend : s.offFrame.endOf (.cancel m) = s.offWork.freeItem it.slot := by
    unfold State.endOf
    rw [show s.offFrame.emitter.discarded = false from hd, show s.offFrame.emitter.work = _ from hwork]
    exact if_neg Bool.false_ne_true
  have hitem : s.offWork.item? it.slot = some it := hit
  have hem : (s.offWork.freeItem it.slot).emitter = s.offWork.emitter := State.freeItem_emitter hitem
  refine ⟨s.offWork.freeItem it.slot, ?_, ?_, ?_, State.items_freeItem _ _,
    congrArg FrameMemory.freeStrips (State.frameMemory_freeItem hitem), State.boundCount_freeItem hitem⟩
  · have hexec : exec .cancelNoticeEnd s = .next s.frameEnded := by
      change Host.Outcome.next _ = _
      rw [hf]
    rw [hexec, State.frameEnded_eq hw, State.endFrame_of_some hf, hend]
    refine congrArg Host.Outcome.next (State.chooseFrame_of_nothing ?_ ?_)
    · rw [State.freeItem_mgmt hitem hret]
      exact hr
    · rw [hem]
      exact hc
  · rw [hem]; rfl
  · rw [hem]; rfl

/-! ### The SUMMARY (R5, R155) -/

/-- An entry whose SUMMARY has ended (R5). -/
def Item.summaryEnded (x : Item) : Item := { x with state := .retained, deferredCancel := none }

/-- The Emitter IDLE and the item RETAINED, a cancel that waited still to be taken. -/
def State.summaryEnded (s : State) (k : Slot) : State := s.offWork.modifyItem k Item.summaryEnded

/-- Settles O40: the item becomes RETAINED, and the cancel that waited is then taken as any other. -/
theorem summaryEnds : Obligations.SummaryEnds := by
  unfold Obligations.SummaryEnds
  intro s m it hd hw hf hwork hit
  have hexec : exec .summaryEnd s = .next (s.offFrame.endSummary it.slot).chooseFrame := by
    have hend : s.offFrame.endOf (.summary m) = s.offFrame.endSummary it.slot := by
      unfold State.endOf
      rw [show s.offFrame.emitter.discarded = false from hd, show s.offFrame.emitter.work = _ from hwork]
      exact if_neg Bool.false_ne_true
    change Host.Outcome.next _ = _
    rw [hf]
    dsimp only
    rw [State.frameEnded_eq hw, State.endFrame_of_some hf, hend]
  have hsum : s.offFrame.endSummary it.slot = match it.deferredCancel with
      | none => s.summaryEnded it.slot
      | some cause => ((s.summaryEnded it.slot).cancelItem it.slot cause).dispatch := by
    unfold State.endSummary
    dsimp only
    rw [show State.item? { s.offFrame with emitter := { s.offFrame.emitter with work := .idle } } it.slot = some it from hit]
    rfl
  refine ⟨fun hnone => ?_, fun c hsome hn => ?_⟩
  · rw [hexec, hsum, hnone]
    rfl
  · have hcan : (s.summaryEnded it.slot).Cancellable it.summaryEnded :=
      { found := (State.item?_modifyItem (f := Item.summaryEnded) fun _ => rfl).trans (congrArg (Option.map _) hit)
        distinct := by rw [State.summaryEnded, State.slots_modifyItem (f := Item.summaryEnded) fun _ => rfl]; exact hn
        state := by simp [Item.summaryEnded]
        summary := by simp [State.summaryEnded, State.offWork] }
    obtain ⟨hcancel, hnodup⟩ := State.cancelDispatch_cancels hcan c
    refine ⟨_, by rw [hexec, hsum, hsome], ?_⟩
    exact (hcancel.calm hnodup (State.chooseFrame_calm _)).entry

end Sys2Proof.Machine
end

section
/-! ANNOUNCE refused (O22) and accepted (O23): the slot found, the supersession of the tag, the eviction, and the new entry. -/

namespace Sys2Proof.Machine

open State (Calm Keeps)

/-! ### The steps of an ANNOUNCE (R6 to R10) -/

theorem exec_announce {s : State} (hup : s.links.track.up = true) (tag : Half) (lead : Position) (n : Half) :
    exec (.announce tag lead n) s = .next (s.announceFrame tag lead n).chooseFrame :=
  congrArg Host.Outcome.next (State.receive_up (k := .track) hup _)

/-- In RUNNING an ANNOUNCE of some length supersedes its tag and is then placed (R7, R8). -/
theorem State.announceFrame_running {s : State} (hm : s.mgmt.mode = .running) (tag : Half) (lead : Position) {n : Half}
    (hn : n ≠ 0) : s.announceFrame tag lead n = (s.supersede tag).placeAnnounce tag lead n := by
  unfold State.announceFrame
  rw [if_neg hn, if_neg (not_not_intro hm)]

/-- A tag that no entry carries supersedes nothing (R7). -/
theorem State.supersede_of_absent {s : State} {tag : Half} (h : ∀ it ∈ s.table.items, it.tag ≠ some tag) :
    s.supersede tag = s := by
  unfold State.supersede
  rw [State.itemByTag?_eq_none h]

/-- With room in the advice queue a refusal is an ADVICE REFEED (R137, R138). -/
theorem State.refuseAnnounce_of_room {s : State} (h : s.AdviceRoom) (tag : Half) (c : AdviceCause) :
    s.refuseAnnounce tag c = s.withRefeed tag c := by
  unfold State.refuseAnnounce State.composeAdvice
  exact if_pos h

/-- With no item RETAINED there is none to evict (R16). -/
theorem State.evict_eq_none {s : State} (h : ∀ it ∈ s.table.items, it.state ≠ .retained) : s.evict = none := by
  unfold State.evict State.oldestRetained
  rw [List.find?_eq_none.2 fun x hx => by simpa using h x hx]
  rfl

/-- With a slot FREE an ANNOUNCE is admitted as it stands (R8). -/
theorem State.placeAnnounce_of_lt {s : State} (h : s.table.items.length < 32) (tag : Half) (lead : Position) (n : Half) :
    s.placeAnnounce tag lead n = s.admitAnnounce tag lead n := if_pos h

/-- With no slot FREE it is admitted after the eviction (R8, R16). -/
theorem State.placeAnnounce_of_evict {s t : State} (h : 32 ≤ s.table.items.length) (he : s.evict = some t) (tag : Half)
    (lead : Position) (n : Half) : s.placeAnnounce tag lead n = t.admitAnnounce tag lead n := by
  unfold State.placeAnnounce
  rw [he]
  exact if_neg (Nat.not_lt.2 h)

/-- With no slot FREE and none to evict it is refused NO_SLOT (R8). -/
theorem State.placeAnnounce_noSlot {s : State} (h : 32 ≤ s.table.items.length) (he : s.evict = none) (tag : Half)
    (lead : Position) (n : Half) : s.placeAnnounce tag lead n = s.refuseAnnounce tag .noSlot := by
  unfold State.placeAnnounce
  rw [he]
  exact if_neg (Nat.not_lt.2 h)

/-- Settles O22: the refusals of R6, R9 and R8 with the ADVICE each owes. -/
theorem announceRefused : Obligations.AnnounceRefused := by
  unfold Obligations.AnnounceRefused
  intro s tag lead n hroom
  refine ⟨?_, fun hn hm => ?_, fun hn hm hnone => ⟨fun hlen hfull => ?_, fun hlen hret => ?_⟩⟩
  · rw [exec_announce hroom.1]
    unfold State.announceFrame
    rw [if_pos rfl]
    rfl
  · rw [exec_announce hroom.1]
    unfold State.announceFrame
    rw [if_neg hn, if_pos hm, State.refuseAnnounce_of_room hroom]
  · have hcrowd : s.crowded = true := Bool.or_eq_true_iff.2 (hfull.imp decide_eq_true decide_eq_true)
    rw [exec_announce hroom.1, State.announceFrame_running hm tag lead hn, State.supersede_of_absent hnone,
      State.placeAnnounce_of_lt hlen]
    unfold State.admitAnnounce
    rw [if_pos hcrowd, State.refuseAnnounce_of_room hroom]
  · rw [exec_announce hroom.1, State.announceFrame_running hm tag lead hn, State.supersede_of_absent hnone,
      State.placeAnnounce_noSlot hlen (State.evict_eq_none hret), State.refuseAnnounce_of_room hroom]

/-! ### The slot found -/

/-- The lowest slot that no entry holds is the one found (R10). -/
theorem State.freeSlot?_eq_some {s : State} {k : Slot} (hk : k < 32) (hfree : ∀ it ∈ s.table.items, it.slot ≠ k)
    (hbelow : ∀ j < k, ∃ it ∈ s.table.items, it.slot = j) : s.freeSlot? = some k := by
  refine List.find?_range_eq_some.2 ⟨?_, List.mem_range.2 hk, fun j hj => ?_⟩
  · exact Option.isNone_iff_eq_none.2 (List.find?_eq_none.2 fun x hx => by simpa using hfree x hx)
  · obtain ⟨x, hx, hslot⟩ := hbelow j hj
    have hsome : (s.item? j).isSome = true := List.find?_isSome.2 ⟨x, hx, by simpa using hslot⟩
    rw [← Option.not_isSome, hsome]
    rfl

/-- Fewer entries than slots leave a slot FREE. -/
theorem State.exists_freeSlot {s : State} (h : s.table.items.length < 32) : ∃ k, s.freeSlot? = some k := by
  refine Option.ne_none_iff_exists'.1 fun hnone => ?_
  have hsub : List.range 32 ⊆ s.table.items.map Item.slot := fun j hj => by
    have hj' := List.find?_range_eq_none.1 hnone j (List.mem_range.1 hj)
    rw [← Option.not_isSome, Bool.not_not] at hj'
    obtain ⟨x, hx, hslot⟩ := List.find?_isSome.1 hj'
    exact List.mem_map.2 ⟨x, hx, by simpa using hslot⟩
  have hle := (List.nodup_range.subperm hsub).length_le
  rw [List.length_range, List.length_map] at hle
  omega

/-- Where 32 entries stand in distinct slots every slot holds one (section 1.1). -/
theorem State.exists_mem_slot {s : State} (hlen : s.table.items.length = 32)
    (hn : (s.table.items.map Item.slot).Nodup) (hlt : ∀ it ∈ s.table.items, it.slot < 32) {j : Slot} (hj : j < 32) :
    ∃ it ∈ s.table.items, it.slot = j := by
  have hsub : s.table.items.map Item.slot ⊆ List.range 32 := fun j hj => by
    obtain ⟨x, hx, rfl⟩ := List.mem_map.1 hj
    exact List.mem_range.2 (hlt x hx)
  have hperm := (hn.subperm hsub).perm_of_length_le (by rw [List.length_range, List.length_map, hlen])
  exact List.mem_map.1 (hperm.mem_iff.2 (List.mem_range.2 hj))

/-! ### The entry made (R10) -/

theorem State.not_crowded {s : State} (h : ∀ cam, (s.channel cam).pendingList.length < 8) : s.crowded = false :=
  Bool.or_eq_false_iff.2 ⟨decide_eq_false (Nat.not_le.2 (h .front)), decide_eq_false (Nat.not_le.2 (h .rear))⟩

/-- An ANNOUNCE admitted with a FREE slot, room in both lists and an active set makes its entry (R9, R10). -/
theorem State.admitAnnounce_accepts {s : State} {k : Slot} {set : SetNo}
    (hl : ∀ cam, (s.channel cam).pendingList.length < 8) (hk : s.freeSlot? = some k) (ha : s.sets.active = some set)
    (tag : Half) (lead : Position) (n : Half) :
    s.admitAnnounce tag lead n = s.addItem (s.newItem k set tag lead n) := by
  unfold State.admitAnnounce
  rw [State.not_crowded hl, if_neg Bool.false_ne_true]
  unfold State.acceptAnnounce
  rw [hk, ha]

theorem State.placeAnnounce_accepts {s : State} {k : Slot} {set : SetNo} (hlen : s.table.items.length < 32)
    (hl : ∀ cam, (s.channel cam).pendingList.length < 8) (hk : s.freeSlot? = some k) (ha : s.sets.active = some set)
    (tag : Half) (lead : Position) (n : Half) :
    s.placeAnnounce tag lead n = s.addItem (s.newItem k set tag lead n) :=
  (State.placeAnnounce_of_lt hlen tag lead n).trans (State.admitAnnounce_accepts hl hk ha tag lead n)

/-- The slot joins the tail of both pending lists (R30). -/
theorem State.pendingList_addItem (s : State) (it : Item) (cam : Camera) :
    ((s.addItem it).channel cam).pendingList = (s.channel cam).pendingList ++ [it.slot] := by
  cases cam <;> rfl

theorem State.fifo_addItem (s : State) (it : Item) (cam : Camera) :
    ((s.addItem it).channel cam).fifo = (s.channel cam).fifo := by
  cases cam <;> rfl

/-- The set of the new entry is bound once more (R81). -/
theorem State.boundCount_addItem (s : State) (it : Item) :
    ((s.addItem it).dir it.set).boundCount = (s.dir it.set).boundCount + 1 :=
  have e := congrArg DirEntry.boundCount (TableStore.entry_setEntry s.sets it.set
    { s.dir it.set with boundCount := (s.dir it.set).boundCount + 1 })
  e

/-! ### A cancel of an item with nothing in hand (R11 to R13) -/

/-- A cancelled item before its renditions are handled: its entry marked, its capture stopped, its SUMMARY no longer waiting,
and its ADVICE given (R11, R44, R136). -/
def State.cancelled (s : State) (it : Item) (c : CancelCause) : State :=
  let stopped := (s.modifyItem it.slot (Item.markCancelled c)).stopCapture it.slot
  State.adviseCancelled { stopped with emitter := { stopped.emitter with
    summaryList := stopped.emitter.summaryList.filter (· != it.slot) } } it c

/-- The entry of an item cancelled, its ADVICE noted if the cancel owed one. -/
def Item.cancelledFor (c : CancelCause) (advised : Bool) (x : Item) : Item :=
  if advised then { x.markCancelled c with advice := some (.refeed, adviceCauseOf c) } else x.markCancelled c

theorem State.modifyItem_modifyItem (s : State) (k : Slot) (f g : Item → Item)
    (hf : ∀ x, (f x).slot = x.slot) : (s.modifyItem k f).modifyItem k g = s.modifyItem k (g ∘ f) := by
  unfold State.modifyItem
  dsimp only
  rw [List.map_map]
  congr 2
  refine List.map_congr_left fun x _ => ?_
  by_cases hx : x.slot = k <;> simp [hx, hf]

/-- An ADVICE leaves the table and the engines as they are (R138). -/
@[simp] theorem State.composeAdvice_table (s : State) (a : Advice) : (s.composeAdvice a).table = s.table := by
  unfold State.composeAdvice
  dsimp only
  split <;> rfl

@[simp] theorem State.composeAdvice_render (s : State) (a : Advice) : (s.composeAdvice a).render = s.render := by
  unfold State.composeAdvice
  dsimp only
  split <;> rfl

/-- The table of a cancelled item: its own entry changed, every other as it was. -/
theorem State.table_cancelled (s : State) (it : Item) (c : CancelCause) :
    ∃ advised, (s.cancelled it c).table = (s.modifyItem it.slot (Item.cancelledFor c advised)).table := by
  unfold State.cancelled State.adviseCancelled
  dsimp only
  split
  · refine ⟨true, ?_⟩
    rw [State.composeAdvice_table]
    have e := congrArg State.table (State.modifyItem_modifyItem s it.slot (Item.markCancelled c)
      (fun x => { x with advice := some (.refeed, adviceCauseOf c) }) fun _ => rfl)
    exact e
  · exact ⟨false, rfl⟩

theorem State.cancelled_render (s : State) (it : Item) (c : CancelCause) : (s.cancelled it c).render = s.render := by
  unfold State.cancelled State.adviseCancelled
  dsimp only
  split
  · rw [State.composeAdvice_render]; rfl
  · rfl

/-- The ADVICE REFEED that a cancel owes joins the tail of the queue (R11, R136). -/
theorem State.adviceQueue_cancelled {s : State} {it : Item} (c : CancelCause) (hg : it.generation = 0)
    (ha : it.advice = none) (hr : s.AdviceRoom) : (s.cancelled it c).adviceOut.queue
      = s.adviceOut.queue ++ [{ tag := it.announcedTag, verdict := .refeed, cause := adviceCauseOf c }] := by
  unfold State.cancelled State.adviseCancelled
  dsimp only
  rw [if_pos ⟨ha, hg⟩, State.adviceQueue_composeAdvice]
  · rfl
  · exact hr.1
  · exact hr.2

/-- With every rendition EMITTED or DROPPED the cancel only tests for completion (R12, R13). -/
theorem State.cancelNow_of_settled {s : State} {it : Item} (c : CancelCause)
    (h : ∀ q ∈ it.renditions.getD [], q.state = .emitted ∨ q.state = .dropped) :
    s.cancelNow it c = (s.cancelled it c).completeCancel it.slot := by
  have hfold : ∀ t : State, (it.renditions.getD []).foldl (fun t q => t.cancelRendition it.slot q) t = t := by
    intro t
    generalize it.renditions.getD [] = l at h
    induction l with
    | nil => rfl
    | cons q l ih =>
      have hq : t.cancelRendition it.slot q = t := by
        unfold State.cancelRendition
        rcases h q List.mem_cons_self with e | e <;> rw [e]
      rw [List.foldl_cons, hq]
      exact ih fun x hx => h x (List.mem_cons_of_mem _ hx)
  unfold State.cancelNow
  dsimp only
  rw [hfold, State.serveReturned_of_le (le_refl _)]
  rfl

/-- A cancel taken at once (R11). -/
theorem State.cancelItem_of_cancellable {s : State} {it : Item} (h : s.Cancellable it) (c : CancelCause) :
    s.cancelItem it.slot c = s.cancelNow it c := by
  unfold State.cancelItem
  rw [h.found]
  dsimp only
  rw [if_neg h.state, if_neg fun x => h.summary x.1]

/-- The entry of a cancelled item, CANCELLING, its renditions and what was emitted of it as they were. -/
theorem State.item?_cancelled {s : State} {it : Item} (h : s.item? it.slot = some it) (c : CancelCause) :
    ∃ x, (s.cancelled it c).item? it.slot = some x ∧ x.slot = it.slot ∧ x.tag = it.tag
      ∧ x.announcedTag = it.announcedTag ∧ x.state = .cancelling ∧ x.emittedAny = it.emittedAny
      ∧ x.renditions = it.renditions := by
  obtain ⟨advised, ht⟩ := s.table_cancelled it c
  have hslot : ∀ x : Item, (Item.cancelledFor c advised x).slot = x.slot := fun x => by cases advised <;> rfl
  refine ⟨Item.cancelledFor c advised it, ?_, ?_⟩
  · rw [State.item?_congr ht, State.item?_modifyItem hslot, h]
    rfl
  · cases advised <;> exact ⟨rfl, rfl, rfl, rfl, rfl, rfl⟩

/-! ### Supersession (R7) -/

/-- The state in which a superseded entry has lost its tag. -/
def State.untagged (s : State) (k : Slot) : State := s.modifyItem k fun x => { x with tag := none }

theorem State.supersede_of_found {s : State} {tag : Half} {old : Item} (h : s.itemByTag? tag = some old) :
    s.supersede tag = ((s.untagged old.slot).cancelItem old.slot .tagReuse).dispatch := by
  unfold State.supersede
  rw [h]
  rfl

/-- The entry without its tag can be cancelled as the entry could. -/
theorem State.cancellable_untagged {s : State} {old : Item} (h : s.Cancellable old) :
    (s.untagged old.slot).Cancellable { old with tag := none } where
  found := (State.item?_modifyItem (f := fun x => { x with tag := none }) fun _ => rfl).trans
    (congrArg (Option.map _) h.found)
  distinct := by
    unfold State.untagged
    rw [State.slots_modifyItem (f := fun x => { x with tag := none }) fun _ => rfl]
    exact h.distinct
  state := h.state
  summary := h.summary

/-- What a supersession keeps for the steps after it: slots distinct, the active set, and room in the pending lists. -/
theorem State.supersede_spec {s : State} {tag : Half} {old : Item} (h : s.itemByTag? tag = some old)
    (hc : s.Cancellable old) :
    s.Cancels (s.supersede tag) old .tagReuse .tagReuse
      ∧ ((s.supersede tag).table.items.map Item.slot).Nodup
      ∧ (s.supersede tag).sets.active = s.sets.active := by
  have hu := State.cancellable_untagged hc
  obtain ⟨hcancel, hn⟩ := State.cancelDispatch_cancels hu .tagReuse
  rw [State.supersede_of_found h]
  exact ⟨⟨hcancel.entry, hcancel.lists, hcancel.lines, hcancel.advice⟩, hn,
    congrArg Bedrock.active (State.cancelDispatch_calm (s.untagged old.slot) old.slot .tagReuse).bedrock⟩

/-- A supersession adds no entry and no slot to a pending list. -/
theorem State.supersede_le {s : State} (tag : Half) (hn : (s.table.items.map Item.slot).Nodup) :
    (s.supersede tag).table.items.length ≤ s.table.items.length
      ∧ ∀ cam, ((s.supersede tag).channel cam).pendingList.length ≤ (s.channel cam).pendingList.length :=
  have hk := s.supersede_keeps tag
  ⟨(hk.items hn).length_le, hk.lists⟩

/-- With every rendition EMITTED or DROPPED a supersession only tests the cancel for completion. -/
theorem State.supersede_of_settled {s : State} {tag : Half} {old : Item} (h : s.itemByTag? tag = some old)
    (hc : s.Cancellable old)
    (hq : ∀ q ∈ old.renditions.getD [], q.state = .emitted ∨ q.state = .dropped) :
    s.supersede tag
      = (((s.untagged old.slot).cancelled { old with tag := none } .tagReuse).completeCancel old.slot).dispatch := by
  rw [State.supersede_of_found h]
  congr 1
  exact (State.cancelItem_of_cancellable (State.cancellable_untagged hc) .tagReuse).trans
    (State.cancelNow_of_settled .tagReuse hq)

end Sys2Proof.Machine
end

section
/-! ANNOUNCE accepted (O23): after a supersession that leaves the old entry or frees it, and after an eviction. -/

namespace Sys2Proof.Machine

open State (Calm Keeps)

/-! ### The old entry after a supersession (R7, R13) -/

/-- With nothing emitted and nothing in hand a completed cancel makes the entry FREE (R13). -/
theorem State.completeCancel_of_unemitted {s : State} {k : Slot} {it : Item} (h : s.item? k = some it)
    (hs : it.state = .cancelling) (hi : it.inHand = false) (he : it.emittedAny = false) :
    s.completeCancel k = s.freeItem k := by
  unfold State.completeCancel
  rw [h]
  dsimp only
  rw [if_pos ⟨hs, by rw [hi]; rfl⟩, he]
  exact if_neg Bool.false_ne_true

theorem State.freeItem_render {s : State} {k : Slot} {it : Item} (h : s.item? k = some it) :
    (s.freeItem k).render = s.render := by
  rw [State.freeItem_eq h, State.releaseBinding_render]
  rfl

theorem State.freeItem_adviceOut {s : State} {k : Slot} {it : Item} (h : s.item? k = some it) :
    (s.freeItem k).adviceOut = s.adviceOut := by
  rw [State.freeItem_eq h]
  rcases (s.withoutItem k it).releaseBinding_eq it.set with e | e
  · rw [e]; rfl
  · rw [e, State.composeEvent_adviceOut]; rfl

/-- The other entries are as they were after a change of one. -/
theorem State.filter_modifyItem (s : State) (k : Slot) {f : Item → Item} (hf : ∀ x, (f x).slot = x.slot) :
    (s.modifyItem k f).table.items.filter (fun x => x.slot != k) = s.table.items.filter fun x => x.slot != k := by
  unfold State.modifyItem
  dsimp only
  induction s.table.items with
  | nil => rfl
  | cons a l ih =>
    rw [List.map_cons, List.filter_cons, List.filter_cons, ih]
    by_cases ha : a.slot = k <;> simp [ha, hf]

/-- With something emitted the superseded entry stands, without its tag (R7, R13). -/
theorem State.item?_supersede_of_emitted {s : State} {tag : Half} {old : Item} (h : s.itemByTag? tag = some old)
    (hc : s.Cancellable old) (hr : s.render.queue = [])
    (hq : ∀ q ∈ old.renditions.getD [], q.state = .emitted ∨ q.state = .dropped) (he : old.emittedAny = true) :
    ∃ x, (s.supersede tag).item? old.slot = some x ∧ x.tag = none ∧ x.announcedTag = old.announcedTag := by
  obtain ⟨x, hx, -, htag, hann, -, hem, -⟩ := State.item?_cancelled (State.cancellable_untagged hc).found .tagReuse
  obtain ⟨l, hl, -⟩ := State.completeCancel_of_emitted hx (hem.trans he)
  refine ⟨x, ?_, htag, hann⟩
  rw [State.supersede_of_settled h hc hq, hl, State.dispatch_of_nil]
  · exact hx
  · refine (congrArg Render.queue (State.cancelled_render _ _ _)).trans hr

/-- With nothing emitted and no renditions the superseded entry is gone, its ADVICE REFEED queued (R7, R13, R136). -/
theorem State.supersede_of_unemitted {s : State} {tag : Half} {old : Item} (h : s.itemByTag? tag = some old)
    (hc : s.Cancellable old) (hr : s.render.queue = []) (hren : old.renditions = none) (he : old.emittedAny = false)
    (hg : old.generation = 0) (ha : old.advice = none) (hroom : s.AdviceRoom) :
    (s.supersede tag).table.items = s.table.items.filter (fun x => x.slot != old.slot)
      ∧ (s.supersede tag).adviceOut.queue
        = s.adviceOut.queue ++ [{ tag := old.announcedTag, verdict := .refeed, cause := .tagReuse }] := by
  obtain ⟨x, hx, -, -, -, hs, hem, hrx⟩ := State.item?_cancelled (State.cancellable_untagged hc).found .tagReuse
  have hhand : x.inHand = false := by
    unfold Item.inHand
    rw [hrx, show ({ old with tag := none } : Item).renditions = none from hren]
    rfl
  have hfree := State.completeCancel_of_unemitted hx hs hhand (hem.trans he)
  have hqueue : ((s.untagged old.slot).cancelled { old with tag := none } .tagReuse).render.queue = [] :=
    (congrArg Render.queue (State.cancelled_render _ _ _)).trans hr
  rw [State.supersede_of_settled h hc (by rw [hren]; simp), hfree,
    State.dispatch_of_nil (by rw [State.freeItem_render hx]; exact hqueue)]
  constructor
  · obtain ⟨advised, ht⟩ := (s.untagged old.slot).table_cancelled { old with tag := none } .tagReuse
    have hslot : ∀ x : Item, (Item.cancelledFor .tagReuse advised x).slot = x.slot := fun x => by cases advised <;> rfl
    rw [State.items_freeItem, ht]
    exact ((s.untagged old.slot).filter_modifyItem old.slot hslot).trans
      (s.filter_modifyItem old.slot (f := fun x => { x with tag := none }) fun _ => rfl)
  · rw [State.freeItem_adviceOut hx]
    exact State.adviceQueue_cancelled (s := s.untagged old.slot) (it := { old with tag := none }) .tagReuse hg ha hroom

/-! ### The new entry beside what a cancel left -/

/-- A new entry in another slot touches none of what a cancel brought about. -/
theorem State.Cancels.addItem {s t : State} {it new : Item} {c : CancelCause} {a : AdviceCause} (h : s.Cancels t it c a)
    (hne : new.slot ≠ it.slot) : s.Cancels (t.addItem new) it c a where
  entry := fun x hx hs => by
    rcases List.mem_append.1 hx with hx | hx
    · exact h.entry x hx hs
    · rw [List.mem_singleton.1 hx] at hs
      exact absurd hs hne
  lists := fun cam => by
    rw [State.pendingList_addItem, List.mem_append, List.mem_singleton]
    exact not_or_intro (h.lists cam) hne.symm
  lines := fun cam => by
    rw [State.fifo_addItem]
    exact h.lines cam
  advice := h.advice

/-- An entry in a slot that none holds keeps slots distinct. -/
theorem State.slots_addItem {s : State} (hn : (s.table.items.map Item.slot).Nodup) {new : Item}
    (hfree : new.slot ∉ s.table.items.map Item.slot) : ((s.addItem new).table.items.map Item.slot).Nodup := by
  change ((s.table.items ++ [new]).map Item.slot).Nodup
  rw [List.map_append, List.map_singleton]
  exact hn.append (List.nodup_singleton _) (List.disjoint_singleton.2 hfree)

/-- An entry of the table is there after the choice of a frame, but for the mark of a rendition begun (R146, R148). -/
theorem State.mem_chooseFrame {s : State} (hn : (s.table.items.map Item.slot).Nodup) {x : Item}
    (hx : x ∈ s.table.items) : ∃ y ∈ s.chooseFrame.table.items, y = x ∨ ∃ i, y = x.begun i := by
  rcases State.item?_chooseFrame (State.item?_eq_of_mem hn hx) with h | ⟨i, h⟩
  · exact ⟨x, (State.mem_of_item? h).1, Or.inl rfl⟩
  · exact ⟨_, (State.mem_of_item? h).1, Or.inr ⟨i, rfl⟩⟩

/-! ### The eviction before an ANNOUNCE (R8, R16) -/

/-- The oldest RETAINED item is the first in the table (R1, R16). -/
theorem State.oldestRetained_eq {s : State} {v : Item} {older younger : List Item}
    (h : s.table.items = older ++ v :: younger) (ho : ∀ x ∈ older, x.state ≠ .retained) (hv : v.state = .retained) :
    s.oldestRetained = some v := by
  unfold State.oldestRetained
  rw [h]
  exact List.find?_eq_some_iff_append.2 ⟨decide_eq_true hv, older, younger, rfl, fun x hx => by simpa using ho x hx⟩

/-- The state in which the eviction of an item has been counted and its EVENT composed (R16, R191). -/
def State.evicting (s : State) (v : Item) : State :=
  (s.modifyCounters fun c => { c with evictions := saturatingInc c.evictions }).composeEvent
    (.evicted v.announcedTag v.generation v.sequence)

theorem State.evict_eq {s : State} {v : Item} (h : s.oldestRetained = some v) :
    s.evict = some ((s.evicting v).freeItem v.slot) := by
  unfold State.evict
  rw [h]
  rfl

theorem State.item?_evicting (s : State) (v : Item) (k : Slot) : (s.evicting v).item? k = s.item? k :=
  State.item?_congr (State.composeEvent_table _ _) k

/-- What is composed before the entry leaves: EVICTED, and nothing else yet (R16). -/
theorem State.reportsHeld_evicting {s : State} (h : s.EventRoom) (v : Item) : (s.evicting v).reportsHeld
    = s.reportsHeld ++ [.event ⟨s.mgmt.eventSeq, .evicted v.announcedTag v.generation v.sequence⟩] :=
  State.reportsHeld_composeEvent (s := s.modifyCounters _) h.1 h.2 _

/-- What an eviction brings about: the entry gone, its strips free, the eviction counted, EVICTED first of the EVENTs that
follow; the active set, the settings and the render queue stay (R14, R16). -/
structure State.Evicts (s t : State) (v : Item) : Prop where
  items : t.table.items = s.table.items.filter fun x => x.slot != v.slot
  frameMemory : t.frameMemory = { s.frameMemory with freeStrips := s.frameMemory.freeStrips ++ v.strips }
  counted : t.mgmt.counters.evictions = saturatingInc s.mgmt.counters.evictions
  reports : s.EventRoom → ∃ l, t.reportsHeld = s.reportsHeld
    ++ .event ⟨s.mgmt.eventSeq, .evicted v.announcedTag v.generation v.sequence⟩ :: l
  active : t.sets.active = s.sets.active
  settings : t.mgmt.settings = s.mgmt.settings
  queue : t.render.queue = s.render.queue
  lists : ∀ cam, (t.channel cam).pendingList.length ≤ (s.channel cam).pendingList.length

/-- What internal work never changes stays at an eviction, but for its counter. -/
theorem State.bedrock_evicting (s : State) (v : Item) :
    (s.evicting v).bedrock = (s.modifyCounters fun c => { c with evictions := saturatingInc c.evictions }).bedrock :=
  (State.composeEvent_calm _ _).bedrock

/-- The counter of evictions after an EVENT. -/
theorem State.evictions_evicting (s : State) (v : Item) :
    (s.evicting v).mgmt.counters.evictions = saturatingInc s.mgmt.counters.evictions :=
  congrArg Bedrock.evictions (s.bedrock_evicting v)

/-- The eviction of the oldest RETAINED item (R16). -/
theorem State.evicts_oldest {s : State} {v : Item} (hv : s.oldestRetained = some v)
    (hn : (s.table.items.map Item.slot).Nodup) : ∃ t, s.evict = some t ∧ s.Evicts t v := by
  have hfound : (s.evicting v).item? v.slot = some v := by
    rw [State.item?_evicting]
    exact State.item?_eq_of_mem hn (List.mem_of_find?_eq_some hv)
  have hcalm := State.freeItem_calm (s.evicting v) v.slot
  refine ⟨_, State.evict_eq hv, {
    items := ?_, frameMemory := ?_, counted := ?_, reports := fun hroom => ?_, active := ?_,
    settings := ?_, queue := ?_,
    lists := (State.evict_keeps (State.evict_eq hv)).lists }⟩
  · rw [State.items_freeItem, State.evicting, State.composeEvent_table]
    rfl
  · rw [State.frameMemory_freeItem hfound, State.evicting, State.composeEvent_frameMemory]
    rfl
  · exact (congrArg Bedrock.evictions hcalm.bedrock).trans (s.evictions_evicting v)
  · obtain ⟨l, hl, -⟩ := hcalm.reports
    exact ⟨l, by rw [hl, State.reportsHeld_evicting hroom, List.append_assoc]; rfl⟩
  · exact congrArg Bedrock.active (hcalm.bedrock.trans (s.bedrock_evicting v))
  · exact congrArg Bedrock.settings (hcalm.bedrock.trans (s.bedrock_evicting v))
  · rw [State.freeItem_render hfound, State.evicting, State.composeEvent_render]
    rfl

/-- Without its one entry a slot's list of entries is what stood before and after it. -/
theorem filter_slot_of_nodup {older younger : List Item} {v : Item}
    (hn : ((older ++ v :: younger).map Item.slot).Nodup) :
    (older ++ v :: younger).filter (fun x => x.slot != v.slot) = older ++ younger := by
  rw [List.map_append, List.map_cons, List.nodup_append] at hn
  obtain ⟨-, hv, hdis⟩ := hn
  have hkeep : ∀ l : List Item, (∀ x ∈ l, x.slot ≠ v.slot) → l.filter (fun x => x.slot != v.slot) = l := fun l h =>
    List.filter_eq_self.2 fun x hx => by simpa using h x hx
  rw [List.filter_append, List.filter_cons_of_neg (by simp), hkeep older, hkeep younger]
  · exact fun x hx he => (List.nodup_cons.1 hv).1 (he ▸ List.mem_map_of_mem hx)
  · exact fun x hx => hdis _ (List.mem_map_of_mem hx) _ List.mem_cons_self

/-! ### ANNOUNCE accepted -/

/-- Settles O23: the new entry after no change, after the supersession of its tag, and after an eviction. -/
theorem announceAccepted : Obligations.AnnounceAccepted := by
  unfold Obligations.AnnounceAccepted
  refine ⟨fun s tag lead n k set hup hn hm hnone hlen hl ha hk hfree hbelow => ?_,
    fun s tag lead n set old hup hn hm hold hc hl ha hlen hr => ⟨fun he hq _ => ?_, fun he hren hg hadv hroom => ?_⟩,
    fun s tag lead n set v older younger hup hn hm hnone hlen hnd hlt hl ha hroom hitems ho hv => ?_⟩
  · refine ⟨s.addItem (s.newItem k set tag lead n), s.newItem k set tag lead n, ?_, rfl, rfl, rfl,
      State.boundCount_addItem s (s.newItem k set tag lead n), State.pendingList_addItem s _, rfl, rfl, rfl, rfl, rfl, rfl, rfl,
      rfl, rfl, rfl, rfl, rfl, rfl, rfl, rfl, rfl, rfl, rfl, fun cam => ?_, rfl, rfl, rfl, rfl, rfl, rfl, rfl, rfl, rfl⟩
    · rw [exec_announce hup, State.announceFrame_running hm tag lead hn, State.supersede_of_absent hnone,
        State.placeAnnounce_accepts hlen hl (State.freeSlot?_eq_some hk hfree hbelow) ha]
    · cases cam <;> exact ⟨rfl, rfl, rfl, rfl, rfl, rfl, rfl, rfl, rfl, rfl⟩
  · obtain ⟨hcancel, hnd, hact⟩ := State.supersede_spec hold hc
    obtain ⟨hle, hlists⟩ := s.supersede_le tag hc.distinct
    obtain ⟨k, hk⟩ := State.exists_freeSlot (Nat.lt_of_le_of_lt hle hlen)
    obtain ⟨x, hx, htag, hann⟩ := State.item?_supersede_of_emitted hold hc hr hq he
    obtain ⟨hmem, hslot⟩ := State.mem_of_item? hx
    have hfree := (State.Sound.freeSlot hk).2
    have hne : k ≠ old.slot := fun e => hfree (e ▸ hslot ▸ List.mem_map_of_mem hmem)
    have hnd' : (((s.supersede tag).addItem ((s.supersede tag).newItem k set tag lead n)).table.items.map Item.slot).Nodup :=
      State.slots_addItem hnd hfree
    obtain ⟨y, hy, hyx⟩ := State.mem_chooseFrame hnd' (List.mem_append_left _ hmem)
    obtain ⟨z, hz, hzn⟩ := State.mem_chooseFrame hnd' (List.mem_append_right _ (List.mem_singleton.2 rfl))
    refine ⟨_, z, ?_, (hcancel.addItem hne).calm hnd' (State.chooseFrame_calm _), hz, ?_, ?_, ?_, y, hy, ?_, ?_, ?_⟩
    · rw [exec_announce hup, State.announceFrame_running hm tag lead hn,
        State.placeAnnounce_accepts (Nat.lt_of_le_of_lt hle hlen) (fun cam => Nat.lt_of_le_of_lt (hlists cam) (hl cam)) hk
          (hact.trans ha)]
    · rcases hzn with rfl | ⟨i, rfl⟩ <;> exact hne
    · rcases hzn with rfl | ⟨i, rfl⟩ <;> rfl
    · rcases hzn with rfl | ⟨i, rfl⟩ <;> rfl
    · rcases hyx with rfl | ⟨i, rfl⟩ <;> exact hslot
    · rcases hyx with rfl | ⟨i, rfl⟩ <;> exact htag
    · rcases hyx with rfl | ⟨i, rfl⟩ <;> exact hann
  · obtain ⟨-, -, hact⟩ := State.supersede_spec hold hc
    obtain ⟨hle, hlists⟩ := s.supersede_le tag hc.distinct
    obtain ⟨k, hk⟩ := State.exists_freeSlot (Nat.lt_of_le_of_lt hle hlen)
    obtain ⟨hitems, hqueue⟩ := State.supersede_of_unemitted hold hc hr hren he hg hadv hroom
    refine ⟨(s.supersede tag).addItem ((s.supersede tag).newItem k set tag lead n),
      (s.supersede tag).newItem k set tag lead n, ?_, ?_, rfl, rfl, hqueue⟩
    · rw [exec_announce hup, State.announceFrame_running hm tag lead hn,
        State.placeAnnounce_accepts (Nat.lt_of_le_of_lt hle hlen) (fun cam => Nat.lt_of_le_of_lt (hlists cam) (hl cam)) hk
          (hact.trans ha)]
    · rw [← hitems]
      rfl
  · obtain ⟨t, het, hev⟩ := State.evicts_oldest (State.oldestRetained_eq hitems ho hv) hnd
    have hvmem : v ∈ s.table.items := by rw [hitems]; simp
    have hslot : t.freeSlot? = some v.slot := by
      refine State.freeSlot?_eq_some (hlt v hvmem) (fun x hx => ?_) fun j hj => ?_
      · rw [hev.items] at hx
        simpa using (List.mem_filter.1 hx).2
      · obtain ⟨x, hx, rfl⟩ := State.exists_mem_slot hlen hnd hlt (Nat.lt_trans hj (hlt v hvmem))
        exact ⟨x, by rw [hev.items]; exact List.mem_filter.2 ⟨hx, by simpa using Nat.ne_of_lt hj⟩, rfl⟩
    obtain ⟨l, hl'⟩ := hev.reports hroom
    refine ⟨t.addItem (t.newItem v.slot set tag lead n), t.newItem v.slot set tag lead n, l, ?_, ?_, rfl, rfl,
      congrArg FrameMemory.freeStrips hev.frameMemory, hev.counted, hl'⟩
    · rw [exec_announce hup, State.announceFrame_running hm tag lead hn, State.supersede_of_absent hnone,
        State.placeAnnounce_of_evict (Nat.le_of_eq hlen.symm) het,
        State.admitAnnounce_accepts (fun cam => Nat.lt_of_le_of_lt (hev.lists cam) (hl cam)) hslot (hev.active.trans ha)]
    · change t.table.items ++ _ = _
      rw [hev.items, hitems, filter_slot_of_nodup (hitems ▸ hnd)]

end Sys2Proof.Machine
end

section
/-! Lines at a channel in CAPTURE: the command, the side, and one line taken into it (R28, R35 to R37). -/

namespace Sys2Proof.Machine

open State (Calm Keeps)

/-! ### A side of an entry -/

@[simp] theorem Item.side_setSide (it : Item) (cam : Camera) (x : Side) : (it.setSide cam x).side cam = x := by
  cases cam <;> rfl

@[simp] theorem Item.side_setSide_other (it : Item) (cam : Camera) (x : Side) :
    (it.setSide cam x).side (otherCamera cam) = it.side (otherCamera cam) := by
  cases cam <;> rfl

@[simp] theorem Item.setSide_setSide (it : Item) (cam : Camera) (x y : Side) :
    (it.setSide cam x).setSide cam y = it.setSide cam y := by
  cases cam <;> rfl

@[simp] theorem Item.setSide_side (it : Item) (cam : Camera) : it.setSide cam (it.side cam) = it := by
  cases cam <;> rfl

@[simp] theorem Item.name_setSide (it : Item) (cam : Camera) (x : Side) : (it.setSide cam x).name = it.name := by
  cases cam <;> rfl

@[simp] theorem Item.slot_setSide (it : Item) (cam : Camera) (x : Side) : (it.setSide cam x).slot = it.slot := by
  cases cam <;> rfl

@[simp] theorem Item.state_setSide (it : Item) (cam : Camera) (x : Side) : (it.setSide cam x).state = it.state := by
  cases cam <;> rfl

@[simp] theorem Item.advice_setSide (it : Item) (cam : Camera) (x : Side) : (it.setSide cam x).advice = it.advice := by
  cases cam <;> rfl

/-- A rendition begun is no change of a side (R148). -/
@[simp] theorem Item.side_begun (i : Nat) (it : Item) (cam : Camera) : (it.begun i).side cam = it.side cam := by
  cases cam <;> rfl

theorem State.item?_modifySide {s : State} {k : Slot} {it : Item} (h : s.item? k = some it) (cam : Camera)
    (f : Side → Side) : (s.modifySide k cam f).item? k = some (it.setSide cam (f (it.side cam))) := by
  unfold State.modifySide
  rw [State.item?_modifyItem (f := fun it => it.modifySide cam f) fun x => x.slot_setSide cam _, h]
  rfl

theorem State.slots_modifySide (s : State) (k : Slot) (cam : Camera) (f : Side → Side) :
    (s.modifySide k cam f).table.items.map Item.slot = s.table.items.map Item.slot :=
  State.slots_modifyItem fun x => x.slot_setSide cam _

/-! ### The LINE command in CAPTURE (R26 to R28) -/

/-- A channel's port position moved to a line's (R26). -/
def State.atPort (s : State) (cam : Camera) (p : Position) : State :=
  s.modifyChannel cam fun c => { c with portPosition := some p }

/-- A line noted as the last its channel has seen (R28). -/
def State.seen (s : State) (cam : Camera) (flag : Bool) (p : Position) : State :=
  s.modifyChannel cam fun c => { c with previousFlag := flag, lastPosition := some p }

theorem State.item?_atPort (s : State) (cam : Camera) (p : Position) (k : Slot) : (s.atPort cam p).item? k = s.item? k :=
  rfl

theorem State.seen_calm (s : State) (cam : Camera) (flag : Bool) (p : Position) : s.Calm (s.seen cam flag p) :=
  Calm.channel (fun _ => .refl _) (fun _ => .refl _) fun _ => rfl

theorem State.skipLine_calm (s : State) (cam : Camera) (flag : Bool) : s.Calm (s.skipLine cam flag) := by
  unfold State.skipLine
  refine .of_ite (.refl s) (Calm.channel (fun c => ?_) (fun c => ?_) fun c => ?_)
  · split <;> exact .refl _
  · split <;> exact .refl _
  · split <;> rfl

/-- A good line at a channel in CAPTURE, with its last position known. -/
theorem exec_line_of_capture {s : State} {cam : Camera} {p q : Position} {px : List Byte} {k : Slot}
    (h : s.GoodLine cam p px) (hf : (s.channel cam).fifo.length < 16) (hs : (s.channel cam).state = .capture)
    (hb : (s.channel cam).bound = some k) (hq : (s.channel cam).lastPosition = some q) (doc : Byte) :
    exec (.line (cameraCode cam) doc p px) s
      = .next (((s.atPort cam p).captureLine k cam q (doc != 0) p px).seen cam (doc != 0) p).chooseFrame := by
  refine (congrArg Host.Outcome.next (State.receive_up (k := .track) h.up _)).trans ?_
  rw [State.exec_line h hf]
  unfold State.seeLine
  dsimp only
  rw [State.channel_modifyChannel, hs, hb, hq]
  rfl

/-- The entry after the line has been noted and a frame chosen has the sides it had (R28, R146). -/
theorem State.item?_seen_chooseFrame {s : State} {k : Slot} {it : Item} (h : s.item? k = some it) (cam : Camera)
    (flag : Bool) (p : Position) : ∃ x, (s.seen cam flag p).chooseFrame.item? k = some x
      ∧ x.name = it.name ∧ x.state = it.state ∧ x.advice = it.advice ∧ ∀ c, x.side c = it.side c := by
  rcases State.item?_chooseFrame (s := s.seen cam flag p) h with hx | ⟨i, hx⟩
  · exact ⟨it, hx, rfl, rfl, rfl, fun _ => rfl⟩
  · exact ⟨it.begun i, hx, rfl, rfl, rfl, it.side_begun i⟩

theorem State.channel_seen_chooseFrame (s : State) (cam : Camera) (flag : Bool) (p : Position) :
    (s.seen cam flag p).chooseFrame.channel cam = { s.channel cam with previousFlag := flag, lastPosition := some p } := by
  unfold State.channel
  rw [State.chooseFrame_capture]
  exact State.channel_modifyChannel s cam _

/-- No slot is taken as the line is noted and a frame chosen. -/
theorem State.slots_seen_chooseFrame {s : State} (hn : (s.table.items.map Item.slot).Nodup) (cam : Camera) (flag : Bool)
    (p : Position) : ((s.seen cam flag p).chooseFrame.table.items.map Item.slot).Sublist (s.table.items.map Item.slot) :=
  (((State.chooseFrame_calm (s.seen cam flag p)).items hn).mono fun r => r.sameEntry).slots_sublist

/-! ### Missing lines (R35) -/

/-- The line next to the last one seen misses none. -/
theorem missing_next (p : Position) : (p - (p - 1)).toNat - 1 = 0 := by
  rw [sub_sub_cancel]
  rfl

/-- A line in CAPTURE that misses none is seen as it is (R36, R42). -/
theorem State.captureLine_next (s : State) (k : Slot) (cam : Camera) (flag : Bool) (p : Position) (px : List Byte) :
    s.captureLine k cam (p - 1) flag p px = s.endOfGap k cam flag p px (s.sideLines k cam) 0 := by
  unfold State.captureLine
  rw [missing_next]
  rfl

/-- Nine or more missing lines lose the side (R38). -/
theorem State.captureLine_lost {p q : Position} (h : 10 ≤ (p - q).toNat) (s : State) (k : Slot) (cam : Camera) (flag : Bool)
    (px : List Byte) : s.captureLine k cam q flag p px = (s.loseSide k cam).skipLine cam flag := by
  unfold State.captureLine
  exact if_pos (show 8 < (p - q).toNat - 1 by omega)

/-! ### One line taken (R36, R124) -/

/-- A side with one line more (R36, R124). -/
def Side.withLine (dark : Nat) (px : List Byte) (x : Side) : Side :=
  { x with lines := x.lines + 1, chain := countLine x.chain, accumulators := x.accumulators.map fun a => accumulate dark a px }

/-- The state in which a line has been taken into a side. -/
def State.withLine (s : State) (k : Slot) (cam : Camera) (px : List Byte) : State :=
  (s.modifySide k cam (Side.withLine s.mgmt.settings.darkLevel.toNat px)).modifyChannel cam fun c => { c with lastTaken := px }

/-- With an empty render queue a line recorded wakes nothing (R36, R91). -/
theorem State.recordLine_of_nil {s : State} (h : s.render.queue = []) (k : Slot) (cam : Camera) (px : List Byte) :
    s.recordLine k cam px = s.withLine k cam px :=
  State.wake_of_nil (s := s.withLine k cam px) s h

theorem State.item?_withLine {s : State} {k : Slot} {it : Item} (h : s.item? k = some it) (cam : Camera) (px : List Byte) :
    (s.withLine k cam px).item? k
      = some (it.setSide cam ((it.side cam).withLine s.mgmt.settings.darkLevel.toNat px)) :=
  State.item?_modifySide h cam _

theorem State.sideLines_of_found {s : State} {k : Slot} {it : Item} (h : s.item? k = some it) (cam : Camera) :
    s.sideLines k cam = (it.side cam).lines := by
  unfold State.sideLines
  rw [h]

/-- With its strip ensured a line is taken, and truncates the side that it brings to its maximum (R36). -/
theorem State.takeContent_of_ensured {s u : State} {k : Slot} {cam : Camera} {it : Item}
    (he : s.ensureStrip k cam = some u) (h : u.item? k = some it) (hr : u.render.queue = []) (px : List Byte) :
    s.takeContent k cam px = (u.withLine k cam px,
      if (it.side cam).lines + 1 = u.mgmt.settings.maxSideLength.toNat then .truncated else .taken) := by
  unfold State.takeContent
  rw [he]
  dsimp only
  rw [State.recordLine_of_nil hr, State.sideLines_of_found (State.item?_withLine h cam px), Item.side_setSide]
  rfl

/-- A line in the middle of a strip needs no other (R36). -/
theorem State.ensureStrip_of_strip {s : State} {k : Slot} {cam : Camera} {it : Item} (h : s.item? k = some it)
    (hl : (it.side cam).lines % 32 ≠ 0) : s.ensureStrip k cam = some s := by
  unfold State.ensureStrip
  rw [h]
  exact if_neg hl

/-- The FIFO entry of a line taken after its filled lines (R29). -/
def lineEntry (k : Slot) (cam : Camera) (first fills : Nat) (px : List Byte) : FifoEntry :=
  { slot := k, camera := cam, firstIndex := first, fills := fills, pixels := some px }

/-- A line taken joins the FIFO (R29, R36). -/
theorem State.takeLine_of_taken {s u : State} {k : Slot} {cam : Camera} {px : List Byte}
    (h : s.takeContent k cam px = (u, .taken)) (p : Position) (first fills : Nat) :
    s.takeLine k cam p px first fills = u.pushFifo cam (lineEntry k cam first fills px) := by
  unfold State.takeLine
  rw [h]
  rfl

/-- A line that truncates the side joins the FIFO and completes the side (R42). -/
theorem State.takeLine_of_truncated {s u : State} {k : Slot} {cam : Camera} {px : List Byte}
    (h : s.takeContent k cam px = (u, .truncated)) (p : Position) (first fills : Nat) :
    s.takeLine k cam p px first fills
      = (u.pushFifo cam (lineEntry k cam first fills px)).completeSide k cam (p + 1) true .skip := by
  unfold State.takeLine
  rw [h]
  rfl

/-! ### An item that loses its capture -/

/-- What a cancel brings about is told of any earlier state with the same entry and the same ADVICE waiting. -/
theorem State.Cancels.of_earlier {s u t : State} {it old : Item} {c : CancelCause} {a : AdviceCause}
    (h : u.Cancels t it c a) (hentry : it.SameEntry old) (hgen : it.generation = old.generation)
    (hadvice : it.advice = old.advice) (hout : u.adviceOut = s.adviceOut) (hlinks : u.links = s.links) :
    s.Cancels t old c a := by
  refine ⟨hentry.slot ▸ h.entry, hentry.slot ▸ h.lists, hentry.slot ▸ h.lines, fun hg ha hroom => ?_⟩
  rw [← hentry.announcedTag, ← hout]
  refine h.advice (hgen.trans hg) (hadvice.trans ha) ⟨?_, ?_⟩
  · rw [hlinks]; exact hroom.1
  · rw [hout]; exact hroom.2

/-- What a cancel in the course of a line brings about stands at the end of the command. -/
theorem State.Cancels.seen {s t : State} {it : Item} {c : CancelCause} {a : AdviceCause} (h : s.Cancels t it c a)
    (hn : (t.table.items.map Item.slot).Nodup) (cam : Camera) (flag : Bool) (p : Position) :
    s.Cancels (t.seen cam flag p).chooseFrame it c a :=
  h.calm hn ((t.seen_calm cam flag p).trans (State.chooseFrame_calm _))

theorem State.Cancels.of_atPort {s t : State} {cam : Camera} {p : Position} {it : Item} {c : CancelCause} {a : AdviceCause}
    (h : (s.atPort cam p).Cancels t it c a) : s.Cancels t it c a := h.of_earlier (.refl it) rfl rfl rfl rfl

theorem State.Cancellable.atPort {s : State} {it : Item} (h : s.Cancellable it) (cam : Camera) (p : Position) :
    (s.atPort cam p).Cancellable it := ⟨h.found, h.distinct, h.state, h.summary⟩

/-- An entry whose side has changed can be cancelled as it could (R11). -/
theorem State.Cancellable.modifySide {s : State} {it : Item} (h : s.Cancellable it) (cam : Camera) (f : Side → Side) :
    (s.modifySide it.slot cam f).Cancellable (it.setSide cam (f (it.side cam))) where
  found := by rw [Item.slot_setSide]; exact State.item?_modifySide h.found cam f
  distinct := by rw [State.slots_modifySide]; exact h.distinct
  state := by rw [Item.state_setSide]; exact h.state
  summary := by rw [Item.slot_setSide]; exact h.summary

/-- A side lost to a gap: its item is cancelled LINE_LOSS (R38). -/
theorem State.loseSide_cancels {s : State} {it : Item} (h : s.Cancellable it) (cam : Camera) :
    s.Cancels (s.loseSide it.slot cam) it .lineLoss .lineLoss
      ∧ ((s.loseSide it.slot cam).table.items.map Item.slot).Nodup := by
  obtain ⟨hc, hn⟩ := State.cancelDispatch_cancels (h.modifySide cam fun x => { x with capture := .aborted }) .lineLoss
  rw [Item.slot_setSide] at hc hn
  exact ⟨hc.of_earlier (it.sameEntry_setSide cam _) (congrArg ItemName.generation (it.name_setSide cam _))
    (Item.advice_setSide _ _ _) rfl rfl, hn⟩

end Sys2Proof.Machine
end

section
/-! A side that cannot go on (O16): nine missing lines, and a strip wanted with none free. -/

namespace Sys2Proof.Machine

open State (Calm Keeps)

/-! ### What a cancel leaves of the channels and of the render queue -/

/-- The channels' states stay, and nothing joins the render queue. -/
structure State.Aside (s t : State) : Prop where
  state : ∀ cam, (t.channel cam).state = (s.channel cam).state
  queue : t.render.queue ⊆ s.render.queue

namespace State.Aside

theorem of_eq {s t : State} (hc : t.capture = s.capture) (hr : t.render = s.render) : s.Aside t :=
  ⟨fun cam => by unfold State.channel; rw [hc], by rw [hr]; exact List.Subset.refl _⟩

theorem refl (s : State) : s.Aside s := of_eq rfl rfl

theorem trans {s t u : State} (h : s.Aside t) (g : t.Aside u) : s.Aside u :=
  ⟨fun cam => (g.state cam).trans (h.state cam), fun _ hr => h.queue (g.queue hr)⟩

theorem foldl {α : Type} {f : State → α → State} (h : ∀ (s : State) (a : α), s.Aside (f s a)) (l : List α) (s : State) :
    s.Aside (l.foldl f s) := by
  induction l generalizing s with
  | nil => exact refl s
  | cons a l ih => exact (h s a).trans (ih (f s a))

theorem setEngine (s : State) (e : EngineId) (x : Engine) : s.Aside (s.setEngine e x) :=
  ⟨fun _ => rfl, by cases e <;> exact List.Subset.refl _⟩

theorem dequeue (s : State) (r : RendRef) : s.Aside (s.dequeue r) := ⟨fun _ => rfl, List.filter_subset_self _⟩

theorem dropRendition (s : State) (r : RendRef) (c : DropCause) : s.Aside (s.dropRendition r c) := by
  unfold State.dropRendition
  split
  · exact refl s
  · split
    · exact refl s
    · exact of_eq rfl rfl

theorem dropEmitting (s : State) (r : RendRef) : s.Aside (s.dropEmitting r) :=
  (dropRendition s r .cancelled).trans (of_eq rfl rfl)

/-- Each rendition of a cancelled item is handled aside from the channels (R12). -/
theorem cancelRendition (s : State) (k : Slot) (q : Rendition) : s.Aside (s.cancelRendition k q) := by
  unfold State.cancelRendition
  dsimp only
  split
  · exact (dequeue s _).trans (dropRendition _ _ _)
  · exact (dequeue s _).trans (dropRendition _ _ _)
  · split
    · exact (dropRendition s _ _).trans (setEngine _ _ _)
    · exact dropRendition s _ _
  · refine Aside.trans ?_ (dropRendition _ _ _)
    exact of_eq rfl rfl
  · exact of_eq rfl rfl
  · split
    · exact of_eq rfl rfl
    · refine Aside.trans ?_ (dropEmitting _ _)
      exact of_eq rfl rfl
  · exact refl s
  · exact refl s

theorem serveEngine (s : State) (e : EngineId) : s.Aside (s.serveEngine e) := by
  unfold State.serveEngine
  split
  · split
    · exact refl s
    · split
      · refine Aside.trans ?_ (setEngine _ _ _)
        exact of_eq rfl rfl
      · exact refl s
  · exact refl s

theorem serveReturned (s before : State) : s.Aside (s.serveReturned before) := by
  unfold State.serveReturned
  split
  · exact foldl serveEngine _ s
  · exact refl s

theorem discardFifo (s : State) (k : Slot) : s.Aside (s.discardFifo k) :=
  ⟨fun cam => by cases cam <;> rfl, List.Subset.refl _⟩

theorem freeItem (s : State) (k : Slot) : s.Aside (s.freeItem k) := by
  cases h : s.item? k with
  | none =>
    unfold State.freeItem
    rw [h]
    exact refl s
  | some it =>
    rw [State.freeItem_eq h]
    have hd : s.Aside (s.withoutItem k it) := ⟨fun cam => by cases cam <;> rfl, List.Subset.refl _⟩
    rcases (s.withoutItem k it).releaseBinding_eq it.set with e | e
    · rw [e]
      exact hd.trans (of_eq rfl rfl)
    · rw [e]
      exact hd.trans (of_eq (State.composeEvent_capture _ _) (State.composeEvent_render _ _))

/-- The test for completion leaves the channels' states (R13). -/
theorem completeCancel (s : State) (k : Slot) : s.Aside (s.completeCancel k) := by
  unfold State.completeCancel
  split
  · exact refl s
  · split
    · split
      · split
        · exact refl s
        · exact of_eq rfl rfl
      · exact freeItem s k
    · exact refl s

theorem composeAdvice (s : State) (a : Advice) : s.Aside (s.composeAdvice a) := by
  unfold State.composeAdvice
  dsimp only
  split <;> exact of_eq rfl rfl

/-- After the capture is stopped the rest of a cancel is aside from it (R11 to R13). -/
theorem cancelNow (s : State) (it : Item) (c : CancelCause) :
    ((s.modifyItem it.slot (Item.markCancelled c)).stopCapture it.slot).Aside (s.cancelNow it c) := by
  have hadvised : ∀ t : State, t.Aside (t.adviseCancelled it c) := fun t => by
    unfold State.adviseCancelled
    split
    · refine Aside.trans ?_ (composeAdvice _ _)
      exact of_eq rfl rfl
    · exact refl t
  unfold State.cancelNow
  dsimp only
  refine Aside.trans ?_ (completeCancel _ _)
  refine Aside.trans ?_ (serveReturned _ _)
  refine Aside.trans ?_ (foldl (fun t q => cancelRendition t it.slot q) _ _)
  refine Aside.trans ?_ (hadvised _)
  exact of_eq rfl rfl

end State.Aside

/-- A channel bound to the cancelled item enters SKIP (R44). -/
theorem State.state_stopCapture {s : State} {k : Slot} {cam : Camera} (h : (s.channel cam).bound = some k) :
    ((s.stopCapture k).channel cam).state = .skip := by
  have hstop : ∀ c : Channel, c.bound = some k →
      (if ({ c with pendingList := c.pendingList.filter (· != k) } : Channel).bound = some k then
        { ({ c with pendingList := c.pendingList.filter (· != k) } : Channel) with state := .skip, bound := none }
      else { c with pendingList := c.pendingList.filter (· != k) }).state = .skip := fun c hc => by rw [if_pos hc]
  cases cam
  · exact hstop s.capture.front h
  · exact hstop s.capture.rear h

/-- A cancel taken at once, with an empty render queue, leaves the item's channel in SKIP (R44, R92). -/
theorem State.state_cancelDispatch {s : State} {it : Item} (h : s.Cancellable it) (hr : s.render.queue = []) {cam : Camera}
    (hb : (s.channel cam).bound = some it.slot) (c : CancelCause) :
    ((s.cancelItem it.slot c).dispatch.channel cam).state = .skip := by
  have ha := State.Aside.cancelNow s it c
  have hq : (s.cancelNow it c).render.queue = [] := List.subset_nil.1 (hr ▸ ha.queue)
  rw [State.cancelItem_of_cancellable h, State.dispatch_of_nil hq, ha.state]
  exact State.state_stopCapture (s := s.modifyItem it.slot (Item.markCancelled c)) hb

/-! ### A strip wanted with none free (R39, R40) -/

/-- With no strip free and no item RETAINED there is none to grant. -/
theorem State.grantStrip_none {s : State} (hf : s.frameMemory.freeStrips = [])
    (h : ∀ x ∈ s.table.items, x.state ≠ .retained) : s.grantStrip = none := by
  unfold State.grantStrip
  rw [hf, State.evict_eq_none h]
  rfl

/-- With none free the first strip that an eviction returns is granted. -/
theorem State.grantStrip_evicted {s t : State} {n : Nat} {more : List Nat} (hf : s.frameMemory.freeStrips = [])
    (he : s.evict = some t) (ht : t.frameMemory.freeStrips = n :: more) :
    s.grantStrip = some (n, { t with frameMemory := { t.frameMemory with freeStrips := more } }) := by
  unfold State.grantStrip
  rw [hf, he]
  dsimp only [List.isEmpty, Option.bind_some]
  rw [if_pos rfl, ht]

/-- A line that begins a strip asks for one (R36, R39). -/
theorem State.ensureStrip_of_full {s : State} {k : Slot} {cam : Camera} {it : Item} (h : s.item? k = some it)
    (hl : (it.side cam).lines % 32 = 0) : s.ensureStrip k cam = s.grantStrip.map fun g =>
      g.2.modifySide k cam fun x => { x with chain := x.chain ++ [{ strip := g.1, lines := 0 }] } := by
  unfold State.ensureStrip
  rw [h]
  exact if_pos hl

/-- Without a strip the item is cancelled NO_STRIP, and the line is lost with it (R40). -/
theorem State.takeLine_noStrip {s : State} {k : Slot} {cam : Camera} {it : Item} (h : s.item? k = some it)
    (hl : (it.side cam).lines % 32 = 0) (hg : s.grantStrip = none) (p : Position) (px : List Byte) (first fills : Nat) :
    s.takeLine k cam p px first fills = (s.cancelItem k .noStrip).dispatch := by
  unfold State.takeLine State.takeContent
  rw [State.ensureStrip_of_full h hl, hg]
  rfl

/-- The state in which the strip that an eviction returned has joined the side (R39). -/
def State.withStrip (t : State) (k : Slot) (cam : Camera) (n : Nat) (more : List Nat) : State :=
  State.modifySide { t with frameMemory := { t.frameMemory with freeStrips := more } } k cam
    fun x => { x with chain := x.chain ++ [{ strip := n, lines := 0 }] }

theorem State.item?_withStrip {t : State} {k : Slot} {it : Item} (h : t.item? k = some it) (cam : Camera) (n : Nat)
    (more : List Nat) : (t.withStrip k cam n more).item? k
      = some (it.setSide cam { it.side cam with chain := (it.side cam).chain ++ [{ strip := n, lines := 0 }] }) :=
  State.item?_modifySide (s := { t with frameMemory := { t.frameMemory with freeStrips := more } }) h cam _

/-- The state in which a line has been taken into the strip that an eviction returned. -/
def State.lineOnStrip (t : State) (k : Slot) (cam : Camera) (n : Nat) (more : List Nat) (px : List Byte)
    (first fills : Nat) : State :=
  ((t.withStrip k cam n more).withLine k cam px).pushFifo cam (lineEntry k cam first fills px)

theorem State.item?_lineOnStrip {t : State} {k : Slot} {it : Item} (h : t.item? k = some it) (cam : Camera) (n : Nat)
    (more : List Nat) (px : List Byte) (first fills : Nat) :
    ∃ x, (t.lineOnStrip k cam n more px first fills).item? k = some x ∧ (x.side cam).lines = (it.side cam).lines + 1
      ∧ (x.side cam).chain = countLine ((it.side cam).chain ++ [{ strip := n, lines := 0 }]) := by
  refine ⟨_, State.item?_withLine (State.item?_withStrip h cam n more) cam px, ?_, ?_⟩ <;>
    rw [Item.side_setSide, Item.side_setSide] <;> rfl

theorem State.slots_lineOnStrip (t : State) (k : Slot) (cam : Camera) (n : Nat) (more : List Nat) (px : List Byte)
    (first fills : Nat) :
    (t.lineOnStrip k cam n more px first fills).table.items.map Item.slot = t.table.items.map Item.slot :=
  (State.slots_modifySide _ k cam _).trans (State.slots_modifySide _ k cam _)

/-- With a strip that an eviction returned the line is taken (R36, R39). -/
theorem State.takeLine_evicted {s t : State} {k : Slot} {cam : Camera} {it : Item} {n : Nat} {more : List Nat}
    (h : s.item? k = some it) (hl : (it.side cam).lines % 32 = 0) (hf : s.frameMemory.freeStrips = [])
    (he : s.evict = some t) (ht : t.frameMemory.freeStrips = n :: more) (hk : t.item? k = some it)
    (hr : t.render.queue = []) (hmax : (it.side cam).lines + 1 ≠ t.mgmt.settings.maxSideLength.toNat) (p : Position)
    (px : List Byte) (first fills : Nat) :
    s.takeLine k cam p px first fills = t.lineOnStrip k cam n more px first fills := by
  have hens : s.ensureStrip k cam = some (t.withStrip k cam n more) := by
    rw [State.ensureStrip_of_full h hl, State.grantStrip_evicted hf he ht]
    rfl
  refine State.takeLine_of_taken ((State.takeContent_of_ensured hens (State.item?_withStrip hk cam n more) hr px).trans ?_)
    p first fills
  rw [Item.side_setSide]
  exact congrArg (Prod.mk _) (if_neg hmax)

/-- Settles O16: nine missing lines, no strip to be had, and the strips of the oldest RETAINED item. -/
theorem longGapLosesItem : Obligations.LongGapLosesItem := by
  unfold Obligations.LongGapLosesItem
  refine ⟨fun s cam doc p q px it hg hf hs hb hq hgap hc => ?_,
    fun s cam doc p px it hg hf hs hb hq hdoc hc hl hfree => ⟨fun hret => ?_,
      fun v older younger n more hitems hold hv hit hstrips hroom hmax => ?_⟩⟩
  · obtain ⟨hcancel, hn⟩ := State.loseSide_cancels (hc.atPort cam p) cam
    refine ⟨_, exec_line_of_capture hg hf hs hb hq doc, ?_⟩
    rw [State.captureLine_lost hgap]
    exact hcancel.of_atPort.calm hn
      (((State.skipLine_calm _ _ _).trans (State.seen_calm _ _ _ _)).trans (State.chooseFrame_calm _))
  all_goals
    have hflag : (doc != 0) = true := bne_iff_ne.2 hdoc
    have htake : exec (.line (cameraCode cam) doc p px) s = .next ((((s.atPort cam p).takeLine it.slot cam p px
        ((s.atPort cam p).sideLines it.slot cam) 0).seen cam true p).chooseFrame) := by
      rw [exec_line_of_capture hg hf hs hb hq doc, hflag, State.captureLine_next]
      rfl
  · obtain ⟨hcancel, hn⟩ := State.cancelDispatch_cancels (hc.atPort cam p) .noStrip
    rw [State.takeLine_noStrip (s := s.atPort cam p) hc.found hl (State.grantStrip_none hfree hret)] at htake
    refine ⟨_, htake, hcancel.of_atPort.seen hn cam true p, ?_⟩
    rw [State.channel_seen_chooseFrame]
    have hbound : ((s.atPort cam p).channel cam).bound = some it.slot := by
      unfold State.atPort
      rw [State.channel_modifyChannel]
      exact hb
    exact State.state_cancelDispatch (hc.atPort cam p) hg.due.queue hbound .noStrip
  · obtain ⟨t, het, hev⟩ := State.evicts_oldest (s := s.atPort cam p)
      (State.oldestRetained_eq (s := s.atPort cam p) hitems hold hv) hc.distinct
    have hvmem : v ∈ s.table.items := by rw [hitems]; simp
    have hne : it.slot ≠ v.slot := fun e =>
      hit (State.eq_of_slot hc.distinct (State.mem_of_item? hc.found).1 hvmem e ▸ hv)
    have hnd : (t.table.items.map Item.slot).Nodup := by
      rw [hev.items]
      exact (List.filter_sublist.map _).nodup hc.distinct
    have hfound : t.item? it.slot = some it := by
      refine State.item?_eq_of_mem hnd ?_
      rw [hev.items]
      exact List.mem_filter.2 ⟨(State.mem_of_item? hc.found).1, by simpa using hne⟩
    have hstrip : t.frameMemory.freeStrips = n :: more := by
      rw [hev.frameMemory, ← hstrips]
      exact congrArg (· ++ _) hfree
    obtain ⟨l, hreports⟩ := hev.reports hroom
    rw [State.takeLine_evicted (s := s.atPort cam p) hc.found hl hfree het hstrip hfound (hev.queue.trans hg.due.queue)
      (by rw [hev.settings]; exact hmax)] at htake
    obtain ⟨y, hy, hlines, hchain⟩ := State.item?_lineOnStrip hfound cam n more px ((s.atPort cam p).sideLines it.slot cam) 0
    obtain ⟨x, hx, -, -, -, hside⟩ := State.item?_seen_chooseFrame hy cam true p
    refine ⟨_, x, l, htake, ?_, fun z hz => ?_, ?_, ?_, hx, ?_, ?_⟩
    · rw [State.chooseFrame_frameMemory]
      rfl
    · have hslots := t.slots_lineOnStrip it.slot cam n more px ((s.atPort cam p).sideLines it.slot cam) 0
      have hsub := State.slots_seen_chooseFrame (hslots ▸ hnd) cam true p
      obtain ⟨w, hw, hwz⟩ := List.mem_map.1 (hslots ▸ hsub.subset (List.mem_map_of_mem hz))
      rw [hev.items] at hw
      rw [← hwz]
      simpa using (List.mem_filter.1 hw).2
    · rw [State.chooseFrame_counters]
      exact hev.counted
    · rw [State.reportsHeld_chooseFrame]
      exact hreports
    · rw [hside]
      exact hlines
    · rw [hside]
      exact hchain

end Sys2Proof.Machine
end

section
/-! Lines taken into a side (O15): with none missing, after filled lines, and to the maximum length (R36, R37, R42). -/

namespace Sys2Proof.Machine

open State (Calm Keeps)

/-! ### Several lines of the same content (R37) -/

/-- A side with `n` lines more of one content. -/
def Side.withLines (dark : Nat) (px : List Byte) (n : Nat) (x : Side) : Side := (Side.withLine dark px)^[n] x

theorem Side.withLines_succ (dark : Nat) (px : List Byte) (n : Nat) (x : Side) :
    x.withLines dark px (n + 1) = (x.withLine dark px).withLines dark px n := rfl

theorem Side.lines_withLines (dark : Nat) (px : List Byte) (n : Nat) (x : Side) :
    (x.withLines dark px n).lines = x.lines + n := by
  induction n generalizing x with
  | zero => rfl
  | succ n ih =>
    rw [Side.withLines_succ, ih]
    exact (Nat.add_right_comm x.lines n 1).symm

theorem Side.gap_withLines (dark : Nat) (px : List Byte) (n : Nat) (x : Side) : (x.withLines dark px n).gap = x.gap := by
  induction n generalizing x with
  | zero => rfl
  | succ n ih => exact ih _

/-- Each line adds its pixels to the accumulators (R124). -/
theorem Side.accumulators_withLines (dark : Nat) (px : List Byte) (n : Nat) (x : Side) {a : Accumulators}
    (h : x.accumulators = some a) : ∃ b, (x.withLines dark px n).accumulators = some b
      ∧ b.pixelCount = a.pixelCount + n * px.length
      ∧ b.pixelSum = a.pixelSum + n * (px.map BitVec.toNat).sum := by
  induction n generalizing x a with
  | zero => exact ⟨a, h, by simp, by simp⟩
  | succ n ih =>
    have hline : (x.withLine dark px).accumulators = some (accumulate dark a px) := by
      unfold Side.withLine
      rw [h]
      rfl
    obtain ⟨b, hb, hcount, hsum⟩ := ih (x.withLine dark px) hline
    refine ⟨b, hb, hcount.trans ?_, hsum.trans ?_⟩
    · change a.pixelCount + px.length + n * px.length = _
      ring
    · change a.pixelSum + (px.map BitVec.toNat).sum + n * (px.map BitVec.toNat).sum = _
      ring

/-! ### Missing lines filled (R37) -/

/-- What `n` lines taken into a side leave: that entry's side and nothing else but it, the channel having taken this content
before. -/
structure State.Filled (s t : State) (k : Slot) (cam : Camera) (n : Nat) (it : Item) : Prop where
  item : t.item? k = some (it.setSide cam
    ((it.side cam).withLines s.mgmt.settings.darkLevel.toNat (s.channel cam).lastTaken n))
  channel : t.channel cam = s.channel cam
  frameMemory : t.frameMemory = s.frameMemory
  mem : t.mem = s.mem
  mgmt : t.mgmt = s.mgmt
  render : t.render = s.render

/-- Missing lines within the strip and below the maximum length are all filled. -/
theorem fillLines_filled {s : State} {k : Slot} {cam : Camera} {n : Nat} {it : Item} (h : s.item? k = some it)
    (hr : s.render.queue = []) (hl : (it.side cam).lines % 32 ≠ 0) (hn : (it.side cam).lines % 32 + n < 32)
    (hmax : (it.side cam).lines + n < s.mgmt.settings.maxSideLength.toNat) (done : Nat) :
    ∃ t, fillLines n s k cam done = (t, .taken, done + n) ∧ s.Filled t k cam n it := by
  induction n generalizing s it done with
  | zero => exact ⟨s, rfl, h.trans (congrArg some (it.setSide_side cam).symm), rfl, rfl, rfl, rfl, rfl⟩
  | succ n ih =>
    have htake := State.takeContent_of_ensured (State.ensureStrip_of_strip h hl) h hr (s.channel cam).lastTaken
    rw [if_neg (by omega)] at htake
    have hline := State.item?_withLine h cam (s.channel cam).lastTaken
    have hchannel : (s.withLine k cam (s.channel cam).lastTaken).channel cam = s.channel cam :=
      State.channel_modifyChannel _ cam _
    have hcount : ((it.setSide cam ((it.side cam).withLine s.mgmt.settings.darkLevel.toNat
        (s.channel cam).lastTaken)).side cam).lines = (it.side cam).lines + 1 := by
      rw [Item.side_setSide]
      rfl
    obtain ⟨t, ht, hf⟩ := ih hline hr (by omega) (by omega) (by rw [hcount]; exact (Nat.add_right_comm _ 1 n).trans_lt hmax)
      (done + 1)
    refine ⟨t, ?_, ?_, hf.channel.trans hchannel, hf.frameMemory, hf.mem, hf.mgmt, hf.render⟩
    · unfold fillLines
      rw [htake]
      exact ht.trans (by rw [Nat.add_assoc, Nat.add_comm 1 n])
    · rw [hf.item, hchannel, Item.setSide_setSide, Item.side_setSide]
      rfl

/-- The line after `m` missing ones. -/
theorem missing_eq (p : Position) {m : Nat} (h : m ≤ 8) : (p - (p - 1 - BitVec.ofNat 32 m)).toNat - 1 = m := by
  rw [sub_sub, sub_sub_cancel, BitVec.toNat_add, BitVec.toNat_ofNat]
  change (1 + m % 2 ^ 32) % 2 ^ 32 - 1 = m
  omega

/-- One to eight missing lines are filled, the side marked, and the line is seen with their count (R37). -/
theorem State.captureLine_filled {s : State} {k : Slot} {cam : Camera} {m : Nat} {it : Item} (h : s.item? k = some it)
    (hr : s.render.queue = []) (hl : (it.side cam).lines % 32 ≠ 0) (h1 : 1 ≤ m) (h8 : m ≤ 8)
    (hm : (it.side cam).lines % 32 + m < 32) (hmax : (it.side cam).lines + m < s.mgmt.settings.maxSideLength.toNat)
    (p : Position) (px : List Byte) (flag : Bool) :
    ∃ t, s.captureLine k cam (p - 1 - BitVec.ofNat 32 m) flag p px
        = t.endOfGap k cam flag p px (it.side cam).lines m
      ∧ (s.modifySide k cam fun x => { x with gap := true }).Filled t k cam m
          (it.setSide cam { it.side cam with gap := true }) := by
  obtain ⟨t, ht, hf⟩ := fillLines_filled (s := s.modifySide k cam fun x => { x with gap := true })
    (State.item?_modifySide h cam _) hr (by rw [Item.side_setSide]; exact hl) (by rw [Item.side_setSide]; exact hm)
    (by rw [Item.side_setSide]; exact hmax) 0
  refine ⟨t, ?_, hf⟩
  unfold State.captureLine
  rw [missing_eq p h8]
  dsimp only
  rw [if_neg (show ¬ Config.fillLimit < m from Nat.not_lt.2 h8), if_neg (Nat.ne_of_gt h1), ht,
    State.sideLines_of_found h]

/-- The side after its missing lines are filled. -/
theorem State.Filled.marked {s u : State} {k : Slot} {cam : Camera} {m : Nat} {it : Item}
    (h : (s.modifySide k cam fun x => { x with gap := true }).Filled u k cam m
      (it.setSide cam { it.side cam with gap := true })) :
    ∃ w, u.item? k = some w ∧ (w.side cam).lines = (it.side cam).lines + m ∧ (w.side cam).gap = true
      ∧ ∀ a, (it.side cam).accumulators = some a → ∃ b, (w.side cam).accumulators = some b
          ∧ b.pixelCount = a.pixelCount + m * (s.channel cam).lastTaken.length
          ∧ b.pixelSum = a.pixelSum + m * ((s.channel cam).lastTaken.map BitVec.toNat).sum := by
  refine ⟨_, h.item, ?_, ?_, fun a ha => ?_⟩ <;> rw [Item.side_setSide, Item.side_setSide]
  · exact Side.lines_withLines _ _ m _
  · exact Side.gap_withLines _ _ m _
  · exact Side.accumulators_withLines _ _ m _ ha

/-! ### A line taken -/

/-- The state in which a line has been taken into a side and has joined the FIFO. -/
def State.lineTaken (s : State) (k : Slot) (cam : Camera) (px : List Byte) (first fills : Nat) : State :=
  (s.withLine k cam px).pushFifo cam (lineEntry k cam first fills px)

theorem State.item?_lineTaken {s : State} {k : Slot} {it : Item} (h : s.item? k = some it) (cam : Camera) (px : List Byte)
    (first fills : Nat) : (s.lineTaken k cam px first fills).item? k
      = some (it.setSide cam ((it.side cam).withLine s.mgmt.settings.darkLevel.toNat px)) :=
  State.item?_withLine h cam px

theorem State.channel_lineTaken (s : State) (k : Slot) (cam : Camera) (px : List Byte) (first fills : Nat) :
    (s.lineTaken k cam px first fills).channel cam
      = { s.channel cam with lastTaken := px, fifo := (s.channel cam).fifo ++ [lineEntry k cam first fills px] } := by
  unfold State.lineTaken State.pushFifo State.withLine
  rw [State.channel_modifyChannel, State.channel_modifyChannel]
  rfl

/-- A line with the flag, in the middle of a strip and short of the maximum length, is taken (R36). -/
theorem State.endOfGap_taken {s : State} {k : Slot} {cam : Camera} {it : Item} (h : s.item? k = some it)
    (hl : (it.side cam).lines % 32 ≠ 0) (hr : s.render.queue = [])
    (hmax : (it.side cam).lines + 1 ≠ s.mgmt.settings.maxSideLength.toNat) (p : Position) (px : List Byte)
    (first fills : Nat) : s.endOfGap k cam true p px first fills = s.lineTaken k cam px first fills :=
  have htake := State.takeContent_of_ensured (State.ensureStrip_of_strip h hl) h hr px
  State.takeLine_of_taken (htake.trans (congrArg (Prod.mk _) (if_neg hmax))) p first fills

end Sys2Proof.Machine
end

section
/-! The end of a side (O15): the record it leaves, the classify and advice tests after it, and the entry to PROCESSING
(R43, R54, R126, R134). -/

namespace Sys2Proof.Machine

open State (Calm Keeps)

/-! ### The entry of a completed side (R43) -/

theorem Item.name_setDeadline_setSide (it : Item) (cam : Camera) (x : Side) (v : RunSettings) (p : Position) :
    ((it.setSide cam x).setDeadline v cam p).name = (it.setDeadline v cam p).name := by
  cases cam <;> rfl

theorem Item.state_setDeadline (it : Item) (v : RunSettings) (cam : Camera) (p : Position) :
    (it.setDeadline v cam p).state = it.state := by
  cases cam <;> rfl

theorem Item.advice_setDeadline (it : Item) (v : RunSettings) (cam : Camera) (p : Position) :
    (it.setDeadline v cam p).advice = it.advice := by
  cases cam <;> rfl

theorem Item.side_setDeadline (it : Item) (v : RunSettings) (cam c : Camera) (p : Position) :
    (it.setDeadline v cam p).side c = it.side c := by
  cases cam <;> cases c <;> rfl

theorem Item.side_setHeights (it : Item) (img : Image) (cam c : Camera) : (it.setHeights img cam).side c = it.side c := by
  cases c <;> rfl

/-- `x` is entry `it` with the side of a camera COMPLETE: its record, and the deadline that it sets (R43). -/
structure Item.Completes (v : RunSettings) (cam : Camera) (p : Position) (truncated : Bool) (it x : Item) : Prop where
  name : x.name = (it.setDeadline v cam p).name
  state : x.state = it.state
  advice : x.advice = it.advice
  capture : (x.side cam).capture = .complete
  trailing : (x.side cam).trailing = some p
  lines : (x.side cam).lines = (it.side cam).lines
  truncated : (x.side cam).truncated = ((it.side cam).truncated || truncated)
  other : x.side (otherCamera cam) = it.side (otherCamera cam)

/-- The deadline and the heights leave the sides. -/
theorem Item.completes_of_side {it : Item} {cam : Camera} {x : Side} {p : Position} {truncated : Bool} (v : RunSettings)
    (img : Image) (hc : x.capture = .complete) (ht : x.trailing = some p) (hl : x.lines = (it.side cam).lines)
    (hb : x.truncated = ((it.side cam).truncated || truncated)) :
    it.Completes v cam p truncated (((it.setSide cam x).setDeadline v cam p).setHeights img cam) where
  name := it.name_setDeadline_setSide cam x v p
  state := (Item.state_setDeadline _ v cam p).trans (it.state_setSide cam x)
  advice := (Item.advice_setDeadline _ v cam p).trans (it.advice_setSide cam x)
  capture := by rw [Item.side_setHeights, Item.side_setDeadline, Item.side_setSide]; exact hc
  trailing := by rw [Item.side_setHeights, Item.side_setDeadline, Item.side_setSide]; exact ht
  lines := by rw [Item.side_setHeights, Item.side_setDeadline, Item.side_setSide]; exact hl
  truncated := by rw [Item.side_setHeights, Item.side_setDeadline, Item.side_setSide]; exact hb
  other := by rw [Item.side_setHeights, Item.side_setDeadline, Item.side_setSide_other]

/-- The completed entry is the one that stood there. -/
theorem Item.Completes.sameEntry {v : RunSettings} {cam : Camera} {p : Position} {b : Bool} {it x : Item}
    (h : it.Completes v cam p b x) : x.SameEntry it :=
  have hd := it.sameEntry_setDeadline v cam p
  ⟨(congrArg ItemName.slot h.name).trans hd.slot, (congrArg ItemName.announcedTag h.name).trans hd.announcedTag,
    (congrArg ItemName.sequence h.name).trans hd.sequence, by rw [show x.tag = _ from congrArg ItemName.tag h.name]; exact hd.tag⟩

/-! ### The seal at the completion (R41, R170) -/

/-- The check table changed. -/
def State.withChecks (s : State) (l : List (Nat × Word)) : State :=
  { s with frameMemory := { s.frameMemory with checks := l } }

/-- One strip more of a side sealed. -/
def Side.sealed (x : Side) : Side := { x with sealedCount := x.sealedCount + 1 }

/-- A seal changes the check table and the side's count of sealed strips at most. -/
theorem State.sealAtCompletion_eq (s : State) (k : Slot) (cam : Camera) : s.sealAtCompletion k cam = s
    ∨ ∃ l, s.sealAtCompletion k cam = (s.withChecks l).modifySide k cam Side.sealed := by
  unfold State.sealAtCompletion
  split
  · exact Or.inl rfl
  · unfold State.sealNext
    split
    · exact Or.inl rfl
    · split
      · exact Or.inl rfl
      · exact Or.inr ⟨_, rfl⟩

/-! ### The state of a completed side (R43) -/

/-- The channel gives up its bound side, and the side's record is complete. -/
def State.sideClosed (s : State) (k : Slot) (cam : Camera) (p : Position) (truncated : Bool) (next : ChannelState) : State :=
  (s.modifyChannel cam fun c => { c with state := next, bound := none }).modifySide k cam fun x =>
    x.completed p truncated s.mgmt.settings.streakSpread.toNat

/-- The state in which a side is COMPLETE, its deadline set, before the tests that follow. -/
def State.sideDone (s : State) (it : Item) (k : Slot) (cam : Camera) (p : Position) (truncated : Bool)
    (next : ChannelState) : State :=
  ((s.sideClosed k cam p truncated next).sealAtCompletion k cam).modifyItem k fun x =>
    (x.setDeadline s.mgmt.settings cam p).setHeights (s.image it.set) cam

/-- With an empty render queue only the tests follow (R43). -/
theorem State.completeSide_of_nil {s : State} {k : Slot} {cam : Camera} {it : Item} (h : s.item? k = some it)
    (hr : s.render.queue = []) (p : Position) (truncated : Bool) (next : ChannelState) :
    s.completeSide k cam p truncated next = State.enterProcessing
      (if cam = .front then (s.sideDone it k cam p truncated next).testClassify k
        else s.sideDone it k cam p truncated next) k := by
  have hq : (s.sideDone it k cam p truncated next).render.queue = [] := by
    rcases (s.sideClosed k cam p truncated next).sealAtCompletion_eq k cam with e | ⟨l, e⟩ <;>
      rw [State.sideDone, e] <;> exact hr
  unfold State.completeSide
  rw [h]
  dsimp only
  have hcalm : ((s.sideDone it k cam p truncated next).rankQueue.wake s) = s.sideDone it k cam p truncated next := by
    rw [State.rankQueue_of_nil hq, State.wake_of_nil s hq]
  have hmoved : (s.sideDone it k cam p truncated next).offerMoved s k = s.sideDone it k cam p truncated next :=
    State.offerMoved_of_nil s k hq
  cases cam
  · exact congrArg (fun u : State => (u.testClassify k).enterProcessing k) hcalm
  · exact congrArg (fun u : State => u.enterProcessing k) ((congrArg (fun u : State => u.offerMoved s k) hcalm).trans hmoved)

/-- What a completed side leaves before the tests: the entry with its record, the channel free, the rest as it was. -/
structure State.SideDone (s t : State) (k : Slot) (cam : Camera) (p : Position) (truncated : Bool) (next : ChannelState)
    (it : Item) : Prop where
  item : ∃ x, t.item? k = some x ∧ it.Completes s.mgmt.settings cam p truncated x
  slots : t.table.items.map Item.slot = s.table.items.map Item.slot
  capture : t.capture = s.capture.setChannel cam { s.channel cam with state := next, bound := none }
  image : ∀ n, t.image n = s.image n
  mem : t.mem = s.mem
  mgmt : t.mgmt = s.mgmt
  render : t.render = s.render
  links : t.links = s.links
  emitter : t.emitter = s.emitter
  adviceOut : t.adviceOut = s.adviceOut

theorem State.sideDone_spec {s : State} {k : Slot} {it : Item} (h : s.item? k = some it) (cam : Camera) (p : Position)
    (truncated : Bool) (next : ChannelState) :
    s.SideDone (s.sideDone it k cam p truncated next) k cam p truncated next it := by
  have hclosed : (s.sideClosed k cam p truncated next).item? k
      = some (it.setSide cam ((it.side cam).completed p truncated s.mgmt.settings.streakSpread.toNat)) :=
    State.item?_modifySide (s := s.modifyChannel cam _) h cam _
  have hslot : ∀ x : Item, ((x.setDeadline s.mgmt.settings cam p).setHeights (s.image it.set) cam).slot = x.slot :=
    fun x => (x.sameEntry_setDeadline s.mgmt.settings cam p).slot
  have hslots : (s.sideClosed k cam p truncated next).table.items.map Item.slot = s.table.items.map Item.slot :=
    State.slots_modifySide _ k cam _
  rcases (s.sideClosed k cam p truncated next).sealAtCompletion_eq k cam with e | ⟨l, e⟩
  · rw [State.sideDone, e]
    refine ⟨⟨_, (State.item?_modifyItem hslot).trans (congrArg (Option.map _) hclosed),
      Item.completes_of_side _ _ rfl rfl rfl rfl⟩, (State.slots_modifyItem hslot).trans hslots, rfl, fun _ => rfl, rfl, rfl,
      rfl, rfl, rfl, rfl⟩
  · rw [State.sideDone, e]
    have hsealed := State.item?_modifySide (s := (s.sideClosed k cam p truncated next).withChecks l) hclosed cam Side.sealed
    rw [Item.setSide_setSide, Item.side_setSide] at hsealed
    refine ⟨⟨_, (State.item?_modifyItem hslot).trans (congrArg (Option.map _) hsealed),
      Item.completes_of_side _ _ rfl rfl rfl rfl⟩, ?_, rfl, fun _ => rfl, rfl, rfl, rfl, rfl, rfl, rfl⟩
    exact (State.slots_modifyItem hslot).trans ((State.slots_modifySide _ k cam _).trans hslots)

theorem State.SideDone.channel {s t : State} {k : Slot} {cam : Camera} {p : Position} {truncated : Bool}
    {next : ChannelState} {it : Item} (h : s.SideDone t k cam p truncated next it) :
    t.channel cam = { s.channel cam with state := next, bound := none } := by
  unfold State.channel
  rw [h.capture, Capture.channel_setChannel]
  rfl

/-- A completion moves no port position (R25). -/
theorem State.SideDone.reference {s t : State} {k : Slot} {cam : Camera} {p : Position} {truncated : Bool}
    {next : ChannelState} {it : Item} (h : s.SideDone t k cam p truncated next it) : t.reference = s.reference := by
  unfold State.reference
  rw [h.capture]
  cases cam <;> rfl

/-! ### The classify test (R54) -/

theorem State.classifyDeadlineReached_eq {s : State} {x : Item} {d r : Position} (hd : x.classifyDeadline = some d)
    (hr : s.reference = some r) : s.classifyDeadlineReached x
      = (decide (x.classification = .unclassified) && decide (x.state ≠ .cancelling) && atOrPast r d) := by
  unfold State.classifyDeadlineReached
  rw [hd, hr]

theorem State.adviceDeadlineReached_eq {s : State} {x : Item} {d r : Position} (hd : x.adviceDeadline = some d)
    (hr : s.reference = some r) : s.adviceDeadlineReached x
      = (decide (x.generation = 0) && decide (x.state = .processing) && decide (x.advice = none) && atOrPast r d) := by
  unfold State.adviceDeadlineReached
  rw [hd, hr]

/-- An item whose classify deadline is ahead of the reference position stays as it is. -/
theorem State.testClassify_of_ahead {s : State} {k : Slot} {x : Item} {d r : Position} (h : s.item? k = some x)
    (hd : x.classifyDeadline = some d) (hr : s.reference = some r) (ha : atOrPast r d = false) : s.testClassify k = s := by
  unfold State.testClassify
  rw [h]
  dsimp only
  rw [State.classifyDeadlineReached_eq hd hr, ha, Bool.and_false]
  exact if_neg Bool.false_ne_true

/-- An UNCLASSIFIED item whose classify deadline is reached is classified BY_DEFAULT. -/
theorem State.testClassify_of_reached {s : State} {k : Slot} {x : Item} {d r : Position} (h : s.item? k = some x)
    (hd : x.classifyDeadline = some d) (hr : s.reference = some r) (ha : atOrPast r d = true)
    (hc : x.classification = .unclassified) (hs : x.state ≠ .cancelling) :
    s.testClassify k = s.classifyByDefault x := by
  unfold State.testClassify
  rw [h]
  dsimp only
  rw [State.classifyDeadlineReached_eq hd hr, ha, hc]
  exact if_pos (by simpa using hs)

/-- A position ahead by less than half the range is not reached (R25). -/
theorem atOrPast_ahead (p : Position) {d : Position} (h1 : 1 ≤ d.toNat) (h2 : d.toNat ≤ 65536) :
    atOrPast p (p + d) = false := by
  have hsub : p - (p + d) = -d := by abel
  unfold atOrPast
  rw [hsub, BitVec.toNat_neg]
  refine decide_eq_false ?_
  omega

/-! ### The entry to PROCESSING (R4, R126, R134) -/

/-- The entry as it enters PROCESSING (R4, R125). -/
def Item.processing (x : Item) : Item :=
  { x with state := .processing, front := { x.front with accumulators := none }, rear := { x.rear with accumulators := none } }

/-- The entry in PROCESSING, before the tests. -/
def State.processing (s : State) (k : Slot) : State := s.modifyItem k Item.processing

theorem State.item?_processing {s : State} {k : Slot} {x : Item} (h : s.item? k = some x) :
    (s.processing k).item? k = some x.processing :=
  (State.item?_modifyItem (f := Item.processing) fun _ => rfl).trans (congrArg (Option.map _) h)

/-- An item with a side that is not COMPLETE does not enter PROCESSING. -/
theorem State.enterProcessing_of_incomplete {s : State} {k : Slot} {x : Item} {cam : Camera} (h : s.item? k = some x)
    (hc : (x.side cam).capture ≠ .complete) : s.enterProcessing k = s := by
  unfold State.enterProcessing
  rw [h]
  cases cam
  · exact if_neg fun e => hc e.2.1
  · exact if_neg fun e => hc e.2.2

/-- A CAPTURING item with both sides COMPLETE enters it. -/
theorem State.enterProcessing_of_complete {s : State} {k : Slot} {x : Item} (h : s.item? k = some x)
    (hs : x.state = .capturing) (hc : ∀ cam, (x.side cam).capture = .complete) :
    s.enterProcessing k = (((s.processing k).testAdvice k).evaluateItem k).dispatch := by
  unfold State.enterProcessing
  rw [h]
  exact if_pos ⟨hs, hc .front, hc .rear⟩

/-- With the advice deadline ahead, no profile, and an empty render queue the tests change nothing. -/
theorem State.enterProcessing_of_ahead {s : State} {k : Slot} {x : Item} {d : Position} (h : s.item? k = some x)
    (hs : x.state = .capturing) (hc : ∀ cam, (x.side cam).capture = .complete) (hd : x.adviceDeadline = some d)
    (ha : ∀ r, s.reference = some r → atOrPast r d = false) (hp : x.profile = none) (hr : s.render.queue = []) :
    s.enterProcessing k = s.processing k := by
  have hx := State.item?_processing h
  have hadvice : (s.processing k).testAdvice k = s.processing k := by
    unfold State.testAdvice
    rw [hx]
    refine if_neg fun e => ?_
    cases hq : s.reference with
    | none =>
      unfold State.adviceDeadlineReached at e
      rw [show x.processing.adviceDeadline = some d from hd, show (s.processing k).reference = none from hq] at e
      exact Bool.false_ne_true e
    | some r =>
      rw [State.adviceDeadlineReached_eq (s := s.processing k) (x := x.processing) hd hq, ha r hq, Bool.and_false] at e
      exact Bool.false_ne_true e
  have hgrade : (s.processing k).evaluateItem k = s.processing k := by
    unfold State.evaluateItem
    rw [hx]
    refine if_neg fun e => ?_
    rw [show x.processing.profile = none from hp] at e
    exact Bool.false_ne_true e.2.2.1
  rw [State.enterProcessing_of_complete h hs hc, hadvice, hgrade,
    State.dispatch_of_nil (s := s.processing k) hr]

/-- With the advice deadline reached the item is cancelled LATE as it enters PROCESSING (R134). -/
theorem State.enterProcessing_late {s : State} {x : Item} {d r : Position} (h : s.Cancellable x) (hs : x.state = .capturing)
    (hc : ∀ cam, (x.side cam).capture = .complete) (hg : x.generation = 0) (ha : x.advice = none)
    (hd : x.adviceDeadline = some d) (hr : s.reference = some r) (hreached : atOrPast r d = true) :
    s.Cancels (s.enterProcessing x.slot) x .late .late
      ∧ ((s.enterProcessing x.slot).table.items.map Item.slot).Nodup := by
  have hfound := State.item?_processing h.found
  have hcan : (s.processing x.slot).Cancellable x.processing :=
    { found := hfound
      distinct := by
        unfold State.processing
        rw [State.slots_modifyItem (f := Item.processing) fun _ => rfl]
        exact h.distinct
      state := fun e => ItemState.noConfusion e
      summary := h.summary }
  have htest : (s.processing x.slot).testAdvice x.slot = ((s.processing x.slot).cancelItem x.slot .late).dispatch := by
    unfold State.testAdvice
    rw [hfound]
    refine if_pos ?_
    rw [State.adviceDeadlineReached_eq (s := s.processing x.slot) (x := x.processing) hd hr, hreached,
      show x.processing.generation = 0 from hg, show x.processing.advice = none from ha,
      show x.processing.state = .processing from rfl]
    rfl
  obtain ⟨hcancel, hn⟩ := State.cancelDispatch_cancels hcan .late
  have hcalm := (State.evaluateItem_calm ((s.processing x.slot).cancelItem x.slot .late).dispatch x.slot).trans
    (State.dispatch_calm _)
  rw [State.enterProcessing_of_complete h.found hs hc, htest]
  exact ⟨(hcancel.of_earlier (s := s) (old := x) { Item.SameEntry.refl x with } rfl rfl rfl rfl).calm hn hcalm,
    (((hcalm.items hn).mono fun e => e.sameEntry).slots_sublist).nodup hn⟩

/-! ### Names of entries -/

/-- `x` and `y` have the same name. -/
def Item.SameName (x y : Item) : Prop := x.name = y.name

theorem Item.SameName.slot {x y : Item} (h : x.SameName y) : x.slot = y.slot := congrArg ItemName.slot h

theorem Item.SameName.sameEntry {x y : Item} (h : x.SameName y) : x.SameEntry y :=
  ⟨h.slot, congrArg ItemName.announcedTag h, congrArg ItemName.sequence h, Or.inl (congrArg ItemName.tag h)⟩

/-- Internal work renames no entry. -/
theorem State.Calm.names {s t : State} (h : s.Calm t) (hn : (s.table.items.map Item.slot).Nodup) :
    From Item.SameName t.table.items s.table.items := (h.items hn).mono fun e => e.name

/-- The entry to PROCESSING renames none. -/
theorem State.names_enterProcessing {s : State} (hn : (s.table.items.map Item.slot).Nodup) (k : Slot) :
    From Item.SameName (s.enterProcessing k).table.items s.table.items := by
  have hsame : From Item.SameName s.table.items s.table.items :=
    From.refl (R := Item.SameName) (fun _ => rfl) _
  unfold State.enterProcessing
  split
  · exact hsame
  · split
    · have hmark : From Item.SameName (s.processing k).table.items s.table.items := From.map fun x _ => by
        split <;> rfl
      have hcalm := ((State.testAdvice_calm (s.processing k) k).trans (State.evaluateItem_calm _ k)).trans
        (State.dispatch_calm _)
      exact From.trans (R := Item.SameName) (fun a b => Eq.trans a b)
        (hcalm.names ((hmark.mono Item.SameName.sameEntry).slots_sublist.nodup hn)) hmark
    · exact hsame

/-- A classification names the item's profile and how it was found (R60). -/
theorem State.name_classify {s : State} (hn : (s.table.items.map Item.slot).Nodup) {it x : Item} {p : Nat}
    {c : Classification} (hit : s.item? it.slot = some it) (hx : x ∈ (s.classify it p c).table.items)
    (hs : x.slot = it.slot) : x.name = { it.name with profile := some p, classification := c } := by
  unfold State.classify at hx
  dsimp only at hx
  have hcalm := fun u : State => (((State.placeRenditions_calm u it.slot
    (newRenditions (s.image it.set) s.lineWidth it p).length).trans (State.evaluateItem_calm _ it.slot)).trans
    (State.earlyRefeed_calm _ it.slot)).trans (State.dispatch_calm _)
  obtain ⟨y, hy, hxy⟩ := ((hcalm _).names (Eq.mpr (congrArg List.Nodup (State.slots_modifyItem (by intro; rfl))) hn)).mem hx
  obtain ⟨z, hz, hzs, rfl⟩ := State.mem_of_modifyItem hy (hxy.slot.symm.trans hs)
  obtain rfl : z = it := State.eq_of_slot hn hz (State.mem_of_item? hit).1 hzs
  exact hxy

/-- The entry to PROCESSING, the note of the line and the choice of a frame rename none. -/
theorem State.names_enterProcessing_end {s : State} (hn : (s.table.items.map Item.slot).Nodup) (k : Slot) (cam : Camera)
    (flag : Bool) (p : Position) :
    From Item.SameName (((s.enterProcessing k).seen cam flag p).chooseFrame).table.items s.table.items := by
  have henter := State.names_enterProcessing hn k
  have hslots : ((s.enterProcessing k).table.items.map Item.slot).Nodup :=
    (henter.mono Item.SameName.sameEntry).slots_sublist.nodup hn
  have hchoose := ((State.seen_calm (s.enterProcessing k) cam flag p).trans (State.chooseFrame_calm _)).names hslots
  exact From.trans (R := Item.SameName) (fun a b => Eq.trans a b) hchoose henter

/-- The name that a classification gave stands at the end of the command. -/
theorem State.name_classify_end {s : State} (hn : (s.table.items.map Item.slot).Nodup) {it x : Item} {p : Nat}
    {c : Classification} {cam : Camera} {flag : Bool} {q : Position} (hit : s.item? it.slot = some it)
    (hx : x ∈ ((((s.classify it p c).enterProcessing it.slot).seen cam flag q).chooseFrame).table.items)
    (hs : x.slot = it.slot) : x.name = { it.name with profile := some p, classification := c } := by
  have hclass : ((s.classify it p c).table.items.map Item.slot).Nodup :=
    (((s.classify_keeps it p c).items hn).slots_sublist).nodup hn
  obtain ⟨y, hy, hxy⟩ := (State.names_enterProcessing_end hclass it.slot cam flag q).mem hx
  exact Eq.trans hxy (State.name_classify hn hit hy (hxy.slot.symm.trans hs))

end Sys2Proof.Machine
end

section
/-! A line at a channel in CAPTURE (O15), by the end of its command. -/

namespace Sys2Proof.Machine

open State (Calm Keeps)

/-! ### A line with the flag (R36, R37, R42) -/

/-- A line with the flag at a channel in CAPTURE: what it makes of the side, noted and settled. -/
theorem exec_line_of_flag {s : State} {cam : Camera} {p q : Position} {px : List Byte} {k : Slot} {doc : Byte}
    (hg : s.GoodLine cam p px) (hf : (s.channel cam).fifo.length < 16) (hs : (s.channel cam).state = .capture)
    (hb : (s.channel cam).bound = some k) (hq : (s.channel cam).lastPosition = some q) (hdoc : doc ≠ 0) :
    exec (.line (cameraCode cam) doc p px) s
      = .next (((s.atPort cam p).captureLine k cam q true p px).seen cam true p).chooseFrame := by
  rw [exec_line_of_capture hg hf hs hb hq, show (doc != 0) = true from bne_iff_ne.2 hdoc]

theorem State.channel_atPort (s : State) (cam : Camera) (p : Position) :
    (s.atPort cam p).channel cam = { s.channel cam with portPosition := some p } := State.channel_modifyChannel s cam _

theorem State.captureLine_next_found {s : State} {k : Slot} {cam : Camera} {it : Item} (h : s.item? k = some it)
    (flag : Bool) (p : Position) (px : List Byte) :
    s.captureLine k cam (p - 1) flag p px = s.endOfGap k cam flag p px (it.side cam).lines 0 := by
  rw [State.captureLine_next, State.sideLines_of_found h]

/-- The line that brings a side to its maximum length completes it, truncated (R42). -/
theorem State.endOfGap_truncated {s : State} {k : Slot} {cam : Camera} {it : Item} (h : s.item? k = some it)
    (hl : (it.side cam).lines % 32 ≠ 0) (hr : s.render.queue = [])
    (hmax : (it.side cam).lines + 1 = s.mgmt.settings.maxSideLength.toNat) (p : Position) (px : List Byte)
    (first fills : Nat) : s.endOfGap k cam true p px first fills
      = (s.lineTaken k cam px first fills).completeSide k cam (p + 1) true .skip :=
  have htake := State.takeContent_of_ensured (State.ensureStrip_of_strip h hl) h hr px
  State.takeLine_of_truncated (htake.trans (congrArg (Prod.mk _) (if_pos hmax))) p first fills

/-! ### A line without the flag completes the side (R42, R43) -/

/-- A line without the flag, with none missing, ends the side at its position. -/
theorem exec_line_of_end {s : State} {cam : Camera} {p : Position} {px : List Byte} {k : Slot} {it : Item}
    (hg : s.GoodLine cam p px) (hf : (s.channel cam).fifo.length < 16) (hs : (s.channel cam).state = .capture)
    (hb : (s.channel cam).bound = some k) (hl : (s.channel cam).lastPosition = some (p - 1)) (h : s.item? k = some it) :
    ∃ t, (s.atPort cam p).SideDone t k cam p false .idle it
      ∧ exec (.line (cameraCode cam) 0 p px) s = .next ((State.enterProcessing
          (if cam = .front then t.testClassify k else t) k).seen cam false p).chooseFrame := by
  refine ⟨_, State.sideDone_spec (s := s.atPort cam p) h cam p false .idle, ?_⟩
  rw [exec_line_of_capture hg hf hs hb hl, State.captureLine_next]
  exact congrArg (fun u : State => Host.Outcome.next (u.seen cam false p).chooseFrame)
    (State.completeSide_of_nil (s := s.atPort cam p) h hg.due.queue p false .idle)

/-- The setting of a margin as a distance of positions. -/
theorem toNat_setWidth_margin (m : Half) : (m.setWidth 32 : Position).toNat = m.toNat := by
  rw [BitVec.toNat_setWidth]
  have := m.isLt
  omega

/-! ### The tests after a completion -/

/-- A FRONT side completed with its deadline ahead leaves its item's classification (R54). -/
theorem State.SideDone.testClassify_of_ahead {s t : State} {k : Slot} {q r : Position} {truncated : Bool}
    {next : ChannelState} {it : Item} (h : s.SideDone t k .front q truncated next it) (hr : s.reference = some r)
    (ha : atOrPast r (q + s.mgmt.settings.classifyMargin.setWidth 32) = false) : t.testClassify k = t := by
  obtain ⟨x, hx, hdone⟩ := h.item
  exact State.testClassify_of_ahead hx (congrArg ItemName.classifyDeadline hdone.name) (h.reference.trans hr) ha

/-- With the other side still to come nothing follows the completion (R4, R43). -/
theorem State.SideDone.tests_of_incomplete {s t : State} {k : Slot} {cam : Camera} {q : Position} {truncated : Bool}
    {next : ChannelState} {it : Item} (h : s.SideDone t k cam q truncated next it)
    (hother : (it.side (otherCamera cam)).capture ≠ .complete)
    (ha : cam = .front → ∃ r, s.reference = some r
      ∧ atOrPast r (q + s.mgmt.settings.classifyMargin.setWidth 32) = false) :
    State.enterProcessing (if cam = .front then t.testClassify k else t) k = t := by
  have htest : (if cam = .front then t.testClassify k else t) = t := by
    cases cam
    · obtain ⟨r, hr, ha⟩ := ha rfl
      exact h.testClassify_of_ahead hr ha
    · rfl
  obtain ⟨x, hx, hdone⟩ := h.item
  rw [htest]
  exact State.enterProcessing_of_incomplete (cam := otherCamera cam) hx (by rw [hdone.other]; exact hother)

/-- The second side completed, its other record as it was: both are COMPLETE. -/
theorem Item.Completes.both {v : RunSettings} {cam : Camera} {p : Position} {b : Bool} {it x : Item}
    (h : it.Completes v cam p b x) (ho : (it.side (otherCamera cam)).capture = .complete) (c : Camera) :
    (x.side c).capture = .complete := by
  by_cases e : c = cam
  · exact e ▸ h.capture
  · obtain rfl : c = otherCamera cam := by cases c <;> cases cam <;> simp_all [otherCamera]
    rw [h.other]
    exact ho

/-- A classify margin of at least one line puts the deadline ahead (R43). -/
theorem atOrPast_classifyMargin (p : Position) {m : Half} (h : 1 ≤ m.toNat) :
    atOrPast p (p + m.setWidth 32) = false :=
  atOrPast_ahead p (by rw [toNat_setWidth_margin]; exact h) (by rw [toNat_setWidth_margin]; exact m.isLt.le)

theorem atOrPast_self (p : Position) : atOrPast p p = true := by
  unfold atOrPast
  rw [sub_self]
  rfl

/-- The deadline of a truncated FRONT side is ahead with any margin: its trailing position is that of the next line. -/
theorem atOrPast_truncatedMargin (p : Position) (m : Half) : atOrPast p (p + 1 + m.setWidth 32) = false := by
  have hm := m.isLt
  have hsum : ((1 : Position) + m.setWidth 32).toNat = 1 + m.toNat := by
    rw [BitVec.toNat_add, toNat_setWidth_margin]
    change (1 + m.toNat) % 2 ^ 32 = _
    omega
  rw [add_assoc]
  exact atOrPast_ahead p (by omega) (by omega)

/-! ### A line taken, by the end of the command -/

/-- The channel of a line taken. -/
theorem State.channel_lineTaken_end (s : State) (k : Slot) (cam : Camera) (px : List Byte) (first fills : Nat) (p : Position) :
    ((s.lineTaken k cam px first fills).seen cam true p).chooseFrame.channel cam
      = { s.channel cam with lastTaken := px, fifo := (s.channel cam).fifo ++ [lineEntry k cam first fills px],
                             previousFlag := true, lastPosition := some p } := by
  rw [State.channel_seen_chooseFrame, State.channel_lineTaken]

/-- The side of a line taken. -/
theorem State.item?_lineTaken_end {s : State} {k : Slot} {it : Item} (h : s.item? k = some it) (cam : Camera)
    (px : List Byte) (first fills : Nat) (p : Position) :
    ∃ x, ((s.lineTaken k cam px first fills).seen cam true p).chooseFrame.item? k = some x
      ∧ x.side cam = (it.side cam).withLine s.mgmt.settings.darkLevel.toNat px := by
  obtain ⟨x, hx, -, -, -, hside⟩ := State.item?_seen_chooseFrame (State.item?_lineTaken h cam px first fills) cam true p
  exact ⟨x, hx, (hside cam).trans (Item.side_setSide _ _ _)⟩

/-- A line taken writes no memory and takes no strip (R36, R169). -/
theorem State.memory_lineTaken_end (s : State) (k : Slot) (cam : Camera) (px : List Byte) (first fills : Nat) (p : Position) :
    ((s.lineTaken k cam px first fills).seen cam true p).chooseFrame.frameMemory = s.frameMemory
      ∧ ((s.lineTaken k cam px first fills).seen cam true p).chooseFrame.mem = s.mem := by
  rw [State.chooseFrame_frameMemory, State.chooseFrame_mem]
  exact ⟨rfl, rfl⟩

/-- The accumulators of a side with one line more (R124). -/
theorem Side.accumulators_withLine {x : Side} {a : Accumulators} (h : x.accumulators = some a) (dark : Nat) (px : List Byte) :
    (x.withLine dark px).accumulators = some (accumulate dark a px) := by
  unfold Side.withLine
  rw [h]
  rfl

/-- The channel and the memory by the end of a line that completed its side. -/
theorem State.SideDone.ended {s t : State} {k : Slot} {cam : Camera} {q : Position} {truncated flag : Bool}
    {next : ChannelState} {it : Item} {p : Position} (h : s.SideDone t k cam q truncated next it) :
    (t.seen cam flag p).chooseFrame.channel cam
        = { s.channel cam with state := next, bound := none, previousFlag := flag, lastPosition := some p }
      ∧ (t.seen cam flag p).chooseFrame.mem = s.mem := by
  rw [State.channel_seen_chooseFrame, h.channel, State.chooseFrame_mem]
  exact ⟨rfl, h.mem⟩

/-- The entry by the end of a line that completed its side, and nothing more. -/
theorem State.SideDone.item_ended {s t : State} {k : Slot} {cam : Camera} {q : Position} {truncated : Bool}
    {next : ChannelState} {it : Item} (h : s.SideDone t k cam q truncated next it) (flag : Bool) (p : Position) :
    ∃ x, (t.seen cam flag p).chooseFrame.item? k = some x ∧ it.Completes s.mgmt.settings cam q truncated x := by
  obtain ⟨y, hy, hdone⟩ := h.item
  obtain ⟨x, hx, hname, hstate, hadvice, hside⟩ := State.item?_seen_chooseFrame hy cam flag p
  exact ⟨x, hx, hname.trans hdone.name, hstate.trans hdone.state, hadvice.trans hdone.advice, by rw [hside]; exact hdone.capture,
    by rw [hside]; exact hdone.trailing, by rw [hside]; exact hdone.lines, by rw [hside]; exact hdone.truncated,
    by rw [hside]; exact hdone.other⟩

/-- With both sides COMPLETE, no profile and the advice deadline ahead the item enters PROCESSING, and no more (R4, R134). -/
theorem State.SideDone.enterProcessing_of_ahead {s t : State} {k : Slot} {q : Position} {truncated : Bool}
    {next : ChannelState} {it : Item} (h : s.SideDone t k .rear q truncated next it)
    (hfront : it.front.capture = .complete) (hstate : it.state = .capturing) (hprofile : it.profile = none)
    (ha : ∀ r, s.reference = some r → atOrPast r (q + s.mgmt.settings.adviceMargin.setWidth 32) = false)
    (hr : s.render.queue = []) : t.enterProcessing k = t.processing k := by
  obtain ⟨x, hx, hdone⟩ := h.item
  exact State.enterProcessing_of_ahead hx (hdone.state.trans hstate) (hdone.both hfront)
    (congrArg ItemName.adviceDeadline hdone.name) (fun r hr => ha r (h.reference.symm.trans hr))
    ((congrArg ItemName.profile hdone.name).trans hprofile) ((congrArg Render.queue h.render).trans hr)

/-- With a margin of 0 the FRONT completion classifies its UNCLASSIFIED item BY_DEFAULT (R43, R54). -/
theorem State.SideDone.classified {s t : State} {p : Position} {truncated : Bool} {next : ChannelState} {it : Item}
    (h : s.SideDone t it.slot .front p truncated next it) (hn : (s.table.items.map Item.slot).Nodup)
    (hr : s.reference = some p) (hmargin : s.mgmt.settings.classifyMargin = 0)
    (hclass : it.classification = .unclassified) (hstate : it.state ≠ .cancelling) {flag : Bool} {x : Item}
    (hx : x ∈ (((t.testClassify it.slot).enterProcessing it.slot).seen .front flag p).chooseFrame.table.items)
    (hs : x.slot = it.slot) : x.classification = .byDefault ∧ x.profile = some (s.image it.set).defaultProfile
      ∧ x.classifyDeadline = some p := by
  obtain ⟨y, hy, hdone⟩ := h.item
  have hslot : y.slot = it.slot := hdone.sameEntry.slot
  have hset : y.set = it.set := congrArg ItemName.set hdone.name
  have hdeadline : y.classifyDeadline = some p := (congrArg ItemName.classifyDeadline hdone.name).trans
    (congrArg some (by rw [hmargin]; exact add_zero p))
  have htest : t.testClassify it.slot = t.classifyByDefault y :=
    State.testClassify_of_reached hy hdeadline (h.reference.trans hr) (atOrPast_self p)
      ((congrArg ItemName.classification hdone.name).trans hclass) (hdone.state ▸ hstate)
  rw [htest, ← hslot] at hx
  have hname := State.name_classify_end (by rw [h.slots]; exact hn) (hslot ▸ hy) hx (hs.trans hslot.symm)
  refine ⟨congrArg ItemName.classification hname, (congrArg ItemName.profile hname).trans ?_,
    (congrArg ItemName.classifyDeadline hname).trans hdeadline⟩
  rw [hset, h.image]

/-- The second side completed with the advice deadline reached: the item is cancelled LATE (R134). -/
theorem State.SideDone.late {s t : State} {cam : Camera} {p d r : Position} {truncated : Bool} {next : ChannelState}
    {it : Item} (h : s.SideDone t it.slot .front p truncated next it) (hc : s.Cancellable it)
    (hrear : it.rear.capture = .complete) (hstate : it.state = .capturing) (hgen : it.generation = 0)
    (hadvice : it.advice = none) (hd : it.adviceDeadline = some d) (hr : s.reference = some r)
    (hreached : atOrPast r d = true) (flag : Bool) :
    s.Cancels ((t.enterProcessing it.slot).seen cam flag p).chooseFrame it .late .late := by
  obtain ⟨x, hx, hdone⟩ := h.item
  have hslot : x.slot = it.slot := hdone.sameEntry.slot
  have hcan : t.Cancellable x :=
    { found := hslot ▸ hx
      distinct := by rw [h.slots]; exact hc.distinct
      state := by rw [hdone.state]; exact hc.state
      summary := by rw [h.emitter, hslot]; exact hc.summary }
  obtain ⟨hcancel, hn⟩ := State.enterProcessing_late hcan (hdone.state.trans hstate) (hdone.both hrear)
    ((congrArg ItemName.generation hdone.name).trans hgen) (hdone.advice.trans hadvice)
    ((congrArg ItemName.adviceDeadline hdone.name).trans hd) (h.reference.trans hr) hreached
  rw [hslot] at hcancel hn
  exact (hcancel.of_earlier hdone.sameEntry (congrArg ItemName.generation hdone.name) hdone.advice h.adviceOut h.links).seen
    hn cam flag p

/-- Settles O15: a line taken, one after filled lines, one that truncates, and the end of each side. -/
theorem lineInCapture : Obligations.LineInCapture := by
  unfold Obligations.LineInCapture
  refine ⟨fun s cam doc p px k it hg hf hs hb hit hdoc hl => ⟨fun hlast hmax => ?_, fun m h1 h8 hlast hm hmax => ?_,
      fun hlast hmax hother => ?_⟩,
    fun s p px k it hg hf hs hb hlast hit => ⟨fun hfront => ?_, fun hfront hstate hprofile hahead => ?_⟩,
    fun s p px it hg hf hs hb hlast hit hn => ⟨fun hrear hmargin => ?_, fun hmargin hclass hstate => ?_,
      fun d hrear hstate hgen hadvice hmargin hd hreached hc => ?_⟩⟩
  · have hchannel := (s.atPort cam p).channel_lineTaken_end k cam px (it.side cam).lines 0 p
    have hmemory := (s.atPort cam p).memory_lineTaken_end k cam px (it.side cam).lines 0 p
    obtain ⟨x, hx, hside⟩ := State.item?_lineTaken_end (s := s.atPort cam p) hit cam px (it.side cam).lines 0 p
    rw [State.channel_atPort] at hchannel
    refine ⟨_, x, ?_, by rw [hchannel]; exact hs, by rw [hchannel]; exact hb, by rw [hchannel], by rw [hchannel]; rfl,
      hmemory.1, hmemory.2, hx, by rw [hside]; rfl, by rw [hside]; rfl, by rw [hside]; rfl, fun a ha =>
        ⟨_, by rw [hside, Side.accumulators_withLine ha], rfl, rfl, rfl⟩⟩
    rw [exec_line_of_flag hg hf hs hb hlast hdoc, State.captureLine_next_found (s := s.atPort cam p) hit,
      State.endOfGap_taken (s := s.atPort cam p) hit hl hg.due.queue hmax]
  · obtain ⟨u, hu, hfill⟩ := State.captureLine_filled (s := s.atPort cam p) hit hg.due.queue hl h1 h8 hm
      (by exact Nat.lt_of_succ_lt hmax) p px true
    obtain ⟨w, hw, hlines, hgap, haccum⟩ := hfill.marked
    have hchannel := u.channel_lineTaken_end k cam px (it.side cam).lines m p
    have hmemory := u.memory_lineTaken_end k cam px (it.side cam).lines m p
    obtain ⟨x, hx, hside⟩ := State.item?_lineTaken_end hw cam px (it.side cam).lines m p
    rw [hfill.channel, show (State.modifySide (s.atPort cam p) k cam _).channel cam = _ from s.channel_atPort cam p] at hchannel
    refine ⟨_, x, ?_, by rw [hchannel]; exact hs, by rw [hchannel]; exact hb, by rw [hchannel], by rw [hchannel]; rfl,
      hmemory.1.trans hfill.frameMemory, hmemory.2.trans hfill.mem, hx, ?_, by rw [hside]; exact hgap, fun a ha => ?_⟩
    · rw [exec_line_of_flag hg hf hs hb hlast hdoc, hu, State.endOfGap_taken hw (by rw [hlines]; omega)
        ((congrArg Render.queue hfill.render).trans hg.due.queue)
        (by rw [hlines, hfill.mgmt]; exact Nat.ne_of_lt hmax)]
    · rw [hside]
      exact congrArg (· + 1) hlines
    · obtain ⟨b, hb', hcount, hsum⟩ := haccum a ha
      have hlast' : ((s.atPort cam p).channel cam).lastTaken = (s.channel cam).lastTaken := by rw [State.channel_atPort]
      rw [hlast'] at hcount hsum
      exact ⟨_, by rw [hside, Side.accumulators_withLine hb'], congrArg (· + px.length) hcount,
        congrArg (· + (px.map BitVec.toNat).sum) hsum⟩
  · have htaken := State.item?_lineTaken (s := s.atPort cam p) hit cam px (it.side cam).lines 0
    have hdone := State.sideDone_spec htaken cam (p + 1) true .skip
    obtain ⟨x, hx, hfinal⟩ := hdone.item_ended true p
    obtain ⟨hchannel, -⟩ := hdone.ended (flag := true) (p := p)
    rw [State.channel_lineTaken, State.channel_atPort] at hchannel
    refine ⟨_, x, ?_, by rw [hchannel], by rw [hchannel], by rw [hchannel]; rfl, hx, ?_, ?_, hfinal.capture, ?_,
      hfinal.trailing⟩
    · rw [exec_line_of_flag hg hf hs hb hlast hdoc, State.captureLine_next_found (s := s.atPort cam p) hit,
        State.endOfGap_truncated (s := s.atPort cam p) hit hl hg.due.queue hmax,
        State.completeSide_of_nil htaken hg.due.queue,
        hdone.tests_of_incomplete (by rw [Item.side_setSide_other]; exact hother) fun e => by
          subst e
          exact ⟨p, rfl, atOrPast_truncatedMargin p _⟩]
    · exact hfinal.state.trans (it.state_setSide cam _)
    · rw [hfinal.lines, Item.side_setSide]
      rfl
    · rw [hfinal.truncated, Bool.or_true]
  · obtain ⟨t, hdone, hexec⟩ := exec_line_of_end hg hf hs hb hlast hit
    rw [hdone.tests_of_incomplete hfront fun e => Camera.noConfusion e] at hexec
    obtain ⟨x, hx, hfinal⟩ := hdone.item_ended false p
    obtain ⟨hchannel, hmem⟩ := hdone.ended (flag := false) (p := p)
    exact ⟨_, x, hexec, by rw [hchannel], by rw [hchannel], hmem, hx, hfinal.state, hfinal.capture, hfinal.trailing,
      hfinal.lines, hfinal.truncated.trans (Bool.or_false _), congrArg ItemName.adviceDeadline hfinal.name,
      congrArg ItemName.key hfinal.name⟩
  · obtain ⟨t, hdone, hexec⟩ := exec_line_of_end hg hf hs hb hlast hit
    obtain ⟨y, hy, hentry⟩ := hdone.item
    rw [if_neg (fun e => Camera.noConfusion e),
      hdone.enterProcessing_of_ahead hfront hstate hprofile hahead hg.due.queue] at hexec
    obtain ⟨x, hx, hname, hxstate, hxadvice, hside⟩ := State.item?_seen_chooseFrame (State.item?_processing hy) .rear false p
    refine ⟨_, x, hexec, ?_, ?_, hx, hxstate, (congrArg Side.capture (hside .rear)).trans hentry.capture,
      (congrArg Side.trailing (hside .rear)).trans hentry.trailing, fun c => ?_,
      (congrArg ItemName.adviceDeadline hname).trans (congrArg ItemName.adviceDeadline hentry.name),
      hxadvice.trans hentry.advice⟩
    · rw [State.channel_seen_chooseFrame]
      exact congrArg Channel.state hdone.channel
    · rw [State.chooseFrame_mem]
      exact hdone.mem
    · rw [hside]
      cases c <;> rfl
  · obtain ⟨t, hdone, hexec⟩ := exec_line_of_end hg hf hs hb hlast hit
    rw [hdone.tests_of_incomplete hrear fun _ => ⟨p, rfl, atOrPast_classifyMargin p hmargin⟩] at hexec
    obtain ⟨x, hx, hfinal⟩ := hdone.item_ended false p
    obtain ⟨hchannel, hmem⟩ := hdone.ended (flag := false) (p := p)
    exact ⟨_, x, hexec, by rw [hchannel], by rw [hchannel], hmem, hx, hfinal.state, hfinal.capture, hfinal.trailing,
      congrArg ItemName.classifyDeadline hfinal.name, congrArg ItemName.classification hfinal.name,
      congrArg ItemName.profile hfinal.name, congrArg ItemName.key hfinal.name⟩
  · obtain ⟨t, hdone, hexec⟩ := exec_line_of_end hg hf hs hb hlast hit
    rw [if_pos rfl] at hexec
    exact ⟨_, hexec, fun x hx hs =>
      hdone.classified (s := s.atPort .front p) hn rfl hmargin hclass hstate hx hs⟩
  · obtain ⟨t, hdone, hexec⟩ := exec_line_of_end hg hf hs hb hlast hit
    rw [if_pos rfl, hdone.testClassify_of_ahead (show (s.atPort .front p).reference = some p from rfl)
      (atOrPast_classifyMargin p hmargin)] at hexec
    exact ⟨_, hexec, (hdone.late (hc.atPort .front p) hrear hstate hgen hadvice hd rfl hreached false).of_atPort⟩

end Sys2Proof.Machine
end

section
/-! Lines that no side takes: those counted and not seen (O12), and those seen outside CAPTURE that are no bound leading
edge (O13). -/

namespace Sys2Proof.Machine

/-! ### The LINE command (R26 to R29) -/

/-- A LINE received while the track link is UP. -/
theorem exec_line_of_up {s : State} (hup : s.links.track.up = true) (a doc : Byte) (p : Position) (px : List Byte) :
    exec (.line a doc p px) s = .next (s.lineFrame a doc p px).chooseFrame :=
  congrArg Host.Outcome.next (State.receive_up (k := .track) hup _)

/-- A line of neither camera, or of another width, is a bad frame (R26). -/
theorem State.lineFrame_bad {s : State} {a : Byte} {px : List Byte} (h : 2 ≤ a.toNat ∨ px.length ≠ s.lineWidth)
    (doc : Byte) (p : Position) : s.lineFrame a doc p px = s.withBadTrack := by
  unfold State.lineFrame
  cases hcam : cameraOf a with
  | none => rfl
  | some cam =>
    have hwidth : px.length ≠ s.lineWidth := h.resolve_left fun ha => by
      have h0 : a ≠ 0 := fun e => by subst e; exact absurd ha (by decide)
      have h1 : a ≠ 1 := fun e => by subst e; exact absurd ha (by decide)
      unfold cameraOf at hcam
      rw [if_neg h0, if_neg h1] at hcam
      cases hcam
    exact if_pos hwidth

/-- A line not past the port position is out of sequence (R26). -/
theorem State.lineFrame_outOfSequence {s : State} {cam : Camera} {p q : Position} {px : List Byte}
    (hw : px.length = s.lineWidth) (hq : (s.channel cam).portPosition = some q) (hp : past p q = false) (doc : Byte) :
    s.lineFrame (cameraCode cam) doc p px
      = s.modifyCounters fun c => { c with badSequence := saturatingInc c.badSequence } := by
  unfold State.lineFrame
  rw [cameraOf_cameraCode]
  dsimp only
  rw [if_neg (not_not_intro hw), hq, if_pos (by rw [Option.any_some, hp]; rfl)]

/-- A good line has passed the tests of R26, and is offered to its channel (R29). -/
theorem State.lineFrame_good {s : State} {cam : Camera} {p : Position} {px : List Byte} (h : s.GoodLine cam p px)
    (doc : Byte) : s.lineFrame (cameraCode cam) doc p px = (s.atPort cam p).offerLine cam (doc != 0) p px := by
  have hport : ((s.channel cam).portPosition.any fun q => !past p q) = false := by
    cases hq : (s.channel cam).portPosition with
    | none => rfl
    | some q => rw [Option.any_some, h.past q hq]; rfl
  unfold State.lineFrame
  rw [cameraOf_cameraCode]
  dsimp only
  rw [if_neg (not_not_intro (show px.length = s.lineWidth from h.width)), hport, if_neg Bool.false_ne_true]
  exact State.goodLine_due h _

/-- A line that finds its FIFO full is dropped (R29). -/
theorem State.offerLine_full {s : State} {cam : Camera} (h : 16 ≤ (s.channel cam).fifo.length) (flag : Bool) (p : Position)
    (px : List Byte) : s.offerLine cam flag p px = s.dropLine cam := if_pos h

/-- Settles O12: a bad line, one out of sequence, and a good one dropped at a full FIFO. -/
theorem lineNotTaken : Obligations.LineNotTaken := by
  unfold Obligations.LineNotTaken
  refine fun s cam a doc p px hup => ⟨fun hbad => ?_, fun q hw hq hp => ?_, fun hg hfull => ?_⟩
  · rw [exec_line_of_up hup, State.lineFrame_bad hbad]
  · rw [exec_line_of_up hup, State.lineFrame_outOfSequence hw hq hp]
  · have hfull' : 16 ≤ ((s.atPort .rear p).channel .rear).fifo.length := by
      rw [State.channel_atPort]
      exact hfull
    rw [exec_line_of_up hup, show (1 : Byte) = cameraCode .rear from rfl, State.lineFrame_good hg,
      State.offerLine_full hfull']
    rfl

/-! ### Lines seen outside CAPTURE (R28) -/

/-- A good line that its FIFO has room for is seen by its channel. -/
theorem exec_line_of_good {s : State} {cam : Camera} {p : Position} {px : List Byte} (h : s.GoodLine cam p px)
    (hf : (s.channel cam).fifo.length < 16) (doc : Byte) :
    exec (.line (cameraCode cam) doc p px) s = .next ((s.atPort cam p).seeLine cam (doc != 0) p px).chooseFrame := by
  rw [exec_line_of_up h.up, State.exec_line h hf]
  rfl

/-- The port position moved and the line noted, and nothing between them (R26, R28). -/
theorem State.seen_atPort (s : State) (cam : Camera) (flag : Bool) (p : Position) :
    (s.atPort cam p).seen cam flag p = s.afterLine cam flag p := by
  cases cam <;> rfl

/-- In IDLE a line that is no leading edge, or comes outside RUNNING, is noted only (R28). -/
theorem State.seeLine_idle {s : State} {cam : Camera} {flag : Bool} (hs : (s.channel cam).state = .idle)
    (h : flag = false ∨ (s.channel cam).previousFlag = true ∨ s.mgmt.mode ≠ .running) (p : Position) (px : List Byte) :
    s.seeLine cam flag p px = s.seen cam flag p := by
  have hedge : (flag && !(s.channel cam).previousFlag && decide (s.mgmt.mode = .running)) = false := by
    rcases h with h | h | h <;> simp [h]
  unfold State.seeLine
  dsimp only
  rw [hs, hedge]
  rfl

/-- In IDLE a leading edge in RUNNING goes through the binding procedure (R28, R32). -/
theorem State.seeLine_edge {s : State} {cam : Camera} (hs : (s.channel cam).state = .idle)
    (hprev : (s.channel cam).previousFlag = false) (hm : s.mgmt.mode = .running) (p : Position) (px : List Byte) :
    s.seeLine cam true p px = (s.leadingEdge cam p px).seen cam true p := by
  unfold State.seeLine
  dsimp only
  rw [hs, hprev, hm]
  rfl

/-- In SKIP a line is handled by its flag alone (R28). -/
theorem State.seeLine_skip {s : State} {cam : Camera} (hs : (s.channel cam).state = .skip) (flag : Bool) (p : Position)
    (px : List Byte) : s.seeLine cam flag p px = (s.skipLine cam flag).seen cam flag p := by
  unfold State.seeLine
  dsimp only
  rw [hs]
  rfl

/-- A line without the flag ends SKIP (R28). -/
theorem State.skipLine_end {s : State} {cam : Camera} (hs : (s.channel cam).state = .skip) :
    s.skipLine cam false = s.modifyChannel cam fun c => { c with state := .idle } := by
  unfold State.skipLine State.modifyChannel
  exact congrArg (fun c => { s with capture := s.capture.setChannel cam c }) (if_pos hs)

/-! ### Leading edges that are not bound (R32, R34) -/

/-- An EVENT that finds a place (R187). -/
theorem State.composeEvent_of_room {s : State} (h : s.EventRoom) (b : EventBody) : s.composeEvent b = s.withEvent b := by
  unfold State.composeEvent
  dsimp only
  rw [if_pos (show s.linkUp .exchange = true from h.1), if_pos (show s.eventsHeld < Config.eventPlaces from h.2)]
  rfl

/-- A head whose window has not passed is not removed at an edge (R32). -/
theorem removePassedAt_of_none {s : State} {cam : Camera} {p : Position} (h : s.passedHead? cam p = none) (n : Nat) :
    removePassedAt n s cam p = s := by
  cases n with
  | zero => rfl
  | succ n =>
    unfold removePassedAt
    rw [h]

theorem State.headItem?_atPort (s : State) (cam : Camera) (p : Position) :
    (s.atPort cam p).headItem? cam = s.headItem? cam := by
  unfold State.headItem?
  rw [State.channel_atPort]
  rfl

/-- At a good line's position no head has passed (R31, R32). -/
theorem State.GoodLine.removePassedAt {s : State} {cam : Camera} {p : Position} {px : List Byte} (h : s.GoodLine cam p px)
    (n : Nat) : removePassedAt n (s.atPort cam p) cam p = s.atPort cam p :=
  removePassedAt_of_none
    ((congrArg (Option.filter _) (s.headItem?_atPort cam p)).trans (State.passedHead_of_due h.due cam)) n

/-- With no head there is none to bind (R32). -/
theorem State.headItem?_of_nil {s : State} {cam : Camera} (h : (s.channel cam).pendingList = []) :
    s.headItem? cam = none := by
  unfold State.headItem?
  rw [h]
  rfl

/-- The head of a pending list that stands in its slot. -/
theorem State.headItem?_of_head {s : State} {cam : Camera} {k : Slot} {it : Item}
    (h : (s.channel cam).pendingList.head? = some k) (hit : s.item? k = some it) : s.headItem? cam = some it := by
  unfold State.headItem?
  rw [h]
  exact hit

/-- A leading edge without a head whose window is open is an orphan (R32, R34). -/
theorem State.GoodLine.leadingEdge_orphan {s : State} {cam : Camera} {p : Position} {px : List Byte}
    (h : s.GoodLine cam p px)
    (hclosed : ∀ it, s.headItem? cam = some it → s.windowOpen it cam p = false) :
    (s.atPort cam p).leadingEdge cam p px = (s.atPort cam p).orphan cam p := by
  unfold State.leadingEdge
  dsimp only
  rw [h.removePassedAt, State.headItem?_atPort]
  cases hhead : s.headItem? cam with
  | none => rfl
  | some it =>
    dsimp only
    rw [show (s.atPort cam p).windowOpen it cam p = false from hclosed it hhead]
    rfl

/-- An orphan edge, noted (R28, R34). -/
theorem State.seen_orphan {s : State} (h : s.EventRoom) (cam : Camera) (p : Position) :
    ((s.atPort cam p).orphan cam p).seen cam true p
      = (((s.afterLine cam true p).modifyChannel cam fun c => { c with state := .skip }).withEvent
          (.orphan cam p)).modifyCounters fun c => { c with orphans := saturatingInc c.orphans } := by
  unfold State.orphan
  dsimp only
  rw [State.composeEvent_of_room (by exact h)]
  cases cam <;> rfl

/-- Settles O13: lines seen in IDLE and in SKIP, and the two ways a leading edge finds no head to bind. -/
theorem lineOutsideCapture : Obligations.LineOutsideCapture := by
  unfold Obligations.LineOutsideCapture
  refine ⟨fun s cam doc p px hg hf => ⟨fun hs h => ?_, fun hs hdoc => ?_, fun hs hdoc => ?_⟩,
    fun s cam doc p px hg hf hs hprev hdoc hm hroom hhead => ?_⟩
  all_goals
    rw [exec_line_of_good hg hf]
    have hchannel := s.channel_atPort cam p
    have hstate := (congrArg Channel.state hchannel).trans hs
  · have hnoted : (doc != 0) = false ∨ ((s.atPort cam p).channel cam).previousFlag = true
        ∨ (s.atPort cam p).mgmt.mode ≠ .running :=
      h.imp bne_eq_false_iff_eq.2 (Or.imp_left (congrArg Channel.previousFlag hchannel).trans)
    rw [State.seeLine_idle hstate hnoted, State.seen_atPort]
  · rw [show (doc != 0) = true from bne_iff_ne.2 hdoc, State.seeLine_skip hstate]
    exact congrArg (fun t : State => Host.Outcome.next t.chooseFrame) (s.seen_atPort cam true p)
  · rw [hdoc, show ((0 : Byte) != 0) = false from rfl, State.seeLine_skip hstate, State.skipLine_end hstate]
    cases cam <;> rfl
  · have hclosed : ∀ it, s.headItem? cam = some it → s.windowOpen it cam p = false := by
      rcases hhead with hnil | ⟨k, it, hk, hit, -, hopen⟩
      · rw [State.headItem?_of_nil hnil]
        exact fun _ e => nomatch e
      · rw [State.headItem?_of_head hk hit]
        exact fun _ e => Option.some.inj e ▸ hopen
    rw [show (doc != 0) = true from bne_iff_ne.2 hdoc,
      State.seeLine_edge hstate ((congrArg Channel.previousFlag hchannel).trans hprev) hm,
      hg.leadingEdge_orphan hclosed, State.seen_orphan hroom]

end Sys2Proof.Machine
end

section
/-! A leading edge bound to the head of its pending list (O14): the head, its side and its first line (R32, R33, R39). -/

namespace Sys2Proof.Machine

/-! ### The first line of a strip taken from the free list (R36, R39) -/

/-- The head of the free strip list is granted without an eviction (R39). -/
theorem State.grantStrip_free {s : State} {n : Nat} {more : List Nat} (hf : s.frameMemory.freeStrips = n :: more) :
    s.grantStrip = some (n, { s with frameMemory := { s.frameMemory with freeStrips := more } }) := by
  unfold State.grantStrip
  rw [hf]
  dsimp only [List.isEmpty]
  rw [if_neg Bool.false_ne_true, hf]

/-- A line that begins a strip, with one free and short of the maximum length, is taken into it (R36, R39). -/
theorem State.takeLine_free {s : State} {k : Slot} {cam : Camera} {it : Item} {n : Nat} {more : List Nat}
    (h : s.item? k = some it) (hl : (it.side cam).lines % 32 = 0) (hf : s.frameMemory.freeStrips = n :: more)
    (hr : s.render.queue = []) (hmax : (it.side cam).lines + 1 ≠ s.mgmt.settings.maxSideLength.toNat) (p : Position)
    (px : List Byte) (first fills : Nat) :
    s.takeLine k cam p px first fills = s.lineOnStrip k cam n more px first fills := by
  have hens : s.ensureStrip k cam = some (s.withStrip k cam n more) := by
    rw [State.ensureStrip_of_full h hl, State.grantStrip_free hf]
    rfl
  refine State.takeLine_of_taken ((State.takeContent_of_ensured hens (State.item?_withStrip h cam n more) hr px).trans ?_)
    p first fills
  rw [Item.side_setSide]
  exact congrArg (Prod.mk _) (if_neg hmax)

/-- A side whose chain has a strip more. -/
def Side.withStrip (n : Nat) (x : Side) : Side := { x with chain := x.chain ++ [{ strip := n, lines := 0 }] }

/-- The whole entry of a line taken into a new strip. -/
theorem State.item?_lineOnStrip_eq {t : State} {k : Slot} {it : Item} (h : t.item? k = some it) (cam : Camera) (n : Nat)
    (more : List Nat) (px : List Byte) (first fills : Nat) :
    (t.lineOnStrip k cam n more px first fills).item? k = some (it.setSide cam
      (((it.side cam).withStrip n).withLine t.mgmt.settings.darkLevel.toNat px)) := by
  have hline := State.item?_withLine (State.item?_withStrip h cam n more) cam px
  rw [Item.setSide_setSide, Item.side_setSide] at hline
  exact hline

theorem State.channel_lineOnStrip (t : State) (k : Slot) (cam : Camera) (n : Nat) (more : List Nat) (px : List Byte)
    (first fills : Nat) : (t.lineOnStrip k cam n more px first fills).channel cam
      = { t.channel cam with lastTaken := px, fifo := (t.channel cam).fifo ++ [lineEntry k cam first fills px] } := by
  unfold State.lineOnStrip State.pushFifo State.withLine
  rw [State.channel_modifyChannel, State.channel_modifyChannel]
  rfl

/-! ### The binding (R33) -/

/-- A head bound, its edge line not yet taken: its slot off the list, the channel in CAPTURE, the side ACTIVE from the
edge on, and for a FRONT binding the item's state and its refined rear expected lead (R3, R33). -/
def State.edgeBound (s : State) (cam : Camera) (k : Slot) (p : Position) : State :=
  let s := s.modifyChannel cam fun c => { c with pendingList := c.pendingList.tail, state := .capture, bound := some k }
  let s := s.modifySide k cam fun x => { x with capture := .active, leading := some p }
  match cam with
  | .rear => s
  | .front => s.modifyItem k fun x =>
      { x with state := if x.state = ItemState.announced then ItemState.capturing else x.state,
               rear := { x.rear with expectedLead := p + s.mgmt.settings.rearOffset.setWidth 32 } }

theorem State.bindEdge_eq (s : State) (cam : Camera) (it : Item) (p : Position) (px : List Byte) :
    s.bindEdge cam it p px = (s.edgeBound cam it.slot p).takeLine it.slot cam p px 0 0 := by
  cases cam <;> rfl

/-- `x` is entry `it` bound at a camera to an edge, with so many lines from the FRONT to the REAR edge (R3, R33). -/
structure Item.BoundAt (offset : Position) (cam : Camera) (p : Position) (it x : Item) : Prop where
  side : x.side cam = { it.side cam with capture := .active, leading := some p }
  rearState : cam = .rear → x.state = it.state
  frontState : cam = .front → it.state = .announced → x.state = .capturing
  rearLead : cam = .front → x.rear.expectedLead = p + offset

theorem State.item?_edgeBound {s : State} {k : Slot} {it : Item} (h : s.item? k = some it) (cam : Camera) (p : Position) :
    ∃ x, (s.edgeBound cam k p).item? k = some x
      ∧ it.BoundAt (s.mgmt.settings.rearOffset.setWidth 32) cam p x := by
  have hside := State.item?_modifySide (s := s.modifyChannel cam fun c =>
    { c with pendingList := c.pendingList.tail, state := .capture, bound := some k }) h cam
      fun x => { x with capture := .active, leading := some p }
  cases cam with
  | rear => exact ⟨_, hside, rfl, fun _ => rfl, fun e => Camera.noConfusion e, fun e => Camera.noConfusion e⟩
  | front =>
    refine ⟨_, (State.item?_modifyItem (by exact fun _ => rfl)).trans (congrArg (Option.map _) hside), rfl,
      fun e => Camera.noConfusion e, fun _ ha => if_pos ha, fun _ => rfl⟩

theorem State.channel_edgeBound (s : State) (cam : Camera) (k : Slot) (p : Position) :
    (s.edgeBound cam k p).channel cam
      = { s.channel cam with pendingList := (s.channel cam).pendingList.tail, state := .capture, bound := some k } := by
  cases cam <;> rfl

/-- What a binding leaves as it was. -/
theorem State.edgeBound_frame (s : State) (cam : Camera) (k : Slot) (p : Position) :
    (s.edgeBound cam k p).frameMemory = s.frameMemory ∧ (s.edgeBound cam k p).mem = s.mem
      ∧ (s.edgeBound cam k p).render = s.render ∧ (s.edgeBound cam k p).mgmt = s.mgmt := by
  cases cam <;> exact ⟨rfl, rfl, rfl, rfl⟩

/-- A head with an open window, and for a REAR edge a front that is bound, is bound to the edge (R32). -/
theorem State.GoodLine.leadingEdge_bound {s : State} {cam : Camera} {p : Position} {px : List Byte} {it : Item}
    (h : s.GoodLine cam p px) (hhead : s.headItem? cam = some it) (hopen : s.windowOpen it cam p = true)
    (hfront : cam = .rear → it.front.capture ≠ .pending) :
    (s.atPort cam p).leadingEdge cam p px = (s.atPort cam p).bindEdge cam it p px := by
  unfold State.leadingEdge
  dsimp only
  rw [h.removePassedAt, State.headItem?_atPort, hhead]
  dsimp only
  rw [show (s.atPort cam p).windowOpen it cam p = true from hopen, if_neg (by decide), if_neg fun e => hfront e.1 e.2]

/-- Settles O14: the head bound, its first strip granted, and the edge line taken into it. -/
theorem edgeIsBound : Obligations.EdgeIsBound := by
  unfold Obligations.EdgeIsBound
  intro s cam doc p px k later it n free hg hf hs hprev hdoc hm hlist hit _ hopen hfront hlines hchain hfree hmax
  have hport := s.channel_atPort cam p
  have hslot : it.slot = k := (State.mem_of_item? hit).2
  have hhead : s.headItem? cam = some it := State.headItem?_of_head (by rw [hlist]; rfl) hit
  obtain ⟨y, hy, hbound⟩ := State.item?_edgeBound (s := s.atPort cam p) hit cam p
  obtain ⟨hmemory, hmem, hrender, hmgmt⟩ := (s.atPort cam p).edgeBound_frame cam k p
  have hzero : (y.side cam).lines = 0 := by rw [hbound.side]; exact hlines
  have htake := State.takeLine_free hy (by rw [hzero]) ((congrArg FrameMemory.freeStrips hmemory).trans hfree)
    ((congrArg Render.queue hrender).trans hg.due.queue) (by rw [hzero, hmgmt]; exact hmax.symm) p px 0 0
  have hexec : exec (.line (cameraCode cam) doc p px) s = .next
      (((((s.atPort cam p).edgeBound cam k p).lineOnStrip k cam n free px 0 0).seen cam true p).chooseFrame) := by
    rw [exec_line_of_good hg hf, show (doc != 0) = true from bne_iff_ne.2 hdoc,
      State.seeLine_edge ((congrArg Channel.state hport).trans hs) ((congrArg Channel.previousFlag hport).trans hprev) hm,
      hg.leadingEdge_bound hhead hopen hfront, State.bindEdge_eq, hslot, htake]
  obtain ⟨x, hx, -, hstate, -, hside⟩ := State.item?_seen_chooseFrame
    (State.item?_lineOnStrip_eq hy cam n free px 0 0) cam true p
  have hxside := (hside cam).trans (Item.side_setSide _ _ _)
  rw [Item.state_setSide] at hstate
  rw [hbound.side] at hxside
  have hchannel := State.channel_seen_chooseFrame (((s.atPort cam p).edgeBound cam k p).lineOnStrip k cam n free px 0 0)
    cam true p
  rw [State.channel_lineOnStrip, State.channel_edgeBound, hport] at hchannel
  refine ⟨_, x, hexec, ?_, by rw [hchannel], by rw [hchannel], by rw [hchannel]; rfl, ?_, ?_, hx, by rw [hxside]; rfl,
    by rw [hxside]; rfl, ?_, ?_, fun e => hstate.trans (hbound.rearState e),
    fun e ha => hstate.trans (hbound.frontState e ha), fun e => ?_⟩
  · rw [hchannel]
    exact congrArg List.tail hlist
  · rw [State.chooseFrame_frameMemory]
    rfl
  · rw [State.chooseFrame_mem]
    exact hmem
  · rw [hxside]
    exact congrArg (· + 1) hlines
  · rw [hxside]
    exact congrArg (fun l => countLine (l ++ [{ strip := n, lines := 0 }])) hchain
  · subst e
    exact (congrArg Side.expectedLead (hside .rear)).trans (hbound.rearLead rfl)

end Sys2Proof.Machine
end

section
/-! WINDOW_PASSED (O17), HALT and RESUME (O30). -/

namespace Sys2Proof.Machine

open State (Calm)

/-! ### WINDOW_PASSED (R31) -/

/-- A head that has passed, with no REAR head passed, is the one to remove (R31). -/
theorem State.firstPassed?_front {s : State} {q : Position} {it : Item} (hf : s.passedHead? .front q = some it)
    (hr : s.passedHead? .rear q = none) : s.firstPassed? q = some (.front, it) := by
  unfold State.firstPassed?
  rw [hf, hr]

/-- The head of a pending list whose window has passed (R31). -/
theorem State.passedHead?_of_passed {s : State} {cam : Camera} {q : Position} {it : Item} (hhead : s.headItem? cam = some it)
    (hpast : s.windowPassed it cam q = true) : s.passedHead? cam q = some it := by
  unfold State.passedHead?
  rw [hhead]
  exact Option.filter_some_pos hpast

/-- A pending list whose head's window has not passed, or whose slot at the head is FREE (R31). -/
theorem State.passedHead?_eq_none {s : State} {cam : Camera} {q : Position}
    (h : ∀ k x, (s.channel cam).pendingList.head? = some k → s.item? k = some x → s.windowPassed x cam q = false) :
    s.passedHead? cam q = none := by
  unfold State.passedHead?
  refine Option.filter_eq_none_iff.2 fun x hx hpast => ?_
  obtain ⟨k, hk, hkx⟩ := Option.bind_eq_some_iff.1 hx
  rw [h k x hk hkx] at hpast
  cases hpast

/-- The head taken off a pending list. -/
def State.offHead (s : State) (cam : Camera) : State :=
  s.modifyChannel cam fun c => { c with pendingList := c.pendingList.tail }

/-- A head removed NOT_SEEN: its item is cancelled, and counted (R11, R31). -/
theorem State.removeNotSeen_cancels {s : State} {it : Item} (h : s.Cancellable it) (cam : Camera) :
    s.Cancels (s.removeNotSeen cam it) it .notSeen .notSeen
      ∧ ((s.removeNotSeen cam it).table.items.map Item.slot).Nodup
      ∧ (s.removeNotSeen cam it).mgmt.counters.notSeen = saturatingInc s.mgmt.counters.notSeen := by
  have hoff : (s.offHead cam).Cancellable it := ⟨h.found, h.distinct, h.state, h.summary⟩
  obtain ⟨hcancel, hn⟩ := State.cancelDispatch_cancels hoff .notSeen
  have hevent := State.composeEvent_calm ((s.offHead cam).cancelItem it.slot .notSeen).dispatch
    (.notSeen cam it.announcedTag (it.side cam).expectedLead)
  have hcount := ((State.cancelDispatch_calm (s.offHead cam) it.slot .notSeen).trans hevent).bedrock
  have hcancelled : s.Cancels _ it .notSeen .notSeen := (hcancel.calm hn hevent).of_earlier (.refl it) rfl rfl rfl rfl
  exact ⟨hcancelled.congr rfl rfl rfl, (((hevent.items hn).mono fun r => r.sameEntry).slots_sublist).nodup hn,
    congrArg saturatingInc (congrArg Bedrock.notSeen hcount)⟩

/-- Settles O17: the FRONT head removed NOT_SEEN, and no change without a reference position. -/
theorem windowPassed : Obligations.WindowPassed := by
  unfold Obligations.WindowPassed
  refine fun s => ⟨fun q it later hq hc hlist hpast hrear => ?_, fun hnone => ?_⟩
  · have hfront := State.passedHead?_of_passed (State.headItem?_of_head (cam := .front)
      (congrArg List.head? hlist) hc.found) hpast
    have hfirst := State.firstPassed?_front hfront (State.passedHead?_eq_none (cam := .rear) hrear)
    have hexec : exec .windowPassed s = .next (s.removeNotSeen .front it).chooseFrame := by
      change execWindowPassed s = _
      unfold execWindowPassed State.removeOnePassed
      rw [hq]
      dsimp only
      rw [hfirst]
      rfl
    obtain ⟨hcancel, hn, hcount⟩ := State.removeNotSeen_cancels hc .front
    refine ⟨_, hexec, hcancel.calm hn (State.chooseFrame_calm _), ?_⟩
    rw [State.chooseFrame_counters]
    exact hcount
  · change execWindowPassed s = _
    unfold execWindowPassed
    rw [hnone]

/-! ### HALT (R46, R177, R179) -/

/-- A mode change finds a place for its EVENT (R177). -/
theorem State.changeMode_of_room {s : State} (h : s.EventRoom) (m : Mode) (c : ModeCause) :
    s.changeMode m c = State.withEvent { s with mgmt := { s.mgmt with mode := m } } (.modeChange s.mgmt.mode m c) :=
  State.composeEvent_of_room (s := { s with mgmt := { s.mgmt with mode := m } }) h _

theorem State.reportsHeld_withEvent (s : State) (b : EventBody) :
    (s.withEvent b).reportsHeld = s.reportsHeld ++ [.event { sequence := s.mgmt.eventSeq, body := b }] :=
  State.reportsHeld_pushReport { s with mgmt := { s.mgmt with eventSeq := s.mgmt.eventSeq + 1 } } _

/-- What a halt leaves of a channel (R46). -/
theorem Channel.halted_spec (c : Channel) :
    c.halted.pendingList = [] ∧ c.halted.state ≠ .capture ∧ c.halted.bound = none := by
  refine ⟨rfl, ?_, rfl⟩
  unfold Channel.halted
  dsimp only
  split <;> decide

/-- The channels after a halt of both (R46). -/
theorem State.channel_halted (s : State) (cam : Camera) :
    ((s.modifyChannel .front Channel.halted).modifyChannel .rear Channel.halted).channel cam
      = (s.channel cam).halted := by
  cases cam <;> rfl

/-- The entry to HALTED: the mode, EVENT MODE before what the JAM cancels report, and the channels (R46, R179). -/
theorem State.enterHalted_spec {s : State} (h : s.EventRoom) (c : ModeCause) :
    (s.enterHalted c).mgmt.mode = .halted
      ∧ (∀ cam, ((s.enterHalted c).channel cam).pendingList = [] ∧ ((s.enterHalted c).channel cam).state ≠ .capture
          ∧ ((s.enterHalted c).channel cam).bound = none)
      ∧ ∃ l, (s.enterHalted c).reportsHeld = s.reportsHeld
          ++ .event { sequence := s.mgmt.eventSeq, body := .modeChange s.mgmt.mode .halted c } :: l := by
  have hjam := Calm.foldl State.jam_calm (s.changeMode .halted c).slots (s.changeMode .halted c)
  obtain ⟨l, hl, -⟩ := hjam.reports
  have hmode := congrArg Bedrock.mode hjam.bedrock
  rw [State.changeMode_of_room h] at hl hmode
  rw [State.reportsHeld_withEvent, List.append_assoc] at hl
  unfold State.enterHalted
  dsimp only
  rw [State.changeMode_of_room h]
  refine ⟨hmode, fun cam => ?_, l, hl⟩
  rw [State.channel_halted]
  exact Channel.halted_spec _

/-- A HALT received while the track link is UP. -/
theorem exec_halt {s : State} (hup : s.links.track.up = true) : exec .halt s = .next s.haltFrame.chooseFrame :=
  congrArg Host.Outcome.next (State.receive_up (k := .track) hup _)

/-- A RESUME received while the track link is UP. -/
theorem exec_resume {s : State} (hup : s.links.track.up = true) : exec .resume s = .next s.resumeFrame.chooseFrame :=
  congrArg Host.Outcome.next (State.receive_up (k := .track) hup _)

/-- Settles O30: HALT in and outside RUNNING, RESUME in and outside HALTED. -/
theorem haltAndResume : Obligations.HaltAndResume := by
  unfold Obligations.HaltAndResume
  refine ⟨fun s hup => ⟨fun hm => ?_, fun hm hroom => ?_⟩, fun s hup => ⟨fun hm => ?_, fun hm hroom => ?_⟩⟩
  · rw [exec_halt hup, show s.haltFrame = s from if_neg hm]
  · obtain ⟨hmode, hchannels, l, hreports⟩ := State.enterHalted_spec hroom .halt
    refine ⟨_, l, exec_halt hup, ?_⟩
    rw [show s.haltFrame = s.enterHalted .halt from if_pos hm, State.chooseFrame_mode, State.reportsHeld_chooseFrame]
    refine ⟨hmode, fun cam => ?_, hm ▸ hreports⟩
    unfold State.channel
    rw [State.chooseFrame_capture]
    exact hchannels cam
  · rw [exec_resume hup, show s.resumeFrame = s from if_neg hm]
  · rw [exec_resume hup, show s.resumeFrame = s.changeMode .running .resume from if_pos hm,
      State.changeMode_of_room hroom, hm]

end Sys2Proof.Machine
end

section
/-! Renditions that wait in the render queue: when one is ready, how an IDLE engine takes it, and how one asks a RUNNING
engine to yield (R90 to R93, R99). -/

namespace Sys2Proof.Machine

/-! ### Readiness (R89 to R91) -/

/-- A queued rendition goes on from its context, or from its first strip (R89, R98). -/
theorem nextStripOf_eq (q : Rendition) : nextStripOf q = (State.startContext q).nextStrip := by
  unfold nextStripOf State.startContext
  cases q.context <;> rfl

/-- On a side still being captured a rendition has not consumed its input (R89). -/
theorem consumedInput_of_open {x : Side} (h : x.capture ≠ .complete) (q : Rendition) (n : Nat) :
    consumedInput q x n = false := by
  unfold consumedInput
  rw [decide_eq_false h]
  rfl

/-- On such a side a rendition is ready when its next strip is sealed and its lines are there (R90, R91). -/
theorem State.Consumes.ready_eq {s : State} {u : RendRef} {it : Item} {q : Rendition} {n : Nat} (h : s.Consumes u it q n) :
    s.ready u = decide ((State.startContext q).nextStrip < (it.side q.descriptor.side).sealedCount) := by
  unfold State.ready
  rw [h.item, h.record]
  dsimp only
  rw [consumedInput_of_open h.capture, Bool.or_false, nextStripOf_eq]
  unfold consumable
  rw [decide_eq_true (show Config.stripLines * ((State.startContext q).nextStrip + 1) + q.descriptor.tail
    ≤ (it.side q.descriptor.side).lines from h.lines), Bool.or_true, Bool.and_true]

/-- The next strip of such a rendition is consumable (R90). -/
theorem State.Consumes.consumable {s : State} {u : RendRef} {it : Item} {q : Rendition}
    (h : s.Consumes u it q (it.side q.descriptor.side).sealedCount) :
    consumable q.descriptor (it.side q.descriptor.side) (State.startContext q).nextStrip = true := by
  unfold Machine.consumable
  rw [decide_eq_true h.strip, decide_eq_true (show Config.stripLines * ((State.startContext q).nextStrip + 1)
    + q.descriptor.tail ≤ (it.side q.descriptor.side).lines from h.lines), Bool.or_true]
  rfl

/-! ### A rendition taken (R92, R93) -/

/-- A rendition in the hands of the engine that has taken it from the queue (R92). -/
def State.rendTaken (s : State) (e : EngineId) (u : RendRef) (q : Rendition) : State :=
  ((s.dequeue u).modifyRendition u fun q => { q with state := .running, context := none }).setEngine e
    (State.runningOn u (State.startContext q))

/-- An engine at the boundary before a consumable strip goes on as it is (R96). -/
theorem State.boundary_of_consumable {s : State} {e : EngineId} {u : RendRef} {w : EngineWork} {it : Item} {q : Rendition}
    (hheld : (s.engine e).rendition = some u) (hwork : (s.engine e).work = some w) (hit : s.item? u.slot = some it)
    (hq : s.rendition? u = some q) (hgoing : q.stopping = false) (hopen : (it.side q.descriptor.side).capture ≠ .complete)
    (hnext : consumable q.descriptor (it.side q.descriptor.side) w.context.nextStrip = true) : s.boundary e = s := by
  unfold State.boundary
  rw [hheld, hwork]
  dsimp only
  rw [hit, hq]
  dsimp only
  rw [hgoing, consumedInput_of_open hopen, hnext]
  rfl

/-- A rendition whose next strip is consumable is taken, and its engine reads on (R92, R93). -/
theorem State.Consumes.takeRendition {s : State} {u : RendRef} {it : Item} {q : Rendition}
    (h : s.Consumes u it q (it.side q.descriptor.side).sealedCount) (e : EngineId) :
    s.takeRendition e u = s.rendTaken e u q := by
  have hengine : (s.rendTaken e u q).engine e = State.runningOn u (State.startContext q) := State.engine_setEngine _ e _
  have hit : (s.rendTaken e u q).item? u.slot
      = some (it.modifyRendition u.index fun q => { q with state := .running, context := none }) :=
    ((s.dequeue u).item?_modifyRendition u _).trans (congrArg (Option.map _) h.item)
  have hq : (s.rendTaken e u q).rendition? u = some { q with state := .running, context := none } :=
    ((s.dequeue u).rendition?_modifyRendition u (by exact fun _ => rfl)).trans (congrArg (Option.map _) h.record)
  have hboundary : (s.rendTaken e u q).boundary e = s.rendTaken e u q := by
    have hside : ∀ f c, (it.modifyRendition u.index f).side c = it.side c := fun f c => by cases c <;> rfl
    refine State.boundary_of_consumable (congrArg Engine.rendition hengine) (congrArg Engine.work hengine) hit hq h.going
      ?_ ?_
    · rw [hside]
      exact h.capture
    · rw [hside]
      exact h.consumable
  unfold State.takeRendition
  rw [h.record]
  exact hboundary

/-- A queue of one rendition is empty once an engine has taken it. -/
theorem State.queue_rendTaken {s : State} {u : RendRef} (h : s.render.queue = [u]) (e : EngineId) (q : Rendition) :
    (s.rendTaken e u q).render.queue = [] := by
  have hqueue : (s.rendTaken e u q).render.queue = s.render.queue.filter (· != u) := by cases e <;> rfl
  rw [hqueue, h]
  simp

/-- The engines as one takes a rendition: no other changes. -/
theorem State.engine_rendTaken (s : State) (e : EngineId) (u : RendRef) (q : Rendition) :
    (s.rendTaken e u q).engine e = State.runningOn u (State.startContext q)
      ∧ ∀ e', e' ≠ e → (s.rendTaken e u q).engine e' = s.engine e' :=
  ⟨State.engine_setEngine _ e _, fun _ h => State.engine_setEngine_of_ne _ _ h⟩

/-! ### A rendition woken (R91, R92) -/

/-- The one rendition of the queue, ready and not so before, is offered an engine (R91). -/
theorem State.wake_of_single {s before : State} {u : RendRef} (h : s.render.queue = [u]) (hready : s.ready u = true)
    (hbefore : before.ready u = false) : s.wake before = s.offerReady u := by
  unfold State.wake State.readyQueue
  rw [h]
  simp [hready, hbefore]

/-- With an IDLE engine the one rendition of the queue is taken by the lowest of them (R92). -/
theorem State.Consumes.offerReady {s : State} {u : RendRef} {it : Item} {q : Rendition} {e : EngineId}
    (h : s.Consumes u it q (it.side q.descriptor.side).sealedCount) (hqueue : s.render.queue = [u])
    (he : s.idleEngine? = some e) : s.offerReady u = s.rendTaken e u q := by
  have hready : s.readyQueue = [u] := by
    unfold State.readyQueue
    rw [hqueue]
    simp [h.ready_eq, h.strip]
  have hdispatch : s.dispatch = s.rendTaken e u q := by
    unfold State.dispatch
    rw [hqueue]
    change dispatchFuel 1 s = _
    unfold dispatchFuel
    rw [he, hready]
    exact h.takeRendition e
  unfold State.offerReady
  rw [hdispatch]
  exact State.requestYield_of_absent (by rw [State.queue_rendTaken hqueue]; exact List.not_mem_nil)

/-- With no engine IDLE a rendition offered only asks for a yield (R92, R99). -/
theorem State.offerReady_of_busy {s : State} (h : ∀ e, (s.engine e).state ≠ .idle) (u : RendRef) :
    s.offerReady u = s.requestYield u := by
  unfold State.offerReady
  rw [State.dispatch_of_busy h]

/-- With no engine IDLE renditions woken change nothing but yield requests (R91, R99). -/
theorem State.wake_of_busy {s : State} (h : ∀ e, (s.engine e).state ≠ .idle) (before : State) :
    ∃ d : Render, s.wake before = { s with render := d } := by
  have hfold : ∀ (l : List RendRef) (t : State), (∀ e, (t.engine e).state ≠ .idle) →
      ∃ d : Render, l.foldl State.offerReady t = { t with render := d } := by
    intro l
    induction l with
    | nil => exact fun t _ => ⟨t.render, rfl⟩
    | cons u l ih =>
      intro t ht
      obtain ⟨d, hd, -, hwork⟩ := t.requestYield_shape u
      rw [List.foldl_cons, State.offerReady_of_busy ht, hd]
      obtain ⟨d', hd'⟩ := ih { t with render := d } fun e hidle => ht e ((hwork e).1.symm.trans hidle)
      exact ⟨d', hd'⟩
  exact hfold _ s h

/-! ### Yield requests (R99) -/

/-- The renditions less urgent than one that engines in RUNNING hold, their yield requests clear (R99). -/
theorem State.mem_yieldCandidates {s : State} {u r : RendRef} : r ∈ s.yieldCandidates u ↔
    ∃ e, (s.engine e).state = .running ∧ (s.engine e).yieldRequest = false ∧ (s.engine e).rendition = some r
      ∧ s.moreUrgent u r = true := by
  unfold State.yieldCandidates
  simp only [List.mem_filterMap, List.mem_filter, Option.filter_eq_some_iff, Bool.and_eq_true, decide_eq_true_eq,
    Bool.not_eq_true']
  constructor
  · rintro ⟨e, ⟨-, hrun, hclear⟩, hheld, hmore⟩
    exact ⟨e, hrun, hclear, hheld, hmore⟩
  · rintro ⟨e, hrun, hclear, hheld, hmore⟩
    exact ⟨e, ⟨State.mem_engineIds e, hrun, hclear⟩, hheld, hmore⟩

/-- A ready rendition asks the engine that holds the least urgent of those below it (R99). -/
theorem State.requestYield_asks {s : State} {u r : RendRef} {it : Item} {e : EngineId} (hit : s.item? u.slot = some it)
    (hkey : it.key ≠ .none) (hbusy : ∀ e, (s.engine e).state ≠ .idle) (hqueue : u ∈ s.render.queue)
    (hready : s.ready u = true) (hrun : (s.engine e).state = .running) (hclear : (s.engine e).yieldRequest = false)
    (hheld : ∀ e', (s.engine e').rendition = some r ↔ e' = e) (hmore : s.moreUrgent u r = true)
    (hleast : ∀ x ∈ s.yieldCandidates u, x ≠ r → s.moreUrgent x r = true ∧ s.moreUrgent r x = false) :
    s.requestYield u = s.setEngine e { s.engine e with yieldRequest := true } := by
  have hmem : r ∈ s.yieldCandidates u := State.mem_yieldCandidates.2 ⟨e, hrun, hclear, (hheld e).2 rfl, hmore⟩
  unfold State.requestYield
  rw [hit]
  dsimp only
  rw [if_pos ⟨hkey, State.idleEngine?_none hbusy, hqueue, hready⟩, sortUrgent_last hmem hleast]
  dsimp only
  rw [State.engineOf?_of_unique hheld]

/-- A rendition without a position key, or with none less urgent in an engine's hands, asks no engine (R99). -/
theorem State.requestYield_asks_none {s : State} {u : RendRef} {it : Item} (hit : s.item? u.slot = some it)
    (h : it.key = .none ∨ s.yieldCandidates u = []) : s.requestYield u = s := by
  unfold State.requestYield
  rw [hit]
  dsimp only
  rcases h with h | h
  · rw [if_neg fun c => c.1 h]
  · rw [h]
    split <;> rfl

end Sys2Proof.Machine
end

section
/-! The line writer (O20): a line at its place in its strip, a strip sealed, the fill lines of an entry, and one burst. -/

namespace Sys2Proof.Machine

/-! ### One line written (R41, R166, R169) -/

/-- The running check after a line: begun anew at line 0 of a strip (R170). -/
def State.lineCheck (s : State) (cam : Camera) (n : Nat) (px : List Byte) : Word :=
  checkRun (if n % 32 = 0 then checkInit else (s.channel cam).runningCheck.getD checkInit) px

/-- A line at its place in its strip, before any seal (R166, R169). -/
def State.lineWritten (s : State) (cam : Camera) (c : ChainStrip) (n : Nat) (px : List Byte) : State :=
  (s.writeBytes (s.stripAddress c.strip (n % 32 * s.lineWidth)) px).modifyChannel cam fun ch =>
    { ch with lastLine := some px, runningCheck := some (s.lineCheck cam n px) }

/-- A line completes its strip: the 32nd, or the last of a COMPLETE side (R41). -/
def Side.completesStrip (x : Side) (n : Nat) : Prop := n % 32 = 31 ∨ (x.capture = .complete ∧ n + 1 = x.lines)

/-- A line that completes no strip is written, and nothing more (R169). -/
theorem State.writeLine_of_open {s : State} {k : Slot} {cam : Camera} {it : Item} {c : ChainStrip} {n : Nat}
    (h : s.item? k = some it) (hc : (it.side cam).chain[n / 32]? = some c) (hopen : ¬ (it.side cam).completesStrip n)
    (px : List Byte) : s.writeLine k cam n px = s.lineWritten cam c n px := by
  unfold State.writeLine
  rw [h]
  dsimp only [Config.stripLines]
  rw [hc]
  exact if_neg hopen

/-- The line that completes its strip seals it (R41). -/
theorem State.writeLine_of_full {s : State} {k : Slot} {cam : Camera} {it : Item} {c : ChainStrip} {n : Nat}
    (h : s.item? k = some it) (hc : (it.side cam).chain[n / 32]? = some c) (hfull : (it.side cam).completesStrip n)
    (px : List Byte) : s.writeLine k cam n px = (s.lineWritten cam c n px).sealNext k cam := by
  unfold State.writeLine
  rw [h]
  dsimp only [Config.stripLines]
  rw [hc]
  exact if_pos hfull

/-- The seal of a side's next unsealed strip: its check word, and the count (R41, R170). -/
theorem State.sealNext_eq {s : State} {k : Slot} {cam : Camera} {it : Item} {c : ChainStrip} (h : s.item? k = some it)
    (hc : (it.side cam).chain[(it.side cam).sealedCount]? = some c) :
    s.sealNext k cam = (s.withChecks (checksSet s.frameMemory.checks c.strip
      (checkComplete ((s.channel cam).runningCheck.getD checkInit)))).modifySide k cam Side.sealed := by
  unfold State.sealNext
  rw [h]
  dsimp only
  rw [hc]
  rfl

/-- A camera's FIFO with other entries, as its head has been written whole or in part. -/
def State.withFifo (s : State) (cam : Camera) (l : List FifoEntry) : State :=
  s.modifyChannel cam fun c => { c with fifo := l }

theorem exec_lineWrite (s : State) (cam : Camera) : exec (.lineWrite cam) s = .next (s.lineWrite cam).chooseFrame := rfl

/-- LINE_WRITE writes the entry at the head, which leaves the FIFO (R169). -/
theorem State.lineWrite_of_head {s : State} {cam : Camera} {f : FifoEntry} {later : List FifoEntry}
    (h : (s.channel cam).fifo = f :: later) :
    s.lineWrite cam = ((s.writeEntry f).withFifo cam later).wake s := by
  unfold State.lineWrite
  rw [h]
  rfl

/-! ### A strip sealed (R41, R91) -/

/-- A line written that completed its strip, the strip sealed and the entry off the FIFO, before renditions are woken. -/
def State.lineSealed (s : State) (k : Slot) (cam : Camera) (c c' : ChainStrip) (n : Nat) (px : List Byte)
    (later : List FifoEntry) : State :=
  (((s.lineWritten cam c n px).withChecks (checksSet s.frameMemory.checks c'.strip
    (checkComplete (s.lineCheck cam n px)))).modifySide k cam Side.sealed).withFifo cam later

theorem State.writeEntry_sealed {s : State} {k : Slot} {cam : Camera} {it : Item} {c c' : ChainStrip} {n : Nat}
    (h : s.item? k = some it) (hc : (it.side cam).chain[n / 32]? = some c) (hfull : (it.side cam).completesStrip n)
    (hc' : (it.side cam).chain[(it.side cam).sealedCount]? = some c') (px : List Byte) (later : List FifoEntry) :
    (s.writeEntry (lineEntry k cam n 0 px)).withFifo cam later = s.lineSealed k cam c c' n px later := by
  have hcheck : ((s.lineWritten cam c n px).channel cam).runningCheck.getD checkInit = s.lineCheck cam n px := by
    unfold State.lineWritten
    rw [State.channel_modifyChannel]
    rfl
  have hseal := State.sealNext_eq (s := s.lineWritten cam c n px) h hc'
  rw [hcheck] at hseal
  change (s.writeLine k cam n px).withFifo cam later = _
  rw [State.writeLine_of_full h hc hfull, hseal]
  rfl

/-- The parts of the state a seal leaves to the line that brought it. -/
theorem State.capture_lineSealed (s : State) (k : Slot) (cam : Camera) (c c' : ChainStrip) (n : Nat) (px : List Byte)
    (later : List FifoEntry) : (s.lineSealed k cam c c' n px later).capture
      = (s.modifyChannel cam fun ch =>
          { ch with fifo := later, lastLine := some px, runningCheck := some (s.lineCheck cam n px) }).capture := by
  cases cam <;> rfl

theorem State.item?_lineSealed {s : State} {k : Slot} {it : Item} (h : s.item? k = some it) (cam : Camera)
    (c c' : ChainStrip) (n : Nat) (px : List Byte) (later : List FifoEntry) :
    (s.lineSealed k cam c c' n px later).item? k = some (it.modifySide cam Side.sealed) :=
  State.item?_modifySide (s := (s.lineWritten cam c n px).withChecks _) h cam Side.sealed

/-- The renditions are no part of a side. -/
theorem Item.rendition?_setSide (it : Item) (cam : Camera) (x : Side) (i : Nat) :
    (it.setSide cam x).rendition? i = it.rendition? i := by
  cases cam <;> rfl

/-- What the urgency order is measured by is no part of a side (R88). -/
theorem Item.key_setSide (it : Item) (cam : Camera) (x : Side) : (it.setSide cam x).key = it.key
    ∧ (it.setSide cam x).rerenderOrder = it.rerenderOrder ∧ (it.setSide cam x).sequence = it.sequence := by
  cases cam <;> exact ⟨rfl, rfl, rfl⟩

/-- A seal keeps the urgency order (R88). -/
theorem State.moreUrgent_lineSealed (s : State) (k : Slot) (cam : Camera) (c c' : ChainStrip) (n : Nat) (px : List Byte)
    (later : List FifoEntry) : (s.lineSealed k cam c c' n px later).moreUrgent = s.moreUrgent := by
  have hreference : (s.lineSealed k cam c c' n px later).reference = s.reference := by cases cam <;> rfl
  exact (State.moreUrgent_congr (s := s.modifySide k cam Side.sealed) (t := s.lineSealed k cam c c' n px later) rfl
    hreference).trans
    (State.moreUrgent_modifyItem fun x => ⟨x.slot_setSide cam _, x.key_setSide cam _⟩)

/-- The strip a rendition waited for is there once it is sealed (R90, R91). -/
theorem State.Consumes.sealed {s : State} {u : RendRef} {it : Item} {q : Rendition} {cam : Camera}
    (h : s.Consumes u it q ((it.side cam).sealedCount + 1)) (hside : q.descriptor.side = cam) (c c' : ChainStrip) (n : Nat)
    (px : List Byte) (later : List FifoEntry) :
    (s.lineSealed u.slot cam c c' n px later).Consumes u (it.modifySide cam Side.sealed) q
      ((it.modifySide cam Side.sealed).side q.descriptor.side).sealedCount := by
  subst hside
  have hitem := State.item?_lineSealed h.item q.descriptor.side c c' n px later
  have hsealed : (it.modifySide q.descriptor.side Side.sealed).side q.descriptor.side
      = (it.side q.descriptor.side).sealed := Item.side_setSide _ _ _
  exact
    { item := hitem
      record := by
        have hq := h.record
        unfold State.rendition? at hq ⊢
        rw [h.item] at hq
        rw [hitem]
        exact (it.rendition?_setSide _ _ _).trans hq
      going := h.going
      capture := by rw [hsealed]; exact h.capture
      strip := by rw [hsealed]; exact h.strip
      lines := by rw [hsealed]; exact h.lines }

/-- Before the seal it was not ready (R91). -/
theorem State.Consumes.unready {s : State} {u : RendRef} {it : Item} {q : Rendition} {n : Nat} (h : s.Consumes u it q n)
    (hnext : (State.startContext q).nextStrip = (it.side q.descriptor.side).sealedCount) : s.ready u = false := by
  rw [h.ready_eq, hnext]
  exact decide_eq_false (Nat.lt_irrefl _)

end Sys2Proof.Machine
end

section
/-! LINE_WRITE (O20): the rendition that waited for the sealed strip, the fill lines of an entry, one burst, and the
statement. -/

namespace Sys2Proof.Machine

/-! ### The rendition that waited for the strip (R91, R92, R99) -/

/-- The one rendition of the queue becomes ready between two states (R91). -/
structure State.Wakes (s t : State) (u : RendRef) (it : Item) (q : Rendition) : Prop where
  queue : t.render.queue = [u]
  ready : t.Consumes u it q (it.side q.descriptor.side).sealedCount
  before : s.ready u = false

theorem State.Wakes.ready_true {s t : State} {u : RendRef} {it : Item} {q : Rendition} (h : s.Wakes t u it q) :
    t.ready u = true := by
  rw [h.ready.ready_eq]
  exact decide_eq_true h.ready.strip

/-- The lowest IDLE engine takes it (R92). -/
theorem State.Wakes.taken {s t : State} {u : RendRef} {it : Item} {q : Rendition} {e : EngineId} (h : s.Wakes t u it q)
    (he : t.idleEngine? = some e) : t.wake s = t.rendTaken e u q :=
  (State.wake_of_single h.queue h.ready_true h.before).trans (h.ready.offerReady h.queue he)

/-- With none IDLE it only asks for a yield (R99). -/
theorem State.Wakes.asks {s t : State} {u : RendRef} {it : Item} {q : Rendition} (h : s.Wakes t u it q)
    (hbusy : ∀ e, (t.engine e).state ≠ .idle) : t.wake s = t.requestYield u :=
  (State.wake_of_single h.queue h.ready_true h.before).trans (State.offerReady_of_busy hbusy u)

/-- Waking it changes entries and engines only: the channels and frame memory stay (R92, R99). -/
theorem State.wake_shape {s t : State} (h : t.render.queue = [] ∨ (∀ e, (t.engine e).state ≠ .idle)
    ∨ ∃ u it q, s.Wakes t u it q) :
    ∃ (l : List Item) (d : Render), t.wake s = { t with table := { t.table with items := l }, render := d } := by
  rcases h with hnil | h
  · exact ⟨t.table.items, t.render, State.wake_of_nil s hnil⟩
  · by_cases hbusy : ∀ e, (t.engine e).state ≠ .idle
    · obtain ⟨d, hd⟩ := State.wake_of_busy hbusy s
      exact ⟨t.table.items, d, hd⟩
    · obtain ⟨u, it, q, hwakes⟩ := h.resolve_left hbusy
      cases he : t.idleEngine? with
      | none => exact absurd (fun e hidle => by simpa [hidle] using List.find?_eq_none.1 he e (State.mem_engineIds e)) hbusy
      | some e => exact ⟨_, _, hwakes.taken he⟩

/-- A seal wakes the rendition that waited for its strip (R91). -/
theorem State.Consumes.wakes {s : State} {u : RendRef} {it : Item} {q : Rendition} {cam : Camera}
    (h : s.Consumes u it q ((it.side cam).sealedCount + 1)) (hqueue : s.render.queue = [u])
    (hside : q.descriptor.side = cam) (hnext : (State.startContext q).nextStrip = (it.side cam).sealedCount)
    (c c' : ChainStrip) (n : Nat) (px : List Byte) (later : List FifoEntry) :
    s.Wakes (s.lineSealed u.slot cam c c' n px later) u (it.modifySide cam Side.sealed) q where
  queue := hqueue
  ready := h.sealed hside c c' n px later
  before := h.unready (by rw [hside]; exact hnext)

/-- The engine that is asked: it holds the least urgent rendition of those below the one woken (R99). -/
theorem State.Wakes.asks_least {s t : State} {u r : RendRef} {it : Item} {q : Rendition} {e : EngineId}
    (h : s.Wakes t u it q) (hmore : t.moreUrgent = s.moreUrgent) (hbusy : ∀ e, (t.engine e).state ≠ .idle)
    (hkey : it.key ≠ .none) (hrun : (t.engine e).state = .running) (hclear : (t.engine e).yieldRequest = false)
    (hheld : ∀ e', (t.engine e').rendition = some r ↔ e' = e) (hbelow : s.moreUrgent u r = true)
    (hleast : ∀ e' r', e' ≠ e → (t.engine e').state = .running → (t.engine e').yieldRequest = false →
      (t.engine e').rendition = some r' → s.moreUrgent u r' = true →
      s.moreUrgent r' r = true ∧ s.moreUrgent r r' = false) :
    t.wake s = t.setEngine e { t.engine e with yieldRequest := true } := by
  have hqueue : u ∈ t.render.queue := by rw [h.queue]; exact List.mem_singleton_self u
  refine (h.asks hbusy).trans (State.requestYield_asks h.ready.item hkey hbusy hqueue h.ready_true hrun hclear hheld
    (by rw [hmore]; exact hbelow) fun x hx hne => ?_)
  obtain ⟨e', hrun', hclear', hheld', hbelow'⟩ := State.mem_yieldCandidates.1 hx
  have hother : e' ≠ e := fun heq => hne (Option.some.inj (hheld'.symm.trans ((hheld e').2 heq)))
  rw [hmore] at hbelow' ⊢
  exact hleast e' x hother hrun' hclear' hheld' hbelow'

/-- No engine is asked for a rendition without a position key, or with none less urgent in hand (R99). -/
theorem State.Wakes.asks_none {s t : State} {u : RendRef} {it : Item} {q : Rendition} (h : s.Wakes t u it q)
    (hmore : t.moreUrgent = s.moreUrgent) (hbusy : ∀ e, (t.engine e).state ≠ .idle)
    (hnone : it.key = .none ∨ ∀ e r, (t.engine e).state = .running → (t.engine e).yieldRequest = false →
      (t.engine e).rendition = some r → s.moreUrgent u r = false) : t.wake s = t := by
  refine (h.asks hbusy).trans (State.requestYield_asks_none h.ready.item (hnone.imp_right fun hbelow => ?_))
  refine List.eq_nil_iff_forall_not_mem.2 fun r hr => ?_
  obtain ⟨e, hrun, hclear, hheld, hmoreUrgent⟩ := State.mem_yieldCandidates.1 hr
  rw [hmore, hbelow e r hrun hclear hheld] at hmoreUrgent
  cases hmoreUrgent

/-! ### Fill lines (R169) -/

/-- Copies of a line written in turn to consecutive rows of a strip. -/
def State.fillMemory (s : State) (strip row : Nat) (last : List Byte) (count : Nat) : Memory :=
  (List.range count).foldl
    (fun mem i => Memory.writeBytes mem (s.stripAddress strip ((row + i) * s.lineWidth)) last) s.mem

/-- Lines written to a strip that none of them completes: the last line and the memory so far, the rest of what the line
writer looks at as it was. -/
structure State.Writing (s t : State) (cam : Camera) (last : List Byte) (mem : Memory) : Prop where
  table : t.table = s.table
  frameMemory : t.frameMemory = s.frameMemory
  render : t.render = s.render
  mgmt : t.mgmt = s.mgmt
  fifo : (t.channel cam).fifo = (s.channel cam).fifo
  lastLine : (t.channel cam).lastLine = some last
  mem : t.mem = mem

/-- A line goes to its row, and becomes the last line (R166, R169). -/
theorem State.Writing.line {s t : State} {k : Slot} {cam : Camera} {it : Item} {c : ChainStrip} {n : Nat}
    {last : List Byte} {mem : Memory} (h : s.Writing t cam last mem) (hit : s.item? k = some it)
    (hc : (it.side cam).chain[n / 32]? = some c) (hopen : ¬ (it.side cam).completesStrip n) (px : List Byte) :
    s.Writing (t.writeLine k cam n px) cam px
      (Memory.writeBytes mem (s.stripAddress c.strip (n % 32 * s.lineWidth)) px) := by
  rw [State.writeLine_of_open ((State.item?_congr h.table k).trans hit) hc hopen]
  have hchannel : (t.lineWritten cam c n px).channel cam
      = { t.channel cam with lastLine := some px, runningCheck := some (t.lineCheck cam n px) } :=
    State.channel_modifyChannel _ cam _
  have hplace : t.stripAddress c.strip (n % 32 * t.lineWidth) = s.stripAddress c.strip (n % 32 * s.lineWidth) := by
    unfold State.stripAddress State.lineWidth
    rw [h.frameMemory, h.mgmt]
  refine ⟨h.table, h.frameMemory, h.render, h.mgmt, ?_, ?_, ?_⟩
  · rw [hchannel]
    exact h.fifo
  · rw [hchannel]
  · rw [← hplace, ← h.mem]
    rfl

theorem writeFills_succ (j : Nat) : ∀ (s : State) (k : Slot) (cam : Camera) (n : Nat),
    writeFills (j + 1) s k cam n = (writeFills j s k cam n).writeFill k cam (n + j) := by
  induction j with
  | zero => exact fun s k cam n => rfl
  | succ j ih =>
    intro s k cam n
    change writeFills (j + 1) (s.writeFill k cam n) k cam (n + 1) = _
    rw [ih, show n + 1 + j = n + (j + 1) by omega]
    rfl

/-- A line short of the last row of its strip, on a side that is not COMPLETE, completes no strip (R41). -/
theorem Side.not_completesStrip {x : Side} {n : Nat} (hopen : x.capture ≠ .complete) (hrow : n % 32 < 31) :
    ¬ x.completesStrip n := fun h => h.elim (fun e => by omega) fun e => hopen e.1

/-- The fill lines of an entry are copies of the last line, in the rows after one another (R169). -/
theorem writeFills_writing {s : State} {k : Slot} {cam : Camera} {it : Item} {c : ChainStrip} {n : Nat} {last : List Byte}
    (hit : s.item? k = some it) (hc : (it.side cam).chain[n / 32]? = some c) (hlast : (s.channel cam).lastLine = some last)
    (hopen : (it.side cam).capture ≠ .complete) : ∀ j, n % 32 + j ≤ 31 →
      s.Writing (writeFills j s k cam n) cam last (s.fillMemory c.strip (n % 32) last j) := by
  intro j
  induction j with
  | zero => exact fun _ => ⟨rfl, rfl, rfl, rfl, rfl, hlast, rfl⟩
  | succ j ih =>
    intro hj
    have hw := ih (by omega)
    have hrow : (n + j) % 32 = n % 32 + j := by omega
    have hline := hw.line hit (n := n + j) (by rw [show (n + j) / 32 = n / 32 by omega]; exact hc)
      (Side.not_completesStrip hopen (by omega)) last
    rw [hrow] at hline
    rw [writeFills_succ]
    unfold State.writeFill State.fillMemory
    rw [hw.lastLine, List.range_succ, List.foldl_append]
    exact hline

/-- The head of the FIFO written, and off it or cut: nothing waits in the render queue to be woken. -/
theorem State.Writing.ended {s t : State} {cam : Camera} {last : List Byte} {mem : Memory} (h : s.Writing t cam last mem)
    (hr : s.render.queue = []) (l : List FifoEntry) :
    (((t.withFifo cam l).wake s).chooseFrame.channel cam).fifo = l
      ∧ (((t.withFifo cam l).wake s).chooseFrame.channel cam).lastLine = some last
      ∧ ((t.withFifo cam l).wake s).chooseFrame.frameMemory = s.frameMemory
      ∧ ((t.withFifo cam l).wake s).chooseFrame.mem = mem := by
  have hchannel : ((t.withFifo cam l).chooseFrame.channel cam) = { t.channel cam with fifo := l } := by
    unfold State.channel
    rw [State.chooseFrame_capture]
    exact State.channel_modifyChannel t cam _
  rw [State.wake_of_nil (s := t.withFifo cam l) s ((congrArg Render.queue h.render).trans hr), hchannel,
    State.chooseFrame_frameMemory, State.chooseFrame_mem]
  exact ⟨rfl, h.lastLine, h.frameMemory, h.mem⟩

/-! ### One burst (R172, R173) -/

/-- The line writer of a camera, waiting alone, is granted (R173). -/
theorem State.grant_lineWriter {s : State} {cam : Camera} (h : (s.channel cam).fifo ≠ []) :
    s.grant [.lineWriter cam] = some (.lineWriter cam) := by
  have hwaits : s.canWait (.lineWriter cam) = true := by
    unfold State.canWait
    simpa using h
  unfold State.grant State.grantOrder
  cases cam with
  | front => exact List.find?_cons_of_pos (by simp [hwaits])
  | rear =>
    refine (List.find?_cons_of_neg (by simp)).trans ?_
    exact List.find?_cons_of_pos (by simp [hwaits])

/-- A granted burst of the line writer writes the next line of the entry at the head, which keeps the rest (R172). -/
theorem exec_burstEnd_lineWriter {s : State} {cam : Camera} {f : FifoEntry} {later : List FifoEntry}
    (h : (s.channel cam).fifo = f :: later) : exec (.burstEnd [.lineWriter cam]) s
      = .next (((s.writeNext f).withFifo cam (f.afterNext.toList ++ later)).wake s).chooseFrame := by
  have hburst : s.burst [.lineWriter cam] = s.lineBurst cam := by
    unfold State.burst
    rw [State.grant_lineWriter (by rw [h]; exact List.cons_ne_nil _ _)]
    rfl
  have hline : s.lineBurst cam = ((s.writeNext f).withFifo cam (f.afterNext.toList ++ later)).wake s := by
    unfold State.lineBurst
    rw [h]
    rfl
  exact congrArg (fun t : State => Host.Outcome.next t.chooseFrame) (hburst.trans hline)

/-- An entry with fill lines still has its own line after the first of them. -/
theorem FifoEntry.afterNext_fill (k : Slot) (cam : Camera) (n m : Nat) (px : List Byte) :
    (lineEntry k cam n (m + 1) px).afterNext = some (lineEntry k cam (n + 1) m px) := by
  cases m <;> rfl

/-! ### LINE_WRITE -/

/-- A camera's line writer writes the fill lines of an entry, then its own line (R169). -/
theorem State.writeEntry_lineEntry (s : State) (k : Slot) (cam : Camera) (n m : Nat) (px : List Byte) :
    s.writeEntry (lineEntry k cam n m px) = (writeFills m s k cam n).writeLine k cam (n + m) px := rfl

/-- A line that completes no strip, by the end of the command (R169). -/
theorem exec_lineWrite_of_open {s : State} {k : Slot} {cam : Camera} {it : Item} {c : ChainStrip} {n : Nat} {px : List Byte}
    {later : List FifoEntry} (hf : (s.channel cam).fifo = lineEntry k cam n 0 px :: later) (hit : s.item? k = some it)
    (hc : (it.side cam).chain[n / 32]? = some c) (hopen : ¬ (it.side cam).completesStrip n) (hr : s.render.queue = []) :
    exec (.lineWrite cam) s = .next ((s.lineWritten cam c n px).withFifo cam later).chooseFrame := by
  have hentry : s.writeEntry (lineEntry k cam n 0 px) = s.lineWritten cam c n px :=
    (s.writeEntry_lineEntry k cam n 0 px).trans (State.writeLine_of_open hit hc hopen px)
  rw [exec_lineWrite, State.lineWrite_of_head hf, hentry,
    State.wake_of_nil (s := (s.lineWritten cam c n px).withFifo cam later) s hr]

/-- A line that completes its strip, by the end of the command (R41, R91). -/
theorem exec_lineWrite_of_full {s : State} {k : Slot} {cam : Camera} {it : Item} {c c' : ChainStrip} {n : Nat}
    {px : List Byte} {later : List FifoEntry} (hf : (s.channel cam).fifo = lineEntry k cam n 0 px :: later)
    (hit : s.item? k = some it) (hc : (it.side cam).chain[n / 32]? = some c) (hfull : (it.side cam).completesStrip n)
    (hc' : (it.side cam).chain[(it.side cam).sealedCount]? = some c') :
    exec (.lineWrite cam) s = .next ((s.lineSealed k cam c c' n px later).wake s).chooseFrame := by
  rw [exec_lineWrite, State.lineWrite_of_head hf, State.writeEntry_sealed hit hc hfull hc']

/-- An entry with fill lines written whole, by the end of the command (R169). -/
theorem exec_lineWrite_of_fills {s : State} {k : Slot} {cam : Camera} {n m : Nat} {px : List Byte} {later : List FifoEntry}
    (hf : (s.channel cam).fifo = lineEntry k cam n m px :: later) : exec (.lineWrite cam) s
      = .next ((((writeFills m s k cam n).writeLine k cam (n + m) px).withFifo cam later).wake s).chooseFrame := by
  rw [exec_lineWrite, State.lineWrite_of_head hf, State.writeEntry_lineEntry]

/-- The first fill line of such an entry, by the end of its burst (R172). -/
theorem exec_burstEnd_of_fills {s : State} {k : Slot} {cam : Camera} {n m : Nat} {px : List Byte} {later : List FifoEntry}
    (hf : (s.channel cam).fifo = lineEntry k cam n (m + 1) px :: later) : exec (.burstEnd [.lineWriter cam]) s
      = .next (((writeFills 1 s k cam n).withFifo cam (lineEntry k cam (n + 1) m px :: later)).wake s).chooseFrame := by
  rw [exec_burstEnd_lineWriter hf, FifoEntry.afterNext_fill]
  rfl

/-- Settles O20: an empty FIFO, a line in its strip, a strip sealed and what it wakes, an entry's fill lines, one burst. -/
theorem lineIsWritten : Obligations.LineIsWritten := by
  unfold Obligations.LineIsWritten
  refine fun s cam => ⟨fun hnil => ?_, fun k n px later it c hf hit hc => ?_,
    fun k n m px last later it c hf hit hc hlast hopen hr => ?_⟩
  · rw [exec_lineWrite]
    unfold State.lineWrite
    rw [hnil]
  · refine ⟨fun hrow hend hr => ?_, fun c' hfull hc' hwait => ?_⟩
    · have hopen : ¬ (it.side cam).completesStrip n := fun h => h.elim hrow fun e => hend e.1 e.2
      rw [exec_lineWrite_of_open hf hit hc hopen hr]
      cases cam <;> rfl
    · have hexec := exec_lineWrite_of_full hf hit hc hfull hc'
      have hmore := s.moreUrgent_lineSealed k cam c c' n px later
      obtain ⟨l, d, hshape⟩ := State.wake_shape (s := s) (t := s.lineSealed k cam c c' n px later)
        (hwait.imp_right (Or.imp_right fun ⟨u, qu, hqueue, hslot, hside, hnext, hcons⟩ =>
          ⟨u, _, qu, hslot ▸ hcons.wakes hqueue hside hnext c c' n px later⟩))
      refine ⟨_, hexec, ?_, by rw [hshape]; rfl, by rw [hshape]; rfl, ?_, fun x hx => ?_, fun hr => ?_,
        fun u qu hqueue hslot hside hnext hcons => ?_⟩
      · rw [hshape]
        exact s.capture_lineSealed k cam c c' n px later
      · rw [hshape]
        exact (checkWord?_checksSet _ _ _ _).trans (if_pos rfl)
      · rw [hshape]
        exact (checkWord?_checksSet _ _ _ _).trans (if_neg hx)
      · rw [State.wake_of_nil (s := s.lineSealed k cam c c' n px later) s hr]
        exact State.item?_lineSealed hit cam c c' n px later
      · have hwakes : s.Wakes (s.lineSealed k cam c c' n px later) u (it.modifySide cam Side.sealed) qu :=
          hslot ▸ hcons.wakes hqueue hside hnext c c' n px later
        have hkey : (it.modifySide cam Side.sealed).key = it.key := (it.key_setSide cam _).1
        refine ⟨fun e he => ?_, fun e r pos hbusy hpos hrun hclear hheld hbelow hleast => ?_, fun hbusy hnone => ?_⟩
        · rw [hwakes.taken he]
          exact ⟨State.queue_rendTaken hqueue e qu, State.engine_rendTaken (s.lineSealed k cam c c' n px later) e u qu⟩
        · have hposition : (it.modifySide cam Side.sealed).key ≠ .none := by
            rw [hkey, hpos]
            exact fun e => Key.noConfusion e
          rw [hwakes.asks_least hmore hbusy hposition hrun hclear hheld hbelow hleast]
          refine ⟨?_, State.engine_setEngine _ e _, fun e' hne => State.engine_setEngine_of_ne _ _ hne⟩
          cases e <;> exact hqueue
        · rw [hwakes.asks_none hmore hbusy (by rw [hkey]; exact hnone)]
          exact ⟨hqueue, fun _ => rfl⟩
  · refine ⟨fun hrow => ?_, fun hrow => ?_⟩
    · have hfills := writeFills_writing hit hc hlast hopen (m + 1) (by omega)
      have hline := hfills.line hit (n := n + (m + 1)) (by rw [show (n + (m + 1)) / 32 = n / 32 by omega]; exact hc)
        (Side.not_completesStrip hopen (by omega)) px
      rw [show (n + (m + 1)) % 32 = n % 32 + m + 1 by omega] at hline
      exact ⟨_, exec_lineWrite_of_fills hf, hline.ended hr later⟩
    · have hfill := writeFills_writing hit hc hlast hopen 1 (by omega)
      exact ⟨_, exec_burstEnd_of_fills hf, hfill.ended hr _⟩

end Sys2Proof.Machine
end

section
/-! What a set's image decides of a code line and of the flags held (O28): the rule that routes, and the verdict. -/

namespace Sys2Proof.Machine

/-! ### The routing rules (R56) -/

/-- The lowest-numbered enabled rule that matches gives its profile. -/
theorem routedProfile_of_first {img : Image} {c : CodeLine} {e : Nat} (he : e < 64) (hon : img.ruleEnabled e = true)
    (hmatch : ruleMatches img e c = true)
    (hbefore : ∀ k < e, img.ruleEnabled k = false ∨ ruleMatches img k c = false) :
    routedProfile img c = img.ruleProfile e := by
  have hfind : ((List.range 64).find? fun k => img.ruleEnabled k && ruleMatches img k c) = some e := by
    refine List.find?_range_eq_some.2 ⟨by rw [hon, hmatch]; rfl, List.mem_range.2 he, fun k hk => ?_⟩
    rcases hbefore k hk with h | h <;> simp [h]
  unfold routedProfile
  rw [hfind]

/-- Where no enabled rule matches, the set's default profile is taken. -/
theorem routedProfile_of_none {img : Image} {c : CodeLine}
    (h : ∀ e < 64, img.ruleEnabled e = false ∨ ruleMatches img e c = false) :
    routedProfile img c = img.defaultProfile := by
  have hfind : ((List.range 64).find? fun k => img.ruleEnabled k && ruleMatches img k c) = none := by
    refine List.find?_range_eq_none.2 fun k hk => ?_
    rcases h k hk with h | h <;> simp [h]
  unfold routedProfile
  rw [hfind]

/-! ### The verdict (R129) -/

/-- The action of a policy flag stands at its place in the advice policy. -/
theorem actionCode_of_policyFlag (img : Image) (p : Nat) {i : Nat} {flag : QualityFlag}
    (h : policyFlags[i]? = some flag) : actionCode img p flag = img.policyCode p i := by
  have hnodup : policyFlags.Nodup := by decide
  obtain ⟨hi, hget⟩ := List.getElem?_eq_some_iff.1 h
  have hplace : policyFlags.idxOf? flag = some i :=
    List.idxOf?_eq_some_iff.2 ⟨hi, hget, fun j hj hsame =>
      Nat.ne_of_lt hj (hnodup.getElem_inj_iff.1 (hsame.trans hget.symm))⟩
  unfold actionCode
  rw [hplace]

/-- MEMCHECK has no place there, and always acts as REFEED. -/
theorem actionCode_memcheck (img : Image) (p : Nat) : actionCode img p .memcheck = 2 := rfl

/-- A policy flag held acts as a code when some policy flag held has that action. -/
theorem State.actsAs_iff {img : Image} {p : Nat} {held : QualityFlags} {a : Nat} :
    State.ActsAs img p held a ↔ ∃ flag ∈ policyFlags, held.has flag = true ∧ actionCode img p flag = a := by
  constructor
  · rintro ⟨i, flag, hi, hheld, hcode⟩
    exact ⟨flag, List.mem_of_getElem? hi, hheld, (actionCode_of_policyFlag img p hi).trans hcode⟩
  · rintro ⟨flag, hmem, hheld, hcode⟩
    obtain ⟨i, hi⟩ := List.getElem?_of_mem hmem
    exact ⟨i, flag, hi, hheld, (actionCode_of_policyFlag img p hi).symm.trans hcode⟩

/-- The actions of the flags held: those of the policy flags, and REFEED for MEMCHECK. -/
theorem any_actionCode_iff {img : Image} {p : Nat} {held : QualityFlags} {a : Nat} :
    ((allFlags.filter held.has).map (actionCode img p)).any (· == a) = true
      ↔ State.ActsAs img p held a ∨ (held.memcheck = true ∧ a = 2) := by
  rw [State.actsAs_iff, List.any_map, List.any_filter, allFlags, List.any_append, Bool.or_eq_true]
  refine or_congr ?_ ?_
  · simp only [List.any_eq_true, Function.comp_apply, Bool.and_eq_true, beq_iff_eq]
  · simp only [List.any_cons, List.any_nil, Bool.or_false, Function.comp_apply, actionCode_memcheck, Bool.and_eq_true,
      beq_iff_eq]
    exact and_congr Iff.rfl eq_comm

/-- The strongest action of the flags held decides. -/
theorem verdictOf_spec (img : Image) (p : Nat) (held : QualityFlags) :
    (verdictOf img p held = .refeed ↔ held.memcheck = true ∨ State.ActsAs img p held 2)
      ∧ (verdictOf img p held = .flagged
          ↔ held.memcheck = false ∧ ¬ State.ActsAs img p held 2 ∧ State.ActsAs img p held 1)
      ∧ (verdictOf img p held = .accept
          ↔ held.memcheck = false ∧ ¬ State.ActsAs img p held 2 ∧ ¬ State.ActsAs img p held 1) := by
  have hrefeed := any_actionCode_iff (img := img) (p := p) (held := held) (a := 2)
  have hflag := any_actionCode_iff (img := img) (p := p) (held := held) (a := 1)
  unfold verdictOf
  dsimp only
  split
  · rename_i h2
    have hacts := hrefeed.1 h2
    grind
  · rename_i h2
    have hquiet := fun h => h2 (hrefeed.2 h)
    split
    · rename_i h1
      have hacts := hflag.1 h1
      grind
    · rename_i h1
      have hsilent := fun h => h1 (hflag.2 h)
      grind

/-- Settles O28: the first enabled rule that matches or the default profile, and the strongest action of the flags held. -/
theorem firstRuleRoutes : Obligations.FirstRuleRoutes := by
  unfold Obligations.FirstRuleRoutes
  exact ⟨fun img c => ⟨fun e he hon hmatch hbefore => routedProfile_of_first he hon hmatch hbefore,
    fun h => routedProfile_of_none h⟩, verdictOf_spec⟩

end Sys2Proof.Machine
end

section
/-! CODE frames that are discarded: malformed (O24), of an unknown tag (O25), for an item that holds a code line already
(O26). -/

namespace Sys2Proof.Machine

/-- A CODE received while the track link is UP. -/
theorem exec_code {s : State} (hup : s.links.track.up = true) (tag : Half) (b : CodeBlock) :
    exec (.code tag b) s = .next (s.codeFrame tag b).chooseFrame :=
  congrArg Host.Outcome.next (State.receive_up (k := .track) hup _)

/-! ### Code line blocks (R48) -/

/-- The symbol bytes of a block, field after field. -/
def blockSymbols (b : CodeBlock) : List Byte := b.routing ++ b.account ++ b.serial ++ b.tcode ++ b.amount

/-- What R48 asks of the fields of a block. -/
structure BlockFits (b : CodeBlock) : Prop where
  routing : b.status ≠ 2 → b.routing.length = 9
  empty : b.status = 2 → blockSymbols b = []
  account : b.account.length ≤ 17
  serial : b.serial.length ≤ 10
  tcode : b.tcode.length ≤ 6
  amount : b.amount.length = 0 ∨ b.amount.length = 10
  symbols : ∀ v ∈ blockSymbols b, v.toNat < 10 ∨ v = 15

/-- A field that is read holds symbols only. -/
theorem symbolsOf_valid {l : List Byte} {m : List Symbol} (h : symbolsOf l = some m) :
    ∀ v ∈ l, v.toNat < 10 ∨ v = 15 := by
  induction l generalizing m with
  | nil => exact fun v hv => nomatch hv
  | cons a l ih =>
    unfold symbolsOf at h
    rw [List.mapM_cons] at h
    obtain ⟨x, hx, h⟩ := Option.bind_eq_some_iff.1 h
    obtain ⟨r, hr, -⟩ := Option.bind_eq_some_iff.1 h
    have ha : a.toNat < 10 ∨ a = 15 := by
      by_contra hno
      obtain ⟨hdigit, hmark⟩ := not_or.1 hno
      unfold symbolOf at hx
      rw [dif_neg hdigit, if_neg hmark] at hx
      cases hx
    intro v hv
    rcases List.mem_cons.1 hv with rfl | hv
    · exact ha
    · exact ih hr v hv

/-- Only the status byte 2 stands for NONE (R202). -/
theorem readStatusOf_notFound {v : Byte} {st : ReadStatus} (h : readStatusOf v = some st) : st = .notFound ↔ v = 2 := by
  unfold readStatusOf at h
  split at h
  · cases h; subst v; decide
  · split at h
    · cases h; subst v; decide
    · split at h
      · cases h; simpa
      · cases h

/-- A block that gives a code line has a read status, counts in their ranges, and symbols in every field. -/
theorem codeLineOf_eq_some {b : CodeBlock} {c : CodeLine} (h : codeLineOf b = some c) :
    readStatusOf b.status = some c.status ∧ codeCountsFit b c.status = true
      ∧ ∀ l ∈ [b.routing, b.account, b.serial, b.tcode, b.amount], ∃ m, symbolsOf l = some m := by
  unfold codeLineOf at h
  split at h
  · cases h
  · rename_i st hst
    split at h
    · rename_i hfit
      split at h
      · rename_i r a e t m hr ha he ht hm
        cases h
        exact ⟨hst, hfit, by simp [hr, ha, he, ht, hm]⟩
      · cases h
    · cases h

/-- A block that gives a code line keeps R48. -/
theorem blockFits_of_codeLineOf {b : CodeBlock} {c : CodeLine} (h : codeLineOf b = some c) : BlockFits b := by
  obtain ⟨hstatus, hcounts, hsymbols⟩ := codeLineOf_eq_some h
  have hnone := readStatusOf_notFound hstatus
  have hvalid : ∀ v ∈ blockSymbols b, v.toNat < 10 ∨ v = 15 := fun v hv => by
    have hfield : ∃ l ∈ [b.routing, b.account, b.serial, b.tcode, b.amount], v ∈ l := by
      simpa [blockSymbols, or_assoc] using hv
    obtain ⟨l, hl, hv⟩ := hfield
    obtain ⟨m, hm⟩ := hsymbols l hl
    exact symbolsOf_valid hm v hv
  unfold codeCountsFit at hcounts
  split at hcounts
  · rename_i hc
    have hempty : b.routing = [] ∧ b.account = [] ∧ b.serial = [] ∧ b.tcode = [] ∧ b.amount = [] := by
      simpa [and_assoc] using hcounts
    obtain ⟨hr, ha, he, ht, hm⟩ := hempty
    exact ⟨fun hne => absurd (hnone.1 hc) hne, fun _ => by simp [blockSymbols, hr, ha, he, ht, hm],
      by simp [ha], by simp [he], by simp [ht], by simp [hm], hvalid⟩
  · rename_i hc
    have hranges : b.routing.length = 9 ∧ b.account.length ≤ 17 ∧ b.serial.length ≤ 10 ∧ b.tcode.length ≤ 6
        ∧ (b.amount.length = 0 ∨ b.amount.length = 10) := by
      simpa [and_assoc] using hcounts
    obtain ⟨hr, ha, he, ht, hm⟩ := hranges
    exact ⟨fun _ => hr, fun h2 => absurd (hnone.2 h2) hc, ha, he, ht, hm, hvalid⟩

/-! ### Malformed frames (R48) -/

/-- Settles O24: each way to break R48 leaves no code line, so the frame is counted as bad. -/
theorem codeMalformed : Obligations.CodeMalformed := by
  unfold Obligations.CodeMalformed
  intro s tag b hup _ hbad
  have hnone : codeLineOf b = none := by
    refine Option.eq_none_iff_forall_ne_some.2 fun c hc => ?_
    have hfits := blockFits_of_codeLineOf hc
    rcases hbad with ⟨hst, hlen⟩ | ⟨hst, hne⟩ | ha | he | ht | ⟨h0, h10⟩ | ⟨v, hv, hlarge, hmark⟩
    · exact hlen (hfits.routing hst)
    · exact hne (hfits.empty hst)
    · exact Nat.not_lt.2 hfits.account ha
    · exact Nat.not_lt.2 hfits.serial he
    · exact Nat.not_lt.2 hfits.tcode ht
    · exact hfits.amount.elim h0 h10
    · exact (hfits.symbols v hv).elim (Nat.not_lt.2 hlarge) hmark
  rw [exec_code hup]
  unfold State.codeFrame
  rw [hnone]
  rfl

/-! ### Code lines delivered (R49) -/

/-- A well-formed CODE is delivered. -/
theorem exec_code_of_wellFormed {s : State} (hup : s.links.track.up = true) (tag : Half) {b : CodeBlock} {c : CodeLine}
    (hc : codeLineOf b = some c) : exec (.code tag b) s = .next (s.deliverCode tag c).chooseFrame := by
  rw [exec_code hup]
  unfold State.codeFrame
  rw [hc]

/-- No item by the tag (R53). -/
theorem State.deliverCode_of_absent {s : State} {tag : Half} (h : s.itemByTag? tag = none) (c : CodeLine) :
    s.deliverCode tag c = s.composeEvent (.unknownTag tag c.status) := by
  unfold State.deliverCode
  rw [h]

/-- An item in CANCELLING (R53). -/
theorem State.deliverCode_of_cancelling {s : State} {tag : Half} {it : Item} (h : s.itemByTag? tag = some it)
    (hs : it.state = .cancelling) (c : CodeLine) :
    s.deliverCode tag c = s.composeEvent (.unknownTag tag c.status) := by
  unfold State.deliverCode
  rw [h]
  exact if_pos hs

/-- An UNCLASSIFIED item (R50). -/
theorem State.deliverCode_of_unclassified {s : State} {tag : Half} {it : Item} (h : s.itemByTag? tag = some it)
    (hs : it.state ≠ .cancelling) (hu : it.classification = .unclassified) (c : CodeLine) :
    s.deliverCode tag c = s.classifyByCode it c := by
  unfold State.deliverCode
  rw [h]
  exact (if_neg hs).trans (if_pos hu)

/-- A classified item: its first code line is stored late, any other is a duplicate (R51, R52). -/
theorem State.deliverCode_of_classified {s : State} {tag : Half} {it : Item} (h : s.itemByTag? tag = some it)
    (hs : it.state ≠ .cancelling) (hu : it.classification ≠ .unclassified) (c : CodeLine) :
    s.deliverCode tag c = if it.codeLine.isNone then
        s.modifyItem it.slot fun x => { x with codeLine := some c, lateCode := true }
      else s.composeEvent (.dupCode tag) := by
  unfold State.deliverCode
  rw [h]
  exact (if_neg hs).trans (if_neg hu)

/-- Settles O25: with no item or one in CANCELLING the delivery composes the EVENT and nothing else. -/
theorem codeUnknownTag : Obligations.CodeUnknownTag := by
  unfold Obligations.CodeUnknownTag
  intro s tag b c hup hroom hc hfind
  have hdeliver : s.deliverCode tag c = s.composeEvent (.unknownTag tag c.status) := by
    rcases hfind with hnone | ⟨it, hit, hs⟩
    · exact State.deliverCode_of_absent (State.itemByTag?_eq_none hnone) c
    · exact State.deliverCode_of_cancelling hit hs c
  rw [exec_code_of_wellFormed hup tag hc, hdeliver, State.composeEvent_of_room hroom]

/-- Settles O26: a classified item with a code line keeps it. -/
theorem codeDuplicate : Obligations.CodeDuplicate := by
  unfold Obligations.CodeDuplicate
  intro s tag b c old it hup hroom hc hit hs hu hold
  rw [exec_code_of_wellFormed hup tag hc, State.deliverCode_of_classified hit hs hu, hold,
    if_neg (show ¬ (some old).isNone = true from Bool.false_ne_true), State.composeEvent_of_room hroom]

end Sys2Proof.Machine
end

section
/-! Classification by CLASSIFY_DEADLINE (O18) and by a CODE frame: the entry it leaves. -/

namespace Sys2Proof.Machine

/-! ### CLASSIFY_DEADLINE (R54) -/

/-- An item without a classify deadline has none to reach. -/
theorem State.classifyDeadlineReached_of_none {s : State} {x : Item} (h : x.classifyDeadline = none) :
    s.classifyDeadlineReached x = false := by
  unfold State.classifyDeadlineReached
  rw [h]

/-- CLASSIFY_DEADLINE takes the oldest item whose deadline is reached. -/
theorem exec_classifyDeadline_of_first {s : State} {it : Item} {older younger : List Item}
    (hitems : s.table.items = older ++ it :: younger) (hreached : s.classifyDeadlineReached it = true)
    (holder : ∀ x ∈ older, s.classifyDeadlineReached x = false) :
    exec .classifyDeadline s = .next (s.classifyByDefault it).chooseFrame := by
  have hfind : s.table.items.find? s.classifyDeadlineReached = some it :=
    List.find?_eq_some_iff_append.2 ⟨hreached, older, younger, hitems, fun x hx => by rw [holder x hx]; rfl⟩
  change execClassifyDeadline s = _
  unfold execClassifyDeadline
  rw [hfind]
  rfl

/-- Settles O18: the oldest due item is classified, and what follows the classification renames no entry. -/
theorem classifyDeadline : Obligations.ClassifyDeadline := by
  unfold Obligations.ClassifyDeadline
  intro s q d it older younger hq hitems hn holder hu hs hd hpast
  have hreached : s.classifyDeadlineReached it = true := by
    rw [State.classifyDeadlineReached_eq hd hq, hu, hpast]
    simpa using hs
  have hmem : it ∈ s.table.items := hitems ▸ List.mem_append_right older List.mem_cons_self
  refine ⟨_, exec_classifyDeadline_of_first hitems hreached fun x hx =>
    State.classifyDeadlineReached_of_none (holder x hx), fun x hx hslot => ?_⟩
  obtain ⟨y, hy, hys, hclass, hprofile, hcode, hlate⟩ := State.entry_classify hn hx hslot
  obtain rfl : y = it := State.eq_of_slot hn hy hmem hys
  exact ⟨hclass, hprofile, hcode, hlate⟩

/-! ### The entry a CODE frame leaves (R50, R56, R60) -/

/-- The profile a code line gives an UNCLASSIFIED item: the default one on status NONE, else that of the rules. -/
def codeProfile (img : Image) (c : CodeLine) : Nat :=
  if c.status = .notFound then img.defaultProfile else routedProfile img c

/-- How a code line classifies such an item. -/
def codeClass (c : CodeLine) : Classification := if c.status = .notFound then .byDefault else .byCode

/-- A code line on the entry of its item. -/
def State.withCode (s : State) (k : Slot) (c : CodeLine) : State := s.modifyItem k fun x => { x with codeLine := some c }

/-- Either way of classifying by a code line is one classification. -/
theorem State.classifyByCode_eq (s : State) (it : Item) (c : CodeLine) :
    s.classifyByCode it c
      = (s.withCode it.slot c).classify it (codeProfile (s.image it.set) c) (codeClass c) := by
  unfold State.classifyByCode codeProfile codeClass
  dsimp only
  split <;> rfl

theorem State.slots_withCode (s : State) (k : Slot) (c : CodeLine) :
    (s.withCode k c).table.items.map Item.slot = s.table.items.map Item.slot :=
  State.slots_modifyItem (f := fun x => { x with codeLine := some c }) fun _ => rfl

/-- A CODE frame that reaches an UNCLASSIFIED item. -/
theorem exec_code_of_unclassified {s : State} (hup : s.links.track.up = true) {tag : Half} {b : CodeBlock} {c : CodeLine}
    {it : Item} (hc : codeLineOf b = some c) (hit : s.itemByTag? tag = some it) (hs : it.state ≠ .cancelling)
    (hu : it.classification = .unclassified) :
    exec (.code tag b) s = .next
      ((s.withCode it.slot c).classify it (codeProfile (s.image it.set) c) (codeClass c)).chooseFrame := by
  rw [exec_code_of_wellFormed hup tag hc, State.deliverCode_of_unclassified hit hs hu, State.classifyByCode_eq]

/-- The entry after a classification by a code line. -/
theorem State.entry_classifyByCode {s : State} {it x : Item} {c : CodeLine} {p : Nat} {cls : Classification}
    (hn : (s.table.items.map Item.slot).Nodup) (hmem : it ∈ s.table.items)
    (hx : x ∈ ((s.withCode it.slot c).classify it p cls).chooseFrame.table.items) (hs : x.slot = it.slot) :
    x.classification = cls ∧ x.profile = some p ∧ x.codeLine = some c ∧ x.lateCode = it.lateCode := by
  obtain ⟨y, hy, hys, hclass, hprofile, hcode, hlate⟩ :=
    State.entry_classify (by rw [State.slots_withCode]; exact hn) hx hs
  obtain ⟨z, hz, hzs, rfl⟩ := State.mem_of_modifyItem hy hys
  obtain rfl : z = it := State.eq_of_slot hn hz hmem hzs
  exact ⟨hclass, hprofile, hcode, hlate⟩

end Sys2Proof.Machine
end

section
/-! The evaluation of an item: its flags, and the early REFEED or the wait for its renditions (R126 to R132). -/

namespace Sys2Proof.Machine

/-! ### Flags graded (R127, R128) -/

/-- Two sets of flags that hold the same flags are the same. -/
theorem QualityFlags.eq_of_has {a b : QualityFlags} (h : ∀ flag, a.has flag = b.has flag) : a = b := by
  cases a
  cases b
  simp only [QualityFlags.mk.injEq]
  exact ⟨h .short, h .long, h .truncated, h .mismatch, h .dark, h .light, h .dense, h .streak, h .gap, h .noCode,
    h .badCode, h .oversize, h .memcheck⟩

/-- The flags after the conditions of R127 are those of an evaluation, and no others. -/
theorem State.GradedBy.eq_union {img : Image} {p : Nat} {front rear : Side} {before after : QualityFlags}
    (h : State.GradedBy img p front rear before after) :
    after = before.union (evaluationFlags img p front rear) := by
  have g := State.gradedBy_union img p front rear before
  refine QualityFlags.eq_of_has fun flag => ?_
  cases flag with
  | short => exact Bool.eq_iff_iff.2 (h.short.trans g.short.symm)
  | long => exact Bool.eq_iff_iff.2 (h.long.trans g.long.symm)
  | truncated => exact Bool.eq_iff_iff.2 (h.truncated.trans g.truncated.symm)
  | mismatch => exact Bool.eq_iff_iff.2 (h.mismatch.trans g.mismatch.symm)
  | dark => exact Bool.eq_iff_iff.2 (h.dark.trans g.dark.symm)
  | light => exact Bool.eq_iff_iff.2 (h.light.trans g.light.symm)
  | dense => exact Bool.eq_iff_iff.2 (h.dense.trans g.dense.symm)
  | streak => exact Bool.eq_iff_iff.2 (h.streak.trans g.streak.symm)
  | gap => exact Bool.eq_iff_iff.2 (h.gap.trans g.gap.symm)
  | noCode => exact h.noCode.trans g.noCode.symm
  | badCode => exact h.badCode.trans g.badCode.symm
  | oversize => exact h.oversize.trans g.oversize.symm
  | memcheck => exact h.memcheck.trans g.memcheck.symm

/-! ### An item evaluated (R126, R131, R132) -/

/-- The item waits for evaluation: generation 0, in PROCESSING, classified to a profile, without advice, not evaluated
(R126). -/
structure Item.Awaits (x : Item) (p : Nat) : Prop where
  generation : x.generation = 0
  state : x.state = .processing
  profile : x.profile = some p
  advice : x.advice = none
  evaluated : x.evaluated = false

/-- The entry in a slot evaluated by its set's image (R127). -/
def State.evaluated (s : State) (k : Slot) (n : SetNo) : State := s.modifyItem k (Item.evaluate (s.image n))

theorem Item.evaluate_eq (img : Image) {x : Item} {p : Nat} (h : x.profile = some p) :
    x.evaluate img = { x with flags := x.flags.union (evaluationFlags img p x.front x.rear), evaluated := true } := by
  unfold Item.evaluate
  rw [h]

theorem Item.slot_evaluate (img : Image) (x : Item) : (x.evaluate img).slot = x.slot :=
  (Item.later_evaluate img x).sameEntry.slot

theorem State.item?_evaluated {s : State} {k : Slot} {x : Item} (h : s.item? k = some x) (n : SetNo) :
    (s.evaluated k n).item? k = some (x.evaluate (s.image n)) :=
  (State.item?_modifyItem (Item.slot_evaluate _)).trans (congrArg (Option.map _) h)

/-- The evaluation of an item that waits for it: its flags, and the tests they bring. -/
theorem State.evaluateItem_of_awaits {s : State} {k : Slot} {x : Item} {p : Nat} (h : s.item? k = some x)
    (hw : x.Awaits p) : s.evaluateItem k = (s.evaluated k x.set).gradeItem k := by
  unfold State.evaluateItem
  rw [h]
  exact if_pos ⟨hw.generation, hw.state, by rw [hw.profile]; rfl, by rw [hw.evaluated]; rfl⟩

/-- The verdict of the item evaluated. -/
theorem State.verdict?_evaluated {s : State} {x : Item} {p : Nat} (hw : x.Awaits p) (k : Slot) :
    (s.evaluated k x.set).verdict? (x.evaluate (s.image x.set))
      = some (verdictOf (s.image x.set) p (x.flags.union (evaluationFlags (s.image x.set) p x.front x.rear))) := by
  rw [Item.evaluate_eq _ hw.profile]
  unfold State.verdict?
  rw [hw.profile]
  rfl

/-- A verdict other than REFEED cancels nothing (R131). -/
theorem State.earlyRefeed_of_ne {s : State} {k : Slot} {x : Item} (h : s.item? k = some x)
    (hv : s.verdict? x ≠ some .refeed) : s.earlyRefeed k = s := by
  unfold State.earlyRefeed
  rw [h]
  exact if_neg fun e => hv e.2.2.2

/-- The verdict REFEED cancels an item of generation 0 without advice (R131). -/
theorem State.earlyRefeed_of_refeed {s : State} {k : Slot} {x : Item} (h : s.item? k = some x)
    (hg : x.generation = 0) (hs : x.state ≠ .cancelling) (ha : x.advice = none) (hv : s.verdict? x = some .refeed) :
    s.earlyRefeed k = s.cancelItem k .refeed := by
  unfold State.earlyRefeed
  rw [h]
  exact if_pos ⟨hg, hs, ha, hv⟩

/-- An item with a rendition that is not settled gets no advice (R132). -/
theorem State.adviseOnSettling_of_unsettled {s : State} {k : Slot} {x : Item} (h : s.item? k = some x)
    (hr : (x.renditions.getD []).all Rendition.settled = false) : s.adviseOnSettling k = s := by
  have hdue : x.adviceDue = false := by
    unfold Item.adviceDue
    rw [hr, Bool.and_false]
  unfold State.adviseOnSettling
  rw [h]
  dsimp only
  rw [hdue]
  exact if_neg Bool.false_ne_true

/-- An evaluation with the verdict REFEED cancels the item (R131). -/
theorem State.evaluateItem_cancels {s : State} {x : Item} {p : Nat} (h : s.Cancellable x) (hw : x.Awaits p)
    (hv : verdictOf (s.image x.set) p (x.flags.union (evaluationFlags (s.image x.set) p x.front x.rear)) = .refeed) :
    s.Cancels (s.evaluateItem x.slot) x .refeed .quality
      ∧ ((s.evaluateItem x.slot).table.items.map Item.slot).Nodup := by
  have hfound := State.item?_evaluated h.found x.set
  have hverdict := (State.verdict?_evaluated (s := s) hw x.slot).trans (congrArg some hv)
  rw [State.evaluateItem_of_awaits h.found hw]
  rw [Item.evaluate_eq _ hw.profile] at hfound hverdict
  have hcan : (s.evaluated x.slot x.set).Cancellable
      { x with flags := x.flags.union (evaluationFlags (s.image x.set) p x.front x.rear), evaluated := true } :=
    { found := hfound
      distinct := by
        unfold State.evaluated
        rw [State.slots_modifyItem (Item.slot_evaluate _)]
        exact h.distinct
      state := h.state
      summary := h.summary }
  obtain ⟨hcancel, hn⟩ := State.cancelItem_cancels hcan .refeed
  have hsettle := State.adviseOnSettling_calm ((s.evaluated x.slot x.set).cancelItem x.slot .refeed) x.slot
  unfold State.gradeItem
  rw [State.earlyRefeed_of_refeed hfound hw.generation h.state hw.advice hverdict]
  exact ⟨(hcancel.of_earlier (s := s) (old := x) { Item.SameEntry.refl x with } rfl rfl rfl rfl).calm hn hsettle,
    (((hsettle.items hn).mono fun e => e.sameEntry).slots_sublist).nodup hn⟩

/-- On any other verdict an item with a rendition to wait for is evaluated, and no more (R132). -/
theorem State.evaluateItem_waits {s : State} {k : Slot} {x : Item} {p : Nat} (h : s.item? k = some x) (hw : x.Awaits p)
    (hv : verdictOf (s.image x.set) p (x.flags.union (evaluationFlags (s.image x.set) p x.front x.rear)) ≠ .refeed)
    (hr : (x.renditions.getD []).all Rendition.settled = false) :
    (s.evaluateItem k).earlyRefeed k = s.evaluated k x.set := by
  have hfound := State.item?_evaluated h x.set
  have hkeep : (s.evaluated k x.set).earlyRefeed k = s.evaluated k x.set :=
    State.earlyRefeed_of_ne hfound fun e => hv (Option.some.inj ((State.verdict?_evaluated (s := s) hw k).symm.trans e))
  have hsettle : (s.evaluated k x.set).adviseOnSettling k = s.evaluated k x.set :=
    State.adviseOnSettling_of_unsettled hfound (by rw [Item.evaluate_eq _ hw.profile]; exact hr)
  rw [State.evaluateItem_of_awaits h hw, State.gradeItem, hkeep, hsettle, hkeep]

end Sys2Proof.Machine
end

section
/-! CODE frames that are stored (O27): late, on an UNCLASSIFIED item, and on one that is evaluated at once. -/

namespace Sys2Proof.Machine

/-! ### A classification while every engine is busy (R61, R62) -/

/-- The entry as a classification makes it, the new records those of item `it` (R60, R61). -/
def Item.classified (records : List Rendition) (p : Nat) (cls : Classification) (x : Item) : Item :=
  { x with profile := some p, classification := cls, renditions := some records,
           flags := x.flags.union (classificationFlags cls x.codeLine) }

/-- The state with that entry, before the records are placed. -/
def State.withClass (s : State) (it : Item) (p : Nat) (cls : Classification) : State :=
  s.modifyItem it.slot (Item.classified (newRenditions (s.image it.set) s.lineWidth it p) p cls)

/-- With no engine IDLE the new records only wait in the queue, and the tests of the Quality Unit follow. -/
theorem State.classify_busy {s : State} (hb : ∀ e, (s.engine e).state ≠ .idle) (it : Item) (p : Nat)
    (cls : Classification) : ∃ d : Render, SameWork s.render d
      ∧ (∀ r, r ∈ d.queue ↔ r ∈ s.render.queue ∨ r.slot = it.slot ∧ r.index < (s.image it.set).renditionCount p)
      ∧ s.classify it p cls = ((State.evaluateItem { s.withClass it p cls with render := d } it.slot).earlyRefeed
          it.slot).dispatch := by
  have hlen : (newRenditions (s.image it.set) s.lineWidth it p).length = (s.image it.set).renditionCount p :=
    (List.length_map _).trans List.length_range
  obtain ⟨d, hd, hwork, hqueue⟩ := State.placeRenditions_busy (s := s.withClass it p cls) hb it.slot
    (newRenditions (s.image it.set) s.lineWidth it p).length
  rw [hlen] at hqueue
  exact ⟨d, hwork, hqueue, congrArg (fun u => ((State.evaluateItem u it.slot).earlyRefeed it.slot).dispatch) hd⟩

/-- A profile with a descriptor gives records that are not settled (R61). -/
theorem newRenditions_unsettled (img : Image) (w : Nat) (it : Item) {p : Nat} (h : 1 ≤ img.renditionCount p) :
    (newRenditions img w it p).all Rendition.settled = false :=
  List.all_eq_false.2 ⟨_, List.mem_of_getElem? (newRenditions_get? img w it h), Bool.false_ne_true⟩

/-! ### A code line on an item that waits for it (R50, R60, R126) -/

/-- The entry that a code line and its classification leave, before any test. -/
def Item.codeTaken (img : Image) (w : Nat) (c : CodeLine) (it : Item) : Item :=
  Item.classified (newRenditions img w it (codeProfile img c)) (codeProfile img c) (codeClass c)
    { it with codeLine := some c }

/-- The state with that entry and its records in the render queue. -/
def State.codeTaken (s : State) (it : Item) (c : CodeLine) (d : Render) : State :=
  { (s.withCode it.slot c).withClass it (codeProfile (s.image it.set) c) (codeClass c) with render := d }

theorem State.item?_codeTaken {s : State} {it : Item} (h : s.item? it.slot = some it) (c : CodeLine) (d : Render) :
    (s.codeTaken it c d).item? it.slot = some (it.codeTaken (s.image it.set) s.lineWidth c) := by
  have hcode : (s.withCode it.slot c).item? it.slot = some { it with codeLine := some c } :=
    (State.item?_modifyItem (f := fun x => { x with codeLine := some c }) fun _ => rfl).trans
      (congrArg (Option.map _) h)
  exact (State.item?_modifyItem (f := Item.classified _ _ _) fun _ => rfl).trans (congrArg (Option.map _) hcode)

theorem State.slots_codeTaken (s : State) (it : Item) (c : CodeLine) (d : Render) :
    (s.codeTaken it c d).table.items.map Item.slot = s.table.items.map Item.slot :=
  (State.slots_modifyItem (s := s.withCode it.slot c) (f := Item.classified _ _ _) fun _ => rfl).trans
    (s.slots_withCode it.slot c)

/-- It can be cancelled as it could before. -/
theorem State.Cancellable.codeTaken {s : State} {it : Item} (h : s.Cancellable it) (c : CodeLine) (d : Render) :
    (s.codeTaken it c d).Cancellable (it.codeTaken (s.image it.set) s.lineWidth c) where
  found := State.item?_codeTaken h.found c d
  distinct := by rw [State.slots_codeTaken]; exact h.distinct
  state := h.state
  summary := h.summary

/-- The flags of R60 that a code line adds. -/
theorem Item.flags_codeTaken (img : Image) (w : Nat) (c : CodeLine) (it : Item) : (it.codeTaken img w c).flags =
    { it.flags with noCode := it.flags.noCode || decide (c.status = .notFound)
                    badCode := it.flags.badCode || hasUnreadable c } := by
  have hclass : codeClass c = .byDefault ↔ c.status = .notFound := by
    by_cases h : c.status = .notFound <;> simp [codeClass, h]
  simp [Item.codeTaken, Item.classified, QualityFlags.union, classificationFlags, QualityFlags.empty, hclass]

/-- A code line reaches an item in PROCESSING while every engine is busy: the records wait, and the evaluation follows. -/
theorem State.classifyCode_busy {s : State} (hb : ∀ e, (s.engine e).state ≠ .idle) (it : Item) (c : CodeLine) :
    ∃ d : Render, (∀ e, (d.engine e).state ≠ .idle)
      ∧ (∀ r, r ∈ d.queue ↔ r ∈ s.render.queue
          ∨ r.slot = it.slot ∧ r.index < (s.image it.set).renditionCount (codeProfile (s.image it.set) c))
      ∧ (s.withCode it.slot c).classify it (codeProfile (s.image it.set) c) (codeClass c)
          = (((s.codeTaken it c d).evaluateItem it.slot).earlyRefeed it.slot).dispatch := by
  obtain ⟨d, hwork, hqueue, heq⟩ := State.classify_busy (s := s.withCode it.slot c) hb it
    (codeProfile (s.image it.set) c) (codeClass c)
  exact ⟨d, fun e => by rw [(hwork e).1]; exact hb e, hqueue, heq⟩

/-- Such an item waits for evaluation if it did but for its profile. -/
theorem Item.awaits_codeTaken {it : Item} (hs : it.state = .processing) (hg : it.generation = 0) (ha : it.advice = none)
    (he : it.evaluated = false) (img : Image) (w : Nat) (c : CodeLine) :
    (it.codeTaken img w c).Awaits (codeProfile img c) := ⟨hg, hs, rfl, ha, he⟩

/-- The flags that the evaluation leaves: those held, those of the code line, and those of R127. -/
def Item.codeGraded (img : Image) (w : Nat) (c : CodeLine) (it : Item) : QualityFlags :=
  (it.codeTaken img w c).flags.union (evaluationFlags img (codeProfile img c) it.front it.rear)

/-- On the verdict REFEED the item is cancelled by the end of the command (R131). -/
theorem State.codeTaken_cancels {s : State} {it : Item} {c : CodeLine} {d : Render} (h : s.Cancellable it)
    (hw : (it.codeTaken (s.image it.set) s.lineWidth c).Awaits (codeProfile (s.image it.set) c))
    (hv : verdictOf (s.image it.set) (codeProfile (s.image it.set) c) (it.codeGraded (s.image it.set) s.lineWidth c)
      = .refeed) :
    s.Cancels (((s.codeTaken it c d).evaluateItem it.slot).earlyRefeed it.slot).dispatch.chooseFrame it .refeed
      .quality := by
  obtain ⟨hcancel, hn⟩ := State.evaluateItem_cancels (h.codeTaken c d) hw hv
  have hentry : (it.codeTaken (s.image it.set) s.lineWidth c).SameEntry it := { Item.SameEntry.refl it with }
  have htold : s.Cancels ((s.codeTaken it c d).evaluateItem it.slot) it .refeed .quality :=
    hcancel.of_earlier hentry rfl rfl rfl rfl
  exact htold.calm hn
    (((State.earlyRefeed_calm _ it.slot).trans (State.dispatch_calm _)).trans (State.chooseFrame_calm _))

/-- On any other verdict, with every engine busy, the item waits evaluated (R126, R132). -/
theorem State.codeTaken_waits {s : State} {it : Item} {c : CodeLine} {d : Render} (h : s.item? it.slot = some it)
    (hb : ∀ e, (d.engine e).state ≠ .idle)
    (hw : (it.codeTaken (s.image it.set) s.lineWidth c).Awaits (codeProfile (s.image it.set) c))
    (hv : verdictOf (s.image it.set) (codeProfile (s.image it.set) c) (it.codeGraded (s.image it.set) s.lineWidth c)
      ≠ .refeed)
    (hcount : 1 ≤ (s.image it.set).renditionCount (codeProfile (s.image it.set) c)) :
    (((s.codeTaken it c d).evaluateItem it.slot).earlyRefeed it.slot).dispatch
      = (s.codeTaken it c d).evaluated it.slot it.set := by
  have hwaits := State.evaluateItem_waits (State.item?_codeTaken h c d) hw hv
    (newRenditions_unsettled (s.image it.set) s.lineWidth it hcount)
  rw [hwaits]
  exact State.dispatch_of_busy hb

/-- The entry of an item that waits evaluated after a code line: in PROCESSING, without advice, its flags graded, a record
for each descriptor of its profile. -/
structure Item.WaitsGraded (x : Item) (flags : QualityFlags) (count : Nat) : Prop where
  state : x.state = .processing
  flags : x.flags = flags
  evaluated : x.evaluated = true
  advice : x.advice = none
  renditions : (x.renditions.getD []).length = count

/-- A rendition of it that begins to be sent changes none of this (R148). -/
theorem Item.WaitsGraded.begun {x : Item} {flags : QualityFlags} {count : Nat} (h : x.WaitsGraded flags count) (i : Nat) :
    (x.begun i).WaitsGraded flags count where
  state := h.state
  flags := h.flags
  evaluated := h.evaluated
  advice := h.advice
  renditions := by
    rw [← h.renditions]
    unfold Item.begun Item.modifyRendition
    cases x.renditions with
    | none => rfl
    | some l => exact List.length_map _

/-- The entry evaluated after a code line, by the end of the command. -/
theorem State.item?_codeTaken_end {s : State} {it : Item} {c : CodeLine} (d : Render) (h : s.item? it.slot = some it)
    (hw : (it.codeTaken (s.image it.set) s.lineWidth c).Awaits (codeProfile (s.image it.set) c)) :
    ∃ x, ((s.codeTaken it c d).evaluated it.slot it.set).chooseFrame.item? it.slot = some x
      ∧ x.WaitsGraded (it.codeGraded (s.image it.set) s.lineWidth c)
          ((s.image it.set).renditionCount (codeProfile (s.image it.set) c)) := by
  have hfound := State.item?_evaluated (State.item?_codeTaken h c d) it.set
  have hgraded : ((it.codeTaken (s.image it.set) s.lineWidth c).evaluate (s.image it.set)).WaitsGraded
      (it.codeGraded (s.image it.set) s.lineWidth c)
      ((s.image it.set).renditionCount (codeProfile (s.image it.set) c)) := by
    rw [Item.evaluate_eq _ hw.profile]
    exact ⟨hw.state, rfl, rfl, hw.advice, (List.length_map _).trans List.length_range⟩
  rcases State.item?_chooseFrame hfound with hx | ⟨i, hx⟩
  · exact ⟨_, hx, hgraded⟩
  · exact ⟨_, hx, hgraded.begun i⟩

/-- Settles O27: the late code line; the entry an UNCLASSIFIED item keeps; and with every engine busy the evaluation, which
cancels the item or leaves it waiting for its renditions. -/
theorem codeStored : Obligations.CodeStored := by
  unfold Obligations.CodeStored
  refine fun s tag b c it hup hc hit hs => ⟨fun hu hcode => ?_, fun hu hn => ⟨?_, ?_⟩⟩
  · rw [exec_code_of_wellFormed hup tag hc, State.deliverCode_of_classified hit hs hu, hcode]
    rfl
  · refine ⟨_, exec_code_of_unclassified hup hc hit hs hu, fun x hx hslot => ?_⟩
    obtain ⟨hclass, hprofile, hcode, hlate⟩ :=
      State.entry_classifyByCode hn (State.mem_of_itemByTag? hit).1 hx hslot
    unfold codeClass at hclass
    unfold codeProfile at hprofile
    exact ⟨hcode, hlate, fun hnone => ⟨hclass.trans (if_pos hnone), hprofile.trans (congrArg some (if_pos hnone))⟩,
      fun hread => ⟨hclass.trans (if_neg hread), hprofile.trans (congrArg some (if_neg hread))⟩⟩
  · intro p coded graded hp hcoded hgraded hstate hgen hadvice heval hb hcan hcount
    have hprofile : p = codeProfile (s.image it.set) c := hp
    have hflags : graded = it.codeGraded (s.image it.set) s.lineWidth c := by
      rw [hgraded.eq_union, hcoded, hprofile, Item.codeGraded, Item.flags_codeTaken]
    subst hprofile hflags
    have hw := Item.awaits_codeTaken hstate hgen hadvice heval (s.image it.set) s.lineWidth c
    obtain ⟨d, hbusy, hqueue, hclassify⟩ := State.classifyCode_busy hb it c
    have hexec := exec_code_of_unclassified hup hc hit hs hu
    rw [hclassify] at hexec
    refine ⟨fun hv => ⟨_, hexec, State.codeTaken_cancels hcan hw hv⟩, fun hv => ?_⟩
    rw [State.codeTaken_waits hcan.found hbusy hw hv hcount] at hexec
    obtain ⟨x, hx, hwaits⟩ := State.item?_codeTaken_end d hcan.found hw
    refine ⟨_, x, hexec, hx, hwaits.state, hwaits.flags, hwaits.evaluated, hwaits.advice,
      State.chooseFrame_adviceOut _, hwaits.renditions, fun r => ?_⟩
    rw [State.chooseFrame_render]
    exact hqueue r

end Sys2Proof.Machine
end

section
/-! BATCH (O29), LOAD OPEN (O49), LOAD ABANDON (O53), ACTIVATE (O54) and ERASE (O55): commands whose effect is a change of
the Table Set Store. -/

namespace Sys2Proof.Machine

/-! ### Set bytes and directory entries -/

theorem setOf_eq_none {b : Byte} (h : 4 ≤ b.toNat) : setOf b = none := dif_neg (Nat.not_lt.2 h)

theorem setOf_eq_some {b : Byte} {n : SetNo} (h : b.toNat = n.val) : setOf b = some n := by
  unfold setOf
  rw [dif_pos (h ▸ n.isLt)]
  exact congrArg some (Fin.ext h)

@[simp] theorem State.dir_chooseFrame (s : State) (n : SetNo) : s.chooseFrame.dir n = s.dir n :=
  congrArg (fun t => TableStore.entry t n) s.chooseFrame_sets

/-! ### Requests whose effect is another store -/

/-- The state with another Table Set Store. -/
def State.withSets (s : State) (t : TableStore) : State := { s with sets := t }

/-- A request that finds the queue empty, replaces the store and is answered (R186). -/
theorem State.request_stores {s : State} (h : s.Admits) (corr : Byte) {r : Request} (hf : requestFits r = true)
    {t : TableStore} {x : Response}
    (ht : (s.taking { corr := corr, request := r }).takeRequest { corr := corr, request := r }
      = (((s.taking { corr := corr, request := r }).withSets t).respond x, .nothing)) :
    s.request corr r = ((s.withSets t).withResponse x).chooseFrame := by
  rw [State.request_respond h corr hf ht rfl rfl rfl]
  have hrest : ({ s with sets := t, mgmt := { s.mgmt with requests := [], headWait := .nothing } } : State)
      = s.withSets t := by
    rw [← h.requests, ← h.headWait]
    rfl
  exact congrArg (fun u : State => (u.withResponse x).chooseFrame) hrest

/-- The store with its open load gone and the entry of the set that was being loaded changed (R69, R75, R76). -/
def TableStore.closed (t : TableStore) (l : OpenLoad) (f : DirEntry → DirEntry) : TableStore :=
  { t.setEntry l.set (f (t.entry l.set)) with load := none }

theorem State.dir_closed (s : State) (l : OpenLoad) (f : DirEntry → DirEntry) :
    (s.withSets (s.sets.closed l f)).dir l.set = f (s.dir l.set) := s.dir_modifyDir l.set f

/-! ### LOAD OPEN (R67) -/

theorem exec_loadOpen (corr set : Byte) (declared : Half) (s : State) :
    exec (.loadOpen corr set declared) s = .next (s.request corr (.loadOpen set declared)) := rfl

/-- The store with set `n` LOADING and the open load at its beginning. -/
def TableStore.opened (t : TableStore) (n : SetNo) (declared : Nat) : TableStore :=
  { t.setEntry n { t.entry n with state := .loading, imageLength := declared, imageCheck := none } with
    load := some { set := n, declared := declared, nextOffset := 0, runningCheck := checkInit } }

theorem TableStore.entry_opened (t : TableStore) (n : SetNo) (declared : Nat) : (t.opened n declared).entry n
    = { t.entry n with state := .loading, imageLength := declared, imageCheck := none } := t.entry_setEntry n _

theorem TableStore.entry_opened_of_ne (t : TableStore) {m n : SetNo} (declared : Nat) (h : m ≠ n) :
    (t.opened n declared).entry m = t.entry m := t.entry_setEntry_of_ne _ h

theorem State.takeLoadOpen_badValue {set : Byte} {declared : Half}
    (h : 4 ≤ set.toNat ∨ declared.toNat < 16 ∨ 16384 < declared.toNat) (s : State) (q : QueuedRequest) :
    s.takeLoadOpen q set declared = s.answer q .badValue := by
  unfold State.takeLoadOpen
  rcases h with h | h
  · rw [setOf_eq_none h]
  · split
    · rfl
    · exact if_pos h

/-- The checks of a LOAD OPEN whose set and length are in range, in their order. -/
theorem State.takeLoadOpen_of_range {set : Byte} {n : SetNo} {declared : Half} (hset : set.toNat = n.val)
    (hlow : 16 ≤ declared.toNat) (hhigh : declared.toNat ≤ 16384) (s : State) (q : QueuedRequest) :
    s.takeLoadOpen q set declared =
      if s.sets.load.isSome then s.answer q .busy
      else if (s.dir n).state = .active ∨ (s.dir n).state = .retiring ∨ s.sets.pendingActivation = some n then
        s.answer q .wrongState
      else (s.withSets (s.sets.opened n declared.toNat)).answer q .done := by
  unfold State.takeLoadOpen
  rw [setOf_eq_some hset]
  exact if_neg (by omega)

/-- Settles O49: the refusals in their order, then the store in which the load is open. -/
theorem loadOpened : Obligations.LoadOpened := by
  unfold Obligations.LoadOpened
  intro s corr set n declared h reply
  let q : QueuedRequest := { corr := corr, request := .loadOpen set declared }
  refine ⟨fun hbad => ?_, fun hset hlow hhigh => ?_⟩
  · rw [exec_loadOpen, State.request_refused h corr (r := q.request) rfl
      (Prod.ext (State.takeLoadOpen_badValue hbad (s.taking q) q) rfl)]
    rfl
  have htake := State.takeLoadOpen_of_range hset hlow hhigh (s.taking q) q
  refine ⟨fun hload => ?_, fun hload hstate => ?_, fun hload ha hr hp => ?_⟩
  · have hbusy := htake.trans (if_pos (Option.isSome_iff_ne_none.2 hload))
    rw [exec_loadOpen, State.request_refused h corr (r := q.request) rfl (Prod.ext hbusy rfl)]
    rfl
  · have hwrong := htake.trans ((if_neg (Option.not_isSome_iff_eq_none.2 hload)).trans (if_pos hstate))
    rw [exec_loadOpen, State.request_refused h corr (r := q.request) rfl (Prod.ext hwrong rfl)]
    rfl
  · have hdone := htake.trans ((if_neg (Option.not_isSome_iff_eq_none.2 hload)).trans
      (if_neg (not_or.2 ⟨ha, not_or.2 ⟨hr, hp⟩⟩)))
    refine ⟨_, (exec_loadOpen corr set declared s).trans (congrArg Host.Outcome.next
      (State.request_stores h corr (r := q.request) rfl (Prod.ext hdone rfl))), ?_, fun j hj => ?_, ?_, ?_, ?_⟩
    · rw [State.dir_chooseFrame]
      exact s.sets.entry_opened n _
    · rw [State.dir_chooseFrame]
      exact s.sets.entry_opened_of_ne _ hj
    · rw [State.chooseFrame_sets]
      rfl
    · rw [State.chooseFrame_mem]
      rfl
    · rw [State.reportsHeld_chooseFrame]
      exact State.reportsHeld_withResponse _ _

/-! ### LOAD ABANDON (R76) -/

theorem exec_loadAbandon (corr : Byte) (s : State) :
    exec (.loadAbandon corr) s = .next (s.request corr .loadAbandon) := rfl

theorem State.takeLoadAbandon_of_none {s : State} (h : s.sets.load = none) (q : QueuedRequest) :
    s.takeLoadAbandon q = s.answer q .wrongState := by
  unfold State.takeLoadAbandon
  rw [h]

theorem State.takeLoadAbandon_of_some {s : State} {l : OpenLoad} (h : s.sets.load = some l) (q : QueuedRequest) :
    s.takeLoadAbandon q = (s.withSets (s.sets.closed l DirEntry.emptied)).answer q .done := by
  unfold State.takeLoadAbandon
  rw [h]
  rfl

/-- Settles O53: no load open, and the set being loaded emptied. -/
theorem loadAbandoned : Obligations.LoadAbandoned := by
  unfold Obligations.LoadAbandoned
  intro s corr h reply
  let q : QueuedRequest := { corr := corr, request := .loadAbandon }
  refine ⟨fun hload => ?_, fun l hload => ?_⟩
  · rw [exec_loadAbandon, State.request_refused h corr (r := q.request) rfl
      (Prod.ext (State.takeLoadAbandon_of_none (s := s.taking q) hload q) rfl)]
    rfl
  · rw [exec_loadAbandon, State.request_stores h corr (r := q.request) rfl
      (Prod.ext (State.takeLoadAbandon_of_some (s := s.taking q) hload q) rfl)]
    rfl

/-! ### ERASE (R83) -/

theorem exec_erase (corr set : Byte) (s : State) : exec (.erase corr set) s = .next (s.request corr (.erase set)) := rfl

theorem State.takeErase_badValue {set : Byte} (h : 4 ≤ set.toNat) (s : State) (q : QueuedRequest) :
    s.takeErase q set = s.answer q .badValue := by
  unfold State.takeErase
  rw [setOf_eq_none h]

theorem State.takeErase_of_set {set : Byte} {n : SetNo} (h : set.toNat = n.val) (s : State) (q : QueuedRequest) :
    s.takeErase q set =
      if (s.dir n).state = .active ∨ (s.dir n).state = .retiring ∨ (s.dir n).state = .loading
          ∨ s.sets.pendingActivation = some n then s.answer q .wrongState
      else (s.withSets (s.sets.setEntry n (s.dir n).emptied)).answer q .done := by
  unfold State.takeErase
  rw [setOf_eq_some h]
  rfl

/-- Settles O55: no set, a set that cannot be erased, and the set emptied. -/
theorem eraseTaken : Obligations.EraseTaken := by
  unfold Obligations.EraseTaken
  intro s corr set n h reply
  let q : QueuedRequest := { corr := corr, request := .erase set }
  refine ⟨fun hbad => ?_, fun hset => ⟨fun hstate => ?_, fun ha hr hl hp => ?_⟩⟩
  · rw [exec_erase, State.request_refused h corr (r := q.request) rfl
      (Prod.ext (State.takeErase_badValue hbad (s.taking q) q) rfl)]
    rfl
  · have hwrong := (State.takeErase_of_set hset (s.taking q) q).trans (if_pos hstate)
    rw [exec_erase, State.request_refused h corr (r := q.request) rfl (Prod.ext hwrong rfl)]
    rfl
  · have hdone := (State.takeErase_of_set hset (s.taking q) q).trans
      (if_neg (not_or.2 ⟨ha, not_or.2 ⟨hr, not_or.2 ⟨hl, hp⟩⟩⟩))
    rw [exec_erase, State.request_stores h corr (r := q.request) rfl (Prod.ext hdone rfl)]
    rfl

/-! ### An activation applied (R78) -/

/-- The store with set `n` ACTIVE and in force and no activation pending. -/
def TableStore.activated (t : TableStore) (n : SetNo) : TableStore :=
  { t.setEntry n { t.entry n with state := .active } with active := some n, pendingActivation := none }

/-- The store with a set RETIRING or READY by its bound count. -/
def TableStore.deactivated (t : TableStore) (n : SetNo) : TableStore := t.setEntry n (t.entry n).deactivated

theorem TableStore.entry_activated (t : TableStore) (n : SetNo) :
    (t.activated n).entry n = { t.entry n with state := .active } := t.entry_setEntry n _

theorem TableStore.entry_activated_of_ne (t : TableStore) {m n : SetNo} (h : m ≠ n) :
    (t.activated n).entry m = t.entry m := t.entry_setEntry_of_ne _ h

theorem TableStore.batch_activated (t : TableStore) (n : SetNo) : (t.activated n).batch = t.batch :=
  t.setEntry_batch n _

/-- The EVENT that follows the activation of a set in a store speaks of that set's load count and the current batch. -/
theorem State.composeEvent_activated {s : State} (h : s.EventRoom) (t : TableStore) (n : SetNo) (previous : Option SetNo) :
    (s.withSets (t.activated n)).composeEvent (.setActivated n ((s.withSets (t.activated n)).dir n).loadCount previous
        (t.activated n).batch)
      = (s.withSets (t.activated n)).withEvent (.setActivated n (t.entry n).loadCount previous t.batch) := by
  have hcount : ((t.activated n).entry n).loadCount = (t.entry n).loadCount := by
    rw [t.entry_activated]
  rw [State.composeEvent_of_room (s := s.withSets (t.activated n)) h, t.batch_activated, ← hcount]
  rfl

theorem State.applyActivation_of_none {s : State} (h : s.EventRoom) (ha : s.sets.active = none) (n : SetNo) :
    s.applyActivation n = (s.withSets (s.sets.activated n)).withEvent
      (.setActivated n (s.dir n).loadCount none s.sets.batch) := by
  unfold State.applyActivation
  rw [ha]
  exact State.composeEvent_activated h s.sets n none

theorem State.applyActivation_of_other {s : State} (h : s.EventRoom) {n old : SetNo} (ha : s.sets.active = some old)
    (hne : n ≠ old) : s.applyActivation n = (s.withSets ((s.sets.deactivated old).activated n)).withEvent
      (.setActivated n (s.dir n).loadCount (some old) s.sets.batch) := by
  have hentry : (s.sets.deactivated old).entry n = s.dir n := s.sets.entry_setEntry_of_ne _ hne
  have hbatch : (s.sets.deactivated old).batch = s.sets.batch := s.sets.setEntry_batch old _
  have hevent := State.composeEvent_activated h (s.sets.deactivated old) n (some old)
  rw [hentry, hbatch] at hevent
  unfold State.applyActivation
  rw [ha]
  exact hevent

/-! ### BATCH (R79) -/

theorem exec_batch {s : State} (hup : s.links.track.up = true) (number : Half) :
    exec (.batch number) s = .next (s.batchFrame number).chooseFrame :=
  congrArg Host.Outcome.next (State.receive_up (k := .track) hup _)

theorem State.batchFrame_of_none {s : State} (h : s.sets.pendingActivation = none) (number : Half) :
    s.batchFrame number = s.withSets { s.sets with batch := number } := by
  unfold State.batchFrame State.applyPending
  dsimp only
  rw [h]
  rfl

theorem State.batchFrame_of_some {s : State} {n : SetNo} (h : s.sets.pendingActivation = some n) (number : Half) :
    s.batchFrame number = (s.withSets { s.sets with batch := number }).applyActivation n := by
  unfold State.batchFrame State.applyPending
  dsimp only
  rw [h]
  rfl

/-- Settles O29: the batch alone, and the batch with the pending activation applied. -/
theorem batchTaken : Obligations.BatchTaken := by
  unfold Obligations.BatchTaken
  refine fun s number hup => ⟨fun hnone => ?_, fun n old hn hold hne hroom => ?_⟩
  · rw [exec_batch hup, State.batchFrame_of_none hnone]
    rfl
  · have hframe := (State.batchFrame_of_some hn number).trans
      (State.applyActivation_of_other (s := s.withSets { s.sets with batch := number }) hroom hold hne)
    refine ⟨_, exec_batch hup number, ?_⟩
    rw [hframe, State.chooseFrame_sets, State.dir_chooseFrame, State.dir_chooseFrame, State.chooseFrame_mode,
      State.reportsHeld_chooseFrame,
      State.chooseFrame_table_of_reports (List.append_ne_nil_of_right_ne_nil _ (List.cons_ne_nil _ _))]
    refine ⟨?_, rfl, rfl, ?_, ?_, rfl, rfl, State.reportsHeld_withEvent _ _⟩
    · exact (TableStore.batch_activated _ n).trans (TableStore.setEntry_batch _ old _)
    · exact (TableStore.entry_activated _ n).trans
        (congrArg (fun e : DirEntry => { e with state := .active }) (TableStore.entry_setEntry_of_ne _ _ hne))
    · exact (TableStore.entry_activated_of_ne _ hne.symm).trans (TableStore.entry_setEntry _ old _)

/-! ### ACTIVATE (R77) -/

theorem exec_activate (corr set : Byte) (s : State) :
    exec (.activate corr set) s = .next (s.request corr (.activate set)) := rfl

theorem State.takeActivate_badValue {set : Byte} (h : 4 ≤ set.toNat) (s : State) (q : QueuedRequest) :
    s.takeActivate q set = s.answer q .badValue := by
  unfold State.takeActivate
  rw [setOf_eq_none h]

section
variable {s : State} {set : Byte} {n : SetNo} (h : set.toNat = n.val) (q : QueuedRequest)
include h

theorem State.takeActivate_of_active (hs : (s.dir n).state = .active) :
    s.takeActivate q set = (s.withSets { s.sets with pendingActivation := none }).answer q .done := by
  unfold State.takeActivate
  rw [setOf_eq_some h]
  dsimp only
  rw [hs]
  rfl

theorem State.takeActivate_of_ready (hs : (s.dir n).state = .ready) :
    s.takeActivate q set = if s.mgmt.mode = .parked then (s.applyActivation n).answer q .done
      else (s.withSets { s.sets with pendingActivation := some n }).answer q .done := by
  unfold State.takeActivate
  rw [setOf_eq_some h]
  dsimp only
  rw [hs]
  rfl

theorem State.takeActivate_wrongState (ha : (s.dir n).state ≠ .active) (hr : (s.dir n).state ≠ .ready) :
    s.takeActivate q set = s.answer q .wrongState := by
  unfold State.takeActivate
  rw [setOf_eq_some h]
  dsimp only
  split
  · exact absurd ‹_› ha
  · exact absurd ‹_› hr
  · rfl

end

/-- Settles O54: no set, the ACTIVE set, a READY set outside PARKED and in it, and any other set. -/
theorem activateTaken : Obligations.ActivateTaken := by
  unfold Obligations.ActivateTaken
  intro s corr set n h hevents reply
  let q : QueuedRequest := { corr := corr, request := .activate set }
  refine ⟨fun hbad => ?_, fun hset => ⟨fun hs => ?_, fun hs hm => ?_, fun hs hm ha => ?_, fun ha hr => ?_⟩⟩
  · rw [exec_activate, State.request_refused h corr (r := q.request) rfl
      (Prod.ext (State.takeActivate_badValue hbad (s.taking q) q) rfl)]
    rfl
  · rw [exec_activate, State.request_stores h corr (r := q.request) rfl
      (Prod.ext (State.takeActivate_of_active (s := s.taking q) hset q hs) rfl)]
    rfl
  · have hdone := (State.takeActivate_of_ready (s := s.taking q) hset q hs).trans (if_neg hm)
    rw [exec_activate, State.request_stores h corr (r := q.request) rfl (Prod.ext hdone rfl)]
    rfl
  · have hdone := (State.takeActivate_of_ready (s := s.taking q) hset q hs).trans (if_pos hm)
    refine ⟨_, (exec_activate corr set s).trans (congrArg Host.Outcome.next
      (State.request_answers h corr (r := q.request) rfl (Prod.ext hdone rfl) (State.applyActivation_keeps _ n))), ?_⟩
    rw [State.applyActivation_of_none (s := s.taking q) ⟨h.up, hevents⟩ ha, State.chooseFrame_sets,
      State.dir_chooseFrame, State.reportsHeld_answered, State.reportsHeld_withEvent, List.append_assoc]
    exact ⟨rfl, rfl, TableStore.entry_activated _ n, rfl⟩
  · rw [exec_activate, State.request_refused h corr (r := q.request) rfl
      (Prod.ext (State.takeActivate_wrongState (s := s.taking q) hset q ha hr) rfl)]
    rfl

end Sys2Proof.Machine
end

section
/-! REGIONS (O47), and the loads (R67 to R75): the FORMAT check (O52), the bursts of LOAD DATA, PEEK and POKE (O42), the end
of validation (O51), and LOAD DATA and LOAD CLOSE up to their answers (O50). -/

namespace Sys2Proof.Machine

open State (Keeps)

/-! ### REGIONS (R84, R164, R165) -/

theorem exec_regions (corr : Byte) (v : RegionFields) (s : State) :
    exec (.regions corr v) s = .next (s.request corr (.regions v)) := rfl

/-- A REGIONS in PARKED without an item, its map passing every check. -/
theorem State.takeRegions_of_passes {s : State} {v : RegionFields} (hm : s.mgmt.mode = .parked) (hi : s.table.items = [])
    (hv : mapFailure (regionMapOf v) (s.frameMemory.installedMiB * 1048576) s.mgmt.settings.rerenderReserve.toNat = none)
    (q : QueuedRequest) : s.takeRegions q v = (s.replaceMap (regionMapOf v)).answerDone q
      (u16 (regionMapOf v).stripCount ++ u16 (regionMapOf v).blockCount) := by
  unfold State.takeRegions
  rw [if_neg (not_not_intro hm), if_neg (not_not_intro hi)]
  dsimp only
  rw [show mapFailure (regionMapOf v) (s.frameMemory.installedMiB * Config.mebibyte)
    s.mgmt.settings.rerenderReserve.toNat = none from hv]

theorem TableStore.entry_moved (t : TableStore) (n : SetNo) : t.moved.entry n = (t.entry n).emptied := by
  match n with
  | 0 => rfl
  | 1 => rfl
  | 2 => rfl
  | 3 => rfl

/-- Settles O47: the refusals in their order, then the map in force, with the sets kept or emptied. -/
theorem regionsTaken : Obligations.RegionsTaken := by
  unfold Obligations.RegionsTaken
  intro s corr v h reply
  let q : QueuedRequest := { corr := corr, request := .regions v }
  refine ⟨fun hm => ?_, fun hm hi => ?_, fun hm hi hv => ?_⟩
  · have hwrong : (s.taking q).takeRegions q v = (s.taking q).answer q .wrongMode := if_pos hm
    rw [exec_regions, State.request_refused h corr (r := q.request) rfl (Prod.ext hwrong rfl)]
    rfl
  · have hwrong : (s.taking q).takeRegions q v = (s.taking q).answer q .wrongState :=
      (if_neg (not_not_intro hm)).trans (if_pos hi)
    rw [exec_regions, State.request_refused h corr (r := q.request) rfl (Prod.ext hwrong rfl)]
    rfl
  · have hdone := State.takeRegions_of_passes (s := s.taking q) hm hi hv q
    have hkeeps : (s.taking q).Keeps noLines 0 ((s.taking q).replaceMap (regionMapOf v)) := { Keeps.refl _ with }
    refine ⟨_, (exec_regions corr v s).trans (congrArg Host.Outcome.next
      (State.request_answers h corr (r := q.request) rfl (Prod.ext hdone rfl) hkeeps)), ?_⟩
    rw [State.chooseFrame_frameMemory, State.chooseFrame_mem, State.chooseFrame_mode, State.chooseFrame_sets,
      State.reportsHeld_answered]
    refine ⟨rfl, rfl, rfl, rfl, rfl, rfl, hm, rfl, fun hbase => if_pos hbase, fun hbase => ?_⟩
    have hmoved : ((s.taking q).replaceMap (regionMapOf v)).sets = s.sets.moved := if_neg hbase
    have hbatch := congrArg TableStore.batch hmoved
    refine ⟨congrArg TableStore.load hmoved, congrArg TableStore.active hmoved,
      congrArg TableStore.pendingActivation hmoved, hbatch, fun n => ?_⟩
    have hentry : ((s.taking q).replaceMap (regionMapOf v)).sets.entry n = (s.dir n).emptied :=
      (congrArg (TableStore.entry · n) hmoved).trans (s.sets.entry_moved n)
    have hcount := congrArg DirEntry.loadCount hentry
    rw [State.dir_chooseFrame]
    exact ⟨congrArg DirEntry.state hentry, congrArg DirEntry.imageLength hentry, congrArg DirEntry.imageCheck hentry,
      hcount⟩

/-! ### The FORMAT check (R70) -/

/-- Two joined bit vectors are equal when both parts are. -/
theorem bitVec_append_inj {v w : Nat} {x x' : BitVec v} {y y' : BitVec w} : x ++ y = x' ++ y' ↔ x = x' ∧ y = y' := by
  refine ⟨fun h => ⟨?_, ?_⟩, fun h => by rw [h.1, h.2]⟩
  · have hhigh := congrArg (BitVec.extractLsb' w v) h
    rwa [BitVec.extractLsb'_append_eq_left, BitVec.extractLsb'_append_eq_left] at hhigh
  · have hlow := congrArg (BitVec.extractLsb' 0 w) h
    rwa [BitVec.extractLsb'_append_eq_right, BitVec.extractLsb'_append_eq_right] at hlow

theorem wordOf_inj {a b c d a' b' c' d' : Byte} :
    wordOf a b c d = wordOf a' b' c' d' ↔ a = a' ∧ b = b' ∧ c = c' ∧ d = d' := by
  unfold wordOf
  rw [bitVec_append_inj, bitVec_append_inj, bitVec_append_inj, and_assoc, and_assoc]

/-- Settles O52: the mark byte by byte, the version and the length. -/
theorem formatCheck : Obligations.FormatCheck := by
  unfold Obligations.FormatCheck
  intro img declared
  have hmark : img.word 0 = wordOf 158 7 64 49 ↔ img 0 = 158 ∧ img 1 = 7 ∧ img 2 = 64 ∧ img 3 = 49 := wordOf_inj
  have hversion : img.byte 1 0 = 1 ↔ img 4 = 1 := by
    change (img 4).toNat = (1 : Byte).toNat ↔ img 4 = 1
    exact BitVec.toNat_inj
  have hlength : Config.imageWords ≤ declared ↔ 1228 ≤ declared := Iff.rfl
  unfold formatOk
  rw [Bool.and_eq_true, Bool.and_eq_true, beq_iff_eq, beq_iff_eq, decide_eq_true_iff, hmark, hversion, hlength]
  simp only [and_assoc]

/-! ### The request at the head answered (R186, R187) -/

/-- The state with its only queued request gone and the place reserved for it given up. -/
def State.headGone (s : State) : State :=
  { s with mgmt := { s.mgmt with reserved := 0, requests := [], headWait := .nothing } }

/-- The only request queued is answered: its RESPONSE takes its place and the queue is empty. -/
theorem State.headAnswered_respond {s : State} (hup : s.links.exchange.up = true) (hr : s.mgmt.reserved = 1)
    {q : QueuedRequest} (hq : s.mgmt.requests = [q]) (x : Response) :
    (s.respond x).headAnswered = s.headGone.withResponse x := by
  have hrespond : s.respond x = { s with mgmt := { s.mgmt with
      reserved := 0, reports := s.mgmt.reports ++ [.response x] } } := by
    unfold State.respond
    dsimp only
    rw [if_pos (show s.linkUp .exchange = true from hup), hr]
    rfl
  rw [State.headAnswered_of_single (q := q) (by rw [hrespond]; exact hq), hrespond]
  unfold State.popRequest
  dsimp only
  rw [hq]
  rfl

/-! ### One burst of a client that waits alone (R172, R173) -/

/-- A client that waits alone is granted (R173). -/
theorem State.grant_alone {s : State} {c : MemoryClient} (hc : c ∈ s.grantOrder [c]) (hw : s.canWait c = true) :
    s.grant [c] = some c := by
  unfold State.grant
  cases hfind : (s.grantOrder [c]).find? fun d => decide (d ∈ [c]) && s.canWait d with
  | none => exact absurd (List.find?_eq_none.1 hfind c hc) (by simp [hw])
  | some d =>
    have hpasses := List.find?_some hfind
    have hd : d = c := by simpa using (Bool.and_eq_true_iff.1 hpasses).1
    rw [hd]

theorem exec_burstEnd_alone {s : State} {c : MemoryClient} (hc : c ∈ s.grantOrder [c]) (hw : s.canWait c = true) :
    exec (.burstEnd [c]) s = .next (s.endBurst c).chooseFrame := by
  change Host.Outcome.next (s.burst [c]).settle = _
  unfold State.burst State.settle
  rw [State.grant_alone hc hw]

theorem exec_burstEnd_loader {s : State} (h : s.mgmt.headWait = .loaderWrite) :
    exec (.burstEnd [.loader]) s = .next s.endLoaderBurst.chooseFrame :=
  exec_burstEnd_alone (List.mem_append_right _ (by simp)) (by simp [State.canWait, h])

theorem exec_burstEnd_management {s : State} (h : s.mgmt.headWait = .managementBurst) :
    exec (.burstEnd [.management]) s = .next s.endManagementBurst.chooseFrame :=
  exec_burstEnd_alone (List.mem_append_right _ (by simp)) (by simp [State.canWait, h])

/-! ### The bursts of LOAD DATA, PEEK and POKE (R68, R174) -/

/-- The state once the words of a LOAD DATA stand in the slot (R68, R203). -/
def State.loadWritten (s : State) (l : OpenLoad) (offset : Half) (words : List Word) : State :=
  { s with
    mem := Memory.writeBytes s.mem (s.setAddress l.set (4 * offset.toNat)) (words.flatMap wordBytes)
    sets := { s.sets with load := some { l with
      nextOffset := l.nextOffset + words.length
      runningCheck := checkRun l.runningCheck (words.flatMap wordBytes) } } }

theorem State.writeLoad_of_some {s : State} {l : OpenLoad} (h : s.sets.load = some l) (q : QueuedRequest) (offset : Half)
    (words : List Word) : s.writeLoad q offset words
      = (s.loadWritten l offset words).answerDone q (u16 (l.nextOffset + words.length)) := by
  unfold State.writeLoad
  rw [h]
  rfl

section
variable {s : State} {corr : Byte} (hup : s.links.exchange.up = true) (hr : s.mgmt.reserved = 1)
include hup hr

/-- The Loader's burst writes the words of the LOAD DATA at the head and answers it. -/
theorem exec_burstEnd_loadData {offset : Half} {words : List Word} {l : OpenLoad}
    (hq : s.mgmt.requests = [{ corr := corr, request := .loadData offset words }]) (hw : s.mgmt.headWait = .loaderWrite)
    (hl : s.sets.load = some l) : exec (.burstEnd [.loader]) s
      = .next ((s.loadWritten l offset words).headGone.withResponse
          (doneResponse corr 8 (u16 (l.nextOffset + words.length)))).chooseFrame := by
  rw [exec_burstEnd_loader hw]
  unfold State.endLoaderBurst
  rw [hw, hq]
  dsimp only
  rw [State.writeLoad_of_some hl]
  exact congrArg (fun t : State => Host.Outcome.next t.chooseFrame)
    (State.headAnswered_respond (s := s.loadWritten l offset words) hup hr hq _)

/-- The management burst of the PEEK at the head reads its bytes. -/
theorem exec_burstEnd_peek {address : Word} {n : Half}
    (hq : s.mgmt.requests = [{ corr := corr, request := .peek address n }]) (hw : s.mgmt.headWait = .managementBurst) :
    exec (.burstEnd [.management]) s = .next (s.headGone.withResponse
      (doneResponse corr 16 (s.bytesAt address.toNat n.toNat))).chooseFrame := by
  rw [exec_burstEnd_management hw]
  unfold State.endManagementBurst
  rw [hw, hq]
  exact congrArg (fun t : State => Host.Outcome.next t.chooseFrame) (State.headAnswered_respond hup hr hq _)

/-- The management burst of the POKE at the head writes its bytes. -/
theorem exec_burstEnd_poke {address : Word} {n : Half} {bytes : List Byte}
    (hq : s.mgmt.requests = [{ corr := corr, request := .poke address n bytes }])
    (hw : s.mgmt.headWait = .managementBurst) : exec (.burstEnd [.management]) s
      = .next ((s.writeBytes address.toNat bytes).headGone.withResponse (doneResponse corr 17 [])).chooseFrame := by
  rw [exec_burstEnd_management hw]
  unfold State.endManagementBurst
  rw [hw, hq]
  exact congrArg (fun t : State => Host.Outcome.next t.chooseFrame)
    (State.headAnswered_respond (s := s.writeBytes address.toNat bytes) hup hr hq _)

end

/-- Settles O42: the three bursts, each with its answer. -/
theorem requestBurstEnds : Obligations.RequestBurstEnds := by
  unfold Obligations.RequestBurstEnds
  intro s corr hup hr done
  exact ⟨fun _ _ _ hq hw hl => exec_burstEnd_loadData hup hr hq hw hl,
    fun _ _ hq hw => exec_burstEnd_peek hup hr hq hw, fun _ _ _ hq hw => exec_burstEnd_poke hup hr hq hw⟩

/-! ### The end of validation (R74, R75) -/

theorem exec_validationEnd (s : State) : exec .validationEnd s = .next s.finishValidation.chooseFrame := rfl

theorem State.finishValidation_of_ne {s : State} (h : s.mgmt.headWait ≠ .validation) : s.finishValidation = s := by
  unfold State.finishValidation
  split
  · exact absurd ‹_› h
  · rfl

/-- The entry of a set whose load has failed (R75). -/
def DirEntry.invalidated (e : DirEntry) : DirEntry := { e with state := .invalid }

/-- A failed load leaves its set INVALID and the load closed (R75). -/
theorem State.failLoad_eq (s : State) (q : QueuedRequest) (l : OpenLoad) (f : LoadFailure) : s.failLoad q l f
    = (s.withSets (s.sets.closed l DirEntry.invalidated)).answerDetail q .loadFault f.detail
        (BitVec.ofNat 8 f.part, BitVec.ofNat 8 f.entry, BitVec.ofNat 8 f.sub) := rfl

/-- The entry of a set whose image has passed (R74). -/
def DirEntry.validated (check : Word) (e : DirEntry) : DirEntry :=
  { e with state := .ready, imageCheck := some check, loadCount := e.loadCount + 1 }

section
variable {s : State} {l : OpenLoad} (hl : s.sets.load = some l)
include hl

theorem State.endValidation_of_passes (hv : validationFailure (s.image l.set) l.declared = none) (q : QueuedRequest)
    (check : Word) : s.endValidation q check
      = (s.withSets (s.sets.closed l (DirEntry.validated check))).answerDone q
          (halfBytes ((s.dir l.set).loadCount + 1)) := by
  unfold State.endValidation
  rw [hl]
  dsimp only
  rw [hv]
  rfl

theorem State.endValidation_of_fails {f : LoadFailure} (hv : validationFailure (s.image l.set) l.declared = some f)
    (q : QueuedRequest) (check : Word) : s.endValidation q check = s.failLoad q l f := by
  unfold State.endValidation
  rw [hl]
  dsimp only
  rw [hv]

variable {corr : Byte} {check : Word} (hup : s.links.exchange.up = true) (hr : s.mgmt.reserved = 1)
  (hw : s.mgmt.headWait = .validation) (hq : s.mgmt.requests = [{ corr := corr, request := .loadClose check }])
include hup hr hw hq

theorem exec_validationEnd_of_passes (hv : validationFailure (s.image l.set) l.declared = none) :
    exec .validationEnd s
      = .next ((s.withSets (s.sets.closed l (DirEntry.validated check))).headGone.withResponse
          (doneResponse corr 9 (halfBytes ((s.dir l.set).loadCount + 1)))).chooseFrame := by
  rw [exec_validationEnd]
  unfold State.finishValidation
  rw [hw, hq]
  dsimp only
  rw [State.endValidation_of_passes hl hv]
  exact congrArg (fun t : State => Host.Outcome.next t.chooseFrame)
    (State.headAnswered_respond (s := s.withSets (s.sets.closed l (DirEntry.validated check))) hup hr hq _)

theorem exec_validationEnd_of_fails {f : LoadFailure}
    (hv : validationFailure (s.image l.set) l.declared = some f) : exec .validationEnd s
      = .next ((s.withSets (s.sets.closed l DirEntry.invalidated)).headGone.withResponse
          { plainResponse corr 9 .loadFault with
            detail := f.detail
            location := (BitVec.ofNat 8 f.part, BitVec.ofNat 8 f.entry, BitVec.ofNat 8 f.sub) }).chooseFrame := by
  rw [exec_validationEnd]
  unfold State.finishValidation
  rw [hw, hq]
  dsimp only
  rw [State.endValidation_of_fails hl hv, State.failLoad_eq]
  exact congrArg (fun t : State => Host.Outcome.next t.chooseFrame)
    (State.headAnswered_respond (s := s.withSets (s.sets.closed l DirEntry.invalidated)) hup hr hq _)

end

/-- What is left once the head has been answered with its load closed. -/
theorem State.loadClosed_spec (s : State) (l : OpenLoad) (f : DirEntry → DirEntry) (x : Response) :
    let t := ((s.withSets (s.sets.closed l f)).headGone.withResponse x).chooseFrame
    t.sets.load = none ∧ t.mem = s.mem ∧ t.mgmt.requests = [] ∧ t.dir l.set = f (s.dir l.set)
      ∧ t.reportsHeld = s.reportsHeld ++ [.response x] := by
  dsimp only
  rw [State.chooseFrame_sets, State.chooseFrame_mem, State.chooseFrame_requests, State.dir_chooseFrame,
    State.reportsHeld_chooseFrame]
  exact ⟨rfl, rfl, rfl, s.dir_closed l f, State.reportsHeld_withResponse _ _⟩

/-- Settles O51: no validation under way, an image that passes, and one that fails. -/
theorem validationEnds : Obligations.ValidationEnds := by
  unfold Obligations.ValidationEnds
  refine fun s corr check l hup hr => ⟨fun hw => ?_, fun hw hq hl => ⟨fun hv => ?_, fun f hv => ?_⟩⟩
  · rw [exec_validationEnd, State.finishValidation_of_ne hw]
  · obtain ⟨hload, -, hrequests, hdir, hreports⟩ := s.loadClosed_spec l (DirEntry.validated check)
      (doneResponse corr 9 (halfBytes ((s.dir l.set).loadCount + 1)))
    exact ⟨_, exec_validationEnd_of_passes hl hup hr hw hq hv, hload, hrequests, hdir, hreports⟩
  · obtain ⟨hload, -, hrequests, hdir, hreports⟩ := s.loadClosed_spec l DirEntry.invalidated
      { plainResponse corr 9 .loadFault with
        detail := f.detail
        location := (BitVec.ofNat 8 f.part, BitVec.ofNat 8 f.entry, BitVec.ofNat 8 f.sub) }
    exact ⟨_, exec_validationEnd_of_fails hl hup hr hw hq hv, hload, hrequests, hdir, hreports⟩

end Sys2Proof.Machine
end

section
/-! LOAD DATA and LOAD CLOSE (O50): their refusals and faults, and the wait for the Loader's write or for validation with
the completion that ends it. -/

namespace Sys2Proof.Machine

/-! ### A request that waits at the head (R186) -/

@[simp] theorem State.chooseFrame_reserved (s : State) : s.chooseFrame.mgmt.reserved = s.mgmt.reserved := by
  obtain ⟨_, _, _, h⟩ := s.chooseFrame_shape; rw [h]

@[simp] theorem State.chooseFrame_powerOns (s : State) : s.chooseFrame.powerOns = s.powerOns := by
  obtain ⟨_, _, _, h⟩ := s.chooseFrame_shape; rw [h]

theorem State.setAddress_chooseFrame (s : State) (n : SetNo) (offset : Nat) :
    s.chooseFrame.setAddress n offset = s.setAddress n offset := by
  unfold State.setAddress
  rw [State.chooseFrame_frameMemory]

/-- The image read for validation is not changed by the choice of a frame. -/
theorem State.image_chooseFrame (s : State) (n : SetNo) : s.chooseFrame.image n = s.image n := by
  unfold State.image State.byteAt
  simp only [State.chooseFrame_mem, State.chooseFrame_powerOns, State.setAddress_chooseFrame]

/-- What a request that waits leaves for the completion that ends it: itself at the head with its place reserved, and the
store, the memory and the reports as they were. -/
structure State.LeftWaiting (s t : State) (q : QueuedRequest) (w : HeadWait) : Prop where
  up : t.links.exchange.up = true
  reserved : t.mgmt.reserved = 1
  requests : t.mgmt.requests = [q]
  headWait : t.mgmt.headWait = w
  sets : t.sets = s.sets
  mem : t.mem = s.mem
  reports : t.reportsHeld = s.reportsHeld
  address : ∀ n offset, t.setAddress n offset = s.setAddress n offset
  image : ∀ n, t.image n = s.image n

theorem State.leftWaiting {s : State} (h : s.Admits) (hr : s.mgmt.reserved = 0) (q : QueuedRequest) (w : HeadWait) :
    s.LeftWaiting (s.withWaiting q w).chooseFrame q w where
  up := by rw [State.chooseFrame_links]; exact h.up
  reserved := by rw [State.chooseFrame_reserved]; exact congrArg (· + 1) hr
  requests := State.chooseFrame_requests _
  headWait := State.chooseFrame_headWait _
  sets := State.chooseFrame_sets _
  mem := State.chooseFrame_mem _
  reports := State.reportsHeld_chooseFrame _
  address := State.setAddress_chooseFrame _
  image := State.image_chooseFrame _

/-- A request that finds the queue empty and fails the open load (R75). -/
theorem State.request_failsLoad {s : State} (h : s.Admits) (corr : Byte) {r : Request} (hf : requestFits r = true)
    {l : OpenLoad} {detail : Byte}
    (ht : (s.taking { corr := corr, request := r }).takeRequest { corr := corr, request := r }
      = ((s.taking { corr := corr, request := r }).failLoad { corr := corr, request := r } l (faultDetail detail),
          .nothing)) :
    s.request corr r = ((s.withSets (s.sets.closed l DirEntry.invalidated)).withResponse
      { plainResponse corr (requestKindCode r) .loadFault with detail := detail }).chooseFrame :=
  State.request_stores h corr hf ht

/-! ### LOAD DATA (R68) -/

theorem exec_loadData (corr : Byte) (offset : Half) (words : List Word) (s : State) :
    exec (.loadData corr offset words) s = .next (s.request corr (.loadData offset words)) := rfl

theorem State.takeLoadData_of_none {s : State} (h : s.sets.load = none) (q : QueuedRequest) (offset : Half)
    (words : List Word) : s.takeLoadData q offset words = (s.answer q .wrongState, .nothing) := by
  unfold State.takeLoadData
  rw [h]

/-- The checks of a LOAD DATA of 1 to 64 words with a load open, in their order. -/
theorem State.takeLoadData_of_some {s : State} {l : OpenLoad} (h : s.sets.load = some l) {words : List Word}
    (hne : words ≠ []) (hlen : words.length ≤ 64) (q : QueuedRequest) (offset : Half) :
    s.takeLoadData q offset words =
      if offset.toNat ≠ l.nextOffset then (s.failLoad q l (faultDetail 1), .nothing)
      else if l.declared < offset.toNat + words.length then (s.failLoad q l (faultDetail 2), .nothing)
      else (s, .loaderWrite) := by
  unfold State.takeLoadData
  rw [h]
  exact if_neg (not_or.2 ⟨fun he => hne (List.isEmpty_iff.1 he), Nat.not_lt.2 hlen⟩)

/-- What the Loader's write of a LOAD DATA leaves once the request is answered. -/
theorem State.loadWritten_spec (s : State) (l : OpenLoad) (offset : Half) (words : List Word) (x : Response) :
    let t := ((s.loadWritten l offset words).headGone.withResponse x).chooseFrame
    t.mem = Memory.writeBytes s.mem (s.setAddress l.set (4 * offset.toNat)) (words.flatMap wordBytes)
      ∧ t.sets.load = some { l with
          nextOffset := l.nextOffset + words.length
          runningCheck := checkRun l.runningCheck (words.flatMap wordBytes) }
      ∧ t.mgmt.requests = [] ∧ t.reportsHeld = s.reportsHeld ++ [.response x] := by
  dsimp only
  rw [State.chooseFrame_sets, State.chooseFrame_mem, State.chooseFrame_requests, State.reportsHeld_chooseFrame]
  exact ⟨rfl, rfl, rfl, State.reportsHeld_withResponse _ _⟩

/-! ### LOAD CLOSE (R69) -/

theorem exec_loadClose (corr : Byte) (check : Word) (s : State) :
    exec (.loadClose corr check) s = .next (s.request corr (.loadClose check)) := rfl

theorem State.takeLoadClose_of_none {s : State} (h : s.sets.load = none) (q : QueuedRequest) (check : Word) :
    s.takeLoadClose q check = (s.answer q .wrongState, .nothing) := by
  unfold State.takeLoadClose
  rw [h]

/-- The checks of a LOAD CLOSE with a load open, in their order. -/
theorem State.takeLoadClose_of_some {s : State} {l : OpenLoad} (h : s.sets.load = some l) (q : QueuedRequest)
    (check : Word) : s.takeLoadClose q check =
      if l.nextOffset < l.declared then (s.failLoad q l (faultDetail 3), .nothing)
      else if ~~~l.runningCheck ≠ check then (s.failLoad q l (faultDetail 4), .nothing)
      else (s, .validation) := by
  unfold State.takeLoadClose
  rw [h]
  rfl

/-- Settles O50: without a load open, the faults in their order, and each wait with its completion. -/
theorem loadDataAndClose : Obligations.LoadDataAndClose := by
  unfold Obligations.LoadDataAndClose
  intro s corr offset words check h hreserved hne hlen reply failed
  let qd : QueuedRequest := { corr := corr, request := .loadData offset words }
  let qc : QueuedRequest := { corr := corr, request := .loadClose check }
  refine ⟨fun hload => ⟨?_, ?_⟩, fun l hload => ?_⟩
  · rw [exec_loadData, State.request_refused h corr (r := qd.request) rfl
      (State.takeLoadData_of_none (s := s.taking qd) hload qd offset words)]
    rfl
  · rw [exec_loadClose, State.request_refused h corr (r := qc.request) rfl
      (State.takeLoadClose_of_none (s := s.taking qc) hload qc check)]
    rfl
  have hdata := State.takeLoadData_of_some (s := s.taking qd) hload hne hlen qd offset
  have hclose := State.takeLoadClose_of_some (s := s.taking qc) hload qc check
  refine ⟨fun horder => ?_, fun horder hover => ?_, fun horder hfits => ⟨?_, ?_⟩, fun hshort => ?_,
    fun hfull hcheck => ?_, fun hfull hcheck => ⟨?_, fun hpasses => ?_⟩⟩
  · rw [exec_loadData, State.request_failsLoad h corr (r := qd.request) rfl (hdata.trans (if_pos horder))]
    rfl
  · rw [exec_loadData, State.request_failsLoad h corr (r := qd.request) rfl
      (hdata.trans ((if_neg (not_not_intro horder)).trans (if_pos (horder ▸ hover))))]
    rfl
  · have hwaits := hdata.trans ((if_neg (not_not_intro horder)).trans (if_neg (Nat.not_lt.2 (horder ▸ hfits))))
    rw [exec_loadData, State.request_waits h corr (r := qd.request) rfl (by decide) hwaits]
  · have w := State.leftWaiting h hreserved qd .loaderWrite
    obtain ⟨hmem, hsets, hrequests, hreports⟩ := State.loadWritten_spec (s.withWaiting qd .loaderWrite).chooseFrame l
      offset words (doneResponse corr 8 (u16 (l.nextOffset + words.length)))
    rw [w.mem, w.address] at hmem
    rw [w.reports] at hreports
    exact ⟨_, exec_burstEnd_loadData w.up w.reserved w.requests w.headWait (w.sets ▸ hload), hmem, hsets, hrequests,
      hreports⟩
  · rw [exec_loadClose, State.request_failsLoad h corr (r := qc.request) rfl (hclose.trans (if_pos hshort))]
    rfl
  · rw [exec_loadClose, State.request_failsLoad h corr (r := qc.request) rfl
      (hclose.trans ((if_neg (Nat.not_lt.2 hfull)).trans (if_pos hcheck)))]
    rfl
  · have hwaits := hclose.trans ((if_neg (Nat.not_lt.2 hfull)).trans (if_neg (not_not_intro hcheck)))
    rw [exec_loadClose, State.request_waits h corr (r := qc.request) rfl (by decide) hwaits]
  · have w := State.leftWaiting h hreserved qc .validation
    obtain ⟨hsets, hmem, hrequests, hdir, hreports⟩ := State.loadClosed_spec (s.withWaiting qc .validation).chooseFrame l
      (DirEntry.validated check) (doneResponse corr 9 (halfBytes ((s.dir l.set).loadCount + 1)))
    have hentry : (s.withWaiting qc .validation).chooseFrame.dir l.set = s.dir l.set := State.dir_chooseFrame _ _
    have hexec := exec_validationEnd_of_passes (w.sets ▸ hload) w.up w.reserved w.headWait w.requests
      (w.image l.set ▸ hpasses)
    rw [hentry] at hdir hexec
    rw [w.mem] at hmem
    rw [w.reports] at hreports
    exact ⟨_, hexec, hsets, hmem, hrequests, hdir, hreports⟩

end Sys2Proof.Machine
end

section
/-! The work of an engine (R94, R97, R101): what it leaves of the state, and output bytes that fit the block in hand. -/

namespace Sys2Proof.Machine

/-! ### The state after work of an engine -/

/-- Engine `e` has worked on rendition `r`: it stands at `x`, the record is changed by `f`, frame memory holds `m`, and the
free output block list is `l`. -/
def State.worked (s : State) (e : EngineId) (r : RendRef) (f : Rendition → Rendition) (x : Engine) (m : Memory)
    (l : List Nat) : State :=
  (State.modifyRendition { s with mem := m, frameMemory := { s.frameMemory with freeBlocks := l } } r f).setEngine e x

theorem Item.modifyRendition_modifyRendition (it : Item) (i : Nat) {f g : Rendition → Rendition}
    (hf : ∀ q, (f q).index = q.index) : (it.modifyRendition i f).modifyRendition i g = it.modifyRendition i (g ∘ f) := by
  unfold Item.modifyRendition
  cases it.renditions with
  | none => rfl
  | some l =>
    simp only [Option.map_some, List.map_map]
    congr 2
    refine List.map_congr_left fun x _ => ?_
    by_cases hx : x.index = i <;> simp [hx, hf]

@[simp] theorem Item.side_modifyRendition (it : Item) (i : Nat) (f : Rendition → Rendition) (cam : Camera) :
    (it.modifyRendition i f).side cam = it.side cam := by
  cases cam <;> rfl

@[simp] theorem State.setEngine_setEngine (s : State) (e : EngineId) (x y : Engine) :
    (s.setEngine e x).setEngine e y = s.setEngine e y := by
  cases e <;> rfl

theorem State.setEngine_self (s : State) (e : EngineId) : s.setEngine e (s.engine e) = s := by
  cases e <;> rfl

@[simp] theorem State.queue_setEngine (s : State) (e : EngineId) (x : Engine) :
    (s.setEngine e x).render.queue = s.render.queue := by
  cases e <;> rfl

/-- The rendition of an entry found in its slot. -/
theorem State.rendition?_of_item {s : State} {r : RendRef} {it : Item} (h : s.item? r.slot = some it) :
    s.rendition? r = it.rendition? r.index := by
  unfold State.rendition?
  rw [h]
  rfl

theorem State.exists_item_of_rendition {s : State} {r : RendRef} {q : Rendition} (h : s.rendition? r = some q) :
    ∃ it, s.item? r.slot = some it ∧ it.rendition? r.index = some q := Option.bind_eq_some_iff.1 h

section
variable (s : State) (e : EngineId) (r : RendRef) {f g : Rendition → Rendition} (x y : Engine) (m m' : Memory)
  (l l' : List Nat)

/-- Two stretches of work on one rendition are one. -/
theorem State.worked_worked (hf : ∀ q, (f q).index = q.index) :
    (s.worked e r f x m l).worked e r g y m' l' = s.worked e r (g ∘ f) y m' l' := by
  have hitem := State.modifyItem_modifyItem { s with mem := m', frameMemory := { s.frameMemory with freeBlocks := l' } }
    r.slot (fun it => it.modifyRendition r.index f) (fun it => it.modifyRendition r.index g) fun _ => rfl
  have hcomp : ((fun it => it.modifyRendition r.index g) ∘ fun it => it.modifyRendition r.index f)
      = fun it : Item => it.modifyRendition r.index (g ∘ f) :=
    funext fun it => it.modifyRendition_modifyRendition r.index hf
  rw [hcomp] at hitem
  exact (State.setEngine_setEngine _ e x y).trans (congrArg (fun t : State => t.setEngine e y) hitem)

@[simp] theorem State.engine_worked : (s.worked e r f x m l).engine e = x := State.engine_setEngine _ e x

theorem State.engine_worked_of_ne {e' : EngineId} (h : e' ≠ e) : (s.worked e r f x m l).engine e' = s.engine e' :=
  State.engine_setEngine_of_ne _ x h

@[simp] theorem State.queue_worked : (s.worked e r f x m l).render.queue = s.render.queue :=
  State.queue_setEngine _ e x

theorem State.item?_worked {it : Item} (h : s.item? r.slot = some it) :
    (s.worked e r f x m l).item? r.slot = some (it.modifyRendition r.index f) :=
  (s.item?_modifyRendition r f).trans (congrArg (Option.map _) h)

theorem State.rendition?_worked (hf : ∀ q, (f q).index = q.index) {q : Rendition} (h : s.rendition? r = some q) :
    (s.worked e r f x m l).rendition? r = some (f q) :=
  (s.rendition?_modifyRendition r hf).trans (congrArg (Option.map _) h)

theorem State.rendition?_worked_of_ne (hf : ∀ q, (f q).index = q.index) {u : RendRef} (h : u ≠ r) :
    (s.worked e r f x m l).rendition? u = s.rendition? u := s.rendition?_modifyRendition_of_ne hf h

/-- An entry keeps everything but its records through such work. -/
theorem State.item?_worked_exists {k : Slot} {it : Item} (h : s.item? k = some it) :
    ∃ rs, (s.worked e r f x m l).item? k = some { it with renditions := rs } := by
  by_cases hk : k = r.slot
  · subst hk
    exact ⟨_, s.item?_worked e r x m l h⟩
  · exact ⟨it.renditions, (s.item?_modifyRendition_of_ne f hk).trans h⟩

/-- The urgency order does not depend on what an engine does (R88). -/
theorem State.moreUrgent_worked : (s.worked e r f x m l).moreUrgent = s.moreUrgent :=
  (State.moreUrgent_modifyItem (s := { s with mem := m, frameMemory := { s.frameMemory with freeBlocks := l } })
    (k := r.slot) (f := fun it => it.modifyRendition r.index f) fun _ => ⟨rfl, rfl, rfl, rfl⟩)

end

/-! ### Bytes written (R94, R101, R166) -/

theorem Memory.writeBytes_append (m : Memory) (a : Nat) (xs ys : List Byte) :
    Memory.writeBytes m a (xs ++ ys) = Memory.writeBytes (Memory.writeBytes m a xs) (a + xs.length) ys := by
  induction xs generalizing m a with
  | nil => rfl
  | cons v vs ih =>
    rw [List.cons_append, Memory.writeBytes, ih, Memory.writeBytes, List.length_cons, Nat.add_assoc, Nat.add_comm 1]

theorem checkRun_append (w : Word) (xs ys : List Byte) : checkRun w (xs ++ ys) = checkRun (checkRun w xs) ys :=
  List.foldl_append

/-- Bytes that fit the block in hand are written in one stretch, without a block demand. -/
theorem writeOutput_of_fits (p : WriteRules) {w : Writer} {bytes : List Byte}
    (h : w.bytesWritten + bytes.length ≤ 4096 * w.chain.length) :
    writeOutput p (writeFuel bytes.length) w bytes = (w.put p bytes, .written, []) := by
  cases bytes with
  | nil => rfl
  | cons b bs =>
    rw [List.length_cons] at h
    have hroom : bs.length + 1 ≤ w.room := by
      unfold Writer.room Config.blockBytes
      omega
    have hstretch : ∀ n v, writeOutput p n v [] = (v, .written, []) := fun n v => by cases n <;> rfl
    unfold writeFuel writeOutput
    rw [if_neg (by omega), List.take_of_length_le (by exact hroom), List.drop_eq_nil_of_le (by exact hroom), hstretch]

/-- A context after bytes have been written (R94). -/
def Context.wrote (c : Context) (bytes : List Byte) : Context :=
  { c with bytesWritten := c.bytesWritten + bytes.length, runningCheck := checkRun c.runningCheck bytes }

/-- The rendition's record with its output chain set. -/
def Rendition.withChain (l : List Nat) (q : Rendition) : Rendition := { q with chain := l }

/-- The state once the engine has gone on to the end of its strip or finish and its bytes stand in the block in hand. -/
def State.wroteAll (s : State) (e : EngineId) (r : RendRef) (it : Item) (q : Rendition) (c : Context) (out : HeldOutput) :
    State :=
  let done := (s.reduceRules it q).resume c out
  s.worked e r (Rendition.withChain q.chain)
    { s.engine e with work := some { context := (c.reached done).wrote done.bytes, output := none } }
    (s.memAfter q c done.bytes) s.frameMemory.freeBlocks

theorem State.rendition?_wroteAll {s : State} {r : RendRef} {q : Rendition} (h : s.rendition? r = some q) (e : EngineId)
    (it : Item) (c : Context) (out : HeldOutput) : (s.wroteAll e r it q c out).rendition? r = some q :=
  s.rendition?_worked e r (f := Rendition.withChain q.chain) _ _ _ (fun _ => rfl) h

theorem State.work_wroteAll (s : State) (e : EngineId) (r : RendRef) (it : Item) (q : Rendition) (c : Context)
    (out : HeldOutput) : ((s.wroteAll e r it q c out).engine e).work = some
      { context := (c.reached ((s.reduceRules it q).resume c out)).wrote ((s.reduceRules it q).resume c out).bytes
        output := none } := congrArg Engine.work (s.engine_worked e r _ _ _)

section
variable {s : State} {e : EngineId} {r : RendRef} {it : Item} {q : Rendition} {c : Context} {out : HeldOutput}
  (hit : s.item? r.slot = some it) (hq : s.rendition? r = some q)
  (hfits : c.bytesWritten + ((s.reduceRules it q).resume c out).bytes.length ≤ 4096 * q.chain.length)
include hit hq hfits

/-- Bytes that fit end the stretch: their number decides nothing else. -/
theorem State.writeEngine_of_fits : s.writeEngine e r c out =
    if out.place.isNone then ((s.wroteAll e r it q c out).finishRendition e r, .vacated)
    else (s.wroteAll e r it q c out, .atBoundary) := by
  have hwrite := writeOutput_of_fits (s.writeRules it q) (w := s.writer q c) hfits
  unfold State.writeEngine State.writeBy
  rw [hit, hq]
  dsimp only
  rw [hwrite]
  rfl

end

end Sys2Proof.Machine
end

section
/-! STRIP_READ of a strip that matches (R94, R96 to R100): the strip taken, and what the engine does at the boundary. -/

namespace Sys2Proof.Machine

/-! ### A strip boundary (R96, R98, R100) -/

/-- An engine stands at a strip boundary with rendition `r` of context `c`, which is not stopping. -/
structure State.AtBoundary (s : State) (e : EngineId) (r : RendRef) (it : Item) (q : Rendition) (c : Context) : Prop where
  held : (s.engine e).rendition = some r
  work : (s.engine e).work = some { context := c, output := none }
  item : s.item? r.slot = some it
  record : s.rendition? r = some q
  going : q.stopping = false

/-- The engine's yield request is withdrawn (R100). -/
def State.withdrawn (s : State) (e : EngineId) : State := s.setEngine e { s.engine e with yieldRequest := false }

theorem State.withdrawn_of_clear {s : State} {e : EngineId} (h : (s.engine e).yieldRequest = false) : s.withdrawn e = s := by
  have hsame : ({ s.engine e with yieldRequest := false } : Engine) = s.engine e := by rw [← h]
  unfold State.withdrawn
  rw [hsame]
  exact s.setEngine_self e

namespace State.AtBoundary

variable {s : State} {e : EngineId} {r : RendRef} {it : Item} {q : Rendition} {c : Context}

theorem withdrawn (h : s.AtBoundary e r it q c) : (s.withdrawn e).AtBoundary e r it q c where
  held := (congrArg Engine.rendition (State.engine_setEngine s e _)).trans h.held
  work := (congrArg Engine.work (State.engine_setEngine s e _)).trans h.work
  item := h.item
  record := h.record
  going := h.going

/-- The decisions at a boundary that a yield request has no part in (R96). -/
theorem boundary_eq (h : s.AtBoundary e r it q c) : s.boundary e =
    if consumedInput q (it.side q.descriptor.side) c.nextStrip then s.startFinish e r c
    else if consumable q.descriptor (it.side q.descriptor.side) c.nextStrip then s
    else s.pauseRendition e r c := by
  unfold State.boundary
  rw [h.held, h.work]
  dsimp only
  rw [h.item, h.record]
  dsimp only
  rw [h.going]
  rfl

/-- With its input consumed the rendition is finished, asked to yield or not (R96, R97). -/
theorem boundaryYield_of_consumed (h : s.AtBoundary e r it q c)
    (hdone : consumedInput q (it.side q.descriptor.side) c.nextStrip = true) :
    s.boundaryYield e = s.startFinish e r c := by
  have hfinish : s.boundary e = s.startFinish e r c := by rw [h.boundary_eq, hdone]; rfl
  unfold State.boundaryYield
  rw [h.held, h.work]
  cases (s.engine e).yieldRequest with
  | false => exact hfinish
  | true =>
    dsimp only
    rw [h.item, h.record]
    dsimp only
    rw [hdone, Bool.or_true]
    exact hfinish

/-- With no ready rendition in the queue a yield request is withdrawn (R100). -/
theorem boundaryYield_of_unready (h : s.AtBoundary e r it q c)
    (hmore : consumedInput q (it.side q.descriptor.side) c.nextStrip = false) (hready : s.readyQueue = []) :
    s.boundaryYield e = (s.withdrawn e).boundary e := by
  unfold State.boundaryYield
  rw [h.held, h.work]
  cases hyield : (s.engine e).yieldRequest with
  | false => rw [State.withdrawn_of_clear hyield]
  | true =>
    dsimp only
    rw [h.item, h.record]
    dsimp only
    rw [h.going, hmore, hready]
    rfl

/-- Asked to yield to a more urgent ready rendition, the engine sets its own aside and takes that one (R98, R100). -/
theorem boundaryYield_of_urgent (h : s.AtBoundary e r it q c) (hyield : (s.engine e).yieldRequest = true)
    (hmore : consumedInput q (it.side q.descriptor.side) c.nextStrip = false) {u : RendRef} {l : List RendRef}
    (hready : s.readyQueue = u :: l) (hurgent : s.moreUrgent u r = true) :
    s.boundaryYield e = ((s.pauseRendition e r c).takeRendition e u).offerReady r := by
  unfold State.boundaryYield
  rw [h.held, h.work, hyield]
  dsimp only
  rw [h.item, h.record]
  dsimp only
  rw [h.going, hmore, hready]
  dsimp only
  rw [hurgent]
  rfl

end State.AtBoundary

/-- The last strip of a COMPLETE side, or a height of 0, is an input consumed (R89). -/
theorem consumedInput_of_last {x : Side} {q : Rendition} {n : Nat} (hcomplete : x.capture = .complete)
    (hlast : q.height = some 0 ∨ (x.lines - q.descriptor.tail - 1) / 32 < n) : consumedInput q x n = true := by
  unfold consumedInput Config.stripLines
  rw [hcomplete]
  simpa using hlast

/-- On a side still being captured strip `n` is consumable once it is sealed and the tail's lines stand beyond it (R90). -/
theorem consumable_open {x : Side} (h : x.capture ≠ .complete) (d : Descriptor) (n : Nat) :
    consumable d x n = decide (n < x.sealedCount ∧ 32 * (n + 1) + d.tail ≤ x.lines) := by
  unfold consumable Config.stripLines
  rw [decide_eq_false h, Bool.false_or, Bool.decide_and]

/-! ### A rendition set aside (R98) -/

/-- A record set aside with its context. -/
def Rendition.paused (c : Context) (q : Rendition) : Rendition := { q with state := .paused, context := some c }

/-- A rendition that joins a queue of one, which ranks before it, waits behind it (R88). -/
theorem State.queue_enqueue {s : State} {r : RendRef} {l : List RendRef} (hl : s.render.queue = l)
    (h : l = [] ∨ ∃ u, l = [u] ∧ s.moreUrgent u r = true) : (s.enqueue r).render.queue = l ++ [r] := by
  have hqueue : (s.enqueue r).render.queue = sortUrgent s.moreUrgent (s.render.queue ++ [r]) := by
    have hmore : State.moreUrgent { s with render := { s.render with queue := s.render.queue ++ [r] } } = s.moreUrgent :=
      State.moreUrgent_congr rfl rfl
    unfold State.enqueue State.rankQueue
    rw [hmore]
  rw [hqueue, hl]
  rcases h with rfl | ⟨u, rfl, hu⟩
  · rfl
  · simp [sortUrgent, insertUrgent, hu]

theorem State.pauseRendition_eq (s : State) (e : EngineId) (r : RendRef) (c : Context) : s.pauseRendition e r c
    = (s.worked e r (Rendition.paused c) State.idleEngine s.mem s.frameMemory.freeBlocks).enqueue r := rfl

theorem State.rendition?_pauseRendition {s : State} {r : RendRef} {q : Rendition} (h : s.rendition? r = some q)
    (e : EngineId) (c : Context) : (s.pauseRendition e r c).rendition? r = some (q.paused c) :=
  s.rendition?_worked e r (f := Rendition.paused c) State.idleEngine s.mem s.frameMemory.freeBlocks (fun _ => rfl) h

theorem State.rendition?_pauseRendition_of_ne (s : State) {r u : RendRef} (h : u ≠ r) (e : EngineId) (c : Context) :
    (s.pauseRendition e r c).rendition? u = s.rendition? u :=
  s.rendition?_worked_of_ne e r (f := Rendition.paused c) State.idleEngine s.mem s.frameMemory.freeBlocks (fun _ => rfl) h

theorem State.engine_pauseRendition (s : State) (e : EngineId) (r : RendRef) (c : Context) :
    (s.pauseRendition e r c).engine e = State.idleEngine :=
  s.engine_worked e r (f := Rendition.paused c) State.idleEngine s.mem s.frameMemory.freeBlocks

theorem State.item?_pauseRendition {s : State} {r : RendRef} {it : Item} (h : s.item? r.slot = some it) (e : EngineId)
    (c : Context) : (s.pauseRendition e r c).item? r.slot = some (it.modifyRendition r.index (Rendition.paused c)) :=
  s.item?_worked e r (f := Rendition.paused c) State.idleEngine s.mem s.frameMemory.freeBlocks h

/-- A rendition set aside because its next strip is not consumable is not ready (R91). -/
theorem State.AtBoundary.unready_paused {s : State} {e : EngineId} {r : RendRef} {it : Item} {q : Rendition} {c : Context}
    (h : s.AtBoundary e r it q c) (hopen : (it.side q.descriptor.side).capture ≠ .complete)
    (hnext : consumable q.descriptor (it.side q.descriptor.side) c.nextStrip = false) :
    (s.pauseRendition e r c).ready r = false := by
  unfold State.ready
  rw [State.item?_pauseRendition h.item, State.rendition?_pauseRendition h.record]
  dsimp only
  rw [Item.side_modifyRendition]
  change (consumable q.descriptor (it.side q.descriptor.side) c.nextStrip
    || consumedInput _ (it.side q.descriptor.side) c.nextStrip) = false
  rw [hnext, consumedInput_of_open hopen]
  rfl

/-! ### A strip that matches (R94) -/

/-- The state as the engine stands at the boundary after its strip: the strip's lines reduced, their bytes written. -/
def State.stripTaken (s : State) (e : EngineId) (r : RendRef) (it : Item) (q : Rendition) (c : Context)
    (strip : ChainStrip) : State :=
  s.worked e r (Rendition.withChain q.chain)
    { s.engine e with work := some { context := s.contextAfter it q c strip, output := none } }
    (s.memAfter q c (s.reduceStrip it q c strip).bytes) s.frameMemory.freeBlocks

theorem State.rendition?_stripTaken_of_ne (s : State) {r u : RendRef} (h : u ≠ r) (e : EngineId) (it : Item) (q : Rendition)
    (c : Context) (strip : ChainStrip) : (s.stripTaken e r it q c strip).rendition? u = s.rendition? u :=
  s.rendition?_worked_of_ne e r (f := Rendition.withChain q.chain) _ _ _ (fun _ => rfl) h

theorem exec_stripRead (s : State) (e : EngineId) : exec (.stripRead e) s = .next (s.stripRead e).chooseFrame := rfl

theorem State.stripRead_of_ne {s : State} {e : EngineId} (h : (s.engine e).state ≠ .running) : s.stripRead e = s := by
  unfold State.stripRead
  split
  · exact absurd ‹_› h
  · rfl

section
variable {s : State} {e : EngineId} {r : RendRef} {it : Item} {q : Rendition} {c : Context} {strip : ChainStrip}

theorem State.Reads.stripRead (h : s.Reads e r it q c strip) : s.stripRead e = s.readStrip e r q c strip := by
  unfold State.stripRead
  rw [h.running, h.held, h.work]
  dsimp only
  rw [h.item, h.record]
  dsimp only
  rw [h.strip]

/-- With bytes that fit, the engine comes to the boundary after the strip, and engines left IDLE are offered work. -/
theorem State.Reads.exec_of_matches (h : s.Reads e r it q c strip) (hm : s.Matches strip)
    (hfits : c.bytesWritten + (s.reduceStrip it q c strip).bytes.length ≤ 4096 * q.chain.length) :
    exec (.stripRead e) s = .next ((s.stripTaken e r it q c strip).boundaryYield e).dispatch.chooseFrame := by
  have hmatch : s.stripMatches strip = true := by
    unfold State.stripMatches
    rw [show checkWord? _ _ = _ from hm]
    exact beq_self_eq_true _
  have htaken : (s.wroteAll e r it q c (s.stripStart c strip)).setEngine e { s.engine e with
      work := some { context := s.contextAfter it q c strip, output := none } } = s.stripTaken e r it q c strip :=
    State.setEngine_setEngine _ e _ _
  have hend : (s.wroteAll e r it q c (s.stripStart c strip)).endStrip e
      = ((s.stripTaken e r it q c strip).boundaryYield e).dispatch := by
    have hengine : (s.wroteAll e r it q c (s.stripStart c strip)).engine e = _ := State.engine_worked _ e r _ _ _
    unfold State.endStrip
    rw [hengine, ← htaken]
    rfl
  rw [exec_stripRead, h.stripRead]
  unfold State.readStrip
  rw [if_pos hmatch, State.writeEngine_of_fits h.item h.record hfits, ← hend]
  rfl

theorem State.Reads.atBoundary (h : s.Reads e r it q c strip) : (s.stripTaken e r it q c strip).AtBoundary e r
    (it.modifyRendition r.index (Rendition.withChain q.chain)) q (s.contextAfter it q c strip) where
  held := (congrArg Engine.rendition (State.engine_worked _ e r _ _ _)).trans h.held
  work := congrArg Engine.work (State.engine_worked _ e r _ _ _)
  item := State.item?_worked _ e r _ _ _ h.item
  record := State.rendition?_worked _ e r _ _ _ (f := Rendition.withChain q.chain) (fun _ => rfl) h.record
  going := h.going

/-! ### The engine goes on (R96) -/

/-- On a side still being captured, with nothing in the render queue, the engine reads the next strip if it is
consumable, and sets its rendition aside if it is not (R96, R98). -/
theorem State.Reads.boundaryYield_of_nil (h : s.Reads e r it q c strip)
    (hopen : (it.side q.descriptor.side).capture ≠ .complete) (hqueue : s.render.queue = []) :
    (s.stripTaken e r it q c strip).boundaryYield e =
      if consumable q.descriptor (it.side q.descriptor.side) (c.nextStrip + 1) then (s.stripTaken e r it q c strip).withdrawn e
      else ((s.stripTaken e r it q c strip).withdrawn e).pauseRendition e r (s.contextAfter it q c strip) := by
  have hready : (s.stripTaken e r it q c strip).readyQueue = [] := by
    unfold State.readyQueue State.stripTaken
    rw [State.queue_worked, hqueue]
    rfl
  have hmore := consumedInput_of_open (x := (it.modifyRendition r.index (Rendition.withChain q.chain)).side
    q.descriptor.side) (by rw [Item.side_modifyRendition]; exact hopen) q (s.contextAfter it q c strip).nextStrip
  rw [h.atBoundary.boundaryYield_of_unready hmore hready, h.atBoundary.withdrawn.boundary_eq, hmore,
    if_neg Bool.false_ne_true, Item.side_modifyRendition]
  rfl

theorem State.withdrawn_stripTaken : (s.stripTaken e r it q c strip).withdrawn e
    = s.worked e r (Rendition.withChain q.chain)
        { s.engine e with yieldRequest := false, work := some { context := s.contextAfter it q c strip, output := none } }
        (s.memAfter q c (s.reduceStrip it q c strip).bytes) s.frameMemory.freeBlocks := by
  unfold State.withdrawn State.stripTaken
  rw [State.engine_worked]
  exact State.setEngine_setEngine _ e _ _

end

end Sys2Proof.Machine
end

section
/-! An engine asked to yield to the one rendition of the render queue, and more urgent than its own (R98 to R100). -/

namespace Sys2Proof.Machine

/-- A queued rendition of another record stays as ready as it was through the work of an engine. -/
theorem State.Consumes.worked {s : State} {u r : RendRef} {v : Item} {qu : Rendition} {n : Nat} (h : s.Consumes u v qu n)
    (hne : u ≠ r) {f : Rendition → Rendition} (hf : ∀ q, (f q).index = q.index) (e : EngineId) (x : Engine) (m : Memory)
    (l : List Nat) : ∃ v', (s.worked e r f x m l).Consumes u v' qu n ∧ ∀ cam, v'.side cam = v.side cam := by
  obtain ⟨rs, hrs⟩ := s.item?_worked_exists e r (f := f) x m l h.item
  have hside : ∀ cam, ({ v with renditions := rs } : Item).side cam = v.side cam := fun cam => by cases cam <;> rfl
  exact ⟨_, ⟨hrs, (s.rendition?_worked_of_ne e r x m l hf hne).trans h.record, h.going, by rw [hside]; exact h.capture,
    h.strip, by rw [hside]; exact h.lines⟩, hside⟩

/-- An engine whose rendition is not below the newcomer is not asked to yield to it (R99). -/
theorem State.engine_requestYield_of_above {s : State} {r u : RendRef} {e : EngineId}
    (hheld : (s.engine e).rendition = some u) (habove : s.moreUrgent r u = false) :
    (s.requestYield r).engine e = s.engine e := by
  unfold State.requestYield
  split
  · rfl
  · split
    · split
      · rfl
      · rename_i least hleast
        split
        · rfl
        · rename_i e' hholder
          refine State.engine_setEngine_of_ne _ _ fun hsame => ?_
          have hholds : (s.engine e').rendition = some least := by simpa using List.find?_some hholder
          obtain ⟨-, -, -, -, hbelow⟩ := State.mem_yieldCandidates.1 (mem_sortUrgent.1 (List.mem_of_getLast? hleast))
          rw [← hsame, hheld] at hholds
          rw [← Option.some.inj hholds, habove] at hbelow
          exact Bool.false_ne_true hbelow
    · rfl

/-- The state once engine `e` has set rendition `r` aside and taken `u` in its place, before `r` is offered an engine. -/
def State.yieldedTo (s : State) (e : EngineId) (r : RendRef) (c : Context) (u : RendRef) (qu : Rendition) : State :=
  (s.pauseRendition e r c).rendTaken e u qu

section
variable {s : State} {e : EngineId} {r u : RendRef} {it v : Item} {q qu : Rendition} {c : Context}
  (h : s.AtBoundary e r it q c) (hu : s.Consumes u v qu (v.side qu.descriptor.side).sealedCount)
  (hqueue : s.render.queue = [u]) (hne : u ≠ r) (hurgent : s.moreUrgent u r = true)

theorem State.Consumes.readyQueue (hu : s.Consumes u v qu (v.side qu.descriptor.side).sealedCount)
    (hqueue : s.render.queue = [u]) : s.readyQueue = [u] := by
  unfold State.readyQueue
  rw [hqueue, List.filter_cons_of_pos (by rw [hu.ready_eq]; exact decide_eq_true hu.strip)]
  rfl

include hu hne in
/-- The rendition `u` is taken as it waited, `r` being aside. -/
theorem State.takeRendition_paused : (s.pauseRendition e r c).takeRendition e u = s.yieldedTo e r c u qu := by
  obtain ⟨v', hv', hside⟩ := hu.worked hne (f := Rendition.paused c) (fun _ => rfl) e State.idleEngine s.mem
    s.frameMemory.freeBlocks
  have hpaused : (s.pauseRendition e r c).Consumes u v' qu (v'.side qu.descriptor.side).sealedCount := by
    rw [hside]
    exact ⟨hv'.item, hv'.record, hv'.going, hv'.capture, hv'.strip, hv'.lines⟩
  exact hpaused.takeRendition e

include hqueue hurgent in
theorem State.queue_yieldedTo (hne : u ≠ r) : (s.yieldedTo e r c u qu).render.queue = [r] := by
  have hpaused : (s.pauseRendition e r c).render.queue = [u] ++ [r] := by
    rw [State.pauseRendition_eq]
    refine State.queue_enqueue (by rw [State.queue_worked]; exact hqueue) (Or.inr ⟨u, rfl, ?_⟩)
    rw [State.moreUrgent_worked]
    exact hurgent
  have htaken : (s.yieldedTo e r c u qu).render.queue = (s.pauseRendition e r c).render.queue.filter (· != u) := by
    unfold State.yieldedTo State.rendTaken
    rw [State.queue_setEngine]
    rfl
  rw [htaken, hpaused]
  simp [hne.symm]

theorem State.engine_yieldedTo : (s.yieldedTo e r c u qu).engine e = State.runningOn u (State.startContext qu) :=
  State.engine_setEngine _ e _

theorem State.engine_yieldedTo_of_ne {e' : EngineId} (hother : e' ≠ e) : (s.yieldedTo e r c u qu).engine e' = s.engine e' :=
  (State.engine_setEngine_of_ne _ _ hother).trans (s.engine_worked_of_ne e r _ _ _ hother)

include h hne in
theorem State.rendition?_yieldedTo_aside :
    (s.yieldedTo e r c u qu).rendition? r = some { q with state := .paused, context := some c } :=
  (((s.pauseRendition e r c).dequeue u).rendition?_modifyRendition_of_ne (by exact fun _ => rfl) hne.symm).trans
    (State.rendition?_pauseRendition h.record e c)

include hne in
theorem State.rendition?_yieldedTo_taken (hrecord : s.rendition? u = some qu) :
    (s.yieldedTo e r c u qu).rendition? u = some { qu with state := .running, context := none } :=
  (((s.pauseRendition e r c).dequeue u).rendition?_modifyRendition u (by exact fun _ => rfl)).trans
    (congrArg (Option.map _) ((s.rendition?_pauseRendition_of_ne hne e c).trans hrecord))

theorem State.moreUrgent_yieldedTo : (s.yieldedTo e r c u qu).moreUrgent = s.moreUrgent := by
  have hrend := State.moreUrgent_modifyItem (s := (s.pauseRendition e r c).dequeue u) (k := u.slot)
    (f := fun it => it.modifyRendition u.index fun q => { q with state := .running, context := none })
    fun _ => ⟨rfl, rfl, rfl, rfl⟩
  have hpaused : ((s.pauseRendition e r c).dequeue u).moreUrgent = (s.worked e r (Rendition.paused c) State.idleEngine s.mem
      s.frameMemory.freeBlocks).moreUrgent := State.moreUrgent_congr rfl rfl
  rw [State.moreUrgent_worked] at hpaused
  exact hrend.trans hpaused

include h hu hqueue hne hurgent in
/-- The whole of it: the rendition set aside waits alone in the queue, the engine is on the urgent one, and nothing else
changes but yield requests of other engines. -/
theorem State.AtBoundary.yields (hopen : (it.side q.descriptor.side).capture ≠ .complete)
    (hyield : (s.engine e).yieldRequest = true) (hbusy : ∀ e', (s.engine e').state ≠ .idle)
    (habove : s.moreUrgent r u = false) :
    ∃ d : Render, (s.boundaryYield e).dispatch = { s.yieldedTo e r c u qu with render := d } ∧ d.queue = [r]
      ∧ d.engine e = State.runningOn u (State.startContext qu) := by
  have hnoIdle : ∀ e', ((s.yieldedTo e r c u qu).engine e').state ≠ .idle := fun e' => by
    by_cases hother : e' = e
    · rw [hother, State.engine_yieldedTo]
      exact EngineState.noConfusion
    · rw [State.engine_yieldedTo_of_ne hother]
      exact hbusy e'
  obtain ⟨d, hd, hdqueue, hwork⟩ := (s.yieldedTo e r c u qu).requestYield_shape r
  have hyields : s.boundaryYield e = { s.yieldedTo e r c u qu with render := d } := by
    rw [h.boundaryYield_of_urgent hyield (consumedInput_of_open hopen q _) (hu.readyQueue hqueue) hurgent,
      State.takeRendition_paused hu hne, State.offerReady_of_busy hnoIdle, hd]
  have hengine := State.engine_requestYield_of_above (s := s.yieldedTo e r c u qu) (r := r) (e := e) (u := u)
    (by rw [State.engine_yieldedTo]; rfl) (by rw [State.moreUrgent_yieldedTo]; exact habove)
  rw [hd, State.engine_yieldedTo] at hengine
  refine ⟨d, ?_, hdqueue.trans (State.queue_yieldedTo hqueue hurgent hne), hengine⟩
  rw [hyields]
  exact State.dispatch_of_busy fun e' hidle => hnoIdle e' ((hwork e').1.symm.trans hidle)

end

end Sys2Proof.Machine
end

section
/-! The last strip of a rendition (R97, R107): its last bytes, its record RENDERED, and how it settles. -/

namespace Sys2Proof.Machine

/-! ### The last bytes (R97, R121) -/

/-- Two stretches that fit one block stand in it one after the other. -/
theorem memAfter_append {s t : State} {q : Rendition} {c c' : Context} {xs ys : List Byte} (hmem : t.mem = s.memAfter q c xs)
    (hmap : t.frameMemory.map = s.frameMemory.map) (hbytes : c'.bytesWritten = c.bytesWritten + xs.length)
    (hfits : State.Fits q c (xs ++ ys)) : t.memAfter q c' ys = s.memAfter q c (xs ++ ys) := by
  obtain ⟨hlast, hroom⟩ := hfits
  rw [List.length_append] at hroom
  unfold State.memAfter at hmem ⊢
  cases ys with
  | nil =>
    rw [List.append_nil, ← hmem]
    rfl
  | cons y ys =>
    rw [List.length_cons] at hroom
    have hplace : (c.bytesWritten + xs.length) % 4096 = c.bytesWritten % 4096 + xs.length := by omega
    rw [Memory.writeBytes_append, ← hmem, hmap, hbytes, hplace]
    simp only [Nat.add_assoc]

/-- The record of a rendition finished, its bytes in a chain (R97). -/
def Rendition.rendered (l : List Nat) (length : Nat) (register : Word) (q : Rendition) : Rendition :=
  { q with chain := l, state := .rendered, length := some length, check := some (checkComplete register) }

theorem State.finishRendition_eq {s : State} {e : EngineId} {r : RendRef} {q : Rendition} {w : EngineWork}
    (hq : s.rendition? r = some q) (hw : (s.engine e).work = some w) (hs : q.stopping = false) :
    s.finishRendition e r = State.settleRendered (s.worked e r (fun q => { q with
      state := .rendered, length := some w.context.bytesWritten, check := some (checkComplete w.context.runningCheck) })
      State.idleEngine s.mem s.frameMemory.freeBlocks) r := by
  unfold State.finishRendition
  rw [hq, hw]
  dsimp only
  rw [hs]
  rfl

/-- A finish whose last byte fits: the coder's bits are padded and written, and the rendition is RENDERED (R97, R121). -/
theorem State.startFinish_of_fits {s : State} {e : EngineId} {r : RendRef} {it : Item} {q : Rendition} {c : Context}
    (hit : s.item? r.slot = some it) (hq : s.rendition? r = some q) (hs : q.stopping = false)
    (hfits : c.bytesWritten + (paddedByte c.coder).length ≤ 4096 * q.chain.length) :
    s.startFinish e r c = State.settleRendered (s.worked e r
      (Rendition.rendered q.chain (c.bytesWritten + (paddedByte c.coder).length) (checkRun c.runningCheck (paddedByte c.coder)))
      State.idleEngine (s.memAfter q c (paddedByte c.coder)) s.frameMemory.freeBlocks) r := by
  have hwrite := State.writeEngine_of_fits (s := s) (e := e) (c := { c with coder := [] })
    (out := { bytes := paddedByte c.coder, place := none }) hit hq hfits
  unfold State.startFinish
  rw [hwrite.trans (if_pos rfl)]
  exact (State.finishRendition_eq (State.rendition?_wroteAll hq e it _ _) (s.work_wroteAll e r it q _ _) hs).trans
    (congrArg (fun t : State => t.settleRendered r) (State.worked_worked s e r _ _ _ _ _ _ fun _ => rfl))

/-- The state once the rendition's last bytes stand in the block in hand and its record is RENDERED, not yet settled. -/
def State.stripFinished (s : State) (e : EngineId) (r : RendRef) (it : Item) (q : Rendition) (c : Context)
    (strip : ChainStrip) : State :=
  s.worked e r (Rendition.rendered q.chain (c.bytesWritten + (s.lastBytes it q c strip).length)
      (checkRun c.runningCheck (s.lastBytes it q c strip)))
    State.idleEngine (s.memAfter q c (s.lastBytes it q c strip)) s.frameMemory.freeBlocks

section
variable {s : State} {e : EngineId} {r : RendRef} {it : Item} {q : Rendition} {c : Context} {strip : ChainStrip}

theorem State.lastBytes_length (s : State) (it : Item) (q : Rendition) (c : Context) (strip : ChainStrip) :
    c.bytesWritten + (s.lastBytes it q c strip).length = (s.contextAfter it q c strip).bytesWritten
      + (paddedByte (s.contextAfter it q c strip).coder).length := by
  unfold State.lastBytes
  rw [List.length_append, ← Nat.add_assoc]
  rfl

/-- The finish of the boundary after the last strip. -/
theorem State.Reads.startFinish_of_last (h : s.Reads e r it q c strip) (hlast : s.ReadsLast it q c strip) :
    (s.stripTaken e r it q c strip).startFinish e r (s.contextAfter it q c strip)
      = (s.stripFinished e r it q c strip).settleRendered r := by
  have hb := h.atBoundary
  have hfits := hlast.fits.2
  rw [State.lastBytes_length] at hfits
  have hmem : (s.stripTaken e r it q c strip).memAfter q (s.contextAfter it q c strip)
      (paddedByte (s.contextAfter it q c strip).coder) = s.memAfter q c (s.lastBytes it q c strip) :=
    memAfter_append rfl rfl rfl hlast.fits
  have hcheck : checkRun (s.contextAfter it q c strip).runningCheck (paddedByte (s.contextAfter it q c strip).coder)
      = checkRun c.runningCheck (s.lastBytes it q c strip) := (checkRun_append _ _ _).symm
  rw [State.startFinish_of_fits hb.item hb.record hb.going hfits, hmem, hcheck, ← State.lastBytes_length]
  exact congrArg (fun t : State => t.settleRendered r) (State.worked_worked s e r _ _ _ _ _ _ fun _ => rfl)

/-- STRIP_READ of the last strip: the rendition is finished and settles; engines left IDLE are offered work (R96, R97). -/
theorem State.Reads.exec_of_last (h : s.Reads e r it q c strip) (hm : s.Matches strip)
    (hlast : s.ReadsLast it q c strip) :
    exec (.stripRead e) s = .next ((s.stripFinished e r it q c strip).settleRendered r).dispatch.chooseFrame := by
  have hfits : c.bytesWritten + (s.reduceStrip it q c strip).bytes.length ≤ 4096 * q.chain.length := by
    have hroom := hlast.fits.2
    unfold State.lastBytes at hroom
    rw [List.length_append] at hroom
    omega
  have hdone := consumedInput_of_last (x := (it.modifyRendition r.index (Rendition.withChain q.chain)).side
    q.descriptor.side) (by rw [Item.side_modifyRendition]; exact hlast.complete)
    (by rw [Item.side_modifyRendition]; exact hlast.last)
  rw [h.exec_of_matches hm hfits, h.atBoundary.boundaryYield_of_consumed hdone, h.startFinish_of_last hlast]

theorem State.Reads.rendition?_stripFinished (h : s.Reads e r it q c strip) :
    (s.stripFinished e r it q c strip).rendition? r = some (s.finished it q c strip) :=
  State.rendition?_worked s e r (f := Rendition.rendered _ _ _) _ _ _ (fun _ => rfl) h.record

theorem State.Reads.item?_stripFinished (h : s.Reads e r it q c strip) :
    (s.stripFinished e r it q c strip).item? r.slot = some (it.modifyRendition r.index (Rendition.rendered q.chain
      (c.bytesWritten + (s.lastBytes it q c strip).length) (checkRun c.runningCheck (s.lastBytes it q c strip)))) :=
  State.item?_worked s e r _ _ _ h.item

end

/-! ### A later generation settles (R107) -/

/-- A rendition of a later generation becomes eligible and joins the emission queue at once. -/
theorem State.settleRendered_of_later {s : State} {r : RendRef} {it : Item} (hit : s.item? r.slot = some it)
    (hg : 1 ≤ it.generation) : s.settleRendered r = { s.modifyRendition r (fun q => { q with eligible := true }) with
      emitter := { s.emitter with queue := s.emitter.queue ++ [.rendition r] } } := by
  unfold State.settleRendered
  rw [hit]
  exact if_neg (Nat.ne_of_gt hg)

end Sys2Proof.Machine
end

section
/-! ADVICE_SENT and the ADVICE composed when the last rendition of an item settles (O31). -/

namespace Sys2Proof.Machine

/-! ### The ADVICE being sent (R138, R141, R198) -/

theorem exec_adviceSent {s : State} (hup : s.links.track.up = true) :
    exec .adviceSent s = .next { s with adviceOut := s.adviceOut.sent } := by
  change Host.Outcome.next _ = _
  rw [hup]
  rfl

/-- What is being sent while the track link is UP: the leftover ADVICE, or else the head of the queue. -/
theorem State.frameSent_track {s : State} (hup : s.links.track.up = true) :
    s.frameSent .track = (s.adviceOut.leftover.or s.adviceOut.queue.head?).map adviceFields := by
  unfold State.frameSent State.adviceInProgress
  rw [if_pos (show s.linkUp .track = true from hup)]

theorem State.laneOut_of_advice {s : State} (hup : s.links.track.up = true) {a : Advice}
    (ha : s.adviceOut.leftover.or s.adviceOut.queue.head? = some a) : s.laneOut .track = frameChars 9
      (halfBytes a.tag ++ [BitVec.ofNat 8 (verdictCode a.verdict), BitVec.ofNat 8 (adviceCauseCode a.cause)]) := by
  unfold State.laneOut
  rw [State.frameSent_track hup, ha]
  rfl

/-- With nothing to send the lane of a LOCKED link that is UP carries IDLE (R196). -/
theorem State.laneOut_of_noAdvice {s : State} (hup : s.links.track.up = true) (hlocked : s.links.track.locked = true)
    (ha : s.adviceOut = { queue := [], leftover := none }) : s.laneOut .track = [.idle] := by
  have hidle : betweenFrames (s.links.link .track) = .idle := by
    unfold betweenFrames
    rw [show (s.links.link .track).locked = true from hlocked, show (s.links.link .track).up = true from hup]
    rfl
  unfold State.laneOut
  rw [State.frameSent_track hup, ha, hidle]
  rfl

/-! ### Advice on settling (R132, R133) -/

/-- The summary test changes the summary list only (R143). -/
theorem State.testSummary_shape (s : State) (k : Slot) :
    ∃ l, s.testSummary k = { s with emitter := { s.emitter with summaryList := l } } := by
  unfold State.testSummary
  split
  · exact ⟨s.emitter.summaryList, rfl⟩
  · split
    · exact ⟨_, rfl⟩
    · exact ⟨s.emitter.summaryList, rfl⟩

@[simp] theorem State.composeAdvice_emitter (s : State) (a : Advice) : (s.composeAdvice a).emitter = s.emitter := by
  unfold State.composeAdvice
  dsimp only
  split <;> rfl

/-- An entry whose advice has been given on settling (R133). -/
def Item.advised (v : Verdict) (c : AdviceCause) (x : Item) : Item := { x.markEligible with advice := some (v, c) }

/-- After the advice every RENDERED rendition is eligible. -/
theorem Item.eligible_of_advised {x : Item} {v : Verdict} {c : AdviceCause} {y : Rendition}
    (hy : y ∈ (x.advised v c).renditions.getD []) (hs : y.state = .rendered) : y.eligible = true := by
  unfold Item.advised Item.markEligible at hy
  cases hr : x.renditions with
  | none =>
    rw [hr] at hy
    cases hy
  | some rs =>
    rw [hr] at hy
    obtain ⟨z, -, rfl⟩ := List.mem_map.1 hy
    split
    · rfl
    · rename_i hz
      rw [if_neg hz] at hs
      exact absurd hs hz

/-- What the advice on settling changes, with a place free in the advice queue. -/
structure State.Advised (s t : State) (x : Item) (v : Verdict) (c : AdviceCause) : Prop where
  item : t.item? x.slot = some (x.advised v c)
  advice : t.adviceOut.queue = s.adviceOut.queue ++ [{ tag := x.announcedTag, verdict := v, cause := c }]
  emission : t.emitter.queue
    = s.emitter.queue ++ x.renderedIndices.map fun i => .rendition { slot := x.slot, index := i }
  render : t.render = s.render

/-- The entry advised and the ADVICE composed. -/
def State.adviceTold (s : State) (x : Item) (v : Verdict) (c : AdviceCause) : State :=
  (s.modifyItem x.slot (Item.advised v c)).composeAdvice { tag := x.announcedTag, verdict := v, cause := c }

/-- The eligible renditions in the emission queue, before the summary test. -/
def State.adviceJoined (s : State) (x : Item) (v : Verdict) (c : AdviceCause) : State :=
  { s.adviceTold x v c with emitter := { (s.adviceTold x v c).emitter with
    queue := (s.adviceTold x v c).emitter.queue ++ x.renderedIndices.map fun i => .rendition { slot := x.slot, index := i } } }

theorem State.adviseSettled_advised {s : State} {x : Item} (h : s.item? x.slot = some x) (hroom : s.AdviceRoom)
    (v : Verdict) (c : AdviceCause) : s.Advised (s.adviseSettled x v c) x v c := by
  obtain ⟨l, hl⟩ := (s.adviceJoined x v c).testSummary_shape x.slot
  have htable : (s.adviceTold x v c).table = (s.modifyItem x.slot (Item.advised v c)).table := State.composeAdvice_table _ _
  have hemitter : (s.adviceTold x v c).emitter = s.emitter := State.composeAdvice_emitter _ _
  rw [show s.adviseSettled x v c = (s.adviceJoined x v c).testSummary x.slot from rfl, hl]
  refine ⟨(State.item?_congr htable x.slot).trans ?_, ?_, ?_, State.composeAdvice_render _ _⟩
  · exact (State.item?_modifyItem (f := Item.advised v c) fun _ => rfl).trans (congrArg (Option.map _) h)
  · exact State.adviceQueue_composeAdvice (s := s.modifyItem x.slot (Item.advised v c)) hroom.1 hroom.2
  · unfold State.adviceJoined
    rw [hemitter]

/-- An item ready for advice gets the one that its verdict names. -/
theorem State.adviseOnSettling_of_due {s : State} {k : Slot} {x : Item} {v : Verdict} {c : AdviceCause}
    (h : s.item? k = some x) (hdue : x.adviceDue = true) (hv : s.verdict? x = some v)
    (hcause : (v = .accept ∧ c = .none) ∨ (v = .flagged ∧ c = .quality)) :
    s.adviseOnSettling k = s.adviseSettled x v c := by
  unfold State.adviseOnSettling
  rw [h]
  dsimp only
  rw [if_pos hdue, hv]
  rcases hcause with ⟨rfl, rfl⟩ | ⟨rfl, rfl⟩ <;> rfl

/-! ### The last unsettled rendition finished (R97, R107) -/

theorem State.settleRendered_of_first {s : State} {r : RendRef} {it : Item} (hit : s.item? r.slot = some it)
    (hg : it.generation = 0) : s.settleRendered r = s.adviseOnSettling r.slot := by
  unfold State.settleRendered
  rw [hit]
  exact if_pos hg

section
variable {it : Item} {i : Nat} {f : Rendition → Rendition} (hf : ∀ q, (f q).index = q.index)
  (hs : ∀ q, (f q).state = .rendered)
include hs

/-- With one record made RENDERED and the others settled before, every record is settled. -/
theorem Item.settled_modifyRendition
    (hothers : ∀ y ∈ it.renditions.getD [], y.index ≠ i → y.state = .rendered ∨ y.state = .dropped) :
    ((it.modifyRendition i f).renditions.getD []).all Rendition.settled = true := by
  unfold Item.modifyRendition
  cases hr : it.renditions with
  | none => rfl
  | some rs =>
    rw [hr] at hothers
    refine List.all_eq_true.2 fun z hz => ?_
    obtain ⟨y, hy, rfl⟩ := List.mem_map.1 hz
    unfold Rendition.settled
    split
    · rw [hs]
      rfl
    · rename_i hne
      simpa using hothers y hy hne

include hf

/-- The RENDERED records then: that one, and those RENDERED before. -/
theorem Item.renderedIndices_modifyRendition : (it.modifyRendition i f).renderedIndices
    = ((it.renditions.getD []).filter fun y => decide (y.index = i ∨ y.state = .rendered)).map Rendition.index := by
  unfold Item.renderedIndices Item.modifyRendition
  cases it.renditions with
  | none => rfl
  | some rs =>
    simp only [Option.map_some, Option.getD_some]
    induction rs with
    | nil => rfl
    | cons y rs ih => by_cases hy : y.index = i <;> by_cases hy' : y.state = .rendered <;> simp_all

end

theorem Item.adviceDue_of_settled {x : Item} (hg : x.generation = 0) (he : x.evaluated = true) (hs : x.state ≠ .cancelling)
    (ha : x.advice = none) (hr : (x.renditions.getD []).all Rendition.settled = true) : x.adviceDue = true := by
  unfold Item.adviceDue
  rw [hg, he, ha, hr, decide_eq_true hs]
  rfl

/-- Settles O31: the queue's head leaves it, what the lane carries, and the advice that the last finished rendition brings. -/
theorem adviceSent : Obligations.AdviceSent := by
  unfold Obligations.AdviceSent
  refine ⟨fun s hup => ⟨fun hnone => ?_, fun a hsome => ?_, fun a ha => ?_, fun hlocked hempty => ?_⟩,
    fun s e r it q c strip p v a hreads hm hlast hqueue _ hg heval hadv hstate hp hothers hv hcause hroom => ?_⟩
  · rw [exec_adviceSent hup]
    unfold AdviceOut.sent
    rw [hnone]
    rfl
  · rw [exec_adviceSent hup]
    unfold AdviceOut.sent
    rw [hsome]
    rfl
  · refine State.laneOut_of_advice hup ?_
    rcases ha with h | ⟨hnone, hhead⟩
    · rw [h]
      rfl
    · rw [hnone, hhead]
      rfl
  · exact State.laneOut_of_noAdvice hup hlocked hempty
  · let f := Rendition.rendered q.chain (c.bytesWritten + (s.lastBytes it q c strip).length)
      (checkRun c.runningCheck (s.lastBytes it q c strip))
    let x := it.modifyRendition r.index f
    have hslot : it.slot = r.slot := (State.mem_of_item? hreads.item).2
    have hx : (s.stripFinished e r it q c strip).item? r.slot = some x := hreads.item?_stripFinished
    have hverdict : (s.stripFinished e r it q c strip).verdict? x = some v := by
      unfold State.verdict?
      rw [show x.profile = some p from hp, ← hv]
      rfl
    have hdue : x.adviceDue = true :=
      Item.adviceDue_of_settled hg heval hstate hadv (Item.settled_modifyRendition (fun _ => rfl) hothers)
    have hsettle := (State.settleRendered_of_first hx hg).trans (State.adviseOnSettling_of_due hx hdue hverdict hcause)
    have hadvised := State.adviseSettled_advised (x := x) (by rw [← hslot] at hx; exact hx)
      (show (s.stripFinished e r it q c strip).AdviceRoom from hroom) v a
    have hidle : ((s.stripFinished e r it q c strip).adviseSettled x v a).render.queue = [] := by
      rw [hadvised.render]
      exact (State.queue_worked s e r _ _ _).trans hqueue
    refine ⟨(s.stripFinished e r it q c strip).adviseSettled x v a, x.advised v a, ?_, hslot ▸ hadvised.item, rfl, rfl,
      hadvised.advice, fun y => Item.eligible_of_advised, ?_⟩
    · rw [hreads.exec_of_last hm hlast, hsettle, State.dispatch_of_nil hidle]
    · have hindices : x.renderedIndices = _ := Item.renderedIndices_modifyRendition (fun _ => rfl) fun _ => rfl
      rw [hadvised.emission, hindices, List.map_map]
      rfl

end Sys2Proof.Machine
end

section
/-! A rendition dropped from its engine MEMCHECK or OVERSIZE (R95, R102, R107, R128, R131). -/

namespace Sys2Proof.Machine

/-! ### The drop where no engine is BLOCKED -/

/-- The entry with the flag of a drop set (R128). -/
def Item.flagged (cause : DropCause) (it : Item) : Item := { it with flags := it.flags.union (dropFlag cause) }

/-- The rendition dropped, its blocks returned, its engine IDLE and the item's flag set, before the drop settles. -/
def State.engineDropped (s : State) (e : EngineId) (r : RendRef) (q : Rendition) (cause : DropCause) : State :=
  (s.worked e r (Rendition.droppedFor cause) State.idleEngine s.mem (s.frameMemory.freeBlocks ++ q.chain)).modifyItem
    r.slot (Item.flagged cause)

theorem State.dropFromEngine_of_unblocked {s : State} {e : EngineId} {r : RendRef} {q : Rendition} {cause : DropCause}
    (hq : s.rendition? r = some q) (hs : q.state ≠ .dropped) (hc : cause ≠ .cancelled)
    (hb : ∀ e', (s.engine e').state ≠ .blocked) :
    s.dropFromEngine e r cause = (s.engineDropped e r q cause).settleDropped r := by
  have hserve : (s.engineDropped e r q cause).serveReturned s = s.engineDropped e r q cause := by
    refine State.serveReturned_of_unblocked s fun e' => ?_
    change ((s.worked e r _ _ _ _).engine e').state ≠ .blocked
    by_cases h : e' = e
    · rw [h, State.engine_worked]
      exact EngineState.noConfusion
    · rw [State.engine_worked_of_ne s e r _ _ _ h]
      exact hb e'
  unfold State.dropFromEngine
  dsimp only
  rw [State.dropRendition_eq hq hs]
  cases cause with
  | cancelled => exact absurd rfl hc
  | oversize => exact congrArg (fun t : State => t.settleDropped r) hserve
  | memcheck => exact congrArg (fun t : State => t.settleDropped r) hserve

/-- What a drop leaves: the blocks at the tail of the free list, the engine IDLE, the flag set, the record DROPPED. -/
structure State.DroppedFrom (s t : State) (e : EngineId) (r : RendRef) (it : Item) (q : Rendition) (cause : DropCause) :
    Prop where
  blocks : t.frameMemory.freeBlocks = s.frameMemory.freeBlocks ++ q.chain
  mem : t.mem = s.mem
  engine : t.engine e = State.idleEngine
  queue : t.render.queue = s.render.queue
  entry : ∃ x, t.item? r.slot = some x ∧ x.flags = it.flags.union (dropFlag cause)
    ∧ x.rendition? r.index = some (q.droppedFor cause)

/-- A rendition of a later generation dropped where no engine is BLOCKED: only the summary test follows (R107, R143). -/
theorem State.droppedFrom_later {s : State} {e : EngineId} {r : RendRef} {it : Item} {q : Rendition} {cause : DropCause}
    (hit : s.item? r.slot = some it) (hq : s.rendition? r = some q) (hs : q.state ≠ .dropped) (hc : cause ≠ .cancelled)
    (hb : ∀ e', (s.engine e').state ≠ .blocked) (hg : 1 ≤ it.generation) :
    s.DroppedFrom (s.dropFromEngine e r cause) e r it q cause := by
  have hitem : (s.engineDropped e r q cause).item? r.slot
      = some ((it.modifyRendition r.index (Rendition.droppedFor cause)).flagged cause) :=
    (State.item?_modifyItem (f := Item.flagged cause) fun _ => rfl).trans
      (congrArg (Option.map _) (State.item?_worked s e r _ _ _ hit))
  have hsettle : (s.engineDropped e r q cause).settleDropped r = (s.engineDropped e r q cause).testSummary r.slot := by
    unfold State.settleDropped
    rw [hitem]
    exact if_neg (Nat.ne_of_gt hg)
  have hrecord : it.rendition? r.index = some q := (State.rendition?_of_item hit).symm.trans hq
  obtain ⟨l, hl⟩ := (s.engineDropped e r q cause).testSummary_shape r.slot
  rw [State.dropFromEngine_of_unblocked hq hs hc hb, hsettle, hl]
  exact ⟨rfl, rfl, State.engine_worked s e r _ _ _, State.queue_worked s e r _ _ _, _, hitem, rfl,
    (it.rendition?_modifyRendition r.index (f := Rendition.droppedFor cause) fun _ => rfl).trans
      (congrArg (Option.map _) hrecord)⟩

/-! ### Work that leaves the entries but for their records -/

/-- Engines, blocks and the records of renditions have changed at most. -/
structure State.KeepsEntries (s t : State) : Prop where
  entry : ∀ {k x}, s.item? k = some x → ∃ rs, t.item? k = some { x with renditions := rs }
  slots : t.table.items.map Item.slot = s.table.items.map Item.slot
  emitter : t.emitter = s.emitter
  adviceOut : t.adviceOut = s.adviceOut
  links : t.links = s.links
  mgmt : t.mgmt = s.mgmt

namespace State.KeepsEntries

theorem refl (s : State) : s.KeepsEntries s := ⟨fun {_ x} h => ⟨x.renditions, h⟩, rfl, rfl, rfl, rfl, rfl⟩

theorem trans {s t u : State} (h : s.KeepsEntries t) (g : t.KeepsEntries u) : s.KeepsEntries u where
  entry hx := by
    obtain ⟨rs, hrs⟩ := h.entry hx
    obtain ⟨rs', hrs'⟩ := g.entry hrs
    exact ⟨rs', hrs'⟩
  slots := g.slots.trans h.slots
  emitter := g.emitter.trans h.emitter
  adviceOut := g.adviceOut.trans h.adviceOut
  links := g.links.trans h.links
  mgmt := g.mgmt.trans h.mgmt

theorem worked (s : State) (e : EngineId) (r : RendRef) (f : Rendition → Rendition) (x : Engine) (m : Memory)
    (l : List Nat) : s.KeepsEntries (s.worked e r f x m l) where
  entry hx := State.item?_worked_exists s e r x m l hx
  slots := State.slots_modifyItem (s := { s with mem := m, frameMemory := { s.frameMemory with freeBlocks := l } })
    (k := r.slot) (f := fun it => it.modifyRendition r.index f) fun _ => rfl
  emitter := rfl
  adviceOut := rfl
  links := rfl
  mgmt := rfl

theorem setEngine (s : State) (e : EngineId) (x : Engine) : s.KeepsEntries (s.setEngine e x) :=
  ⟨fun {_ y} h => ⟨y.renditions, h⟩, rfl, rfl, rfl, rfl, rfl⟩

/-- A drop that leaves its engine (R87). -/
theorem vacated (s : State) (e : EngineId) (r : RendRef) (c : DropCause) :
    s.KeepsEntries ((s.dropRendition r c).vacateEngine e) := by
  unfold State.dropRendition State.vacateEngine
  split
  · exact setEngine s e _
  · rename_i q _
    split
    · exact setEngine s e _
    · exact worked s e r (Rendition.droppedFor c) State.idleEngine s.mem (s.frameMemory.freeBlocks ++ q.chain)

theorem serveEngine (s : State) (e : EngineId) : s.KeepsEntries (s.serveEngine e) := by
  unfold State.serveEngine
  split
  · rename_i r _ rest _ _
    split
    · exact refl s
    · split
      · exact worked s e r _ _ s.mem rest
      · exact refl s
  · exact refl s

theorem serveReturned (s before : State) : s.KeepsEntries (s.serveReturned before) := by
  have hfold : ∀ (l : List EngineId) (t : State), t.KeepsEntries (l.foldl State.serveEngine t) := fun l => by
    induction l with
    | nil => exact refl
    | cons e l ih => exact fun t => (serveEngine t e).trans (ih (t.serveEngine e))
  unfold State.serveReturned
  split
  · exact hfold _ s
  · exact refl s

end State.KeepsEntries

/-! ### A drop MEMCHECK of generation 0 (R95, R129, R131) -/

/-- The rendition dropped, its engine IDLE, the item's flag set and the BLOCKED engines served, before the drop
settles (R102, R103). -/
def State.dropServed (s : State) (e : EngineId) (r : RendRef) (cause : DropCause) : State :=
  (((s.dropRendition r cause).vacateEngine e).modifyItem r.slot (Item.flagged cause)).serveReturned s

/-- The entry then is as it was, but for its records and the flag. -/
theorem State.item?_dropServed {s : State} {r : RendRef} {it : Item} (h : s.item? r.slot = some it) (e : EngineId)
    (cause : DropCause) :
    ∃ rs, (s.dropServed e r cause).item? r.slot = some (Item.flagged cause { it with renditions := rs }) := by
  obtain ⟨rs, hrs⟩ := (State.KeepsEntries.vacated s e r cause).entry h
  obtain ⟨rs', hrs'⟩ := (State.KeepsEntries.serveReturned _ s).entry
    ((State.item?_modifyItem (f := Item.flagged cause) fun _ => rfl).trans (congrArg (Option.map _) hrs))
  exact ⟨rs', hrs'⟩

theorem State.dropServed_frame (s : State) (e : EngineId) (r : RendRef) (cause : DropCause) :
    (s.dropServed e r cause).table.items.map Item.slot = s.table.items.map Item.slot
      ∧ (s.dropServed e r cause).emitter = s.emitter ∧ (s.dropServed e r cause).adviceOut = s.adviceOut
      ∧ (s.dropServed e r cause).links = s.links := by
  have hvacated := State.KeepsEntries.vacated s e r cause
  have hserved := State.KeepsEntries.serveReturned
    (((s.dropRendition r cause).vacateEngine e).modifyItem r.slot (Item.flagged cause)) s
  have hflagged : (((s.dropRendition r cause).vacateEngine e).modifyItem r.slot (Item.flagged cause)).table.items.map
      Item.slot = ((s.dropRendition r cause).vacateEngine e).table.items.map Item.slot :=
    State.slots_modifyItem (f := Item.flagged cause) fun _ => rfl
  exact ⟨hserved.slots.trans (hflagged.trans hvacated.slots), hserved.emitter.trans hvacated.emitter,
    hserved.adviceOut.trans hvacated.adviceOut, hserved.links.trans hvacated.links⟩

/-- The flag MEMCHECK gives the verdict REFEED, and the drop of a rendition of generation 0 so cancels its item. -/
theorem State.dropFromEngine_cancels {s : State} {r : RendRef} {it : Item} {p : Nat} (h : s.Cancellable it)
    (hslot : it.slot = r.slot) (hg : it.generation = 0) (hp : it.profile = some p) (ha : it.advice = none) (e : EngineId) :
    s.Cancels (s.dropFromEngine e r .memcheck) it .refeed .quality
      ∧ ((s.dropFromEngine e r .memcheck).table.items.map Item.slot).Nodup := by
  obtain ⟨rs, hrs⟩ := State.item?_dropServed (hslot ▸ h.found) e .memcheck
  obtain ⟨hslots, hemitter, hadvice, hlinks⟩ := s.dropServed_frame e r .memcheck
  have hx : (s.dropServed e r .memcheck).item? it.slot = some (Item.flagged .memcheck { it with renditions := rs }) :=
    hslot ▸ hrs
  have hcan : (s.dropServed e r .memcheck).Cancellable (Item.flagged .memcheck { it with renditions := rs }) :=
    { found := hx
      distinct := by rw [hslots]; exact h.distinct
      state := h.state
      summary := by rw [hemitter]; exact h.summary }
  have hverdict : (s.dropServed e r .memcheck).verdict? (Item.flagged .memcheck { it with renditions := rs })
      = some .refeed := by
    unfold State.verdict?
    rw [show (Item.flagged .memcheck { it with renditions := rs }).profile = some p from hp]
    exact congrArg some ((verdictOf_spec _ p _).1.2 (Or.inl (Bool.or_true _)))
  have hgrade : s.dropFromEngine e r .memcheck
      = ((s.dropServed e r .memcheck).cancelItem it.slot .refeed).adviseOnSettling it.slot := by
    have hsettle : (s.dropServed e r .memcheck).settleDropped r = (s.dropServed e r .memcheck).gradeItem r.slot := by
      unfold State.settleDropped
      rw [hrs]
      exact if_pos hg
    rw [show s.dropFromEngine e r .memcheck = (s.dropServed e r .memcheck).settleDropped r from rfl, hsettle, ← hslot]
    unfold State.gradeItem
    rw [State.earlyRefeed_of_refeed hx hg h.state ha hverdict]
  obtain ⟨hcancel, hn⟩ := State.cancelItem_cancels hcan .refeed
  have hcalm := State.adviseOnSettling_calm ((s.dropServed e r .memcheck).cancelItem it.slot .refeed) it.slot
  rw [hgrade]
  exact ⟨(hcancel.of_earlier (s := s) (old := it) ⟨rfl, rfl, rfl, Or.inl rfl⟩ rfl rfl hadvice hlinks).calm hn hcalm,
    (((hcalm.items hn).mono fun y => y.sameEntry).slots_sublist).nodup hn⟩

end Sys2Proof.Machine
end

section
/-! STRIP_READ (O32): the strip that matches, by what the engine does after it, and the strip that does not. -/

namespace Sys2Proof.Machine

open State (Calm)

/-! ### A strip that does not match (R95) -/

/-- The drop MEMCHECK, and the offer of work to engines left IDLE. -/
theorem State.Reads.exec_of_mismatch {s : State} {e : EngineId} {r : RendRef} {it : Item} {q : Rendition} {c : Context}
    {strip : ChainStrip} (h : s.Reads e r it q c strip) (hm : ¬ s.Matches strip) :
    exec (.stripRead e) s = .next (s.dropFromEngine e r .memcheck).dispatch.chooseFrame := by
  have hmatch : s.stripMatches strip = false := by
    unfold State.stripMatches
    exact beq_false_of_ne hm
  rw [exec_stripRead, h.stripRead]
  unfold State.readStrip
  rw [hmatch, h.going]
  rfl

theorem dropFlag_union_memcheck (f : QualityFlags) : f.union (dropFlag .memcheck) = { f with memcheck := true } := by
  simp [QualityFlags.union, dropFlag, QualityFlags.empty]

theorem dropFlag_union_oversize (f : QualityFlags) : f.union (dropFlag .oversize) = { f with oversize := true } := by
  simp [QualityFlags.union, dropFlag, QualityFlags.empty]

/-! ### The engine after a strip that matches (R96 to R100) -/

section
variable {s : State} {e : EngineId} {r : RendRef} {it : Item} {q : Rendition} {c : Context} {strip : ChainStrip}
  (h : s.Reads e r it q c strip) (hm : s.Matches strip)
  (hfits : State.Fits q c (s.reduceStrip it q c strip).bytes) (hopen : (it.side q.descriptor.side).capture ≠ .complete)
include h hm hfits hopen

/-- With the next strip consumable the engine reads on, its yield request clear. -/
theorem State.Reads.exec_goesOn (hqueue : s.render.queue = []) (hsealed : c.nextStrip + 1 < (it.side q.descriptor.side).sealedCount)
    (hlines : 32 * (c.nextStrip + 2) + q.descriptor.tail ≤ (it.side q.descriptor.side).lines) :
    exec (.stripRead e) s = .next (s.worked e r (Rendition.withChain q.chain) (State.runningOn r (s.contextAfter it q c strip))
      (s.memAfter q c (s.reduceStrip it q c strip).bytes) s.frameMemory.freeBlocks).chooseFrame := by
  have hnext : consumable q.descriptor (it.side q.descriptor.side) (c.nextStrip + 1) = true := by
    rw [consumable_open hopen]
    exact decide_eq_true ⟨hsealed, by omega⟩
  have hengine : ({ s.engine e with
      yieldRequest := false, work := some { context := s.contextAfter it q c strip, output := none } } : Engine)
        = State.runningOn r (s.contextAfter it q c strip) := by
    unfold State.runningOn
    rw [← h.running, ← h.held]
  have hidle : ((s.stripTaken e r it q c strip).withdrawn e).render.queue = [] := by
    rw [State.withdrawn_stripTaken, State.queue_worked]
    exact hqueue
  rw [h.exec_of_matches hm hfits.2, h.boundaryYield_of_nil hopen hqueue, if_pos hnext, State.dispatch_of_nil hidle,
    State.withdrawn_stripTaken, hengine]

/-- With the next strip not consumable the rendition is set aside and waits, not ready, alone in the queue. -/
theorem State.Reads.exec_setsAside (hqueue : s.render.queue = [])
    (hnone : (it.side q.descriptor.side).sealedCount ≤ c.nextStrip + 1
      ∨ (it.side q.descriptor.side).lines < 32 * (c.nextStrip + 2) + q.descriptor.tail) :
    exec (.stripRead e) s = .next (((s.stripTaken e r it q c strip).withdrawn e).pauseRendition e r
        (s.contextAfter it q c strip)).chooseFrame
      ∧ (((s.stripTaken e r it q c strip).withdrawn e).pauseRendition e r (s.contextAfter it q c strip)).render.queue = [r] := by
  have hnext : consumable q.descriptor (it.side q.descriptor.side) (c.nextStrip + 1) = false := by
    rw [consumable_open hopen]
    exact decide_eq_false fun hboth => by omega
  have hwithdrawn := h.atBoundary.withdrawn
  have hempty : ((s.stripTaken e r it q c strip).withdrawn e).render.queue = [] := by
    rw [State.withdrawn_stripTaken, State.queue_worked]
    exact hqueue
  have hsingle : (((s.stripTaken e r it q c strip).withdrawn e).pauseRendition e r
      (s.contextAfter it q c strip)).render.queue = [r] :=
    State.queue_enqueue ((State.queue_worked _ e r _ _ _).trans hempty) (Or.inl rfl)
  have hunready := hwithdrawn.unready_paused (by rw [Item.side_modifyRendition]; exact hopen)
    (by rw [Item.side_modifyRendition]; exact hnext)
  refine ⟨?_, hsingle⟩
  rw [h.exec_of_matches hm hfits.2, h.boundaryYield_of_nil hopen hqueue, if_neg (by rw [hnext]; exact Bool.false_ne_true),
    State.dispatch_of_unready]
  unfold State.readyQueue
  rw [hsingle, List.filter_cons_of_neg (by rw [hunready]; exact Bool.false_ne_true)]
  rfl

/-- Asked to yield to the one, more urgent, rendition of the queue, the engine takes that one in place of its own. -/
theorem State.Reads.exec_yields {u : RendRef} {v : Item} {qu : Rendition}
    (hu : s.Consumes u v qu (v.side qu.descriptor.side).sealedCount) (hqueue : s.render.queue = [u]) (hne : u ≠ r)
    (hyield : (s.engine e).yieldRequest = true) (hbusy : ∀ e', (s.engine e').state ≠ .idle)
    (hurgent : s.moreUrgent u r = true) (habove : s.moreUrgent r u = false) :
    ∃ d : Render, exec (.stripRead e) s = .next (State.chooseFrame
        { (s.stripTaken e r it q c strip).yieldedTo e r (s.contextAfter it q c strip) u qu with render := d })
      ∧ d.queue = [r] ∧ d.engine e = State.runningOn u (State.startContext qu) := by
  have hmore : (s.stripTaken e r it q c strip).moreUrgent = s.moreUrgent := State.moreUrgent_worked s e r _ _ _
  have hbusy' : ∀ e', ((s.stripTaken e r it q c strip).engine e').state ≠ .idle := fun e' => by
    unfold State.stripTaken
    by_cases hother : e' = e
    · rw [hother, State.engine_worked]
      exact hbusy e
    · rw [State.engine_worked_of_ne s e r _ _ _ hother]
      exact hbusy e'
  obtain ⟨v', hv', hside⟩ := hu.worked hne (f := Rendition.withChain q.chain) (fun _ => rfl) e { s.engine e with
    work := some { context := s.contextAfter it q c strip, output := none } }
    (s.memAfter q c (s.reduceStrip it q c strip).bytes) s.frameMemory.freeBlocks
  obtain ⟨d, hd, hdqueue, hdengine⟩ := h.atBoundary.yields (u := u) (v := v') (qu := qu) (by rw [hside]; exact hv')
    ((State.queue_worked s e r _ _ _).trans hqueue) hne (by rw [hmore]; exact hurgent)
    (by rw [Item.side_modifyRendition]; exact hopen)
    ((congrArg Engine.yieldRequest (State.engine_worked s e r _ _ _)).trans hyield) hbusy' (by rw [hmore]; exact habove)
  exact ⟨d, by rw [h.exec_of_matches hm hfits.2, hd], hdqueue, hdengine⟩

end

/-- The last strip of a rendition of a later generation: the record finished, eligible, and in the emission queue. -/
theorem State.Reads.exec_finishes {s : State} {e : EngineId} {r : RendRef} {it : Item} {q : Rendition} {c : Context}
    {strip : ChainStrip} (h : s.Reads e r it q c strip) (hm : s.Matches strip) (hlast : s.ReadsLast it q c strip)
    (hqueue : s.render.queue = []) (hg : 1 ≤ it.generation) :
    exec (.stripRead e) s = .next (State.chooseFrame
      { (s.stripFinished e r it q c strip).modifyRendition r (fun q => { q with eligible := true }) with
        emitter := { s.emitter with queue := s.emitter.queue ++ [.rendition r] } }) := by
  have hsettle := State.settleRendered_of_later h.item?_stripFinished hg
  rw [h.exec_of_last hm hlast, hsettle, State.dispatch_of_nil]
  · rfl
  · exact (State.queue_worked s e r _ _ _).trans hqueue

/-- Settles O32: an engine that is not RUNNING, the strips that match in their four outcomes, and those that do not. -/
theorem stripRead : Obligations.StripRead := by
  unfold Obligations.StripRead
  refine ⟨fun s e => ⟨fun hidle => ?_, fun r it q c strip bytes h hm hbytes hfits hopen => ?_,
      fun r it q c strip h hm hlast hqueue hg => ?_⟩,
    fun s e r it q c strip h hm => ⟨fun hg hb hqueue hrun => ?_, fun p hg hp ha hcan => ?_⟩⟩
  · rw [exec_stripRead, State.stripRead_of_ne hidle]
  · subst hbytes
    refine ⟨fun hqueue hsealed hlines => ?_, fun hqueue hnone => ?_,
      fun u v qu hqueue hne hyield hbusy hu hurgent habove => ?_⟩
    · refine ⟨_, h.exec_goesOn hm hfits hopen hqueue hsealed hlines, State.chooseFrame_mem _,
        State.chooseFrame_frameMemory _, ?_⟩
      unfold State.engine
      rw [State.chooseFrame_render]
      exact State.engine_worked s e r _ _ _
    · obtain ⟨hexec, hsingle⟩ := h.exec_setsAside hm hfits hopen hqueue hnone
      obtain ⟨x, hx, hxr⟩ := State.exists_item_of_rendition
        (State.rendition?_pauseRendition h.atBoundary.withdrawn.record e (s.contextAfter it q c strip))
      exact ⟨_, x, hexec, rfl, rfl, State.engine_pauseRendition _ e r _, hsingle, hx, hxr⟩
    · obtain ⟨d, hexec, hdqueue, hdengine⟩ := h.exec_yields hm hfits hopen hu hqueue hne hyield hbusy hurgent habove
      obtain ⟨x, hx, hxr⟩ := State.exists_item_of_rendition
        (State.rendition?_yieldedTo_aside (qu := qu) h.atBoundary hne)
      obtain ⟨z, hz, hzu⟩ := State.exists_item_of_rendition
        (State.rendition?_yieldedTo_taken (e := e) (c := s.contextAfter it q c strip) hne
          ((s.rendition?_stripTaken_of_ne hne e it q c strip).trans hu.record))
      exact ⟨_, x, z, hexec, rfl, rfl, hdengine, hdqueue, hx, hxr, hz, hzu⟩
  · obtain ⟨x, hx, hxr⟩ := State.exists_item_of_rendition
      (((s.stripFinished e r it q c strip).rendition?_modifyRendition r (f := fun q => { q with eligible := true })
        fun _ => rfl).trans (congrArg (Option.map _) h.rendition?_stripFinished))
    exact ⟨_, x, h.exec_finishes hm hlast hqueue hg, State.engine_worked s e r _ _ _, rfl, rfl, rfl, hx, hxr⟩
  · have hdrop := State.droppedFrom_later h.item h.record (cause := .memcheck) (by rw [hrun]; exact nofun) nofun hb hg (e := e)
    obtain ⟨x, hx, hflags, hxr⟩ := hdrop.entry
    refine ⟨_, x, q.droppedFor .memcheck, ?_, hdrop.blocks, hdrop.mem, hdrop.engine, hx,
      hflags.trans (dropFlag_union_memcheck _), hxr, rfl, rfl, rfl⟩
    rw [h.exec_of_mismatch hm, State.dispatch_of_nil (hdrop.queue.trans hqueue)]
  · obtain ⟨hcancel, hn⟩ := State.dropFromEngine_cancels hcan (State.mem_of_item? h.item).2 hg hp ha e
    exact ⟨_, h.exec_of_mismatch hm, hcancel.calm hn ((State.dispatch_calm _).trans (State.chooseFrame_calm _))⟩

end Sys2Proof.Machine
end

section
/-! Engines considered in urgency order (R103, R173), and the end of a TRAILER (O38): the blocks returned, and the BLOCKED
engines served from them. -/

namespace Sys2Proof.Machine

/-! ### Engines in the urgency order of their renditions -/

/-- The renditions that the engines with a property hold, the lowest-numbered engine's first. -/
def State.heldBy (s : State) (p : EngineId → Prop) [DecidablePred p] : List RendRef :=
  engineIds.filterMap fun e => if p e then (s.engine e).rendition else none

/-- The engines that hold the renditions of a list, most urgent first. -/
def State.byUrgency (s : State) (l : List RendRef) : List EngineId := (sortUrgent s.moreUrgent l).filterMap s.engineOf?

theorem State.blockedEngines_eq (s : State) :
    s.blockedEngines = s.byUrgency (s.heldBy fun e => (s.engine e).state = .blocked) := rfl

section
variable {s : State} {p : EngineId → Prop} [DecidablePred p]

theorem State.mem_heldBy {r : RendRef} : r ∈ s.heldBy p ↔ ∃ e, p e ∧ (s.engine e).rendition = some r := by
  unfold State.heldBy
  simp only [List.mem_filterMap, State.mem_engineIds, true_and]
  refine exists_congr fun e => ?_
  by_cases h : p e <;> simp [h]

theorem State.heldBy_of_none (h : ∀ e, ¬ p e) : s.heldBy p = [] :=
  List.filterMap_eq_nil_iff.2 fun e _ => if_neg (h e)

/-- One engine holds the only rendition. -/
theorem State.heldBy_single {e : EngineId} {r : RendRef} (he : p e) (hr : (s.engine e).rendition = some r)
    (hothers : ∀ e', e' ≠ e → p e' → (s.engine e').rendition = none) : s.heldBy p = [r] := by
  have hnone : ∀ e', e' ≠ e → (if p e' then (s.engine e').rendition else none) = none := fun e' hne => by
    split
    · exact hothers e' hne ‹_›
    · rfl
  unfold State.heldBy engineIds
  cases e <;> simp [hnone, he, hr]

/-- Two engines hold the only two renditions. -/
theorem State.heldBy_pair {e e₂ : EngineId} {r r₂ : RendRef} (hne : e₂ ≠ e) (he : p e) (he₂ : p e₂)
    (hr : (s.engine e).rendition = some r) (hr₂ : (s.engine e₂).rendition = some r₂)
    (hothers : ∀ e', e' ≠ e → e' ≠ e₂ → ¬ p e') : s.heldBy p = [r, r₂] ∨ s.heldBy p = [r₂, r] := by
  unfold State.heldBy engineIds
  cases e <;> cases e₂ <;> simp_all

/-- The engine whose rendition ranks before all others comes first. -/
theorem State.byUrgency_first {l : List RendRef} {e : EngineId} {r : RendRef} (hr : r ∈ l)
    (hfirst : ∀ x ∈ l, x ≠ r → s.moreUrgent r x = true ∧ s.moreUrgent x r = false)
    (hholder : ∀ e', (s.engine e').rendition = some r ↔ e' = e) : ∃ rest, s.byUrgency l = e :: rest := by
  have hhead := sortUrgent_first hr hfirst
  unfold State.byUrgency
  cases hsort : sortUrgent s.moreUrgent l with
  | nil =>
    rw [hsort] at hhead
    cases hhead
  | cons y rest =>
    rw [hsort] at hhead
    obtain rfl : y = r := Option.some.inj hhead
    exact ⟨_, List.filterMap_cons_some (State.engineOf?_of_unique hholder)⟩

theorem State.byUrgency_single {e : EngineId} {r : RendRef} (hholder : ∀ e', (s.engine e').rendition = some r ↔ e' = e) :
    s.byUrgency [r] = [e] := List.filterMap_cons_some (State.engineOf?_of_unique hholder)

theorem State.byUrgency_pair {l : List RendRef} {e e₂ : EngineId} {r r₂ : RendRef} (hl : l = [r, r₂] ∨ l = [r₂, r])
    (hholder : ∀ e', (s.engine e').rendition = some r ↔ e' = e)
    (hholder₂ : ∀ e', (s.engine e').rendition = some r₂ ↔ e' = e₂) (hurgent : s.moreUrgent r r₂ = true)
    (hbelow : s.moreUrgent r₂ r = false) : s.byUrgency l = [e, e₂] := by
  have hsort : sortUrgent s.moreUrgent l = [r, r₂] := by
    rcases hl with rfl | rfl <;> simp [sortUrgent, insertUrgent, hurgent, hbelow]
  unfold State.byUrgency
  rw [hsort, List.filterMap_cons_some (State.engineOf?_of_unique hholder),
    List.filterMap_cons_some (State.engineOf?_of_unique hholder₂)]
  rfl

end

/-! ### Block service (R101, R103) -/

/-- The record of a rendition whose engine has been served a block. -/
def Rendition.served (b : Nat) (q : Rendition) : Rendition := { q with state := .running, chain := q.chain ++ [b] }

/-- The state once an engine has been served the block at the head of the free list. -/
def State.served (s : State) (e : EngineId) (u : RendRef) (b : Nat) (rest : List Nat) : State :=
  s.worked e u (Rendition.served b) { s.engine e with state := .running } s.mem rest

section
variable {s : State} {e : EngineId} {u : RendRef} {v : Item} {b : Nat} {rest : List Nat}

theorem State.serveEngine_of_available (hheld : (s.engine e).rendition = some u) (hv : s.item? u.slot = some v)
    (hfree : s.frameMemory.freeBlocks = b :: rest)
    (hmay : v.generation = 0 ∨ s.mgmt.settings.rerenderReserve.toNat < (b :: rest).length) :
    s.serveEngine e = s.served e u b rest := by
  have havailable : s.blockAvailable v.generation = true := by
    unfold State.blockAvailable
    rw [hfree]
    simpa using hmay
  unfold State.serveEngine
  rw [hheld, hfree]
  dsimp only
  rw [hv]
  dsimp only
  rw [if_pos havailable]
  rfl

/-- A later generation is not served while the free count is not above the re-render reserve. -/
theorem State.serveEngine_of_reserve (hheld : (s.engine e).rendition = some u) (hv : s.item? u.slot = some v)
    (hg : 1 ≤ v.generation) (hreserve : s.frameMemory.freeBlocks.length ≤ s.mgmt.settings.rerenderReserve.toNat) :
    s.serveEngine e = s := by
  have havailable : s.blockAvailable v.generation = false := by
    unfold State.blockAvailable
    simp only [Bool.and_eq_false_iff, Bool.or_eq_false_iff, beq_eq_false_iff_ne, decide_eq_false_iff_not]
    exact Or.inr ⟨by omega, by omega⟩
  unfold State.serveEngine
  rw [hheld]
  split
  · rename_i hsome _
    obtain rfl := Option.some.inj hsome
    rw [hv]
    dsimp only
    rw [havailable]
    rfl
  · rfl

/-- With no block left no engine is served. -/
theorem State.foldl_serveEngine_of_empty (hfree : s.frameMemory.freeBlocks = []) (l : List EngineId) :
    l.foldl State.serveEngine s = s := by
  have hnone : ∀ e, s.serveEngine e = s := fun e => by
    unfold State.serveEngine
    rw [hfree]
    split
    · rename_i hcons
      cases hcons
    · rfl
  induction l with
  | nil => rfl
  | cons e l ih => rw [List.foldl_cons, hnone, ih]

end

theorem State.rendition?_served {s : State} {u : RendRef} {q : Rendition} (h : s.rendition? u = some q) (e : EngineId)
    (b : Nat) (rest : List Nat) : (s.served e u b rest).rendition? u = some (q.served b) :=
  s.rendition?_worked e u (f := Rendition.served b) _ _ _ (fun _ => rfl) h

theorem State.rendition?_served_of_ne (s : State) {u u' : RendRef} (h : u' ≠ u) (e : EngineId) (b : Nat)
    (rest : List Nat) : (s.served e u b rest).rendition? u' = s.rendition? u' :=
  s.rendition?_worked_of_ne e u (f := Rendition.served b) _ _ _ (fun _ => rfl) h

theorem State.engine_served (s : State) (e : EngineId) (u : RendRef) (b : Nat) (rest : List Nat) :
    (s.served e u b rest).engine e = { s.engine e with state := .running } := s.engine_worked e u _ _ _

theorem State.engine_served_of_ne (s : State) {e e' : EngineId} (h : e' ≠ e) (u : RendRef) (b : Nat) (rest : List Nat) :
    (s.served e u b rest).engine e' = s.engine e' := s.engine_worked_of_ne e u _ _ _ h

section
variable {s : State} {e : EngineId} {u : RendRef} {b : Nat} {rest : List Nat} (hblocked : (s.engine e).state = .blocked)
  (hholder : ∀ e', (s.engine e').rendition = some u ↔ e' = e)
include hblocked hholder

/-- One BLOCKED engine is all there is to consider. -/
theorem State.serveBlocked_single (hothers : ∀ e', e' ≠ e → (s.engine e').state = .blocked → (s.engine e').rendition = none) :
    s.serveBlocked = s.serveEngine e := by
  unfold State.serveBlocked
  rw [State.blockedEngines_eq, State.heldBy_single hblocked ((hholder e).2 rfl) hothers, State.byUrgency_single hholder]
  rfl

/-- The most urgent BLOCKED engine is served; where others are BLOCKED no block is left for them. -/
theorem State.serveBlocked_first (hserve : s.serveEngine e = s.served e u b rest)
    (hothers : ∀ e' u', e' ≠ e → (s.engine e').state = .blocked → (s.engine e').rendition = some u' →
      rest = [] ∧ s.moreUrgent u u' = true ∧ s.moreUrgent u' u = false) : s.serveBlocked = s.served e u b rest := by
  by_cases hrest : rest = []
  · obtain ⟨l, hl⟩ := State.byUrgency_first (s := s) (l := s.heldBy fun e => (s.engine e).state = .blocked)
      (State.mem_heldBy.2 ⟨e, hblocked, (hholder e).2 rfl⟩) (fun x hx hne => by
        obtain ⟨e', hblocked', hheld'⟩ := State.mem_heldBy.1 hx
        have hother : e' ≠ e := fun h => hne (Option.some.inj (hheld'.symm.trans ((hholder e').2 h)))
        exact (hothers e' x hother hblocked' hheld').2) hholder
    unfold State.serveBlocked
    rw [State.blockedEngines_eq, hl, List.foldl_cons, hserve]
    exact State.foldl_serveEngine_of_empty hrest l
  · rw [State.serveBlocked_single hblocked hholder, hserve]
    intro e' hother hblocked'
    cases hheld' : (s.engine e').rendition with
    | none => rfl
    | some u' => exact absurd (hothers e' u' hother hblocked' hheld').1 hrest

/-- Two BLOCKED engines are considered one after the other. -/
theorem State.serveBlocked_pair {e₂ : EngineId} {u₂ : RendRef} (hne : e₂ ≠ e) (hblocked₂ : (s.engine e₂).state = .blocked)
    (hholder₂ : ∀ e', (s.engine e').rendition = some u₂ ↔ e' = e₂)
    (hothers : ∀ e', e' ≠ e → e' ≠ e₂ → (s.engine e').state ≠ .blocked) (hurgent : s.moreUrgent u u₂ = true)
    (hbelow : s.moreUrgent u₂ u = false) : s.serveBlocked = (s.serveEngine e).serveEngine e₂ := by
  have hheld := State.heldBy_pair (s := s) (p := fun e => (s.engine e).state = .blocked) hne hblocked hblocked₂
    ((hholder e).2 rfl) ((hholder₂ e₂).2 rfl) hothers
  unfold State.serveBlocked
  rw [State.blockedEngines_eq, State.byUrgency_pair hheld hholder hholder₂ hurgent hbelow]
  rfl

end

/-! ### The TRAILER (R150, R157, R168) -/

/-- The record of a rendition whose TRAILER has gone out. -/
def Rendition.emitted (q : Rendition) : Rendition := { q with state := .emitted, chain := [], restart := false }

/-- The state once the TRAILER has ended and the rendition's blocks have returned, before any engine is served. -/
def State.trailerDone (s : State) (r : RendRef) (q : Rendition) : State :=
  { s.offWork.modifyRendition r Rendition.emitted with
    frameMemory := { s.frameMemory with freeBlocks := s.frameMemory.freeBlocks ++ q.chain } }

theorem State.endOf_trailer {s : State} {m : Trailer} {r : RendRef} {n : Nat} {d : Bool} {q : Rendition}
    (hd : s.emitter.discarded = false) (hwork : s.emitter.work = .rendition r n d) (hq : s.rendition? r = some q)
    (hs : q.stopping = false) :
    s.offFrame.endOf (.trailer m) = ((s.trailerDone r q).serveReturned s.offFrame).testSummary r.slot := by
  have hstop : s.offFrame.isStopping r = false := (State.isStopping_of_found (s := s.offFrame) hq).trans hs
  have htrailer : s.offFrame.endOf (.trailer m) = s.offFrame.endTrailer r := by
    unfold State.endOf
    rw [show s.offFrame.emitter.discarded = false from hd, show s.offFrame.emitter.work = _ from hwork]
    exact if_neg Bool.false_ne_true
  rw [htrailer]
  unfold State.endTrailer
  rw [hstop, show s.offFrame.rendition? r = some q from hq]
  rfl

/-- TRAILER_END with nothing else to send: what is left of it is the state after block service, its Emitter IDLE. -/
theorem exec_trailerEnd {s : State} {m : Trailer} {r : RendRef} {n : Nat} {d : Bool} {q : Rendition}
    (hd : s.emitter.discarded = false) (hw : s.mgmt.headWait ≠ .engineReset) (hf : s.emitter.frame = some (.trailer m))
    (hwork : s.emitter.work = .rendition r n d) (hq : s.rendition? r = some q) (hs : q.stopping = false)
    (hr : s.mgmt.reports = []) (hc : s.emitter.credits = 0) :
    ∃ x : Emitter, exec .trailerEnd s
        = .next { (s.trailerDone r q).serveReturned s.offFrame with emitter := x } ∧ x.work = .idle ∧ x.frame = none := by
  have hserved := State.KeepsEntries.serveReturned (s.trailerDone r q) s.offFrame
  obtain ⟨l, hl⟩ := ((s.trailerDone r q).serveReturned s.offFrame).testSummary_shape r.slot
  have hexec : exec .trailerEnd s = .next s.frameEnded := by
    change Host.Outcome.next _ = _
    rw [hf]
  refine ⟨{ ((s.trailerDone r q).serveReturned s.offFrame).emitter with summaryList := l }, ?_, congrArg Emitter.work hserved.emitter, congrArg Emitter.frame hserved.emitter⟩
  rw [hexec, State.frameEnded_eq hw, State.endFrame_of_some hf, State.endOf_trailer hd hwork hq hs, hl]
  exact congrArg Host.Outcome.next (State.chooseFrame_of_nothing ((congrArg Management.reports hserved.mgmt).trans hr)
    ((congrArg Emitter.credits hserved.emitter).trans hc))

section
variable {s : State} {r : RendRef} (q : Rendition)

theorem State.rendition?_trailerDone_of_ne {u : RendRef} (h : u ≠ r) :
    (s.trailerDone r q).rendition? u = s.rendition? u :=
  s.offWork.rendition?_modifyRendition_of_ne (f := Rendition.emitted) (fun _ => rfl) h

theorem State.moreUrgent_trailerDone : (s.trailerDone r q).moreUrgent = s.moreUrgent :=
  State.moreUrgent_modifyItem (s := s.offWork) (k := r.slot) (f := fun it => it.modifyRendition r.index Rendition.emitted)
    fun _ => ⟨rfl, rfl, rfl, rfl⟩

/-- An entry keeps its generation as a TRAILER ends. -/
theorem State.item?_trailerDone {k : Slot} {v : Item} (h : s.item? k = some v) :
    ∃ v', (s.trailerDone r q).item? k = some v' ∧ v'.generation = v.generation := by
  by_cases hk : k = r.slot
  · subst hk
    exact ⟨_, (s.offWork.item?_modifyRendition r Rendition.emitted).trans (congrArg (Option.map _) h), rfl⟩
  · exact ⟨v, (s.offWork.item?_modifyRendition_of_ne Rendition.emitted hk).trans h, rfl⟩

/-- Blocks that have come back are offered to the BLOCKED engines. -/
theorem State.serveReturned_trailerDone {q : Rendition} (h : q.chain ≠ []) : (s.trailerDone r q).serveReturned s.offFrame
    = (s.trailerDone r q).serveBlocked := by
  have hgrown : s.frameMemory.freeBlocks.length < (s.frameMemory.freeBlocks ++ q.chain).length := by
    rw [List.length_append]
    have := List.length_pos_iff.2 h
    omega
  exact if_pos hgrown

end

/-- Settles O38: the blocks returned, and the service of one BLOCKED engine, of two, and of none at the reserve. -/
theorem trailerEnds : Obligations.TrailerEnds := by
  unfold Obligations.TrailerEnds
  intro s m r n d it q hd hw hf hwork hit hq hs hr hc
  obtain ⟨em, hexec, hidle, hnoframe⟩ := exec_trailerEnd hd hw hf hwork hq hs hr hc
  refine ⟨fun hb => ?_, fun e u v qu b rest hne hblocked hholder hv hqu hchain hfree => ⟨fun hmay hothers => ?_,
    fun e₂ u₂ v₂ qu₂ b₂ left hne₂ hu₂ hblocked₂ hholder₂ hothers hv₂ hqu₂ hg hg₂ hurgent hbelow hrest => ?_,
    fun hg hreserve hothers => ?_⟩⟩
  · rw [State.serveReturned_of_unblocked _ (by exact hb)] at hexec
    have hitem : (s.trailerDone r q).item? r.slot = some (it.modifyRendition r.index Rendition.emitted) :=
      (s.offWork.item?_modifyRendition r Rendition.emitted).trans (congrArg (Option.map _) hit)
    have hrecord : it.rendition? r.index = some q := (State.rendition?_of_item hit).symm.trans hq
    exact ⟨_, _, q.emitted, hexec, hidle, hnoframe, rfl, hitem, rfl, rfl,
      (it.rendition?_modifyRendition r.index (f := Rendition.emitted) fun _ => rfl).trans (congrArg (Option.map _) hrecord),
      rfl, rfl, rfl⟩
  all_goals
    rw [State.serveReturned_trailerDone hchain] at hexec
    obtain ⟨v', hv', hgen⟩ := State.item?_trailerDone (r := r) q hv
    have hrecord : (s.trailerDone r q).rendition? u = some qu := (State.rendition?_trailerDone_of_ne q hne).trans hqu
    have hheld : ((s.trailerDone r q).engine e).rendition = some u := (hholder e).2 rfl
    have hmore := State.moreUrgent_trailerDone (s := s) (r := r) q
  · have hserve := State.serveEngine_of_available hheld hv' hfree (by rw [hgen]; exact hmay)
    rw [State.serveBlocked_first (s := s.trailerDone r q) hblocked hholder hserve (by rw [hmore]; exact hothers)] at hexec
    obtain ⟨x, hx, hxu⟩ := State.exists_item_of_rendition (State.rendition?_served hrecord e b rest)
    exact ⟨_, x, hexec, rfl, State.engine_served _ e u b rest, fun e' h => State.engine_served_of_ne _ h u b rest, hx, hxu⟩
  · have hserve := State.serveEngine_of_available hheld hv' hfree (Or.inl (hgen.trans hg))
    have hdistinct : u₂ ≠ u := fun h => hne₂ ((hholder e₂).1 (h ▸ (hholder₂ e₂).2 rfl))
    rw [State.serveBlocked_pair (s := s.trailerDone r q) hblocked hholder hne₂ hblocked₂ hholder₂ hothers
      (by rw [hmore]; exact hurgent) (by rw [hmore]; exact hbelow), hserve] at hexec
    obtain ⟨v₂', hv₂', hgen₂⟩ := State.item?_trailerDone (r := r) q hv₂
    obtain ⟨rs, hrs⟩ := State.item?_worked_exists (s.trailerDone r q) e u (f := Rendition.served b)
      { s.engine e with state := .running } s.mem rest hv₂'
    have hengine₂ := (s.trailerDone r q).engine_served_of_ne hne₂ u b rest
    have hserve₂ := State.serveEngine_of_available (s := (s.trailerDone r q).served e u b rest)
      ((congrArg Engine.rendition hengine₂).trans ((hholder₂ e₂).2 rfl)) hrs hrest (Or.inl (hgen₂.trans hg₂))
    rw [hserve₂] at hexec
    obtain ⟨x, hx, hxu⟩ := State.exists_item_of_rendition
      ((((s.trailerDone r q).served e u b rest).rendition?_served_of_ne hdistinct.symm e₂ b₂ left).trans
        (State.rendition?_served hrecord e b rest))
    obtain ⟨x₂, hx₂, hxu₂⟩ := State.exists_item_of_rendition
      (State.rendition?_served (((s.trailerDone r q).rendition?_served_of_ne hdistinct e b rest).trans
        ((State.rendition?_trailerDone_of_ne q hu₂).trans hqu₂)) e₂ b₂ left)
    refine ⟨_, x, x₂, hexec, rfl, ?_, ?_, hx, hx₂, hxu, hxu₂⟩
    · exact (State.engine_served_of_ne _ hne₂.symm u₂ b₂ left).trans (State.engine_served _ e u b rest)
    · exact (State.engine_served _ e₂ u₂ b₂ left).trans (by rw [hengine₂]; rfl)
  · rw [State.serveBlocked_single (s := s.trailerDone r q) hblocked hholder
      (fun e' hother hblocked' => absurd hblocked' (hothers e' hother)),
      State.serveEngine_of_reserve hheld hv' (by rw [hgen]; exact hg)
      (by rw [show (s.trailerDone r q).frameMemory.freeBlocks = _ from hfree]; exact hreserve)] at hexec
    exact ⟨_, hexec, hfree, fun _ => rfl⟩

end Sys2Proof.Machine
end

section
/-! The arbiter's choice among the waiting clients (R172, R173). -/

namespace Sys2Proof.Machine

theorem exec_burstEnd (waiting : List MemoryClient) (s : State) :
    exec (.burstEnd waiting) s = .next (s.burst waiting).chooseFrame := rfl

theorem State.waitingEngines_eq (s : State) (waiting : List MemoryClient) :
    s.waitingEngines waiting = s.byUrgency (s.heldBy fun e => MemoryClient.engine e ∈ waiting) := rfl

/-- A waiting client is granted when none that comes before it in the order waits (R173). -/
theorem State.grant_of_first {s : State} {waiting l l' : List MemoryClient} {c : MemoryClient}
    (horder : s.grantOrder waiting = l ++ c :: l') (hbefore : ∀ d ∈ l, d ∉ waiting) (hc : c ∈ waiting)
    (hw : s.canWait c = true) : s.grant waiting = some c := by
  have hnone : (l.find? fun d => decide (d ∈ waiting) && s.canWait d) = none :=
    List.find?_eq_none.2 fun d hd => by simp [hbefore d hd]
  unfold State.grant
  rw [horder, List.find?_append, hnone, Option.none_or]
  exact List.find?_cons_of_pos (by simp [hc, hw])

theorem State.grant_spec {s : State} {waiting : List MemoryClient} {c : MemoryClient} (h : s.grant waiting = some c) :
    c ∈ waiting ∧ exec (.burstEnd waiting) s = .next (s.endBurst c).chooseFrame := by
  have hpasses := List.find?_some h
  refine ⟨of_decide_eq_true (Bool.and_eq_true_iff.1 hpasses).1, ?_⟩
  rw [exec_burstEnd]
  unfold State.burst
  rw [h]

theorem State.grant_none {s : State} {waiting : List MemoryClient} (h : s.grant waiting = none) :
    exec (.burstEnd waiting) s = .next s.chooseFrame := by
  rw [exec_burstEnd]
  unfold State.burst
  rw [h]

theorem State.canWait_lineWriter {s : State} {cam : Camera} (h : (s.channel cam).fifo ≠ []) :
    s.canWait (.lineWriter cam) = true := by
  unfold State.canWait
  simpa using h

theorem State.canWait_emitter {s : State} {r : RendRef} {n : Nat} (h : s.emitter.work = .rendition r n false) :
    s.canWait .emitter = true := by
  unfold State.canWait
  rw [h]
  rfl

theorem State.canWait_engine {s : State} {e : EngineId} (h : (s.engine e).state = .running) :
    s.canWait (.engine e) = true := decide_eq_true h

theorem State.canWait_loader {s : State} (h : s.mgmt.headWait = .loaderWrite ∨ s.mgmt.headWait = .validation) :
    s.canWait .loader = true := by
  unfold State.canWait
  simpa using h

theorem State.canWait_management {s : State} (h : s.mgmt.headWait = .managementBurst) :
    s.canWait .management = true := decide_eq_true h

/-- Without a waiting engine the Loader is next, and then management. -/
theorem State.grantOrder_of_noEngine {s : State} {waiting : List MemoryClient}
    (hnone : ∀ e, MemoryClient.engine e ∉ waiting) : s.grantOrder waiting
    = [.lineWriter .front, .lineWriter .rear, .emitter, .loader, .management] := by
  unfold State.grantOrder
  rw [State.waitingEngines_eq, State.heldBy_of_none hnone]
  rfl

section
variable {s : State} {waiting : List MemoryClient} (hfront : MemoryClient.lineWriter .front ∉ waiting)
  (hrear : MemoryClient.lineWriter .rear ∉ waiting)
include hfront hrear

theorem State.grant_emitter (hc : MemoryClient.emitter ∈ waiting) (hw : s.canWait .emitter = true) :
    s.grant waiting = some .emitter :=
  State.grant_of_first (l := [.lineWriter .front, .lineWriter .rear]) rfl (by simp [hfront, hrear]) hc hw

variable (hemitter : MemoryClient.emitter ∉ waiting)
include hemitter

/-- Among the engines the one with the most urgent rendition is granted. -/
theorem State.grant_engine {e : EngineId} {r : RendRef} (hc : MemoryClient.engine e ∈ waiting)
    (hrun : (s.engine e).state = .running) (hholder : ∀ e', (s.engine e').rendition = some r ↔ e' = e)
    (hothers : ∀ e' r', e' ≠ e → MemoryClient.engine e' ∈ waiting → (s.engine e').rendition = some r' →
      s.moreUrgent r r' = true ∧ s.moreUrgent r' r = false) : s.grant waiting = some (.engine e) := by
  obtain ⟨rest, hrest⟩ := State.byUrgency_first (s := s) (l := s.heldBy fun e => MemoryClient.engine e ∈ waiting)
    (State.mem_heldBy.2 ⟨e, hc, (hholder e).2 rfl⟩) (fun x hx hne => by
      obtain ⟨e', hc', hheld'⟩ := State.mem_heldBy.1 hx
      exact hothers e' x (fun h => hne (Option.some.inj (hheld'.symm.trans ((hholder e').2 h)))) hc' hheld') hholder
  have horder : s.grantOrder waiting = [.lineWriter .front, .lineWriter .rear, .emitter]
      ++ .engine e :: (rest.map .engine ++ [.loader, .management]) := by
    unfold State.grantOrder
    rw [State.waitingEngines_eq, hrest]
    rfl
  exact State.grant_of_first horder (by simp [hfront, hrear, hemitter]) hc (State.canWait_engine hrun)

theorem State.grant_loader (hnone : ∀ e, MemoryClient.engine e ∉ waiting) (hc : MemoryClient.loader ∈ waiting)
    (hw : s.canWait .loader = true) : s.grant waiting = some .loader :=
  State.grant_of_first (l := [.lineWriter .front, .lineWriter .rear, .emitter]) (State.grantOrder_of_noEngine hnone)
    (by simp [hfront, hrear, hemitter]) hc hw

theorem State.grant_management (hnone : ∀ e, MemoryClient.engine e ∉ waiting) (hloader : MemoryClient.loader ∉ waiting)
    (hc : MemoryClient.management ∈ waiting) (hw : s.canWait .management = true) : s.grant waiting = some .management :=
  State.grant_of_first (l := [.lineWriter .front, .lineWriter .rear, .emitter, .loader])
    (State.grantOrder_of_noEngine hnone) (by simp [hfront, hrear, hemitter, hloader]) hc hw

end

end Sys2Proof.Machine
end

section
/-! One burst of an engine's output (R101, R102, R172): the bytes written, the place where the engine stops, and its next
block demand; and the arbitration of BURST_END (O41). -/

namespace Sys2Proof.Machine

/-! ### The bytes of one burst (R94, R101) -/

theorem Writer.takeBlock_of_cons {w : Writer} {b : Nat} {rest : List Nat} (h : w.freeBlocks = b :: rest) :
    w.takeBlock = { w with freeBlocks := rest, chain := w.chain ++ [b] } := by
  unfold Writer.takeBlock
  rw [h]

/-! ### A block demand of a rendition that is not stopping (R101) -/

section
variable {p : WriteRules} {w : Writer} (hgoing : p.stopping = false)
include hgoing

theorem demandRefused_oversize (hsize : p.sizeLimit ≤ w.chain.length) : demandRefused p w = some .oversize := by
  unfold demandRefused
  rw [hgoing, if_neg Bool.false_ne_true, if_pos hsize]

theorem demandRefused_blocked (hsize : w.chain.length < p.sizeLimit)
    (hfree : w.freeBlocks = [] ∨ (p.laterGeneration = true ∧ w.freeBlocks.length ≤ p.reserve)) :
    demandRefused p w = some .blocked := by
  unfold demandRefused
  rw [hgoing, if_neg Bool.false_ne_true, if_neg (Nat.not_le_of_lt hsize)]
  rcases hfree with hempty | hreserve
  · rw [hempty, List.isEmpty_nil, if_pos rfl]
  · rw [if_pos hreserve, ite_self]

theorem demandRefused_none {b : Nat} {rest : List Nat} (hsize : w.chain.length < p.sizeLimit)
    (hfree : w.freeBlocks = b :: rest) (hmay : p.laterGeneration = false ∨ p.reserve < (b :: rest).length) :
    demandRefused p w = none := by
  unfold demandRefused
  rw [hgoing, if_neg Bool.false_ne_true, if_neg (Nat.not_le_of_lt hsize), hfree, List.isEmpty_cons,
    if_neg Bool.false_ne_true, if_neg]
  rintro ⟨hlater, hreserve⟩
  rcases hmay with hfirst | habove
  · exact Bool.false_ne_true (hfirst.symm.trans hlater)
  · omega

end

/-! ### The writing of one burst -/

theorem Writer.room_put (p : WriteRules) (w : Writer) (bytes : List Byte) : (w.put p bytes).room = w.room - bytes.length :=
  Nat.sub_add_eq _ _ _

/-- With more room in the block than a burst takes, 512 bytes are written and no block is demanded. -/
theorem writeBurst_within (p : WriteRules) {w : Writer} {bytes : List Byte} (hroom : 512 < w.room)
    (hmore : 512 < bytes.length) :
    writeBurst p w bytes = (w.put p (bytes.take 512), .unfinished, bytes.drop 512) := by
  have hcount : min Config.outputBurstBytes w.room = 512 := Nat.min_eq_left (Nat.le_of_lt hroom)
  have hrest : (bytes.drop 512).isEmpty = false := by simp [hmore]
  have hleft : (w.put p (bytes.take 512)).room ≠ 0 := by
    rw [Writer.room_put, List.length_take]
    omega
  unfold writeBurst
  dsimp only
  rw [hcount, hrest, if_neg Bool.false_ne_true, if_neg hleft]

/-- With no more room than a burst takes, the block is filled, and the bytes left demand the next. -/
theorem writeBurst_filled (p : WriteRules) {w : Writer} {bytes : List Byte} (hroom : w.room ≤ 512)
    (hmore : w.room < bytes.length) : writeBurst p w bytes = (demandRefused p (w.put p (bytes.take w.room))).elim
      ((w.put p (bytes.take w.room)).takeBlock, .unfinished, bytes.drop w.room)
      (fun refusal => (w.put p (bytes.take w.room), refusal, bytes.drop w.room)) := by
  have hcount : min Config.outputBurstBytes w.room = w.room := Nat.min_eq_right hroom
  have hrest : (bytes.drop w.room).isEmpty = false := by simp [hmore]
  have hfull : (w.put p (bytes.take w.room)).room = 0 := by
    rw [Writer.room_put, List.length_take]
    omega
  unfold writeBurst
  dsimp only
  rw [hcount, hrest, if_neg Bool.false_ne_true, if_pos hfull]
  cases demandRefused p (w.put p (bytes.take w.room)) <;> rfl

/-- The context at the place just before the next byte, the bytes before it written (R101, R123). -/
def ReduceRules.contextStopped (p : ReduceRules) (c : Context) (out : HeldOutput) (count : Nat) : Context :=
  { (p.workAfter c out ((p.resume c out).bytes.length - count)).1 with
    bytesWritten := c.bytesWritten + count
    runningCheck := checkRun c.runningCheck ((p.resume c out).bytes.take count) }

/-- An engine that has bytes left stops just before the next one and can go on from there. -/
theorem ReduceRules.continues_stopped (p : ReduceRules) {c : Context} {out : HeldOutput} {count : Nat}
    (h : count < (p.resume c out).bytes.length) :
    ∃ out', (p.workAfter c out ((p.resume c out).bytes.length - count)).2 = some out'
      ∧ State.Continues p c out count (p.contextStopped c out count) out' := by
  obtain ⟨out', hout', hhand, hends, honwards⟩ := p.workAfter_holding c out
    (left := (p.resume c out).bytes.length - count) (by omega) (Nat.sub_le _ _)
  rw [Nat.sub_sub_self (Nat.le_of_lt h)] at honwards
  exact ⟨out', hout', p.workAfter_nextStrip c out _, rfl, rfl, hhand, hends, honwards⟩

/-! ### The engine after its burst (R101, R172) -/

/-- The state after a burst: the bytes written, the rendition's chain `l`, the free list `free`, and the place where the
engine goes on. -/
def State.burstWritten (s : State) (e : EngineId) (r : RendRef) (m : Memory) (l free : List Nat) (c' : Context)
    (out' : HeldOutput) : State :=
  s.worked e r (Rendition.withChain l) { s.engine e with work := some { context := c', output := some out' } } m free

/-- What the end of the burst then brings: nothing, the engine BLOCKED, or the rendition dropped. -/
def State.afterBurst (t : State) (e : EngineId) (r : RendRef) : WriteEnd → State
  | .blocked => t.blockEngine e r
  | .oversize => (t.dropFromEngine e r .oversize).dispatch
  | _ => t

theorem exec_burstEnd_engine {s : State} {e : EngineId} {r : RendRef} (hrun : (s.engine e).state = .running)
    (hholder : ∀ e', (s.engine e').rendition = some r ↔ e' = e) :
    exec (.burstEnd [.engine e]) s = .next (s.resumeOutput e).chooseFrame :=
  (State.grant_spec (State.grant_engine (by simp) (by simp) (by simp) (List.mem_singleton.2 rfl) hrun hholder
    fun e' _ hother hc => absurd (by simpa using hc) hother)).2

section
variable {s : State} {e : EngineId} {r : RendRef} {it : Item} {q : Rendition} {c : Context} {out : HeldOutput}

/-- The bytes an engine has left. -/
def State.bytesLeft (s : State) (it : Item) (q : Rendition) (c : Context) (out : HeldOutput) : List Byte :=
  ((s.reduceRules it q).resume c out).bytes

/-- The writer once the bytes of the burst are written, with the chain and the free list then. -/
def State.burstWriter (s : State) (it : Item) (q : Rendition) (c : Context) (bytes : List Byte) (l free : List Nat) : Writer :=
  { (s.writer q c).put (s.writeRules it q) bytes with chain := l, freeBlocks := free }

/-- One burst with bytes left, however the writing of it ends short of the last byte. -/
theorem State.Writes.exec_burst (h : s.Writes e r it q c out) (hholder : ∀ e', (s.engine e').rendition = some r ↔ e' = e)
    {count : Nat} (hmore : count < (s.bytesLeft it q c out).length) :
    ∃ c' out', State.Continues (s.reduceRules it q) c out count c' out'
      ∧ ∀ l free ends, ends = .unfinished ∨ ends = .blocked ∨ ends = .oversize →
        writeBurst (s.writeRules it q) (s.writer q c) (s.bytesLeft it q c out)
          = (s.burstWriter it q c ((s.bytesLeft it q c out).take count) l free, ends, (s.bytesLeft it q c out).drop count) →
        exec (.burstEnd [.engine e]) s = .next ((s.burstWritten e r (s.memAfter q c ((s.bytesLeft it q c out).take count))
          l free c' out').afterBurst e r ends).chooseFrame := by
  obtain ⟨out', hout', hcontinues⟩ := (s.reduceRules it q).continues_stopped hmore
  refine ⟨_, out', hcontinues, fun l free ends hends hwrite => ?_⟩
  have hcommit : s.commitWriter e r ((s.reduceRules it q).workAfter c out ((s.bytesLeft it q c out).length - count)).1
      (s.burstWriter it q c ((s.bytesLeft it q c out).take count) l free) (some out')
        = s.burstWritten e r (s.memAfter q c ((s.bytesLeft it q c out).take count)) l free
            ((s.reduceRules it q).contextStopped c out count) out' := by
    have hwritten : ((s.bytesLeft it q c out).take count).length = count := List.length_take_of_le (Nat.le_of_lt hmore)
    unfold State.commitWriter State.burstWritten ReduceRules.contextStopped State.burstWriter Writer.put
    dsimp only
    rw [hwritten]
    rfl
  have hresume : s.resumeOutput e = State.afterWriting e (s.endWriting e r ((s.reduceRules it q).workAfter c out
      ((s.bytesLeft it q c out).length - count)) out.place.isNone
        (s.burstWriter it q c ((s.bytesLeft it q c out).take count) l free, ends)) := by
    unfold State.resumeOutput
    rw [h.running, h.held, h.work]
    dsimp only
    unfold State.writeBy
    rw [h.item, h.record]
    dsimp only
    rw [show writeBurst _ _ ((s.reduceRules it q).resume c out).bytes = _ from hwrite, List.length_drop]
  rw [exec_burstEnd_engine h.running hholder, hresume]
  unfold State.endWriting
  dsimp only
  rw [show ((s.reduceRules it q).workAfter c out ((s.bytesLeft it q c out).length - count)).2 = _ from hout', hcommit]
  rcases hends with rfl | rfl | rfl <;> rfl

theorem State.Writes.record_burstWritten (h : s.Writes e r it q c out) (m : Memory) (l free : List Nat) (c' : Context)
    (out' : HeldOutput) : (s.burstWritten e r m l free c' out').rendition? r = some { q with chain := l } :=
  s.rendition?_worked e r (f := Rendition.withChain l) _ m free (fun _ => rfl) h.record

/-- The record of a rendition whose engine is BLOCKED, its output chain set. -/
def Rendition.blockedWith (l : List Nat) (q : Rendition) : Rendition := { q with chain := l, state := .blocked }

/-- An engine BLOCKED at the end of its burst, its yield request clear (R102). -/
theorem State.blockEngine_burstWritten (s : State) (e : EngineId) (r : RendRef) (m : Memory) (l free : List Nat)
    (c' : Context) (out' : HeldOutput) : (s.burstWritten e r m l free c' out').blockEngine e r
      = s.worked e r (Rendition.blockedWith l)
        { s.engine e with state := .blocked, yieldRequest := false, work := some { context := c', output := some out' } } m
        free := by
  have hengine : (s.burstWritten e r m l free c' out').blockEngine e r = (s.burstWritten e r m l free c' out').worked e r
      (fun q => { q with state := .blocked }) { (s.burstWritten e r m l free c' out').engine e with
        state := .blocked, yieldRequest := false } m free := rfl
  rw [hengine, State.burstWritten, State.engine_worked]
  exact s.worked_worked e r (f := Rendition.withChain l) _ _ m m free free fun _ => rfl

/-- A rendition of a later generation dropped OVERSIZE at the end of its burst, where no engine is BLOCKED (R101, R107). -/
theorem State.Writes.dropped_burstWritten (h : s.Writes e r it q c out) (hs : q.state = .running)
    (hb : ∀ e', (s.engine e').state ≠ .blocked) (hg : 1 ≤ it.generation) (m : Memory) (c' : Context) (out' : HeldOutput) :
    State.DroppedFrom (s.burstWritten e r m q.chain s.frameMemory.freeBlocks c' out')
      ((s.burstWritten e r m q.chain s.frameMemory.freeBlocks c' out').dropFromEngine e r .oversize) e r
      (it.modifyRendition r.index (Rendition.withChain q.chain)) q .oversize := by
  refine State.droppedFrom_later (s.item?_worked e r _ m _ h.item) (h.record_burstWritten m q.chain _ c' out')
    (by rw [hs]; exact nofun) nofun (fun e' => ?_) hg
  by_cases he : e' = e
  · rw [he, State.burstWritten, State.engine_worked]
    exact hb e
  · rw [State.burstWritten, State.engine_worked_of_ne _ _ _ _ _ _ he]
    exact hb e'

/-! ### The four ends of a burst with bytes left -/

section
variable (h : s.Writes e r it q c out) (hholder : ∀ e', (s.engine e').rendition = some r ↔ e' = e)
include h hholder

/-- With room left in the block the engine stops after 512 bytes. -/
theorem State.Writes.exec_within (hroom : 512 < 4096 * q.chain.length - c.bytesWritten)
    (hmore : 512 < (s.bytesLeft it q c out).length) :
    ∃ c' out', State.Continues (s.reduceRules it q) c out 512 c' out'
      ∧ exec (.burstEnd [.engine e]) s = .next (s.burstWritten e r (s.memAfter q c ((s.bytesLeft it q c out).take 512))
        q.chain s.frameMemory.freeBlocks c' out').chooseFrame := by
  obtain ⟨c', out', hcontinues, hexec⟩ := h.exec_burst hholder hmore
  exact ⟨c', out', hcontinues, hexec q.chain _ .unfinished (Or.inl rfl)
    (writeBurst_within (s.writeRules it q) (w := s.writer q c) hroom hmore)⟩

variable {room : Nat} (hroom : room = 4096 * q.chain.length - c.bytesWritten) (hfill : room ≤ 512)
  (hmore : room < (s.bytesLeft it q c out).length)
include hroom hfill hmore

/-- With the block filled and the demand granted, the block at the head of the free list ends the chain. -/
theorem State.Writes.exec_granted {b : Nat} {rest : List Nat} (hfree : s.frameMemory.freeBlocks = b :: rest)
    (hsize : q.chain.length < q.descriptor.sizeLimit)
    (hmay : it.generation = 0 ∨ s.mgmt.settings.rerenderReserve.toNat < (b :: rest).length) :
    ∃ c' out', State.Continues (s.reduceRules it q) c out room c' out'
      ∧ exec (.burstEnd [.engine e]) s = .next (s.burstWritten e r (s.memAfter q c ((s.bytesLeft it q c out).take room))
        (q.chain ++ [b]) rest c' out').chooseFrame := by
  obtain ⟨c', out', hcontinues, hexec⟩ := h.exec_burst hholder hmore
  refine ⟨c', out', hcontinues, hexec (q.chain ++ [b]) rest .unfinished (Or.inl rfl) ?_⟩
  subst hroom
  have hgranted := demandRefused_none (p := s.writeRules it q) (w := s.burstWriter it q c
    ((s.bytesLeft it q c out).take (s.writer q c).room) q.chain s.frameMemory.freeBlocks) h.going hsize hfree
    (hmay.imp_left fun hfirst => by simp [State.writeRules, hfirst])
  have hwrite := writeBurst_filled (s.writeRules it q) (w := s.writer q c) hfill hmore
  rw [show demandRefused _ (Writer.put _ _ _) = _ from hgranted, Writer.takeBlock_of_cons hfree] at hwrite
  exact hwrite

/-- With the block filled and no block to be had, the engine is BLOCKED. -/
theorem State.Writes.exec_blocked (hsize : q.chain.length < q.descriptor.sizeLimit)
    (hfree : s.frameMemory.freeBlocks = [] ∨ (1 ≤ it.generation
      ∧ s.frameMemory.freeBlocks.length ≤ s.mgmt.settings.rerenderReserve.toNat)) :
    ∃ c' out', State.Continues (s.reduceRules it q) c out room c' out'
      ∧ exec (.burstEnd [.engine e]) s = .next ((s.burstWritten e r
        (s.memAfter q c ((s.bytesLeft it q c out).take room)) q.chain s.frameMemory.freeBlocks c' out').blockEngine e
          r).chooseFrame := by
  obtain ⟨c', out', hcontinues, hexec⟩ := h.exec_burst hholder hmore
  refine ⟨c', out', hcontinues, hexec q.chain _ .blocked (Or.inr (Or.inl rfl)) ?_⟩
  subst hroom
  have hrefused := demandRefused_blocked (p := s.writeRules it q) (w := s.burstWriter it q c
    ((s.bytesLeft it q c out).take (s.writer q c).room) q.chain s.frameMemory.freeBlocks) h.going hsize
    (hfree.imp_right fun hlater => ⟨decide_eq_true hlater.1, hlater.2⟩)
  have hwrite := writeBurst_filled (s.writeRules it q) (w := s.writer q c) hfill hmore
  rw [show demandRefused _ (Writer.put _ _ _) = _ from hrefused] at hwrite
  exact hwrite

/-- With the block filled and the chain at its size limit, the rendition is dropped OVERSIZE. -/
theorem State.Writes.exec_oversize (hsize : q.descriptor.sizeLimit ≤ q.chain.length) :
    ∃ c' out', exec (.burstEnd [.engine e]) s = .next ((s.burstWritten e r
      (s.memAfter q c ((s.bytesLeft it q c out).take room)) q.chain s.frameMemory.freeBlocks c' out').dropFromEngine e r
        .oversize).dispatch.chooseFrame := by
  obtain ⟨c', out', _, hexec⟩ := h.exec_burst hholder hmore
  refine ⟨c', out', hexec q.chain _ .oversize (Or.inr (Or.inr rfl)) ?_⟩
  subst hroom
  have hrefused := demandRefused_oversize (p := s.writeRules it q) (w := s.burstWriter it q c
    ((s.bytesLeft it q c out).take (s.writer q c).room) q.chain s.frameMemory.freeBlocks) h.going hsize
  have hwrite := writeBurst_filled (s.writeRules it q) (w := s.writer q c) hfill hmore
  rw [show demandRefused _ (Writer.put _ _ _) = _ from hrefused] at hwrite
  exact hwrite

end

end

/-! ### O41 -/

/-- Settles O41: a waiting client is granted when none before it in the order waits; the granted engine writes one burst,
by the room in its block and the outcome of the block demand. -/
theorem burstPriority : Obligations.BurstPriority := by
  unfold Obligations.BurstPriority
  refine ⟨fun s waiting => ⟨fun hc hw => State.grant_of_first (l := []) rfl (by simp) hc (State.canWait_lineWriter hw),
      fun hfront => ⟨fun hc hw => State.grant_of_first (l := [.lineWriter .front]) rfl (by simpa using hfront) hc
        (State.canWait_lineWriter hw),
      fun hrear => ⟨fun r n hc hw => State.grant_emitter hfront hrear hc (State.canWait_emitter hw),
      fun hemitter => ⟨fun e r hc hrun hholder hothers => State.grant_engine hfront hrear hemitter hc hrun hholder hothers,
      fun hnone => ⟨fun hc hw => State.grant_loader hfront hrear hemitter hnone hc (State.canWait_loader hw),
      fun hloader hc hw => State.grant_management hfront hrear hemitter hnone hloader hc
        (State.canWait_management hw)⟩⟩⟩⟩, State.grant_none, fun _ => State.grant_spec⟩, ?_⟩
  intro s e r it q c out room left h hholder hroom hleft hmore
  subst hleft
  dsimp only
  refine ⟨fun hlarge => ?_, fun hfill => ?_⟩
  · rw [Nat.min_eq_left (Nat.le_of_lt hlarge)] at hmore ⊢
    obtain ⟨c', out', hcontinues, hexec⟩ := h.exec_within hholder (hroom ▸ hlarge) hmore
    obtain ⟨x, hx, hxr⟩ := State.exists_item_of_rendition (h.record_burstWritten _ q.chain _ c' out')
    exact ⟨_, x, c', out', hexec, rfl, rfl, hcontinues, s.engine_worked e r _ _ _, hx, hxr⟩
  · rw [Nat.min_eq_right hfill] at hmore ⊢
    refine ⟨fun b rest hfree hsize hmay => ?_, fun hsize hfree => ?_, fun hsize hg hrun hqueue hb => ?_⟩
    · obtain ⟨c', out', hcontinues, hexec⟩ := h.exec_granted hholder hroom hfill hmore hfree hsize hmay
      obtain ⟨x, hx, hxr⟩ := State.exists_item_of_rendition (h.record_burstWritten _ (q.chain ++ [b]) _ c' out')
      exact ⟨_, x, c', out', hexec, rfl, rfl, hcontinues, s.engine_worked e r _ _ _, hx, hxr⟩
    · obtain ⟨c', out', hcontinues, hexec⟩ := h.exec_blocked hholder hroom hfill hmore hsize hfree
      rw [State.blockEngine_burstWritten] at hexec
      obtain ⟨x, hx, hxr⟩ := State.exists_item_of_rendition
        (s.rendition?_worked e r (f := Rendition.blockedWith q.chain) _ _ _ (fun _ => rfl) h.record)
      exact ⟨_, x, c', out', hexec, rfl, rfl, hcontinues, s.engine_worked e r _ _ _, hx, hxr⟩
    · obtain ⟨c', out', hexec⟩ := h.exec_oversize hholder hroom hfill hmore hsize
      have hdrop := h.dropped_burstWritten hrun hb hg
        (s.memAfter q c ((s.bytesLeft it q c out).take room)) c' out'
      obtain ⟨x, hx, hflags, hxr⟩ := hdrop.entry
      have hidle := hdrop.queue.trans ((s.queue_worked e r _ _ _).trans hqueue)
      rw [State.dispatch_of_nil hidle] at hexec
      exact ⟨_, x, q.droppedFor .oversize, hexec, hdrop.blocks, hdrop.engine, hx,
        hflags.trans (dropFlag_union_oversize _), hxr, rfl, rfl, rfl⟩

end Sys2Proof.Machine
end

section
/-! The reduction's arithmetic (chapter 6): the output size, the tone map and the FIXED threshold of a rendition (O33), and
the overlaps of the area-average scaling (O34). -/

namespace Sys2Proof.Machine

/-! ### The units of an output pixel (R113) -/

/-- The first `count` input pixels cover the units of output pixel `j` that lie below `count * n`. -/
theorem sum_overlap_range (n d count j : Nat) :
    ((List.range count).map fun i => overlap n d i j).sum = min (count * n) ((j + 1) * d) - j * d := by
  have hcolumn : j * d ≤ (j + 1) * d := Nat.mul_le_mul_right d (Nat.le_succ j)
  induction count with
  | zero => simp
  | succ count ih =>
    have hpixel : count * n ≤ (count + 1) * n := Nat.mul_le_mul_right n (Nat.le_succ count)
    rw [List.range_succ, List.map_append, List.sum_append, ih, List.map_singleton, List.sum_singleton]
    unfold overlap
    omega

/-- An output pixel wholly within the input is covered by it (R113). -/
theorem sum_overlap_of_whole {n d count j : Nat} (h : (j + 1) * d ≤ count * n) :
    ((List.range count).map fun i => overlap n d i j).sum = d := by
  rw [sum_overlap_range, Nat.min_eq_right h, Nat.add_one_mul, Nat.add_sub_cancel_left]

theorem sum_overlap_le (n d count j : Nat) : ((List.range count).map fun i => overlap n d i j).sum ≤ d := by
  rw [sum_overlap_range, Nat.add_one_mul]
  omega

/-! ### The weighted sum of a line, and its rounding (R113) -/

/-- Pixels of at most `top` weigh at most as a line of `top` alone, whose overlaps come to no more than `d` units. -/
theorem sum_overlap_mul_le (n d j : Nat) {top : Nat} {pixels : List Nat} (h : ∀ v ∈ pixels, v ≤ top) :
    (pixels.zipIdx.map fun p => overlap n d p.2 j * p.1).sum ≤ d * top :=
  calc (pixels.zipIdx.map fun p => overlap n d p.2 j * p.1).sum
      ≤ (pixels.zipIdx.map fun p => overlap n d p.2 j * top).sum :=
        List.sum_le_sum fun _ hp => Nat.mul_le_mul_left _ (h _ (List.fst_mem_of_mem_zipIdx hp))
    _ = ((pixels.zipIdx.map Prod.snd).map fun i => overlap n d i j).sum * top := by
        rw [List.map_map, ← List.sum_map_mul_right]; rfl
    _ = ((List.range pixels.length).map fun i => overlap n d i j).sum * top := by
        rw [List.zipIdx_map_snd, List.range_eq_range']
    _ ≤ d * top := Nat.mul_le_mul_right top (sum_overlap_le n d pixels.length j)

/-- The rounding adds less than one whole `d`. -/
theorem scaledValue_le (n j : Nat) {d top : Nat} (hd : 0 < d) {pixels : List Nat} (h : ∀ v ∈ pixels, v ≤ top) :
    scaledValue n d pixels j ≤ top := by
  have hsum := sum_overlap_mul_le n d j h
  have hround : d / 2 < d := Nat.div_lt_self hd (by decide)
  unfold scaledValue
  rw [← Nat.lt_succ_iff, Nat.div_lt_iff_lt_mul hd, Nat.succ_mul, Nat.mul_comm top d]
  exact Nat.add_lt_add_of_le_of_lt hsum hround

/-- Settles O34: the covered units of an output pixel telescope, and they bound the weighted sum before it is rounded. -/
theorem overlapsAddUp : Obligations.OverlapsAddUp := fun n _ hn hnd =>
  ⟨fun _ _ => sum_overlap_of_whole, fun _ j => scaledValue_le n j (Nat.lt_of_lt_of_le hn hnd)⟩

/-! ### The output size, the tone map and the FIXED threshold (R111, R112, R115, R117) -/

theorem outputWidth_eq (img : Image) (d : Descriptor) (width : Nat) :
    outputWidth img d width = (width - d.top - d.bottom) * img.scaleNh d.scale / img.scaleDh d.scale := rfl

theorem outputHeight_eq (img : Image) (d : Descriptor) (captured : Nat) :
    outputHeight img d captured = (captured - d.lead - d.tail) * img.scaleNv d.scale / img.scaleDv d.scale := rfl

@[simp] theorem toneLine_getElem? (img : Image) (tone : Nat) (values : List Nat) (i : Nat) :
    (toneLine img tone values)[i]? = values[i]?.map (img.toneEntry tone) := List.getElem?_map

/-- A FIXED threshold keeps no running level. -/
@[simp] theorem bitonalLine_fixed (level : Nat) (values : List Nat) :
    bitonalLine (.fixed level) values = fixedLine level values := rfl

@[simp] theorem fixedLine_getElem? (level : Nat) (values : List Nat) (i : Nat) :
    (fixedLine level values)[i]? = values[i]?.map fun v => decide (v < level) := List.getElem?_map

/-- Settles O33: the sizes by their definitions, the mapped and the bitonal line read at a place. -/
theorem reductionSteps : Obligations.ReductionSteps := by
  refine ⟨fun img d width captured => ⟨outputWidth_eq img d width, outputHeight_eq img d captured⟩, ?_⟩
  intro img tone level values i v hv
  constructor
  · rw [toneLine_getElem?, hv, Option.map_some]
  · rw [bitonalLine_fixed, fixedLine_getElem?, hv, Option.map_some]

end Sys2Proof.Machine
end

section
/-! The loss of the track link (O8): the ADVICE frames lost with it, and the entry to HALTED (R138, R180); and
ADVICE_DEADLINE (O19): the oldest item whose advice deadline is reached (R134). -/

namespace Sys2Proof.Machine

open State (Calm)

/-! ### The ADVICE frames lost (R138) -/

/-- The sum of a counter within its range does not saturate (R191). -/
theorem saturatingAdd_of_fits {c : Word} {n : Nat} (h : c.toNat + n < 2 ^ 32) :
    saturatingAdd c n = c + BitVec.ofNat 32 n := by
  unfold saturatingAdd
  exact if_neg (by omega)

/-- The track link DOWN, its ADVICE frames lost and counted, before the mode is looked at (R138). -/
def State.trackLost (s : State) : State :=
  { s.trackDown with
    adviceOut := { queue := [], leftover := none }
    mgmt := { s.mgmt with counters := { s.mgmt.counters with
      adviceLost := saturatingAdd s.mgmt.counters.adviceLost s.adviceOut.held } } }

/-- Outside RUNNING the loss of the track link is that of its ADVICE frames. -/
theorem State.loseTrack_of_not_running {s : State} (h : s.mgmt.mode ≠ .running) : s.loseTrack = s.trackLost := if_neg h

/-- In RUNNING the mode then enters HALTED (R180). -/
theorem State.loseTrack_of_running {s : State} (h : s.mgmt.mode = .running) :
    s.loseTrack = s.trackLost.enterHalted .trackLink := if_pos h

/-! ### HALTED with the track link DOWN (R180) -/

/-- The JAM cancels of a halt queue no ADVICE while the track link is DOWN (R138). -/
theorem State.adviceQueue_enterHalted {s : State} (h : s.links.track.up = false) (c : ModeCause) :
    (s.enterHalted c).adviceOut.queue = s.adviceOut.queue := by
  have hmode := State.composeEvent_calm { s with mgmt := { s.mgmt with mode := .halted } }
    (.modeChange s.mgmt.mode .halted c)
  have hjam : Calm _ ((s.changeMode .halted c).slots.foldl State.jam (s.changeMode .halted c)) :=
    hmode.trans (.foldl State.jam_calm _ _)
  obtain ⟨l, hqueue, hdown, -⟩ := hjam.advice
  rw [hdown h, List.append_nil] at hqueue
  exact hqueue

/-! ### TRACK_LINK_DOWN -/

/-- TRACK_LINK_DOWN with the track link UP. -/
theorem exec_trackLinkDown_of_up {s : State} (h : s.links.track.up = true) :
    exec .trackLinkDown s = .next s.loseTrack.chooseFrame :=
  congrArg (fun t : State => Host.Outcome.next t.chooseFrame) (if_pos h)

/-- Settles O8: outside RUNNING the ADVICE frames alone are lost; in RUNNING the halt finds the link DOWN, so that its
cancels leave the advice queue empty. -/
theorem trackLinkLost : Obligations.TrackLinkLost := by
  unfold Obligations.TrackLinkLost
  refine fun s hup => ⟨fun hm hfits => ?_, fun hm hroom => ?_⟩
  · rw [exec_trackLinkDown_of_up hup, State.loseTrack_of_not_running hm]
    unfold State.trackLost
    rw [saturatingAdd_of_fits hfits]
    rfl
  · obtain ⟨hmode, hchannels, l, hreports⟩ := State.enterHalted_spec (s := s.trackLost) hroom .trackLink
    have hlinks := (s.trackLost.enterHalted_keeps .trackLink).links
    refine ⟨_, l, exec_trackLinkDown_of_up hup, ?_⟩
    rw [State.loseTrack_of_running hm, State.chooseFrame_links, State.chooseFrame_mode, State.chooseFrame_adviceOut,
      State.reportsHeld_chooseFrame]
    refine ⟨by rw [hlinks]; rfl, hmode, State.adviceQueue_enterHalted rfl .trackLink, fun cam => ?_, hm ▸ hreports⟩
    unfold State.channel
    rw [State.chooseFrame_capture]
    exact hchannels cam

/-! ### ADVICE_DEADLINE (R134) -/

/-- An item without an advice deadline has none to reach. -/
theorem State.adviceDeadlineReached_of_none {s : State} {x : Item} (h : x.adviceDeadline = none) :
    s.adviceDeadlineReached x = false := by
  unfold State.adviceDeadlineReached
  rw [h]

/-- ADVICE_DEADLINE takes the oldest item whose deadline is reached. -/
theorem exec_adviceDeadline_of_first {s : State} {it : Item} {older younger : List Item}
    (hitems : s.table.items = older ++ it :: younger) (hreached : s.adviceDeadlineReached it = true)
    (holder : ∀ x ∈ older, s.adviceDeadlineReached x = false) :
    exec .adviceDeadline s = .next (s.cancelItem it.slot .late).dispatch.chooseFrame := by
  have hfind : s.table.items.find? s.adviceDeadlineReached = some it :=
    List.find?_eq_some_iff_append.2 ⟨hreached, older, younger, hitems, fun x hx => by rw [holder x hx]; rfl⟩
  change execAdviceDeadline s = _
  unfold execAdviceDeadline
  rw [hfind]
  rfl

/-- Settles O19: the oldest due item is cancelled LATE, and the choice of a frame leaves what the cancel brought about. -/
theorem adviceDeadline : Obligations.AdviceDeadline := by
  unfold Obligations.AdviceDeadline
  intro s q d it older younger hq hitems hcan holder hg hs ha hd hpast
  have hreached : s.adviceDeadlineReached it = true := by
    rw [State.adviceDeadlineReached_eq hd hq, hg, hs, ha, hpast]
    rfl
  obtain ⟨hcancel, hn⟩ := State.cancelDispatch_cancels hcan .late
  exact ⟨_, exec_adviceDeadline_of_first hitems hreached fun x hx =>
    State.adviceDeadlineReached_of_none (holder x hx), hcancel.calm hn (State.chooseFrame_calm _)⟩

end Sys2Proof.Machine
end

section
/-! The loss of the exchange link (O9), CREDIT (O35) and the Emitter's choice of a frame (O36): R144 to R151, R153, R154,
R156. -/

namespace Sys2Proof.Machine

/-! ### The choice at a frame boundary (R145, R146) -/

/-- While the exchange link is DOWN there is no choice (R147). -/
theorem State.chooseFrame_of_down {s : State} (h : s.links.exchange.up = false) : s.chooseFrame = s := by
  have hdown : ¬ s.linkUp .exchange = true := by
    rw [show s.linkUp .exchange = false from h]
    exact Bool.false_ne_true
  exact if_neg fun c => hdown c.1

/-- A waiting report goes first, without credit. -/
theorem State.chooseFrame_of_report {s : State} (hup : s.links.exchange.up = true) (hf : s.emitter.frame = none)
    {r : Report} {rest : List Report} (h : s.mgmt.reports = r :: rest) :
    s.chooseFrame = State.beginFrame { s with mgmt := { s.mgmt with reports := rest } } (.report r) := by
  unfold State.chooseFrame
  rw [if_pos ⟨hup, hf⟩, h]

/-- The Emitter stands at a frame boundary with credit, and no report waits. -/
structure State.CreditBoundary (s : State) : Prop where
  up : s.links.exchange.up = true
  frame : s.emitter.frame = none
  reports : s.mgmt.reports = []
  credits : 0 < s.emitter.credits

namespace State.CreditBoundary

variable {s : State}

/-- The rendition in hand goes on. -/
theorem chooseFrame_of_rendition (h : s.CreditBoundary) {r : RendRef} {n : Nat} {d : Bool}
    (hw : s.emitter.work = .rendition r n d) : s.chooseFrame = s.continueRendition r n d := by
  unfold State.chooseFrame
  rw [if_pos ⟨h.up, h.frame⟩, h.reports]
  dsimp only
  rw [if_neg h.credits.ne', hw]

/-- With nothing in hand the lists are looked at. -/
theorem chooseFrame_of_idle (h : s.CreditBoundary) (hw : s.emitter.work = .idle) : s.chooseFrame = s.beginFromLists := by
  unfold State.chooseFrame
  rw [if_pos ⟨h.up, h.frame⟩, h.reports]
  dsimp only
  rw [if_neg h.credits.ne', hw]

end State.CreditBoundary

/-! ### The lists (R146) -/

def State.withSummaryList (s : State) (l : List Slot) : State := { s with emitter := { s.emitter with summaryList := l } }

def State.withEmissionQueue (s : State) (l : List EmissionEntry) : State :=
  { s with emitter := { s.emitter with queue := l } }

/-- The head of the summary list goes first. -/
theorem State.beginFromLists_of_summary {s : State} {k : Slot} {rest : List Slot} (h : s.emitter.summaryList = k :: rest) :
    s.beginFromLists = (s.withSummaryList rest).beginSummary k := by
  unfold State.beginFromLists
  rw [h]
  rfl

theorem State.beginFromLists_of_rendition {s : State} (hl : s.emitter.summaryList = []) {r : RendRef}
    {rest : List EmissionEntry} (h : s.emitter.queue = .rendition r :: rest) :
    s.beginFromLists = (s.withEmissionQueue rest).beginRendition r := by
  unfold State.beginFromLists
  rw [hl, h]
  rfl

theorem State.beginFromLists_of_notice {s : State} (hl : s.emitter.summaryList = []) {k : Slot}
    {rest : List EmissionEntry} (h : s.emitter.queue = .notice k :: rest) :
    s.beginFromLists = (s.withEmissionQueue rest).beginNotice k := by
  unfold State.beginFromLists
  rw [hl, h]
  rfl

/-! ### The frames begun (R148 to R150, R153, R154) -/

theorem State.continueRendition_of_found {s : State} {r : RendRef} {it : Item} {q : Rendition}
    (hit : s.item? r.slot = some it) (hq : s.rendition? r = some q) (n : Nat) (d : Bool) :
    s.continueRendition r n d
      = s.beginCredit (if d then .trailer (trailerOf it q) else .segment (s.segmentOf it q n)) := by
  unfold State.continueRendition
  rw [hit, hq]
  cases d <;> rfl

/-- A rendition begun leaves its entry marked, and its HEADER in progress (R148). -/
theorem State.beginRendition_of_found {s : State} {r : RendRef} {it : Item} {q : Rendition}
    (hit : s.item? r.slot = some it) (hq : s.rendition? r = some q) :
    s.beginRendition r = State.beginCredit { s.modifyItem r.slot (Item.begun r.index) with
      emitter := { s.emitter with work := .rendition r 0 (decide (segmentCount (q.length.getD 0) = 0)) } }
      (.header (s.headerOf it q)) := by
  unfold State.beginRendition
  rw [hit, hq]
  rfl

theorem State.beginSummary_of_found {s : State} {k : Slot} {it : Item} (h : s.item? k = some it) :
    s.beginSummary k
      = State.beginCredit { s with emitter := { s.emitter with work := .summary k } } (.summary (s.summaryOf it)) := by
  unfold State.beginSummary
  rw [h]

theorem State.beginNotice_of_found {s : State} {k : Slot} {it : Item} (h : s.item? k = some it) :
    s.beginNotice k
      = State.beginCredit { s with emitter := { s.emitter with work := .notice k } } (.cancel (noticeOf it)) := by
  unfold State.beginNotice
  rw [h]

/-- Settles O36: the order of the choice, and for each place in it the frame begun; the lists are found as they stood,
their heads taken off. -/
theorem frameChoice : Obligations.FrameChoice := by
  unfold Obligations.FrameChoice
  refine fun s => ⟨fun h => h.elim State.chooseFrame_of_down State.chooseFrame_of_frame, fun hup hf =>
    ⟨fun r rest h => State.chooseFrame_of_report hup hf h, State.chooseFrame_of_nothing, fun hr hc => ?_⟩⟩
  have hb : s.CreditBoundary := ⟨hup, hf, hr, hc⟩
  refine ⟨fun r n it q hw hit hq => ?_, fun r n it q hw hit hq => ?_, fun k rest it hw hl hit => ?_,
    fun r rest it q hw hl hqueue hit hq => ?_, fun k rest it hw hl hqueue hit => ?_⟩
  · rw [hb.chooseFrame_of_rendition hw, State.continueRendition_of_found hit hq]
    rfl
  · rw [hb.chooseFrame_of_rendition hw, State.continueRendition_of_found hit hq]
    rfl
  · rw [hb.chooseFrame_of_idle hw, State.beginFromLists_of_summary hl,
      State.beginSummary_of_found (s := s.withSummaryList rest) hit]
    rfl
  · rw [hb.chooseFrame_of_idle hw, State.beginFromLists_of_rendition hl hqueue,
      State.beginRendition_of_found (s := s.withEmissionQueue rest) hit hq]
    rfl
  · rw [hb.chooseFrame_of_idle hw, State.beginFromLists_of_notice hl hqueue,
      State.beginNotice_of_found (s := s.withEmissionQueue rest) hit]
    rfl

/-! ### CREDIT (R144) -/

/-- A CREDIT received while the exchange link is UP. -/
theorem exec_credit {s : State} (hup : s.links.exchange.up = true) (grant : Byte) :
    exec (.credit grant) s = .next (s.creditFrame grant).chooseFrame :=
  congrArg Host.Outcome.next (State.receive_up (k := .exchange) hup _)

/-- The credit counter at a value. -/
def State.withCredits (s : State) (n : Nat) : State := { s with emitter := { s.emitter with credits := n } }

theorem State.creditFrame_zero (s : State) : s.creditFrame 0 = s.withBadExchange := rfl

/-- A grant is added and clamped, with an EVENT when the counter does not hold the sum. -/
theorem State.creditFrame_of_grant {s : State} {grant : Byte} (hg : grant ≠ 0) : s.creditFrame grant =
    if 255 < s.emitter.credits + grant.toNat then
      (s.withCredits (min (s.emitter.credits + grant.toNat) 255)).composeEvent
        (.creditOverflow grant.toNat s.emitter.credits)
    else s.withCredits (min (s.emitter.credits + grant.toNat) 255) := if_neg hg

theorem State.creditFrame_of_fits {s : State} {grant : Byte} (hg : grant ≠ 0)
    (h : s.emitter.credits + grant.toNat ≤ 255) :
    s.creditFrame grant = s.withCredits (s.emitter.credits + grant.toNat) := by
  rw [State.creditFrame_of_grant hg, if_neg (Nat.not_lt.2 h), min_eq_left h]

theorem State.creditFrame_of_overflow {s : State} {grant : Byte} (hg : grant ≠ 0)
    (h : 255 < s.emitter.credits + grant.toNat) : s.creditFrame grant
      = (s.withCredits 255).composeEvent (.creditOverflow grant.toNat s.emitter.credits) := by
  rw [State.creditFrame_of_grant hg, if_pos h, min_eq_right h.le]

/-- Settles O35: a grant of 0, one whose sum the counter holds, and one whose sum it does not. -/
theorem creditTaken : Obligations.CreditTaken := by
  unfold Obligations.CreditTaken
  refine fun s grant hup => ⟨fun hg => ?_, fun hg h => ?_, fun hg h hroom => ?_⟩
  · rw [exec_credit hup, hg, State.creditFrame_zero]
  · rw [exec_credit hup, State.creditFrame_of_fits hg h]
    rfl
  · have hplace : (s.withCredits 255).EventRoom := ⟨hup, hroom⟩
    rw [exec_credit hup, State.creditFrame_of_overflow hg h, State.composeEvent_of_room hplace]
    rfl

/-! ### The loss of the exchange link (R156) -/

/-- The exchange link DOWN, without credits, a frame in progress or waiting reports, before the work in hand is
resolved (R147, R156, R187). -/
def State.exchangeCut (s : State) : State :=
  { s.exchangeDown with
    emitter := { s.emitter with credits := 0, frame := none }
    mgmt := { s.mgmt with reports := [] } }

theorem State.loseExchange_eq (s : State) : s.loseExchange = s.exchangeCut.loseWork := rfl

/-- Without an engine reset that waits the loss of the link is all that happens: on a DOWN link no frame is chosen. -/
theorem exec_exchangeLinkDown_of_up {s : State} (hup : s.links.exchange.up = true)
    (hw : s.mgmt.headWait ≠ .engineReset) : exec .exchangeLinkDown s = .next s.exchangeCut.loseWork := by
  have hkeeps := s.loseExchange_keeps
  have hwait : s.loseExchange.mgmt.headWait ≠ .engineReset := by
    rw [hkeeps.headWait]
    exact hw
  have hdown : s.loseExchange.links.exchange.up = false := by
    rw [hkeeps.links]
    rfl
  calc exec .exchangeLinkDown s
      = .next s.loseExchange.finishReset.chooseFrame :=
        congrArg (fun t : State => Host.Outcome.next t.chooseFrame) (if_pos hup)
    _ = .next s.exchangeCut.loseWork := by
        rw [State.finishReset_of_ne hwait, State.chooseFrame_of_down hdown, State.loseExchange_eq]

/-! The work in hand, of a frame that no engine reset has discarded, is resolved by its kind. -/

section
variable {s : State} (hd : s.emitter.discarded = false)
include hd

theorem State.loseWork_of_idle (hw : s.emitter.work = .idle) : s.loseWork = s := by
  unfold State.loseWork
  rw [hd, if_neg Bool.false_ne_true, hw]

theorem State.loseWork_of_rendition {r : RendRef} {n : Nat} {d : Bool} (hw : s.emitter.work = .rendition r n d) :
    s.loseWork = s.loseRendition r := by
  unfold State.loseWork
  rw [hd, if_neg Bool.false_ne_true, hw]

theorem State.loseWork_of_summary {k : Slot} (hw : s.emitter.work = .summary k) : s.loseWork = s.endSummary k := by
  unfold State.loseWork
  rw [hd, if_neg Bool.false_ne_true, hw]

end

/-- A rendition in hand that is not stopping waits again, to be sent anew (R156). -/
theorem State.loseRendition_of_going {s : State} {r : RendRef} (h : s.isStopping r = false) :
    s.loseRendition r = State.modifyRendition
      { s with emitter := { s.emitter with work := .idle, queue := .rendition r :: s.emitter.queue } } r
      fun q => { q with state := .rendered, restart := true } := by
  unfold State.loseRendition
  rw [h]
  rfl

/-- The end of a SUMMARY for which no cancel waits (R5). -/
theorem State.endSummary_of_none {s : State} {k : Slot} {it : Item} (h : s.item? k = some it)
    (hn : it.deferredCancel = none) : s.endSummary k
      = State.modifyItem { s with emitter := { s.emitter with work := .idle } } k Item.summaryEnded := by
  unfold State.endSummary
  dsimp only
  rw [show State.item? { s with emitter := { s.emitter with work := .idle } } k = some it from h]
  dsimp only
  rw [hn]
  rfl

/-- Settles O9: nothing in hand, a rendition, a SUMMARY. -/
theorem exchangeLinkLost : Obligations.ExchangeLinkLost := by
  unfold Obligations.ExchangeLinkLost
  intro s hup hd hw down
  have hexec := exec_exchangeLinkDown_of_up hup hw
  refine ⟨fun hwork => ?_, fun r n d hwork hs => ?_, fun k it hwork hit hn => ?_⟩
  · rw [hexec, State.loseWork_of_idle (s := s.exchangeCut) hd hwork]
    rfl
  · rw [hexec, State.loseWork_of_rendition (s := s.exchangeCut) hd hwork,
      State.loseRendition_of_going (s := s.exchangeCut) hs]
    rfl
  · rw [hexec, State.loseWork_of_summary (s := s.exchangeCut) hd hwork,
      State.endSummary_of_none (s := s.exchangeCut) hit hn]
    rfl

end Sys2Proof.Machine
end

section
/-! Frame memory: what a write leaves to be read (O21), what the map checks of REGIONS pass (O48), and PEEK and POKE up to
their answers (O59). -/

namespace Sys2Proof.Machine

/-! ### Reading after a write (R161) -/

/-- A written byte is read at its place, whatever stood there. -/
theorem State.byteAt_writeBytes_same {s : State} (h : Memory.wf s.mem) (address : Nat) {bytes : List Byte} {i : Nat}
    (hi : i < bytes.length) : (s.writeBytes address bytes).byteAt (address + i) = bytes[i] := by
  unfold State.byteAt
  rw [State.writeBytes_mem, Memory.read_writeBytes_same h hi, Option.getD_some]

/-- An address outside the written bytes reads as it did, written before or not. -/
theorem State.byteAt_writeBytes_other {s : State} (h : Memory.wf s.mem) {address x : Nat} (bytes : List Byte)
    (hx : x < address ∨ address + bytes.length ≤ x) : (s.writeBytes address bytes).byteAt x = s.byteAt x := by
  unfold State.byteAt
  rw [State.writeBytes_mem, Memory.read_writeBytes_other h bytes hx]
  rfl

/-- Settles O21: the bytes within the write, and the addresses outside it. -/
theorem frameMemoryHoldsBytes : Obligations.FrameMemoryHoldsBytes := by
  unfold Obligations.FrameMemoryHoldsBytes
  refine fun s address x bytes h => ⟨fun i b hx hb => ?_, State.byteAt_writeBytes_other h bytes⟩
  obtain ⟨hi, rfl⟩ := List.getElem?_eq_some_iff.1 hb
  rw [hx, State.byteAt_writeBytes_same h address hi]

/-! ### The checks of a region map (R162, R164) -/

theorem isDoubling_iff (v lo count : Nat) : isDoubling v lo count = true ↔ ∃ k ≤ count, v = lo * 2 ^ k := by
  simp [isDoubling]

theorem regionAligned_iff (r : Region) : regionAligned r = true ↔ r.size = 0 ∨ r.base % r.size = 0 := by
  simp [regionAligned]

theorem regionFits_iff (installed : Nat) (r : Region) :
    regionFits installed r = true ↔ r.size = 0 ∨ r.base + r.size ≤ installed := by
  simp [regionFits]

/-- An address is one of a region's bytes, from its base up (R162). -/
def Region.Spans (r : Region) (a : Nat) : Prop := r.base ≤ a ∧ a < r.base + r.size

/-- The overlap test finds a common address exactly when there is one: the greater of the two bases. -/
theorem regionsOverlap_iff (r r' : Region) : regionsOverlap r r' = true ↔ ∃ a, r.Spans a ∧ r'.Spans a := by
  have htest : regionsOverlap r r' = true
      ↔ 0 < r.size ∧ 0 < r'.size ∧ r.base < r'.base + r'.size ∧ r'.base < r.base + r.size := by
    simp [regionsOverlap, and_assoc]
  rw [htest]
  unfold Region.Spans
  constructor
  · rintro ⟨hr, hr', hlt, hlt'⟩
    exact ⟨max r.base r'.base, by omega, by omega⟩
  · rintro ⟨a, ha, ha'⟩
    omega

theorem regionsOverlap_comm (r r' : Region) : regionsOverlap r r' = regionsOverlap r' r := by
  rw [Bool.eq_iff_iff, regionsOverlap_iff, regionsOverlap_iff]
  exact exists_congr fun _ => and_comm

theorem mem_regionIds (r : RegionId) : r ∈ regionIds := by
  cases r <;> decide

/-- The search for a region that fails a test finds none when every region passes it. -/
theorem find_regionIds_eq_none {test : RegionId → Bool} :
    (regionIds.find? fun r => !test r) = none ↔ ∀ r, test r = true := by
  simp [List.find?_eq_none, mem_regionIds]

theorem ne_of_mem_regionPairs {p : RegionId × RegionId} (h : p ∈ regionPairs) : p.1 ≠ p.2 := by
  revert p
  decide

/-- Two different regions are one of the pairs, in the order of their numbers. -/
theorem mem_regionPairs {r r' : RegionId} (h : r ≠ r') : (r, r') ∈ regionPairs ∨ (r', r) ∈ regionPairs := by
  cases r <;> cases r' <;> simp [regionPairs] at h ⊢

/-- The search for a pair that overlaps finds none when no two different regions do, in either order. -/
theorem find_regionPairs_eq_none {m : RegionMap} :
    (regionPairs.find? fun p => regionsOverlap (m.region p.1) (m.region p.2)) = none
      ↔ ∀ r r', r ≠ r' → ¬ regionsOverlap (m.region r) (m.region r') = true := by
  rw [List.find?_eq_none]
  refine ⟨fun h r r' hne => ?_, fun h p hp => h p.1 p.2 (ne_of_mem_regionPairs hp)⟩
  rcases mem_regionPairs hne with hp | hp
  · exact h _ hp
  · rw [regionsOverlap_comm]
    exact h _ hp

/-- A map is accepted when each of the five checks of R164 is passed by every region or pair it looks at. -/
theorem mapFailure_eq_none_iff (m : RegionMap) (installed reserve : Nat) :
    mapFailure m installed reserve = none ↔
      (∀ r, sizeAllowed m r = true) ∧ (∀ r, regionAligned (m.region r) = true)
      ∧ (∀ r, regionFits installed (m.region r) = true)
      ∧ (∀ r r', r ≠ r' → ¬ regionsOverlap (m.region r) (m.region r') = true) ∧ reserve < m.blockCount := by
  have hreserve : (if reserve < m.blockCount then none else some (⟨20, 0, 0⟩ : MapFailure)) = none
      ↔ reserve < m.blockCount := by simp
  unfold mapFailure
  rw [Option.or_eq_none_iff, Option.or_eq_none_iff, Option.or_eq_none_iff, Option.or_eq_none_iff,
    Option.map_eq_none_iff, Option.map_eq_none_iff, Option.map_eq_none_iff, Option.map_eq_none_iff,
    find_regionIds_eq_none, find_regionIds_eq_none, find_regionIds_eq_none, find_regionPairs_eq_none, hreserve]

theorem RegionId.forall_iff {p : RegionId → Prop} : (∀ r, p r) ↔ p .tables ∧ p .strips ∧ p .output ∧ p .spare :=
  ⟨fun h => ⟨h _, h _, h _, h _⟩, fun ⟨ht, hs, ho, hp⟩ r => by cases r <;> assumption⟩

/-- The SIZE check, region by region (section 9.2). -/
theorem sizesAllowed_iff (m : RegionMap) : (∀ r, sizeAllowed m r = true) ↔
    m.tables.pokeAllowed = false
      ∧ (∃ k ≤ 5, m.strips.size = 8388608 * 2 ^ k) ∧ (∃ k ≤ 7, m.output.size = 1048576 * 2 ^ k)
      ∧ (m.spare.size = 0 ∨ ∃ k ≤ 8, m.spare.size = 262144 * 2 ^ k) := by
  rw [RegionId.forall_iff, ← isDoubling_iff, ← isDoubling_iff, ← isDoubling_iff]
  simp [sizeAllowed]

/-- ALIGN and FIT together: a region of size 0 passes both, any other must meet both. -/
theorem regionsPlaced_iff (m : RegionMap) (installed : Nat) :
    (∀ r, regionAligned (m.region r) = true) ∧ (∀ r, regionFits installed (m.region r) = true) ↔
      ∀ r, (m.region r).size = 0
        ∨ ((m.region r).base % (m.region r).size = 0 ∧ (m.region r).base + (m.region r).size ≤ installed) := by
  rw [← forall_and]
  refine forall_congr' fun r => ?_
  rw [regionAligned_iff, regionFits_iff, or_and_left]

/-- Settles O48: the five checks, each in its own terms. -/
theorem regionChecks : Obligations.RegionChecks := by
  unfold Obligations.RegionChecks
  intro m installed reserve _
  have hoverlap : (∀ r r', r ≠ r' → ¬ regionsOverlap (m.region r) (m.region r') = true) ↔
      ∀ r r', r ≠ r' → ∀ a, ¬ ((m.region r).base ≤ a ∧ a < (m.region r).base + (m.region r).size
        ∧ (m.region r').base ≤ a ∧ a < (m.region r').base + (m.region r').size) := by
    refine forall_congr' fun r => forall_congr' fun r' => forall_congr' fun _ => ?_
    rw [regionsOverlap_iff, not_exists]
    unfold Region.Spans
    simp only [and_assoc]
  have hcount : reserve < m.blockCount ↔ reserve < m.output.size / 4096 := Iff.rfl
  rw [mapFailure_eq_none_iff, sizesAllowed_iff, ← regionsPlaced_iff, hoverlap, hcount]
  simp only [and_assoc]

/-! ### The checks of a management access (R174) -/

theorem accessForm_iff (address length : Nat) : accessForm address length = true ↔
    4 ≤ length ∧ length ≤ 256 ∧ length % 4 = 0 ∧ address % 4 = 0 := by
  simp [accessForm, and_assoc]

/-- A range passes a test when every byte lies in a region that passes it. -/
theorem State.rangePasses_iff (s : State) (address length : Nat) (test : RegionId → Bool) :
    s.rangePasses address length test = true
      ↔ ∀ i < length, ∃ r, s.regionAt (address + i) = some r ∧ test r = true := by
  unfold State.rangePasses
  rw [List.all_eq_true]
  simp only [List.mem_range]
  refine forall_congr' fun i => forall_congr' fun _ => ?_
  cases s.regionAt (address + i) <;> simp

/-- A request in the queue changes nothing of what the checks of a management access look at. -/
theorem State.rangePasses_taking (s : State) (q : QueuedRequest) (address length : Nat) (test : RegionId → Bool) :
    (s.taking q).rangePasses address length test = s.rangePasses address length test := by
  rw [Bool.eq_iff_iff, State.rangePasses_iff, State.rangePasses_iff]
  exact Iff.rfl

theorem State.peekAllowed_taking (s : State) (q : QueuedRequest) (address length : Nat) :
    (s.taking q).peekAllowed address length = s.peekAllowed address length := s.rangePasses_taking q address length _

theorem State.pokeAllowed_taking (s : State) (q : QueuedRequest) (address length : Nat) :
    (s.taking q).pokeAllowed address length = s.pokeAllowed address length := s.rangePasses_taking q address length _

theorem State.peekAllowed_iff (s : State) (address length : Nat) : s.peekAllowed address length = true ↔
    ∀ i < length, ∃ r, s.regionAt (address + i) = some r ∧ (s.frameMemory.map.region r).peekAllowed = true :=
  s.rangePasses_iff address length _

/-- POKE reaches no byte of TABLES, and bytes of STRIPS and OUTPUT in PARKED alone. -/
theorem State.pokeAllowed_iff (s : State) (address length : Nat) : s.pokeAllowed address length = true ↔
    ∀ i < length, ∃ r, s.regionAt (address + i) = some r ∧ r ≠ .tables
      ∧ (s.frameMemory.map.region r).pokeAllowed = true ∧ (r = .spare ∨ s.mgmt.mode = .parked) := by
  unfold State.pokeAllowed
  rw [State.rangePasses_iff]
  refine forall_congr' fun i => forall_congr' fun _ => exists_congr fun r => and_congr_right fun _ => ?_
  cases r <;> simp [RegionMap.region]

/-- One byte that lies in no region, or in a region that is not peek-allowed, fences a PEEK. -/
theorem State.peekAllowed_eq_false {s : State} {address length i : Nat} (hi : i < length)
    (h : ∀ r, s.regionAt (address + i) = some r → (s.frameMemory.map.region r).peekAllowed = false) :
    s.peekAllowed address length = false := by
  rw [← Bool.not_eq_true, State.peekAllowed_iff]
  intro hall
  obtain ⟨r, hregion, hflag⟩ := hall i hi
  exact absurd hflag (Bool.eq_false_iff.1 (h r hregion))

/-- One byte that lies in no region, or in a region that refuses POKE in the mode in force, fences a POKE. -/
theorem State.pokeAllowed_eq_false {s : State} {address length i : Nat} (hi : i < length)
    (h : ∀ r, s.regionAt (address + i) = some r → r = .tables ∨ (s.frameMemory.map.region r).pokeAllowed = false
      ∨ (r ≠ .spare ∧ s.mgmt.mode ≠ .parked)) : s.pokeAllowed address length = false := by
  rw [← Bool.not_eq_true, State.pokeAllowed_iff]
  intro hall
  obtain ⟨r, hregion, htables, hflag, hmode⟩ := hall i hi
  rcases h r hregion with hr | hr | ⟨hspare, hparked⟩
  · exact htables hr
  · exact absurd hflag (Bool.eq_false_iff.1 hr)
  · exact hmode.elim hspare hparked

/-- What a management access leaves when it is taken, `allowed` being the outcome of its region, flag and mode checks: its
refusal, or itself waiting for its burst (R174, R186). -/
def State.accessTaken (s : State) (q : QueuedRequest) (address length : Nat) (allowed : Bool) : State :=
  if accessForm address length = false then
    s.withResponse (plainResponse q.corr (requestKindCode q.request) .badValue)
  else if allowed = false then s.withResponse (plainResponse q.corr (requestKindCode q.request) .fenced)
  else s.withWaiting q .managementBurst

section
variable {s : State} {q : QueuedRequest} {address length : Nat} {allowed : Bool}

theorem State.accessTaken_of_form (h : accessForm address length = false) : s.accessTaken q address length allowed
    = s.withResponse (plainResponse q.corr (requestKindCode q.request) .badValue) := if_pos h

theorem State.accessTaken_of_fenced (h : accessForm address length = true) (ha : allowed = false) :
    s.accessTaken q address length allowed
      = s.withResponse (plainResponse q.corr (requestKindCode q.request) .fenced) := by
  simp [State.accessTaken, h, ha]

theorem State.accessTaken_of_allowed (h : accessForm address length = true) (ha : allowed = true) :
    s.accessTaken q address length allowed = s.withWaiting q .managementBurst := by
  simp [State.accessTaken, h, ha]

end

/-- A request that finds the queue empty and is taken by the checks of a management access: PEEK and POKE differ in what is
allowed alone. -/
theorem State.request_accesses {s : State} (h : s.Admits) (corr : Byte) {r : Request} (hf : requestFits r = true)
    {address length : Nat} {allowed : Bool}
    (ht : (s.taking { corr := corr, request := r }).takeRequest { corr := corr, request := r }
      = if !accessForm address length then
          ((s.taking { corr := corr, request := r }).answer { corr := corr, request := r } .badValue, .nothing)
        else if !allowed then
          ((s.taking { corr := corr, request := r }).answer { corr := corr, request := r } .fenced, .nothing)
        else (s.taking { corr := corr, request := r }, .managementBurst)) :
    s.request corr r = (s.accessTaken { corr := corr, request := r } address length allowed).chooseFrame := by
  cases hform : accessForm address length with
  | false =>
    rw [hform] at ht
    rw [State.accessTaken_of_form hform]
    exact State.request_refused h corr hf ht
  | true =>
    rw [hform] at ht
    cases allowed with
    | false =>
      rw [State.accessTaken_of_fenced hform rfl]
      exact State.request_refused h corr hf ht
    | true =>
      rw [State.accessTaken_of_allowed hform rfl]
      exact State.request_waits h corr hf (by decide) ht

theorem exec_peek_eq (corr : Byte) (address : Word) (n : Half) (s : State) :
    exec (.peek corr address n) s = .next (s.request corr (.peek address n)) := rfl

theorem exec_poke_eq (corr : Byte) (address : Word) (n : Half) (bytes : List Byte) (s : State) :
    exec (.poke corr address n bytes) s = .next (s.request corr (.poke address n bytes)) := rfl

theorem exec_peek {s : State} (h : s.Admits) (corr : Byte) (address : Word) (n : Half) :
    exec (.peek corr address n) s = .next (s.accessTaken { corr := corr, request := .peek address n }
      address.toNat n.toNat (s.peekAllowed address.toNat n.toNat)).chooseFrame := by
  rw [exec_peek_eq, State.request_accesses h corr (r := .peek address n) rfl rfl, State.peekAllowed_taking]

theorem exec_poke {s : State} (h : s.Admits) (corr : Byte) (address : Word) {n : Half} {bytes : List Byte}
    (hlen : bytes.length = n.toNat) :
    exec (.poke corr address n bytes) s = .next (s.accessTaken { corr := corr, request := .poke address n bytes }
      address.toNat n.toNat (s.pokeAllowed address.toNat n.toNat)).chooseFrame := by
  have hfits : requestFits (.poke address n bytes) = true := decide_eq_true hlen
  rw [exec_poke_eq, State.request_accesses h corr hfits rfl, State.pokeAllowed_taking]

/-! ### PEEK and POKE up to their answers (R174, R186) -/

/-- The bytes a PEEK reads are not changed by the choice of a frame. -/
theorem State.bytesAt_chooseFrame (s : State) (address count : Nat) :
    s.chooseFrame.bytesAt address count = s.bytesAt address count := by
  unfold State.bytesAt State.byteAt
  rw [State.chooseFrame_mem, State.chooseFrame_powerOns]

/-- What is left once the head has been answered: frame memory as it was, the queue empty, and the RESPONSE the last of the
reports. -/
theorem State.headAnswered_spec (s : State) (x : Response) :
    let t := (s.headGone.withResponse x).chooseFrame
    t.mem = s.mem ∧ t.mgmt.requests = [] ∧ t.reportsHeld = s.reportsHeld ++ [.response x] := by
  dsimp only
  rw [State.chooseFrame_mem, State.chooseFrame_requests, State.reportsHeld_chooseFrame]
  exact ⟨rfl, rfl, State.reportsHeld_withResponse _ _⟩

section
variable {s : State} (h : s.Admits) (hr : s.mgmt.reserved = 0) (corr : Byte) (address : Word) (n : Half)
include h hr

/-- The burst that follows a PEEK answers it with the bytes that stood when it was taken. -/
theorem burst_after_peek : ∃ u, exec (.burstEnd [.management])
      (s.withWaiting { corr := corr, request := .peek address n } .managementBurst).chooseFrame = .next u
    ∧ u.mem = s.mem ∧ u.mgmt.requests = []
    ∧ u.reportsHeld = s.reportsHeld ++ [.response (doneResponse corr 16 (s.bytesAt address.toNat n.toNat))] := by
  have w := State.leftWaiting h hr { corr := corr, request := .peek address n } .managementBurst
  have hburst := exec_burstEnd_peek w.up w.reserved w.requests w.headWait
  rw [State.bytesAt_chooseFrame] at hburst
  obtain ⟨hmem, hrequests, hreports⟩ := State.headAnswered_spec
    (s.withWaiting { corr := corr, request := .peek address n } .managementBurst).chooseFrame
    (doneResponse corr 16 (s.bytesAt address.toNat n.toNat))
  exact ⟨_, hburst, hmem.trans w.mem, hrequests, w.reports ▸ hreports⟩

/-- The burst that follows a POKE has written its bytes and answers it. -/
theorem burst_after_poke (bytes : List Byte) : ∃ u, exec (.burstEnd [.management])
      (s.withWaiting { corr := corr, request := .poke address n bytes } .managementBurst).chooseFrame = .next u
    ∧ u.mem = Memory.writeBytes s.mem address.toNat bytes ∧ u.mgmt.requests = []
    ∧ u.reportsHeld = s.reportsHeld ++ [.response (doneResponse corr 17 [])] := by
  have w := State.leftWaiting h hr { corr := corr, request := .poke address n bytes } .managementBurst
  have hburst := exec_burstEnd_poke w.up w.reserved w.requests w.headWait
  obtain ⟨hmem, hrequests, hreports⟩ := State.headAnswered_spec (State.writeBytes
    (s.withWaiting { corr := corr, request := .poke address n bytes } .managementBurst).chooseFrame address.toNat bytes)
    (doneResponse corr 17 [])
  rw [State.writeBytes_mem, w.mem] at hmem
  exact ⟨_, hburst, hmem, hrequests, hreports.trans (congrArg (· ++ _) w.reports)⟩

end

/-- Settles O59: the form, a byte in no region, a byte in a region that refuses the access, and each wait with its burst. -/
theorem peekAndPoke : Obligations.PeekAndPoke := by
  unfold Obligations.PeekAndPoke
  intro s corr address n bytes h hr hlen reply
  rw [exec_peek h, exec_poke h corr address hlen]
  refine ⟨fun hbad => ?_, fun hmin hmax hstep halign => ?_⟩
  · have hform : accessForm address.toNat n.toNat = false := by
      rw [← Bool.not_eq_true, accessForm_iff]
      omega
    rw [State.accessTaken_of_form hform, State.accessTaken_of_form hform]
    exact ⟨rfl, rfl⟩
  have hform := (accessForm_iff address.toNat n.toNat).2 ⟨hmin, hmax, hstep, halign⟩
  refine ⟨fun i hi hnone => ?_, fun i hi r hregion => ⟨fun hflag => ?_, fun hrefused => ?_⟩,
    fun hall => ⟨?_, burst_after_peek h hr corr address n⟩, fun hall => ⟨?_, burst_after_poke h hr corr address n bytes⟩⟩
  · have hnowhere : ∀ r, s.regionAt (address.toNat + i) ≠ some r := by simp [hnone]
    rw [State.accessTaken_of_fenced hform (State.peekAllowed_eq_false hi fun r hin => absurd hin (hnowhere r)),
      State.accessTaken_of_fenced hform (State.pokeAllowed_eq_false hi fun r hin => absurd hin (hnowhere r))]
    exact ⟨rfl, rfl⟩
  · rw [State.accessTaken_of_fenced hform (State.peekAllowed_eq_false hi fun x hx =>
      Option.some.inj (hregion.symm.trans hx) ▸ hflag)]
    rfl
  · rw [State.accessTaken_of_fenced hform (State.pokeAllowed_eq_false hi fun x hx =>
      Option.some.inj (hregion.symm.trans hx) ▸ hrefused)]
    rfl
  · rw [State.accessTaken_of_allowed hform ((s.peekAllowed_iff _ _).2 hall)]
  · rw [State.accessTaken_of_allowed hform ((s.pokeAllowed_iff _ _).2 hall)]

end Sys2Proof.Machine
end

section
/-! The admission of a REQUEST that finds no response place or a full queue (O44), RUN and PARK (O45), and SETTINGS (O46). -/

namespace Sys2Proof.Machine

/-! ### Admission without a place, and to a full queue (R185, R187) -/

theorem State.reservePlace_of_noPlace {s : State} (hp : 16 ≤ s.responsesHeld) : s.reservePlace = none :=
  if_neg (Nat.not_lt.2 hp)

theorem State.admitAtOnce_of_noPlace {s : State} (hp : 16 ≤ s.responsesHeld) (reply : State → Response) :
    s.admitAtOnce reply = s.withBadExchange := by
  unfold State.admitAtOnce
  rw [State.reservePlace_of_noPlace hp]
  rfl

theorem State.admitRequest_of_noPlace {s : State} (hp : 16 ≤ s.responsesHeld) (q : QueuedRequest) :
    s.admitRequest q = s.withBadExchange := by
  unfold State.admitRequest
  rw [State.reservePlace_of_noPlace hp]
  rfl

/-- The place reserved for a request that finds the queue full goes to its answer. -/
theorem State.admitRequest_of_full {s : State} (hup : s.links.exchange.up = true) (hp : s.responsesHeld < 16)
    (hq : 4 ≤ s.mgmt.requests.length) {q : QueuedRequest} (hf : requestFits q.request = true) :
    s.admitRequest q = s.withResponse (plainResponse q.corr (requestKindCode q.request) .full) := by
  have hplace : s.reservePlace = some { s with mgmt := { s.mgmt with reserved := s.mgmt.reserved + 1 } } := if_pos hp
  unfold State.admitRequest
  rw [hplace, hf]
  exact (if_neg Bool.false_ne_true).trans ((if_pos hq).trans (if_pos hup))

/-- What a command that is a REQUEST does: one of a queued kind is admitted to the queue; any other, STATUS, ITEM and a
request that is none, is admitted to be answered at once (R185). -/
theorem exec_of_requestBytes {i : Instr} {corr kind : Byte} {fields : List Byte} (hwf : i.wf = true)
    (h : requestBytes i = some (corr, kind, fields)) :
    (∃ r, requestKindCode r = kind ∧ requestFits r = true ∧ ∀ s, exec i s = .next (s.request corr r))
    ∨ ((fieldsFit kind fields = true → kind ≠ 1 → kind = 2)
        ∧ ∃ reply, ∀ s, exec i s = .next (s.receive .exchange fun s => s.admitAtOnce reply)) := by
  cases i with
  | status => cases h; exact .inr ⟨fun _ h1 => absurd rfl h1, _, fun _ => rfl⟩
  | item => cases h; exact .inr ⟨fun _ _ => rfl, _, fun _ => rfl⟩
  | requestUnknownKind c k f =>
    cases h
    have hunfit : fieldsFit kind fields = false := by
      simpa using (Bool.and_eq_true_iff.1 hwf).1
    refine .inr ⟨fun hfit => absurd hfit (Bool.eq_false_iff.1 hunfit),
      fun _ => plainResponse corr kind .badValue, fun s => ?_⟩
    change Host.Outcome.next (s.receive .exchange fun s => if fieldsFit kind fields then s else _) = _
    rw [hunfit]
    rfl
  | run => cases h; exact .inl ⟨.run, rfl, rfl, fun _ => rfl⟩
  | park => cases h; exact .inl ⟨.park, rfl, rfl, fun _ => rfl⟩
  | settings _ v => cases h; exact .inl ⟨.settings v, rfl, rfl, fun _ => rfl⟩
  | regions _ v => cases h; exact .inl ⟨.regions v, rfl, rfl, fun _ => rfl⟩
  | loadOpen _ set n => cases h; exact .inl ⟨.loadOpen set n, rfl, rfl, fun _ => rfl⟩
  | loadData _ offset words => cases h; exact .inl ⟨.loadData offset words, rfl, rfl, fun _ => rfl⟩
  | loadClose _ check => cases h; exact .inl ⟨.loadClose check, rfl, rfl, fun _ => rfl⟩
  | loadAbandon => cases h; exact .inl ⟨.loadAbandon, rfl, rfl, fun _ => rfl⟩
  | activate _ set => cases h; exact .inl ⟨.activate set, rfl, rfl, fun _ => rfl⟩
  | erase _ set => cases h; exact .inl ⟨.erase set, rfl, rfl, fun _ => rfl⟩
  | release _ tag form => cases h; exact .inl ⟨.release tag form, rfl, rfl, fun _ => rfl⟩
  | releaseThrough _ tag => cases h; exact .inl ⟨.release tag 1, rfl, rfl, fun _ => rfl⟩
  | withdraw _ tag => cases h; exact .inl ⟨.withdraw tag, rfl, rfl, fun _ => rfl⟩
  | rerender _ tag profile => cases h; exact .inl ⟨.rerender tag profile, rfl, rfl, fun _ => rfl⟩
  | peek _ address n => cases h; exact .inl ⟨.peek address n, rfl, rfl, fun _ => rfl⟩
  | poke _ address n bytes =>
    cases h
    exact .inl ⟨.poke address n bytes, rfl, (Bool.and_eq_true_iff.1 hwf).1, fun _ => rfl⟩
  | resetEngine => cases h; exact .inl ⟨.resetEngine, rfl, rfl, fun _ => rfl⟩
  | _ => cases h

/-- Settles O44: neither way of admission has an effect without a place, and a queued kind finds the queue full. -/
theorem requestNotQueued : Obligations.RequestNotQueued := by
  unfold Obligations.RequestNotQueued
  intro s i corr kind fields hup hwf hi
  have received : ∀ f : State → State, s.receive .exchange f = (f s).chooseFrame := State.receive_up hup
  rcases exec_of_requestBytes hwf hi with ⟨r, rfl, hfits, hexec⟩ | ⟨hkind, reply, hexec⟩
  · rw [hexec]
    unfold State.request
    rw [received]
    refine ⟨fun hp => ?_, fun hp hq _ _ _ => ?_⟩
    · rw [State.admitRequest_of_noPlace hp]
    · rw [State.admitRequest_of_full hup hp hq hfits]
      rfl
  · rw [hexec, received]
    refine ⟨fun hp => ?_, fun _ _ hfit h1 h2 => absurd (hkind hfit h1) h2⟩
    rw [State.admitAtOnce_of_noPlace hp]

/-! ### Requests with an effect outside the queue -/

/-- A request that finds the queue empty and is answered after an effect that is none on the queue: `u` is the state with
that effect alone (R186). -/
theorem State.request_effects {s u : State} (h : s.Admits) (corr : Byte) {r : Request} (hf : requestFits r = true)
    {x : Response} (hl : u.links = s.links) (hm : u.mgmt.reserved = s.mgmt.reserved)
    (hq : u.mgmt.requests = s.mgmt.requests) (hw : u.mgmt.headWait = s.mgmt.headWait)
    (ht : (s.taking { corr := corr, request := r }).takeRequest { corr := corr, request := r }
      = ((u.taking { corr := corr, request := r }).respond x, .nothing)) :
    s.request corr r = (u.withResponse x).chooseFrame := by
  rw [State.request_respond h corr hf ht hl (congrArg (· + 1) hm) rfl]
  have hrest : ({ u with mgmt := { u.mgmt with
      reserved := s.mgmt.reserved, requests := [], headWait := .nothing } } : State) = u := by
    rw [← hm, ← h.requests, ← h.headWait, ← hq, ← hw]
  exact congrArg (fun t : State => (t.withResponse x).chooseFrame) hrest

/-- A request whose effect is a mode change with its EVENT MODE, answered DONE (R177). -/
theorem State.request_changesMode {s : State} (h : s.Admits) (hevents : s.eventsHeld < 32) (corr : Byte) {r : Request}
    (hf : requestFits r = true) {m : Mode} {c : ModeCause}
    (ht : (s.taking { corr := corr, request := r }).takeRequest { corr := corr, request := r }
      = (((s.taking { corr := corr, request := r }).changeMode m c).answer { corr := corr, request := r } .done, .nothing)) :
    s.request corr r = (State.withResponse
      (State.withEvent { s with mgmt := { s.mgmt with mode := m } } (.modeChange s.mgmt.mode m c))
      (plainResponse corr (requestKindCode r) .done)).chooseFrame := by
  have hroom : (s.taking { corr := corr, request := r }).EventRoom := ⟨h.up, hevents⟩
  rw [State.changeMode_of_room hroom] at ht
  exact State.request_effects h corr hf rfl rfl rfl rfl ht

/-! ### RUN (R178) -/

theorem exec_run (corr : Byte) (s : State) : exec (.run corr) s = .next (s.request corr .run) := rfl

section
variable {s : State} (q : QueuedRequest)

theorem State.takeRun_wrongMode (hm : s.mgmt.mode ≠ .parked) : s.takeRun q = s.answer q .wrongMode := if_pos hm

theorem State.takeRun_wrongState (hm : s.mgmt.mode = .parked) (h : s.sets.active = none ∨ s.links.track.up = false) :
    s.takeRun q = s.answer q .wrongState := by
  refine (if_neg (not_not_intro hm)).trans ?_
  rcases h with hactive | hdown
  · exact if_pos hactive
  · have hlink : (!s.linkUp .track) = true := congrArg (!·) hdown
    rw [if_pos hlink, ite_self]

theorem State.takeRun_done (hm : s.mgmt.mode = .parked) (ha : s.sets.active ≠ none) (hup : s.links.track.up = true) :
    s.takeRun q = (s.changeMode .running .run).answer q .done := by
  have hlink : (!s.linkUp .track) = false := congrArg (!·) hup
  exact (if_neg (not_not_intro hm)).trans ((if_neg ha).trans (if_neg (Bool.eq_false_iff.1 hlink)))

end

/-! ### PARK (R182) -/

theorem exec_park (corr : Byte) (s : State) : exec (.park corr) s = .next (s.request corr .park) := rfl

theorem State.atRest_iff (s : State) : s.atRest = true ↔ ∀ it ∈ s.table.items, it.state = .retained := by
  unfold State.atRest
  simp only [List.all_eq_true, decide_eq_true_eq]

section
variable {s : State} (q : QueuedRequest)

theorem State.takePark_parked (hm : s.mgmt.mode = .parked) : s.takePark q = s.answer q .done := if_pos hm

theorem State.takePark_busy (hm : s.mgmt.mode ≠ .parked) {it : Item} (hit : it ∈ s.table.items)
    (hs : it.state ≠ .retained) : s.takePark q = s.answer q .busy := by
  have hrest : s.atRest = false := Bool.eq_false_iff.2 fun h => hs (s.atRest_iff.1 h it hit)
  unfold State.takePark
  rw [if_neg hm, hrest]
  rfl

/-- With no activation pending the mode alone changes (R80). -/
theorem State.takePark_done (hm : s.mgmt.mode ≠ .parked) (hrest : ∀ it ∈ s.table.items, it.state = .retained)
    (hnone : s.sets.pendingActivation = none) : s.takePark q = (s.changeMode .parked .park).answer q .done := by
  have happlied : s.applyPending = s := by
    unfold State.applyPending
    rw [hnone]
  unfold State.takePark
  rw [if_neg hm, s.atRest_iff.2 hrest, happlied]
  rfl

end

/-- Settles O45: RUN outside PARKED, without what it needs, and with it; PARK in PARKED, with an item in flight, and at
rest. -/
theorem runAndPark : Obligations.RunAndPark := by
  unfold Obligations.RunAndPark
  intro s corr h hevents reply
  let run : QueuedRequest := { corr := corr, request := .run }
  let park : QueuedRequest := { corr := corr, request := .park }
  refine ⟨fun hm => ?_, fun hm hlacks => ?_, fun n hm ha hup => ?_, fun hm => ?_, fun it hit hm hs => ?_,
    fun hm hrest hnone => ?_⟩
  · rw [exec_run, State.request_refused h corr (r := .run) rfl
      (Prod.ext (State.takeRun_wrongMode (s := s.taking run) run hm) rfl)]
    rfl
  · rw [exec_run, State.request_refused h corr (r := .run) rfl
      (Prod.ext (State.takeRun_wrongState (s := s.taking run) run hm hlacks) rfl)]
    rfl
  · have hactive : (s.taking run).sets.active ≠ none := Option.ne_none_iff_exists'.2 ⟨n, ha⟩
    rw [exec_run, State.request_changesMode h hevents corr (r := .run) rfl
      (Prod.ext (State.takeRun_done (s := s.taking run) run hm hactive hup) rfl), hm]
    rfl
  · rw [exec_park, State.request_refused h corr (r := .park) rfl
      (Prod.ext (State.takePark_parked (s := s.taking park) park hm) rfl)]
    rfl
  · rw [exec_park, State.request_refused h corr (r := .park) rfl
      (Prod.ext (State.takePark_busy (s := s.taking park) park hm hit hs) rfl)]
    rfl
  · rw [exec_park, State.request_changesMode h hevents corr (r := .park) rfl
      (Prod.ext (State.takePark_done (s := s.taking park) park hm hrest hnone) rfl)]
    rfl

/-! ### The ranges and steps of the settings (R183, R184) -/

theorem onStep_iff (v lo hi step : Nat) : onStep v lo hi step = true ↔ lo ≤ v ∧ v ≤ hi ∧ (v - lo) % step = 0 := by
  simp [onStep, and_assoc]

/-- The line width is the first of the settings, so its failure is the one named. -/
theorem settingsRangeFailure_of_lineWidth {v : RunSettings} (h : onStep v.lineWidth.toNat 64 1024 16 = false) :
    settingsRangeFailure v = some 0 := by
  unfold settingsRangeFailure settingsTests
  rw [h]
  rfl

theorem settingsRangeFailure_eq_none_iff (v : RunSettings) :
    settingsRangeFailure v = none ↔ ∀ passes ∈ settingsTests v, passes = true := by
  unfold settingsRangeFailure
  rw [List.findIdx?_eq_none_iff]
  simp only [beq_eq_false_iff_ne, ne_eq, Bool.not_eq_false]

/-! ### SETTINGS (R184) -/

theorem exec_settings (corr : Byte) (v : RunSettings) (s : State) :
    exec (.settings corr v) s = .next (s.request corr (.settings v)) := rfl

section
variable {s : State} {v : RunSettings} (q : QueuedRequest)

theorem State.takeSettings_wrongMode (hm : s.mgmt.mode ≠ .parked) : s.takeSettings q v = s.answer q .wrongMode :=
  if_pos hm

theorem State.takeSettings_of_failure (hm : s.mgmt.mode = .parked) {place : Nat}
    (hv : settingsRangeFailure v = some place) :
    s.takeSettings q v = s.answerDetail q .badValue (BitVec.ofNat 8 (32 + place)) (0, 0, 0) := by
  unfold State.takeSettings
  rw [if_neg (not_not_intro hm), hv]

/-- The checks that follow the ranges, in their order. -/
theorem State.takeSettings_of_range (hm : s.mgmt.mode = .parked) (hv : settingsRangeFailure v = none) :
    s.takeSettings q v =
      if s.frameMemory.map.blockCount ≤ v.rerenderReserve.toNat then s.answerDetail q .badValue 39 (0, 0, 0)
      else if (v.lineWidth ≠ s.mgmt.settings.lineWidth ∨ v.maxSideLength ≠ s.mgmt.settings.maxSideLength)
          ∧ s.table.items ≠ [] then s.answer q .wrongState
      else State.answer { s with mgmt := { s.mgmt with settings := v } } q .done := by
  unfold State.takeSettings
  rw [if_neg (not_not_intro hm), hv]

end

/-- Settles O46: the mode, the line width, the reserve, the items, and the ten values in force. -/
theorem settingsTaken : Obligations.SettingsTaken := by
  unfold Obligations.SettingsTaken
  intro s corr v h reply
  let q : QueuedRequest := { corr := corr, request := .settings v }
  refine ⟨fun hm => ?_, fun hm hwidth => ?_,
    fun hm hw1 hw2 hw3 hrear ht1 ht2 hl1 hl2 hl3 hadvice hreserve hdark hstreak => ?_⟩
  · rw [exec_settings, State.request_refused h corr (r := q.request) rfl
      (Prod.ext (State.takeSettings_wrongMode (s := s.taking q) q hm) rfl)]
    rfl
  · have hoff : onStep v.lineWidth.toNat 64 1024 16 = false := by
      rw [← Bool.not_eq_true, onStep_iff]
      omega
    rw [exec_settings, State.request_refused h corr (r := q.request) rfl
      (Prod.ext (State.takeSettings_of_failure (s := s.taking q) q hm (settingsRangeFailure_of_lineWidth hoff)) rfl)]
    rfl
  have hv : settingsRangeFailure v = none := by
    have hwidth := (onStep_iff v.lineWidth.toNat 64 1024 16).2 ⟨hw1, hw2, by omega⟩
    have htolerance := (onStep_iff v.windowTolerance.toNat 4 255 1).2 ⟨ht1, ht2, Nat.mod_one _⟩
    have hlength := (onStep_iff v.maxSideLength.toNat 256 2560 32).2 ⟨hl1, hl2, by omega⟩
    rw [settingsRangeFailure_eq_none_iff]
    simp [settingsTests, hwidth, hrear, htolerance, hlength, hadvice, hreserve, hdark, hstreak]
  have htake := State.takeSettings_of_range (s := s.taking q) q hm hv
  refine ⟨fun hblocks => ?_, fun hblocks => ⟨fun hitems hwidth => ?_, fun hkept => ?_⟩⟩
  · rw [exec_settings, State.request_refused h corr (r := q.request) rfl (Prod.ext (htake.trans (if_pos hblocks)) rfl)]
    rfl
  · have hwrong := htake.trans ((if_neg (Nat.not_le.2 hblocks)).trans (if_pos ⟨.inl hwidth, hitems⟩))
    rw [exec_settings, State.request_refused h corr (r := q.request) rfl (Prod.ext hwrong rfl)]
    rfl
  · have hmay : ¬ ((v.lineWidth ≠ s.mgmt.settings.lineWidth ∨ v.maxSideLength ≠ s.mgmt.settings.maxSideLength)
        ∧ s.table.items ≠ []) := fun ⟨hchanged, hitems⟩ =>
      hkept.elim hitems fun ⟨hwidth, hlength⟩ => hchanged.elim (· hwidth) (· hlength)
    have hdone := htake.trans ((if_neg (Nat.not_le.2 hblocks)).trans (if_neg hmay))
    rw [exec_settings, State.request_effects (u := { s with mgmt := { s.mgmt with settings := v } }) h corr
      (r := q.request) rfl rfl rfl rfl rfl (Prod.ext hdone rfl)]
    rfl

end Sys2Proof.Machine
end

section
/-! The characters of a lane: how a frame's characters are read (R197), and every frame read back as the command it is
(O4). -/

namespace Sys2Proof.Machine

@[simp] theorem payloadLimit_eq : payloadLimit = 1035 := rfl

/-! ### The bytes of a frame judged (R197) -/

theorem judgeFrame_spoiled (bytes : List Byte) : judgeFrame bytes true = .bad := rfl

/-- Too few bytes, too many, or a check that does not match. -/
theorem judgeFrame_of_unfit {bytes : List Byte} (h : bytes.length < 5 ∨ 1040 < bytes.length
    ∨ bytes.drop (bytes.length - 4) ≠ wordBytes (checkOf (bytes.take (bytes.length - 4)))) (spoiled : Bool) :
    judgeFrame bytes spoiled = .bad := by
  unfold judgeFrame
  rcases h with hshort | hlong | hcheck
  · rw [if_pos (by simp [hshort])]
  · rw [if_pos (by simp [Config.frameBytes, hlong])]
  · dsimp only
    rw [if_neg hcheck, ite_self]

/-- The kind, the payload and the check that a sender puts after them are a good frame. -/
theorem judgeFrame_frameBytesOf {payload : List Byte} (h : payload.length ≤ payloadLimit) (kind : Byte) :
    judgeFrame (frameBytesOf kind payload) false = .good kind payload := by
  have hlength : (frameBytesOf kind payload).length = (kind :: payload).length + 4 := by
    simp [frameBytesOf]
  have hsize : ¬ ((false || decide ((frameBytesOf kind payload).length < 5)
      || decide (Config.frameBytes < (frameBytesOf kind payload).length)) = true) := by
    have hlimit : payload.length ≤ 1035 := h
    simp only [hlength, List.length_cons, Config.frameBytes, Bool.false_or, Bool.or_eq_true, decide_eq_true_eq]
    omega
  have hbody : (frameBytesOf kind payload).take ((frameBytesOf kind payload).length - 4) = kind :: payload := by
    rw [hlength, Nat.add_sub_cancel]
    exact List.take_left
  have hcheck : (frameBytesOf kind payload).drop ((frameBytesOf kind payload).length - 4)
      = wordBytes (checkOf (kind :: payload)) := by
    rw [hlength, Nat.add_sub_cancel]
    exact List.drop_left
  unfold judgeFrame
  rw [if_neg hsize]
  dsimp only
  rw [hbody, if_pos hcheck]

/-! ### The characters of a frame read (R195, R197) -/

/-- Data characters are stored in their order, and end a row of code errors. -/
theorem receiveChars_data (bytes : List Byte) (rest : List LaneChar) (stored : List Byte) (spoiled : Bool) (n : Nat) :
    receiveChars (bytes.map .data ++ rest) stored spoiled n
      = receiveChars rest (stored ++ bytes) spoiled (if bytes = [] then n else 0) := by
  induction bytes generalizing stored n with
  | nil => simp
  | cons b bytes ih =>
    change receiveChars (bytes.map .data ++ rest) (stored ++ [b]) spoiled 0 = _
    rw [ih]
    simp

/-- Data characters after the START. -/
theorem receiveFrame_data (bytes : List Byte) (rest : List LaneChar) :
    receiveFrame (bytes.map .data ++ rest) = receiveChars rest bytes false 0 := by
  unfold receiveFrame
  rw [receiveChars_data, ite_self, List.nil_append]

theorem receiveFrame_end (bytes : List Byte) (rest : List LaneChar) :
    receiveFrame (bytes.map .data ++ .endOfFrame :: rest) = judgeFrame bytes false := receiveFrame_data bytes _

theorem receiveFrame_start (bytes : List Byte) (rest : List LaneChar) :
    receiveFrame (bytes.map .data ++ .start :: rest) = .bad := receiveFrame_data bytes _

theorem receiveFrame_abort (bytes : List Byte) (rest : List LaneChar) :
    receiveFrame (bytes.map .data ++ .abort :: rest) = .dropped := receiveFrame_data bytes _

/-- The fourth code error in a row takes the link DOWN. -/
theorem receiveFrame_fourErrors (bytes : List Byte) (rest : List LaneChar) :
    receiveFrame (bytes.map .data ++ [.codeError, .codeError, .codeError, .codeError] ++ rest) = .dropped := by
  rw [List.append_assoc]
  exact receiveFrame_data bytes _

/-- A single code error spoils the frame, whatever is stored before and after it. -/
theorem receiveFrame_codeError (before bytes : List Byte) (rest : List LaneChar) :
    receiveFrame (before.map .data ++ .codeError :: (bytes.map .data ++ .endOfFrame :: rest)) = .bad := by
  rw [receiveFrame_data]
  change receiveChars (bytes.map .data ++ .endOfFrame :: rest) before true 1 = _
  rw [receiveChars_data]
  exact judgeFrame_spoiled _

/-- What a sender sends after the START is received as the kind and payload it sends (R198). -/
theorem receiveFrame_frameChars {payload : List Byte} (h : payload.length ≤ payloadLimit) (kind : Byte) :
    receiveFrame (frameChars kind payload).tail = .good kind payload := by
  change receiveFrame ((frameBytesOf kind payload).map .data ++ [.endOfFrame]) = _
  rw [receiveFrame_end, judgeFrame_frameBytesOf h]

/-! ### Fields read back (R202) -/

theorem settingsOf_settingsBytes (v : RunSettings) : settingsOf (settingsBytes v) = v := by
  simp [settingsOf, settingsBytes, halfAt, byteAt, halfBytes, halfOf_halfBytes]

theorem regionFieldsOf_regionFieldsBytes (v : RegionFields) : regionFieldsOf (regionFieldsBytes v) = v := by
  simp [regionFieldsOf, regionFieldsBytes, regionFieldBytes, wordAt, byteAt, wordBytes, wordOf_wordBytes]

theorem CodeBlock.status_of_wf {b : CodeBlock} (h : b.wf = true) : b.status.toNat ≤ 2 := by
  unfold CodeBlock.wf at h
  simp only [Bool.and_eq_true, decide_eq_true_eq] at h
  obtain ⟨⟨hstatus, -⟩, -⟩ := h
  exact hstatus

theorem CodeBlock.room_of_wf {b : CodeBlock} (h : b.wf = true) :
    8 + (b.routing.length + b.account.length + b.serial.length + b.tcode.length + b.amount.length) ≤ payloadLimit :=
  of_decide_eq_true (Bool.and_eq_true_iff.1 h).2

theorem codePayload_length (tag : Half) (b : CodeBlock) : (halfBytes tag ++ codeBlockBytes b).length
    = 8 + (b.routing.length + b.account.length + b.serial.length + b.tcode.length + b.amount.length) := by
  simp only [codeBlockBytes, List.length_append, halfBytes_length, List.length_cons, List.length_nil]
  omega

theorem fieldsFit_loadData (f : List Byte) :
    fieldsFit 8 f = (decide (2 ≤ f.length) && decide ((f.length - 2) % 4 = 0)) := rfl

theorem fieldsFit_poke (f : List Byte) :
    fieldsFit 17 f = (decide (6 ≤ f.length) && decide (f.length = 6 + (halfAt f 4).toNat)) := rfl

theorem frameFits_line (p : List Byte) : frameFits .track 1 p = decide (6 ≤ p.length) := rfl

theorem frameFits_code (p : List Byte) : frameFits .track 3 p
    = (decide (8 ≤ p.length) && p.length == 8 + codeCountSum p && decide ((byteAt p 2).toNat ≤ 2)) := rfl

/-- The payload of a CODE frame fits its kind: the counts it names are those of the block (R200). -/
theorem frameFits_codeBlockBytes (tag : Half) {b : CodeBlock} (h : b.wf = true) :
    frameFits .track 3 (halfBytes tag ++ codeBlockBytes b) = true := by
  obtain ⟨h1, h2, h3, h4, h5⟩ := CodeBlock.counts_of_wf h
  have hsum : codeCountSum (halfBytes tag ++ codeBlockBytes b) = b.routing.length + (b.account.length
      + (b.serial.length + (b.tcode.length + b.amount.length))) := by
    simp [codeCountSum, halfBytes, codeBlockBytes, toNat_countByte h1, toNat_countByte h2, toNat_countByte h3,
      toNat_countByte h4, toNat_countByte h5]
  have hstatus : byteAt (halfBytes tag ++ codeBlockBytes b) 2 = b.status := rfl
  rw [frameFits_code, hsum, hstatus, codePayload_length]
  simp only [Bool.and_eq_true, decide_eq_true_eq, beq_iff_eq]
  exact ⟨⟨by omega, by omega⟩, CodeBlock.status_of_wf h⟩

/-- The fields of a REQUEST leave room in a frame for its correlation number and kind code (R197). -/
theorem requestBytes_length {i : Instr} {corr kind : Byte} {fields : List Byte} (hwf : i.wf = true)
    (h : requestBytes i = some (corr, kind, fields)) : 2 + fields.length ≤ payloadLimit := by
  cases i with
  | loadData _ offset words =>
    cases h
    have hlimit : 4 + 4 * words.length ≤ payloadLimit := of_decide_eq_true hwf
    rw [List.length_append, halfBytes_length, flatMap_wordBytes_length]
    omega
  | poke _ address n bytes =>
    cases h
    have hlimit : 8 + bytes.length ≤ payloadLimit := of_decide_eq_true (Bool.and_eq_true_iff.1 hwf).2
    simp only [List.length_append, wordBytes_length, halfBytes_length]
    omega
  | requestUnknownKind =>
    cases h
    exact of_decide_eq_true (Bool.and_eq_true_iff.1 hwf).2
  | _ =>
    cases h <;> simp [settingsBytes, regionFieldsBytes, regionFieldBytes]

/-- A REQUEST is read back from its correlation number, kind code and fields (R185). -/
theorem commandOfRequest_requestBytes {i : Instr} {corr kind : Byte} {fields : List Byte} (hwf : i.wf = true)
    (h : requestBytes i = some (corr, kind, fields)) : commandOfRequest corr kind fields = i := by
  cases i with
  | status | run | park | loadAbandon | activate | erase | resetEngine => cases h; rfl
  | item _ tag => cases h; exact congrArg (Instr.item corr) (halfAt_halfBytes tag [])
  | settings _ v => cases h; exact congrArg (Instr.settings corr) (settingsOf_settingsBytes v)
  | regions _ v => cases h; exact congrArg (Instr.regions corr) (regionFieldsOf_regionFieldsBytes v)
  | loadOpen _ set n => cases h; exact congrArg (Instr.loadOpen corr set) (halfAt_halfBytes n [])
  | loadData _ offset words =>
    cases h
    have hfits : fieldsFit 8 (halfBytes offset ++ words.flatMap wordBytes) = true := by
      rw [fieldsFit_loadData]
      simp
    unfold commandOfRequest
    rw [hfits]
    exact congrArg₂ (Instr.loadData corr) (halfAt_halfBytes offset _) (wordsOf_flatMap words)
  | loadClose _ check => cases h; exact congrArg (Instr.loadClose corr) (wordAt_wordBytes check [])
  | release _ tag form =>
    cases h
    exact (if_neg (bne_iff_ne.1 hwf)).trans (congrArg (Instr.release corr · form) (halfAt_halfBytes tag [form]))
  | releaseThrough _ tag => cases h; exact congrArg (Instr.releaseThrough corr) (halfAt_halfBytes tag [1])
  | withdraw _ tag => cases h; exact congrArg (Instr.withdraw corr) (halfAt_halfBytes tag [])
  | rerender _ tag profile =>
    cases h
    exact congrArg (Instr.rerender corr · profile) (halfAt_halfBytes tag [profile])
  | peek _ address n =>
    cases h
    exact congrArg₂ (Instr.peek corr) (wordAt_wordBytes address (halfBytes n)) (halfAt_halfBytes n [])
  | poke _ address n bytes =>
    cases h
    have hn : bytes.length = n.toNat := of_decide_eq_true (Bool.and_eq_true_iff.1 hwf).1
    have hfits : fieldsFit 17 (wordBytes address ++ halfBytes n ++ bytes) = true := by
      have hcount : halfAt (wordBytes address ++ halfBytes n ++ bytes) 4 = n := halfAt_halfBytes n bytes
      have hlength : (wordBytes address ++ halfBytes n ++ bytes).length = 6 + n.toNat := by
        simp only [List.length_append, wordBytes_length, halfBytes_length, hn]
      rw [fieldsFit_poke, hcount, hlength]
      simp
    unfold commandOfRequest
    rw [hfits]
    exact congrArg₂ (Instr.poke corr · · bytes) (wordAt_wordBytes address _) (halfAt_halfBytes n bytes)
  | requestUnknownKind =>
    cases h
    have hunfit : fieldsFit kind fields = false := by simpa using (Bool.and_eq_true_iff.1 hwf).1
    unfold commandOfRequest
    rw [hunfit]
    rfl
  | _ => cases h

/-- A REQUEST is a frame of kind 17 on the exchange link, its correlation number and kind code before its fields (R200,
R202). -/
theorem frameOf_of_requestBytes {i : Instr} {corr kind : Byte} {fields : List Byte}
    (h : requestBytes i = some (corr, kind, fields)) : frameOf i = some (.exchange, 17, corr :: kind :: fields) := by
  cases i <;> cases h <;> rfl

theorem linePayload_length (camera flag : Byte) (position : Position) (pixels : List Byte) :
    ([camera, flag] ++ wordBytes position ++ pixels).length = 6 + pixels.length := by
  simp only [List.cons_append, List.nil_append, List.length_cons, List.length_append, wordBytes_length]
  omega

theorem commandOfFrame_line (camera flag : Byte) (position : Position) (pixels : List Byte) :
    commandOfFrame .track 1 ([camera, flag] ++ wordBytes position ++ pixels) = .line camera flag position pixels := by
  have hfits : frameFits .track 1 ([camera, flag] ++ wordBytes position ++ pixels) = true := by
    rw [frameFits_line, linePayload_length]
    simp
  unfold commandOfFrame
  rw [hfits]
  exact congrArg (Instr.line camera flag · pixels) (wordAt_wordBytes position pixels)

theorem commandOfFrame_announce (tag : Half) (lead : Position) (n : Half) :
    commandOfFrame .track 2 (halfBytes tag ++ wordBytes lead ++ halfBytes n) = .announce tag lead n := by
  have htag : halfAt (halfBytes tag ++ wordBytes lead ++ halfBytes n) 0 = tag := halfAt_halfBytes tag _
  have hlead : wordAt (halfBytes tag ++ wordBytes lead ++ halfBytes n) 2 = lead := wordAt_wordBytes lead (halfBytes n)
  have hn : halfAt (halfBytes tag ++ wordBytes lead ++ halfBytes n) 6 = n := halfAt_halfBytes n []
  change Instr.announce (halfAt _ 0) (wordAt _ 2) (halfAt _ 6) = _
  rw [htag, hlead, hn]

theorem commandOfFrame_code (tag : Half) {b : CodeBlock} (h : b.wf = true) :
    commandOfFrame .track 3 (halfBytes tag ++ codeBlockBytes b) = .code tag b := by
  unfold commandOfFrame
  rw [frameFits_codeBlockBytes tag h]
  exact congrArg₂ Instr.code (halfAt_halfBytes tag _) (codeBlockOf_codeBlockBytes tag h)

/-- A frame has room for its payload, and is read back from its kind and payload (R197, R200, R202). -/
theorem commandOfFrame_frameOf {i : Instr} {link : Link} {kind : Byte} {payload : List Byte} (hwf : i.wf = true)
    (h : frameOf i = some (link, kind, payload)) :
    payload.length ≤ payloadLimit ∧ commandOfFrame link kind payload = i := by
  cases hr : requestBytes i with
  | some r =>
    obtain ⟨corr, code, fields⟩ := r
    have hframe := frameOf_of_requestBytes hr
    rw [h] at hframe
    cases hframe
    have hroom := requestBytes_length hwf hr
    exact ⟨by rw [List.length_cons, List.length_cons]; omega, commandOfRequest_requestBytes hwf hr⟩
  | none =>
    cases i with
    | frameKindRefused =>
      cases h
      obtain ⟨hunfit, hroom⟩ := Bool.and_eq_true_iff.1 hwf
      exact ⟨of_decide_eq_true hroom, if_pos hunfit⟩
    | line camera flag position pixels =>
      cases h
      exact ⟨linePayload_length camera flag position pixels ▸ of_decide_eq_true hwf,
        commandOfFrame_line camera flag position pixels⟩
    | announce tag lead n => cases h; exact ⟨by simp, commandOfFrame_announce tag lead n⟩
    | code tag b =>
      cases h
      exact ⟨codePayload_length tag b ▸ CodeBlock.room_of_wf hwf, commandOfFrame_code tag hwf⟩
    | batch number => cases h; exact ⟨by simp, congrArg Instr.batch (halfAt_halfBytes number [])⟩
    | halt | resume | credit => cases h; exact ⟨by simp, rfl⟩
    | _ => cases h <;> cases hr

/-- Settles O4: the lane carries the bytes of the frame, which are a good frame, and each layout is read back field by
field. -/
theorem frameRoundTrip : Obligations.FrameRoundTrip := by
  unfold Obligations.FrameRoundTrip
  intro i link kind payload hwf hframe
  obtain ⟨hroom, hread⟩ := commandOfFrame_frameOf hwf hframe
  unfold commandOfChars
  rw [receiveFrame_frameChars hroom]
  exact congrArg some hread

end Sys2Proof.Machine
end

section
/-! Frames that are discarded: those that end badly or do not fit their kind (O11), and those of a link that is DOWN
(O10). -/

namespace Sys2Proof.Machine

/-! ### Frames discarded and counted (R197, R200) -/

theorem exec_badFrame_of_up {s : State} {k : Link} (hup : (s.links.link k).up = true) (received : List LaneChar) :
    exec (.badFrame k received) s
      = .next (if receiveFrame received = .bad then s.countBadFrame k else s).chooseFrame :=
  congrArg Host.Outcome.next (State.receive_up hup _)

theorem exec_badFrame_of_bad {s : State} {k : Link} (hup : (s.links.link k).up = true) {received : List LaneChar}
    (h : receiveFrame received = .bad) : exec (.badFrame k received) s = .next (s.countBadFrame k).chooseFrame := by
  rw [exec_badFrame_of_up hup, if_pos h]

theorem exec_badFrame_of_dropped {s : State} {k : Link} (hup : (s.links.link k).up = true) {received : List LaneChar}
    (h : receiveFrame received = .dropped) : exec (.badFrame k received) s = .next s.chooseFrame := by
  rw [exec_badFrame_of_up hup, h, if_neg FrameEnd.noConfusion]

theorem exec_frameKindRefused_of_unfit {s : State} {k : Link} (hup : (s.links.link k).up = true) {kind : Byte}
    {payload : List Byte} (h : frameFits k kind payload = false) :
    exec (.frameKindRefused k kind payload) s = .next (s.countBadFrame k).chooseFrame := by
  refine congrArg Host.Outcome.next ((State.receive_up hup _).trans ?_)
  rw [h, if_neg Bool.false_ne_true]

/-- The track link lists the kinds 1 to 6 (R200). -/
theorem frameFits_track_of_unlisted {kind : Byte} (h : kind.toNat = 0 ∨ 6 < kind.toNat) (payload : List Byte) :
    frameFits .track kind payload = false := by
  unfold frameFits
  split
  case h_9 => rfl
  case h_7 | h_8 => contradiction
  all_goals omega

/-- The exchange link lists the kinds 16 and 17 (R200). -/
theorem frameFits_exchange_of_unlisted {kind : Byte} (h16 : kind ≠ 16) (h17 : kind ≠ 17) (payload : List Byte) :
    frameFits .exchange kind payload = false := by
  unfold frameFits
  split
  case h_9 => rfl
  case h_7 | h_8 => bv_omega
  all_goals contradiction

/-- A kind that the track link does not list, or a length that does not fit its kind (R200). -/
theorem frameFits_track_eq_false {kind : Byte} {payload : List Byte}
    (h : kind.toNat = 0 ∨ 6 < kind.toNat ∨ (kind = 1 ∧ payload.length < 6) ∨ (kind = 2 ∧ payload.length ≠ 8)
      ∨ (kind = 4 ∧ payload.length ≠ 2) ∨ ((kind = 5 ∨ kind = 6) ∧ payload ≠ [])) :
    frameFits .track kind payload = false := by
  rcases h with hzero | hover | ⟨rfl, hn⟩ | ⟨rfl, hn⟩ | ⟨rfl, hn⟩ | ⟨rfl | rfl, hn⟩
  · exact frameFits_track_of_unlisted (.inl hzero) payload
  · exact frameFits_track_of_unlisted (.inr hover) payload
  · exact decide_eq_false (Nat.not_le.2 hn)
  · exact beq_false_of_ne hn
  · exact beq_false_of_ne hn
  · exact beq_false_of_ne (mt List.length_eq_zero_iff.1 hn)
  · exact beq_false_of_ne (mt List.length_eq_zero_iff.1 hn)

/-- A kind that the exchange link does not list, or a length that does not fit its kind (R200). -/
theorem frameFits_exchange_eq_false {kind : Byte} {payload : List Byte}
    (h : (kind ≠ 16 ∧ kind ≠ 17) ∨ (kind = 16 ∧ payload.length ≠ 1) ∨ (kind = 17 ∧ payload.length < 2)) :
    frameFits .exchange kind payload = false := by
  rcases h with ⟨h16, h17⟩ | ⟨rfl, hn⟩ | ⟨rfl, hn⟩
  · exact frameFits_exchange_of_unlisted h16 h17 payload
  · exact beq_false_of_ne hn
  · exact decide_eq_false (Nat.not_le.2 hn)

/-- Settles O11: each way a frame ends as the receiver judges it, and each payload that fits no kind of its link. -/
theorem badFrames : Obligations.BadFrames := by
  unfold Obligations.BadFrames
  refine ⟨fun s bytes rest => ⟨fun hup => ⟨?_, ?_, ?_, fun before => ?_, fun hunfit => ?_⟩, fun hup => ?_⟩,
    fun s kind payload => ⟨fun hup hunfit => ?_, fun hup hunfit => ?_⟩⟩
  · exact exec_badFrame_of_bad (k := .track) hup (receiveFrame_start bytes rest)
  · exact exec_badFrame_of_dropped (k := .track) hup (receiveFrame_abort bytes rest)
  · exact exec_badFrame_of_dropped (k := .track) hup (receiveFrame_fourErrors bytes rest)
  · exact exec_badFrame_of_bad (k := .track) hup (receiveFrame_codeError before bytes rest)
  · exact exec_badFrame_of_bad (k := .track) hup
      ((receiveFrame_end bytes rest).trans (judgeFrame_of_unfit hunfit false))
  · exact exec_badFrame_of_bad (k := .exchange) hup (receiveFrame_start bytes rest)
  · exact exec_frameKindRefused_of_unfit (k := .track) hup (frameFits_track_eq_false hunfit)
  · exact exec_frameKindRefused_of_unfit (k := .exchange) hup (frameFits_exchange_eq_false hunfit)

/-! ### Frames of a link that is DOWN (R197) -/

/-- A command that is a frame is what its link receives: all it does, it does by `State.receive`. -/
theorem exec_of_frameOf {i : Instr} {k : Link} {kind : Byte} {payload : List Byte}
    (h : frameOf i = some (k, kind, payload)) : ∃ f, ∀ s, exec i s = .next (s.receive k f) := by
  cases i with
  | powerOnReset | receiverLock | receiverUnlock | linkUp | trackLinkDown | exchangeLinkDown | badFrame => cases h
  | windowPassed | classifyDeadline | adviceDeadline | lineWrite | adviceSent => cases h
  | stripRead | frameEnd | trailerEnd | cancelNoticeEnd | summaryEnd | burstEnd | validationEnd => cases h
  | _ => cases h; exact ⟨_, fun _ => rfl⟩

/-- Settles O10: a DOWN link receives nothing, neither a frame of any kind nor a bad one. -/
theorem framesNeedLinkUp : Obligations.FramesNeedLinkUp := by
  unfold Obligations.FramesNeedLinkUp
  refine fun s k hdown => ⟨fun i kind payload hframe => ?_, fun received => ?_⟩
  · obtain ⟨f, hexec⟩ := exec_of_frameOf hframe
    rw [hexec, State.receive_down hdown]
  · exact congrArg Host.Outcome.next (State.receive_down hdown _)

end Sys2Proof.Machine
end

section
/-! The front of the queue (O1), the receivers (O6), and a link that comes UP (O7). -/

namespace Sys2Proof.Machine

/-- Settles O1: a queue with a command at its front is the second case of a step. -/
theorem stepRunsFront : Obligations.StepRunsFront := by
  unfold Obligations.StepRunsFront
  intro c rest s h
  unfold step
  rw [h]

/-! ### The receivers (R195) -/

theorem lockReached_iff (received : List LaneChar) : lockReached received = true
    ↔ 32 ≤ received.length ∧ ∀ c ∈ received.drop (received.length - 32), c ≠ .codeError := by
  unfold lockReached
  simp only [Bool.and_eq_true, decide_eq_true_eq, List.all_eq_true, bne_iff_ne]

theorem unlockReached_iff (received : List LaneChar) : unlockReached received = true
    ↔ 4 ≤ received.length ∧ ∀ c ∈ received.drop (received.length - 4), c = .codeError := by
  unfold unlockReached
  simp only [Bool.and_eq_true, decide_eq_true_eq, List.all_eq_true, beq_iff_eq]

theorem State.dropLink_of_down {s : State} {k : Link} (h : (s.links.link k).up = false) : s.dropLink k = s := by
  cases k with
  | track => exact if_neg (Bool.eq_false_iff.1 h)
  | exchange => exact if_neg (Bool.eq_false_iff.1 h)

/-- The loss of a link leaves its receiver's lock state and the other link (R196). -/
theorem State.dropLink_links (s : State) (k : Link) :
    (s.dropLink k).links = s.links.setLink k { s.links.link k with up := false } := by
  cases hup : (s.links.link k).up with
  | false =>
    rw [State.dropLink_of_down hup, ← hup]
    cases k <;> rfl
  | true =>
    cases k with
    | track => exact (congrArg State.links (if_pos hup)).trans s.loseTrack_keeps.links
    | exchange =>
      exact (congrArg State.links (if_pos hup)).trans
        ((State.finishReset_links s.loseExchange).trans s.loseExchange_keeps.links)

/-- Settles O6: the characters that lock a receiver, and the two ways in which it unlocks and its link is lost. -/
theorem receiverLockAndUnlock : Obligations.ReceiverLockAndUnlock := by
  unfold Obligations.ReceiverLockAndUnlock
  refine fun k received lost s => ⟨fun hunlocked hlength hvalid => ?_, fun hlocked hcause => ?_⟩
  · have hcond : (!(s.links.link k).locked && lockReached received) = true := by
      rw [hunlocked, (lockReached_iff received).2 ⟨hlength, hvalid⟩]
      rfl
    exact congrArg Host.Outcome.next (if_pos hcond)
  · have hcond : ((s.links.link k).locked && (lost || unlockReached received)) = true := by
      rw [hlocked, Bool.true_and, Bool.or_eq_true, unlockReached_iff]
      exact hcause
    refine ⟨_, congrArg Host.Outcome.next (if_pos hcond), ?_⟩
    have hlinks : ((s.setLocked k false).dropLink k).settle.links.link k = { locked := false, up := false } := by
      unfold State.settle State.setLocked
      rw [State.chooseFrame_links, State.dropLink_links, Links.link_setLink, State.setLink_links, Links.link_setLink]
    rw [hlinks]
    exact ⟨rfl, rfl⟩

/-! ### LINK_UP (R196) -/

/-- The condition of LINK_UP. -/
theorem linkUp_condition_iff (l : LinkState) (received : List LaneChar) (sent : Nat) :
    (l.locked && !l.up && received.contains .ready && decide (16 ≤ sent)) = true
      ↔ l.locked = true ∧ l.up = false ∧ .ready ∈ received ∧ 16 ≤ sent := by
  simp only [Bool.and_eq_true, Bool.not_eq_true', List.contains_iff_mem, decide_eq_true_eq, and_assoc]

/-- Settles O7: with its whole condition the link comes UP, and without a part of it nothing changes. -/
theorem linkComesUp : Obligations.LinkComesUp := by
  unfold Obligations.LinkComesUp
  refine fun k received sent s => ⟨fun hlocked hdown hready hsent => ?_, fun hmissing => ?_⟩
  · have hcond := (linkUp_condition_iff (s.links.link k) received sent).2 ⟨hlocked, hdown, hready, hsent⟩
    have hlink : ({ s.links.link k with up := true } : LinkState) = { locked := true, up := true } :=
      congrArg (LinkState.mk · true) hlocked
    rw [← hlink]
    exact congrArg Host.Outcome.next (if_pos hcond)
  · refine congrArg Host.Outcome.next (if_neg fun hcond => ?_)
    obtain ⟨hlocked, -, hready, hsent⟩ := (linkUp_condition_iff _ _ _).1 hcond
    rcases hmissing with hunlocked | hnever | hfew
    · exact Bool.false_ne_true (hunlocked.symm.trans hlocked)
    · exact hnever hready
    · exact Nat.not_le.2 hfew hsent

end Sys2Proof.Machine
end
